-- ==== Sys2Proof/Word.lean ====
section
/-! DEFINITION. The words, byte sequences and data records of the HCE (spec/00_scope.md R10, spec/10_state.md R45 to
R49, spec/60_exceptions.md R286 and R291). -/

namespace Sys2Proof

/-- One byte (a symbol of a file, a byte of ARGMEM or STATMEM). -/
abbrev Byte := BitVec 8
/-- One 32-bit register or command word (R18, R100). -/
abbrev Word := BitVec 32
/-- A 64-bit value: add_time, the ratio, the CRC32 start offset (R41, R63, R213). -/
abbrev Dword := BitVec 64
/-- A byte sequence: the content of a file (R49). -/
abbrev Bytes := List (BitVec 8)
/-- A path or a name: a byte string (R49, R69). -/
abbrev Path := List (BitVec 8)
/-- A bit string in stream order, first bit first (R13, R66). -/
abbrev Bits := List Bool

/-- The command-level error codes of R286. -/
inductive ErrorCode
  | none | notAnArchive | corruptArchive | fileOpenFailed | scratchUnavailable | badCommand | badArgs
  | storageError | blockCorrupt | tooLarge | internal
  deriving DecidableEq, Repr, Inhabited

/-- The per-name status codes of R291. -/
inductive NameStatus
  | none | ok | fileOpenFailed | nameNotFound | nameInvalid | tooLarge | blockCorrupt
  deriving DecidableEq, Repr

/-- A FileEntry (R63), and the entry register E of R47. -/
structure Entry where
  name : Path
  orig : Word
  comp : Word
  time : Dword
  deriving DecidableEq, Repr, Inhabited

/-- What a command hands to its completion step (R294): the error code, the two results, and for LIST_ENTRY the
entry listed (R212). -/
structure Report where
  code    : ErrorCode
  result0 : Word
  result1 : Word
  listing : Option Entry
  deriving DecidableEq, Repr, Inhabited

end Sys2Proof
end

