-- ==== Sys2Proof/Config.lean ====
section
/-! DEFINITION. The implementation parameters of spec/00_scope.md R9 and the free values of the spec
(spec/93_implementation_defined.md): constants with no body, so that no proof can know a value of one. -/

namespace Sys2Proof.Config

/-- BUF_BYTES: the capacity of the input and of the output buffer (R9, R120). -/
def bufBytes : Nat := 16384
/-- ALPHABET: the number of symbols (R9). -/
def alphabet : Nat := 256
/-- HEAP_CAP: the capacity of the heap (R9, R155). -/
def heapCap : Nat := 256
/-- NODE_CAP: the number of nodes of the arena (R9, R165). -/
def nodeCap : Nat := 511
/-- MAX_CODE_LEN: the longest code, in bits (R9, R170). -/
def maxCodeLen : Nat := 64
/-- HDR_FIXED: magic, checksum and file_count (R9, R58). -/
def hdrFixed : Nat := 20
/-- The longest name or path, without its terminator (NAME_FIELD_MAX less one, and PATH_MAX; R9, R63, R106). -/
def nameMax : Nat := 254
/-- MAX_ORIG: the largest original_size accepted (R9, R177). -/
def maxOrig : Nat := 0xFFFFFEBF
/-- The longest file (POS_BITS; R9, R49). -/
def fileMax : Nat := 2 ^ 64 - 1
/-- ARGMEM_BYTES (R9, R38). -/
def argmemBytes : Nat := 65536
/-- The bytes of STATMEM (R39). -/
def statmemBytes : Nat := 4096
/-- MAX_ARGS: names per command (R9, R108). -/
def maxArgs : Nat := 4096
/-- MAGIC: the 12 bytes "MAGIC_NUMBER", with no terminator (R9, R59). -/
def magic : Bytes :=
  [0x4D#8, 0x41#8, 0x47#8, 0x49#8, 0x43#8, 0x5F#8, 0x4E#8, 0x55#8, 0x4D#8, 0x42#8, 0x45#8, 0x52#8]
/-- ID reads this at all times (R9, R22). -/
def idValue : Word := 0x48554646#32
/-- VERSION reads this at all times (R9, R23). -/
def versionValue : Word := 0x00000001#32
/-- The CRC polynomial, reflected (R9, R140). -/
def crcPoly : Word := 0xEDB88320#32
/-- The CRC register's initial value (R9, R141). -/
def crcInit : Word := 0xFFFFFFFF#32
/-- The CRC's final XOR (R9, R144). -/
def crcFinalXor : Word := 0xFFFFFFFF#32

/-- HCE_BASE: the host physical address of window offset 0, the platform's choice (R50, D3, U19; log 23). -/
opaque hceBase : Nat

/-- U1: byte `a` of ARGMEM after the `n`-th reset, until it is written (log 2). -/
opaque freeArg : Nat → Nat → Byte
/-- U5 to U8: a file's content where the spec says any byte sequence (log 8, log 9). -/
opaque freeBytes : Nat → Bytes
/-- U13: what a named file holds (or that it is absent) after a command during which a duty was broken (log 10). -/
opaque freeFile : Nat → Option Bytes
/-- U13: the report of a command during which a duty was broken (log 10). -/
opaque freeReport : Nat → Report
/-- U13: the per-name statuses of a command during which a duty was broken (log 10). -/
opaque freeStatuses : Nat → List NameStatus
/-- U11: what the time port answers beyond the listed answers (log 6). -/
opaque freeNow : Nat → Dword
/-- U2: at which value of the counter of free values STATMEM[i] comes to show its final value during the n-th command (log 11). -/
opaque freeTime : Nat → Nat → Nat
/-- U4: an ARGMEM byte of the LIST_ENTRY output area read while BUSY = 1 (log 12). -/
opaque freeByte : Nat → Byte

end Sys2Proof.Config
end

