-- ==== Sys2Proof/Syntax.lean ====
section
/-! DEFINITION. The commands of the HCE (spec/30_encoding.md R100 to R104, spec/opcode_table.json): the command word's
fields and one constructor for each of the twelve rows. A command word carries no operand. -/

namespace Sys2Proof

/-- The fields of format CMD32 (R100). -/
structure Cmd32 where
  op  : BitVec 8
  all : Bool
  rsv : BitVec 23
  deriving DecidableEq, Repr

/-- The twelve commands (R102). -/
inductive Instr
  | create | append | extract | extractAll | remove | removeAll | verify | info | listEntry
  | encode | decode | crc32
  deriving DecidableEq, Repr

end Sys2Proof
end

