-- ==== Sys2Proof/WellFormed.lean ====
section
/-! DEFINITION. Which terms are well formed: a command word's fields (spec/30_encoding.md R102, R103), a path or name
(spec/30_encoding.md R106, R107), a FileEntry (spec/20_memory.md R63). -/

namespace Sys2Proof

/-- The OP values of R102. -/
def Cmd32.ops : List (BitVec 8) := [0x01, 0x02, 0x03, 0x04, 0x05, 0x06, 0x07, 0x10, 0x11, 0x12]

/-- OP is a value of R102. -/
def Cmd32.opKnown (c : Cmd32) : Bool := Cmd32.ops.contains c.op
/-- The reserved field is 0 (R100, R103). -/
def Cmd32.rsvZero (c : Cmd32) : Bool := c.rsv == 0
/-- ALL = 1 only with the OP of EXTRACT or REMOVE (R100, R103). -/
def Cmd32.allAllowed (c : Cmd32) : Bool := !c.all || c.op == 0x03 || c.op == 0x04

/-- A command word's fields are those of one of the twelve commands (R102, R103). -/
def Cmd32.wf (c : Cmd32) : Bool := c.rsvZero && c.opKnown && c.allAllowed

/-- The fields of each command's word (R102). -/
def Instr.fields : Instr → Cmd32
  | .create     => ⟨0x01, false, 0⟩
  | .append     => ⟨0x02, false, 0⟩
  | .extract    => ⟨0x03, false, 0⟩
  | .extractAll => ⟨0x03, true, 0⟩
  | .remove     => ⟨0x04, false, 0⟩
  | .removeAll  => ⟨0x04, true, 0⟩
  | .verify     => ⟨0x05, false, 0⟩
  | .info       => ⟨0x06, false, 0⟩
  | .listEntry  => ⟨0x07, false, 0⟩
  | .encode     => ⟨0x10, false, 0⟩
  | .decode     => ⟨0x11, false, 0⟩
  | .crc32      => ⟨0x12, false, 0⟩

/-- A command is well formed if its word's fields are (it has no operand fields: R100). -/
def Instr.wf (i : Instr) : Bool := i.fields.wf

/-- A path or name has 1 to 254 bytes, none 0x00 (R49, R106, R107). -/
def Path.wf (p : Path) : Bool := decide (1 ≤ p.length) && decide (p.length ≤ Config.nameMax) && !p.contains 0

/-- A FileEntry's name is a well-formed name; its other fields have their widths by type (R63). -/
def Entry.wf (e : Entry) : Bool := Path.wf e.name

end Sys2Proof
end

