-- ==== Sys2Proof/Decode.lean ====
section
/-! DEFINITION. The command decoder and encoder (spec/30_encoding.md R100 to R104). Bytes are those of the 32-bit CMD
register as the host stores it: little-endian (spec/20_memory.md R55). -/

namespace Sys2Proof

/-- Why a word or byte string is no command. -/
inductive Reject
  /-- fewer than the four bytes of a command word (R104) -/
  | truncated
  /-- RSV ≠ 0 (R103) -/
  | reservedBits
  /-- an OP value that R102 does not list (R103) -/
  | unknownOp
  /-- ALL = 1 with an OP other than 0x03 and 0x04 (R103) -/
  | allNotAllowed
  deriving DecidableEq, Repr

/-- The fields of a command word: OP = [7:0], ALL = [8], RSV = [31:9] (R100). -/
def fieldsOf (w : Word) : Cmd32 := ⟨w.extractLsb' 0 8, w.getLsbD 8, w.extractLsb' 9 23⟩

/-- The word of a command's fields (R100). -/
def wordOf (c : Cmd32) : Word := c.rsv ++ (BitVec.ofBool c.all ++ c.op)

/-- The opcode map of R102 on the OP and ALL fields. -/
def opcodeOf (op : BitVec 8) (all : Bool) : Except Reject Instr :=
  if op = 0x03 then .ok (if all then .extractAll else .extract)
  else if op = 0x04 then .ok (if all then .removeAll else .remove)
  else if op = 0x01 then (if all then .error .allNotAllowed else .ok .create)
  else if op = 0x02 then (if all then .error .allNotAllowed else .ok .append)
  else if op = 0x05 then (if all then .error .allNotAllowed else .ok .verify)
  else if op = 0x06 then (if all then .error .allNotAllowed else .ok .info)
  else if op = 0x07 then (if all then .error .allNotAllowed else .ok .listEntry)
  else if op = 0x10 then (if all then .error .allNotAllowed else .ok .encode)
  else if op = 0x11 then (if all then .error .allNotAllowed else .ok .decode)
  else if op = 0x12 then (if all then .error .allNotAllowed else .ok .crc32)
  else .error .unknownOp

/-- The command a word stands for, or why it is none (R101, R103). -/
def decodeWord (w : Word) : Except Reject Instr :=
  let c := fieldsOf w
  if c.rsv = 0 then opcodeOf c.op c.all else .error .reservedBits

/-- Four bytes, lowest address first, as a 32-bit word (R55). -/
def wordOfBytes (b0 b1 b2 b3 : Byte) : Word := b3 ++ (b2 ++ (b1 ++ b0))

/-- The command at the front of a byte string, with the bytes that follow it (every command is one 32-bit word, R104). -/
def decode : Bytes → Except Reject (Instr × Bytes)
  | b0 :: b1 :: b2 :: b3 :: rest =>
    match decodeWord (wordOfBytes b0 b1 b2 b3) with
    | .ok i    => .ok (i, rest)
    | .error r => .error r
  | _ => .error .truncated

/-- The four bytes of a word, lowest address first (R55). -/
def bytesOfWord (w : Word) : Bytes :=
  [w.extractLsb' 0 8, w.extractLsb' 8 8, w.extractLsb' 16 8, w.extractLsb' 24 8]

/-- The word of each command (R102). -/
def Instr.word (i : Instr) : Word := wordOf i.fields

/-- The encoder: a command's bytes as the host stores them in CMD. -/
def encode (i : Instr) : Bytes := bytesOfWord i.word

/-- What the decoder reads from a command whose bits are `w`, numbered as spec/opcode_table.json numbers them. -/
def decodeTableWord (nbits w : Nat) : Option Instr :=
  match decode (bytesOfWord (BitVec.ofNat 32 (w % 2 ^ nbits))) with
  | .ok (i, _) => some i
  | .error _   => none

end Sys2Proof
end

