-- ==== Sys2Proof/Machine/State.lean ====
section
/-! DEFINITION. The state of an HCE system (spec/10_state.md R15 to R49) as plain data, and its value after reset
(spec/70_reset_and_hazards.md R316). Cursors, limits, positions and counters are Nat; their widths in the spec are named
in the docstrings, and R10, R70 and R167 say why they never wrap (log 18); IN_COUNT, which may wrap, is a bit vector. -/

namespace Sys2Proof.Machine

/-- A byte memory: (address, byte) pairs, addresses rising, no pair that an unlisted address would read as. -/
abbrev Memory := List Host.Cell

/-- A handle is a token the storage returns (R72). -/
abbrev Handle := Nat

/-- What an open handle refers to: a file of the namespace, or an anonymous temporary file (R73, R74). -/
inductive FileRef
  | named (p : Path)
  | temp (id : Nat)
  deriving DecidableEq, Repr

/-- An open handle's file, whether it may be written (R73), and its 64-bit position (R49). -/
structure OpenFile where
  ref      : FileRef
  writable : Bool
  pos      : Nat
  deriving DecidableEq, Repr

/-- The storage collaborator (R49): the namespace FS (paths rising, log 22), the temporary files, the open handles, and
the next token it returns (the model's own counter, log 19). -/
structure Storage where
  fs      : List (Path × Bytes)
  temps   : List (Nat × Bytes)
  handles : List (Handle × OpenFile)
  nextId  : Nat
  deriving DecidableEq, Repr

/-- The input stream IN (R44). -/
structure InStream where
  /-- IN_BUF[0..16384] -/
  buf   : Bytes
  /-- IN_BYTE, 0..16384 -/
  byte  : Nat
  /-- IN_BIT, 0..7 -/
  bit   : Nat
  /-- IN_VALID, 0..16384 -/
  valid : Nat
  /-- IN_LIMIT, 64 bits: bytes the source may still supply -/
  limit : Nat
  /-- IN_COUNT, 64 bits: bits returned since in_init -/
  count : Dword
  /-- IN_H -/
  h     : Handle
  deriving DecidableEq, Repr

/-- The output stream OUT (R44). -/
structure OutStream where
  /-- OUT_BUF[0..16384] -/
  buf   : Bytes
  /-- OUT_BYTE, 0..16383 -/
  byte  : Nat
  /-- OUT_BIT, 0..7 -/
  bit   : Nat
  /-- OUT_TOTAL, 64 bits: bytes flushed since out_init -/
  total : Nat
  /-- OUT_H -/
  h     : Handle
  deriving DecidableEq, Repr

/-- A tree node (R45): Leaf(sym, freq) or Internal(freq, left, right). -/
inductive Node
  | leaf (sym : Byte) (freq : Nat)
  | inner (freq : Nat) (left right : Nat)
  deriving DecidableEq, Repr

/-- The Huffman state (R45). -/
structure Huffman where
  /-- FREQ[0..256], 32-bit counters -/
  freq     : List Nat
  /-- NODE[0..511], the arena -/
  node     : List Node
  /-- NN, 0..511: arena nodes in use -/
  nn       : Nat
  /-- HEAP[0..256], 9-bit node indices -/
  heap     : List Nat
  /-- HN, 0..256 -/
  hn       : Nat
  /-- ROOT, a node index or NONE -/
  root     : Option Nat
  /-- CODE_LEN[0..256], each 0..64 -/
  codeLen  : List Nat
  /-- CODE_BITS[0..256], 64 bits each: bit j is the j-th bit of the code -/
  codeBits : List (BitVec 64)
  deriving DecidableEq, Repr

/-- The six handle registers of R47. -/
inductive HandleReg
  | a | d | m | t | f | g
  deriving DecidableEq, Repr

/-- The archive sequencer's working registers (R47). -/
structure Work where
  /-- A: the archive -/
  a : Option Handle
  /-- D: scratch for new blocks -/
  d : Option Handle
  /-- M: scratch for new entry records -/
  m : Option Handle
  /-- T: the staging archive -/
  t : Option Handle
  /-- F: a user input file -/
  f : Option Handle
  /-- G: a user output file -/
  g : Option Handle
  /-- SIZE, 64 bits: archive length -/
  size : Nat
  /-- COUNT, 32 bits: file_count read -/
  count : Word
  /-- HLEN, 64 bits: header size H -/
  hlen : Nat
  /-- REC_POS, 64 bits -/
  recPos : Nat
  /-- DATA_OFF, 64 bits -/
  dataOff : Nat
  /-- E: the entry register -/
  entry : Entry
  /-- K_OK, 32-bit counter -/
  kOk : Nat
  /-- K_FAIL, 32-bit counter -/
  kFail : Nat
  deriving DecidableEq, Repr

/-- A change of a file by the host while a command runs, still to come: it takes effect once all requests below number `due`
are answered; the content, or `none` to delete the file (duties 1 and 4 of R331; log 10). -/
structure Edit where
  due     : Nat
  path    : Path
  content : Option Bytes
  deriving DecidableEq, Repr

/-- The environment's free draws, as data (the model's own fields; log 5 to log 8, log 10). -/
structure Draws where
  /-- the numbers of the storage requests that answer FAIL (R82, U10) -/
  failAt  : List Nat
  /-- the number of the next request -/
  reqNo   : Nat
  /-- how many requests the storage still answers, `none` for all of them (R331 duty 3, U14) -/
  answers : Option Nat
  /-- the time port's next answers (R304, U11) -/
  nows    : List Dword
  /-- the counter the free values of Config are applied to -/
  free    : Nat
  /-- the host's changes of files still to come while the command runs, in order -/
  edits   : List Edit
  deriving DecidableEq, Repr

/-- All that a running command reads and writes besides its locked operands: STATMEM, the internal registers
(R44 to R47), the storage port's far side (R49) and the draws. -/
structure Engine where
  /-- STATMEM[0..4096] (R39), unlisted bytes 0x00 -/
  statmem : Memory
  inp     : InStream
  out     : OutStream
  huff    : Huffman
  /-- CRC_REG (R46) -/
  crcReg  : Word
  work    : Work
  storage : Storage
  draws   : Draws
  deriving DecidableEq, Repr

/-- SEQ (R21): IDLE or RUN(cmd). `stuck` is RUN(cmd) at a storage request that is never answered (U14). -/
inductive Seq
  | idle
  | run (w : Word)
  | stuck (w : Word)
  deriving DecidableEq, Repr

/-- The width of a host access: 1, 2 or 4 bytes (R11, R52). -/
inductive Width
  | w8 | w16 | w32
  deriving DecidableEq, Repr

/-- One host access at a byte offset of the register window (R11, R50). -/
inductive HostAccess
  | read (off : BitVec 17) (n : Width)
  | write (off : BitVec 17) (n : Width) (v : Word)
  deriving DecidableEq, Repr

/-- One agent's turn (R7, R296; log 1): a host access; the host polling STATUS until DONE = 1 (WAITDONE, R112); the host
writing or deleting a file of the namespace (R49), where a running command names the file after `after` more of its storage
requests (R331); a reset before which the running command had `answered` storage requests answered (R322); or the engine. -/
inductive Turn
  | access (a : HostAccess)
  | waitDone
  | putFile (after : Nat) (p : Path) (content : Bytes)
  | deleteFile (after : Nat) (p : Path)
  | reset (answered : Nat)
  | engine
  deriving DecidableEq, Repr

/-- The response of a host access: the data read and whether it was a bus error (R53). -/
structure BusResponse where
  data  : Word
  error : Bool
  deriving DecidableEq, Repr

/-- The state of an HCE system. ID, VERSION, STATUS.BUSY, STATUS.ERR and IRQ have no storage (R22, R23, R21, R27, R30). -/
structure State where
  /-- CMD, the last accepted command word (R24) -/
  cmd        : Word
  /-- SEQ (R21); STATUS.BUSY is SEQ ≠ IDLE -/
  seq        : Seq
  /-- STATUS.DONE (R26) -/
  done       : Bool
  /-- STATUS.OVR (R28) -/
  ovr        : Bool
  /-- IE.DONE_IE (R29) -/
  doneIE     : Bool
  /-- IE.OVR_IE (R29) -/
  ovrIE      : Bool
  /-- ERROR.CODE (R31) -/
  errCode    : BitVec 4
  /-- RESULT0 (R32) -/
  result0    : Word
  /-- RESULT1 (R32) -/
  result1    : Word
  /-- ARCH_PTR[15:0] (R33) -/
  archPtr    : BitVec 16
  /-- NAMES_PTR[15:0] (R34) -/
  namesPtr   : BitVec 16
  /-- ARGC[12:0] (R35) -/
  argc       : BitVec 13
  /-- OUT_PTR[15:0] (R36) -/
  outPtr     : BitVec 16
  /-- ENTRY_IDX (R37) -/
  entryIdx   : Word
  /-- DEC_SIZE (R40) -/
  decSize    : Word
  /-- CRC_OFF_LO (R41) -/
  crcOffLo   : Word
  /-- CRC_OFF_HI (R41) -/
  crcOffHi   : Word
  /-- ENT_ORIG (R42) -/
  entOrig    : Word
  /-- ENT_COMP (R42) -/
  entComp    : Word
  /-- ENT_RATIO_LO (R42) -/
  entRatioLo : Word
  /-- ENT_RATIO_HI (R42) -/
  entRatioHi : Word
  /-- ENT_TIME_LO (R42) -/
  entTimeLo  : Word
  /-- ENT_TIME_HI (R42) -/
  entTimeHi  : Word
  /-- ARGMEM[0..65536] (R38); what an unlisted byte reads as is `argDefault argEpoch` of Ops.lean -/
  argmem     : Memory
  /-- which content unwritten ARGMEM bytes have (U1; the model's own, log 2) -/
  argEpoch   : Nat
  /-- STATMEM, the internal registers and the storage -/
  eng        : Engine
  /-- the files named by the command during which a duty of R331 was broken (U13; the model's own, log 10) -/
  breached   : Option (List Path)
  /-- how many command words were accepted (the model's own, log 11) -/
  cmdNo      : Nat
  /-- the response of the last host access (R53; log 21) -/
  bus        : BusResponse
  /-- the turns the agents take next, first first (the model's own, log 1) -/
  schedule   : List Turn
  deriving DecidableEq, Repr

/-- A step never faults: the HCE has no processor traps (R297), and its errors are next states (R286, R294). No
constructor, so no meaning can raise one (safe). -/
inductive Fault
  deriving DecidableEq, Repr

/-- Why a step has no meaning. -/
inductive Refusal
  /-- Raised by an arm of exec for a command that has no meaning yet (safe). No arm raises it in this model. -/
  | notModelled (mnemonic : String)
  deriving DecidableEq, Repr

/-- IN after reset: unspecified, never read before written (R48, U3; log 3). -/
def InStream.reset : InStream := ⟨List.replicate Config.bufBytes 0, 0, 0, 0, 0, 0, 0⟩
/-- OUT after reset (R48, U3; log 3). -/
def OutStream.reset : OutStream := ⟨List.replicate Config.bufBytes 0, 0, 0, 0, 0⟩
/-- The Huffman state after reset (R48, U3; log 3). -/
def Huffman.reset : Huffman where
  freq     := List.replicate Config.alphabet 0
  node     := List.replicate Config.nodeCap (.leaf 0 0)
  nn       := 0
  heap     := List.replicate Config.heapCap 0
  hn       := 0
  root     := none
  codeLen  := List.replicate Config.alphabet 0
  codeBits := List.replicate Config.alphabet 0
/-- The working registers after reset: no handle held (R316), the rest unspecified (R48, U3; log 3). -/
def Work.reset : Work := ⟨none, none, none, none, none, none, 0, 0, 0, 0, 0, ⟨[], 0, 0, 0⟩, 0, 0⟩
/-- The storage of State.reset: nothing stored and nothing open (log 4). -/
def Storage.reset : Storage := ⟨[], [], [], 0⟩
/-- The draws of State.reset: no FAIL listed, all requests answered, no time listed, no change of a file to come (log 5 to
log 8, log 10). -/
def Draws.reset : Draws := ⟨[], 0, none, [], 0, []⟩
/-- The engine after reset: STATMEM all 0x00 (R316). -/
def Engine.reset : Engine :=
  ⟨[], InStream.reset, OutStream.reset, Huffman.reset, 0, Work.reset, Storage.reset, Draws.reset⟩

/-- The machine right after reset (R316). -/
def State.reset : State where
  cmd        := 0
  seq        := .idle
  done       := false
  ovr        := false
  doneIE     := false
  ovrIE      := false
  errCode    := 0
  result0    := 0
  result1    := 0
  archPtr    := 0
  namesPtr   := 0
  argc       := 0
  outPtr     := 0
  entryIdx   := 0
  decSize    := 0
  crcOffLo   := 0
  crcOffHi   := 0
  entOrig    := 0
  entComp    := 0
  entRatioLo := 0
  entRatioHi := 0
  entTimeLo  := 0
  entTimeHi  := 0
  argmem     := []
  argEpoch   := 0
  eng        := Engine.reset
  breached   := none
  cmdNo      := 0
  bus        := ⟨0, false⟩
  schedule   := []

end Sys2Proof.Machine
end

