-- ==== Sys2Proof/Machine/Flags.lean ====
section
/-! DEFINITION. The flags (spec/10_state.md R25 to R30, R43), the interrupt line, and the codes of errors and per-name
statuses (spec/60_exceptions.md R286, R291). -/

namespace Sys2Proof.Machine

/-- ERROR.CODE of each command-level error (R286). -/
def errorBits : ErrorCode → BitVec 4
  | .none               => 0
  | .notAnArchive       => 1
  | .corruptArchive     => 2
  | .fileOpenFailed     => 3
  | .scratchUnavailable => 4
  | .badCommand         => 5
  | .badArgs            => 6
  | .storageError       => 7
  | .blockCorrupt       => 8
  | .tooLarge           => 9
  | .internal           => 10

/-- The byte of each per-name status (R291). -/
def statusByte : NameStatus → Byte
  | .none           => 0x00
  | .ok             => 0x01
  | .fileOpenFailed => 0x02
  | .nameNotFound   => 0x03
  | .nameInvalid    => 0x04
  | .tooLarge       => 0x05
  | .blockCorrupt   => 0x06

/-- STATUS.BUSY: SEQ ≠ IDLE (R21, R25). -/
def State.busy (s : State) : Bool :=
  match s.seq with
  | .idle    => false
  | .run _   => true
  | .stuck _ => true

/-- STATUS.ERR: ERROR.CODE ≠ 0 (R27). -/
def State.err (s : State) : Bool := s.errCode != 0

/-- STATUS as the host reads it: BUSY, DONE, ERR, OVR in bits 0 to 3, the rest 0 (R18). -/
def State.status (s : State) : Word :=
  (0 : BitVec 28) ++ (BitVec.ofBool s.ovr ++ (BitVec.ofBool s.err ++ (BitVec.ofBool s.done ++ BitVec.ofBool s.busy)))

/-- IE as the host reads it: DONE_IE, OVR_IE in bits 0 and 1, the rest 0 (R29). -/
def State.ieWord (s : State) : Word := (0 : BitVec 30) ++ (BitVec.ofBool s.ovrIE ++ BitVec.ofBool s.doneIE)

/-- ERROR as the host reads it: CODE in [3:0], the rest 0 (R31). -/
def State.errorWord (s : State) : Word := s.errCode.setWidth 32

/-- The interrupt line: level-sensitive, active-high (R30, R295). -/
def State.irq (s : State) : Bool := (s.done && s.doneIE) || (s.ovr && s.ovrIE)

/-- A host write to STATUS: W1C of DONE and OVR, the other bits ignored (R17, R26, R28). -/
def State.writeStatus (s : State) (v : Word) : State :=
  { s with done := s.done && !v.getLsbD 1, ovr := s.ovr && !v.getLsbD 3 }

/-- A host write to IE (R29). -/
def State.writeIE (s : State) (v : Word) : State :=
  { s with doneIE := v.getLsbD 0, ovrIE := v.getLsbD 1 }

end Sys2Proof.Machine
end

