-- ==== Sys2Proof/Machine/Ops.lean ====
section
/-! DEFINITION. The named operations over memory, registers and storage: byte memories, the storage port
(spec/20_memory.md R72 to R83), the engine's computations, the command-level error (spec/60_exceptions.md R286, R287),
acceptance (spec/10_state.md R24) and completion (spec/60_exceptions.md R294). -/

namespace Sys2Proof.Machine

/-! ## Byte memories -/

/-- The byte at address `a`, where an unlisted address `b` reads as `dflt b`. -/
def Memory.read (dflt : Nat → Byte) : Memory → Nat → Byte
  | [], a => dflt a
  | (b, v) :: rest, a => if a = b then v else Memory.read dflt rest a

/-- Store byte `v` at address `a`, keeping the canonical form. -/
def Memory.write (dflt : Nat → Byte) : Memory → Nat → Byte → Memory
  | [], a, v => if v = dflt a then [] else [(a, v)]
  | (b, u) :: rest, a, v =>
    if a < b then (if v = dflt a then (b, u) :: rest else (a, v) :: (b, u) :: rest)
    else if a = b then (if v = dflt a then rest else (a, v) :: rest)
    else (b, u) :: Memory.write dflt rest a v

/-- Store consecutive bytes from address `a` on. -/
def Memory.writeBytes (dflt : Nat → Byte) : Memory → Nat → Bytes → Memory
  | m, _, [] => m
  | m, a, v :: vs => Memory.writeBytes dflt (Memory.write dflt m a v) (a + 1) vs

/-- Every listed address lies below `size` and at or above `lo`, they rise, and no entry holds its address's default. -/
def Memory.wfFrom (dflt : Nat → Byte) (size : Nat) : Nat → Memory → Bool
  | _, [] => true
  | lo, (a, v) :: rest =>
    decide (lo ≤ a) && decide (a < size) && !decide (v = dflt a) && Memory.wfFrom dflt size (a + 1) rest

/-- The canonical form of a memory of `size` bytes. -/
def Memory.wf (dflt : Nat → Byte) (size : Nat) (m : Memory) : Bool := Memory.wfFrom dflt size 0 m

/-- What an unwritten ARGMEM byte reads as: 0x00 in epoch 0 (R337), a free value after a reset turn (U1; log 2). -/
def argDefault (epoch : Nat) (a : Nat) : Byte := if epoch = 0 then 0 else Config.freeArg epoch a

/-- What an unwritten STATMEM byte reads as (R39). -/
def statDefault (_ : Nat) : Byte := 0

/-- ARGMEM[a] (R38). -/
def State.argByte (s : State) (a : Nat) : Byte := Memory.read (argDefault s.argEpoch) s.argmem a

/-- STATMEM[i] (R39). -/
def Engine.statByte (e : Engine) (i : Nat) : Byte := Memory.read statDefault e.statmem i

/-! ## Little-endian byte sequences (R10) -/

/-- LE32(v). -/
def le32 (v : Word) : Bytes := [v.extractLsb' 0 8, v.extractLsb' 8 8, v.extractLsb' 16 8, v.extractLsb' 24 8]

/-- LE64(v). -/
def le64 (v : Dword) : Bytes := le32 (v.extractLsb' 0 32) ++ le32 (v.extractLsb' 32 32)

/-- The little-endian number of a byte sequence, least significant byte first. -/
def leNat : Bytes → Nat
  | [] => 0
  | b :: bs => b.toNat + 256 * leNat bs

/-- rdLE32. -/
def rdLE32 (bs : Bytes) : Word := BitVec.ofNat 32 (leNat bs)

/-- rdLE64. -/
def rdLE64 (bs : Bytes) : Dword := BitVec.ofNat 64 (leNat bs)

/-! ## The storage namespace, temporary files and handles (R49) -/

/-- The order of paths in the namespace's canonical form (log 22). -/
def pathLt : Path → Path → Bool
  | _, [] => false
  | [], _ :: _ => true
  | a :: as, b :: bs => if a = b then pathLt as bs else decide (a.toNat < b.toNat)

/-- FS[p]. -/
def fsGet : List (Path × Bytes) → Path → Option Bytes
  | [], _ => none
  | (q, c) :: rest, p => if p = q then some c else fsGet rest p

/-- FS[p] <- c. -/
def fsPut : List (Path × Bytes) → Path → Bytes → List (Path × Bytes)
  | [], p, c => [(p, c)]
  | (q, d) :: rest, p, c =>
    if p = q then (p, c) :: rest
    else if pathLt p q then (p, c) :: (q, d) :: rest
    else (q, d) :: fsPut rest p c

/-- FS without path p. -/
def fsDelete : List (Path × Bytes) → Path → List (Path × Bytes)
  | [], _ => []
  | (q, d) :: rest, p => if p = q then rest else (q, d) :: fsDelete rest p

/-- FS[p] <- c, or FS without p for `none`. -/
def fsSet (fs : List (Path × Bytes)) (p : Path) : Option Bytes → List (Path × Bytes)
  | some c => fsPut fs p c
  | none   => fsDelete fs p

/-- The paths rise strictly from `p` on. -/
def fsRisesFrom (p : Path) : List (Path × Bytes) → Bool
  | [] => true
  | (q, _) :: rest => pathLt p q && fsRisesFrom q rest

/-- The canonical form of a namespace: paths rising, each a path (R49). -/
def fsWf (fs : List (Path × Bytes)) : Bool := fsRisesFrom [] fs && fs.all fun f => Path.wf f.1

/-- The value listed under a token. -/
def lookup {α : Type} : List (Nat × α) → Nat → Option α
  | [], _ => none
  | (k, v) :: rest, n => if n = k then some v else lookup rest n

/-- The list with the value under token `n` replaced, if it is listed. -/
def replaceAt {α : Type} (v : α) : List (Nat × α) → Nat → List (Nat × α)
  | [], _ => []
  | (k, u) :: rest, n => if n = k then (k, v) :: rest else (k, u) :: replaceAt v rest n

/-- The list without token `n`. -/
def removeAt {α : Type} : List (Nat × α) → Nat → List (Nat × α)
  | [], _ => []
  | (k, u) :: rest, n => if n = k then rest else (k, u) :: removeAt rest n

/-- The content of a file (empty if the file does not exist). -/
def Storage.content (st : Storage) : FileRef → Bytes
  | .named p => (fsGet st.fs p).getD []
  | .temp n  => (lookup st.temps n).getD []

/-- The storage with a file's content replaced. -/
def Storage.setContent (st : Storage) (r : FileRef) (c : Bytes) : Storage :=
  match r with
  | .named p => { st with fs := fsPut st.fs p c }
  | .temp n  => { st with temps := replaceAt c st.temps n }

/-- The storage with one more open handle, under the next token. -/
def Storage.addHandle (st : Storage) (f : OpenFile) : Storage :=
  { st with handles := st.handles ++ [(st.nextId, f)], nextId := st.nextId + 1 }

/-- The storage with a handle's position moved. -/
def Storage.setPos (st : Storage) (h : Handle) (f : OpenFile) (pos : Nat) : Storage :=
  { st with handles := replaceAt { f with pos := pos } st.handles h }

/-- The storage with a handle released; a temporary file of it is discarded (R81). -/
def Storage.close (st : Storage) (h : Handle) : Storage :=
  match lookup st.handles h with
  | some ⟨.temp n, _, _⟩ => { st with handles := removeAt st.handles h, temps := removeAt st.temps n }
  | some ⟨.named _, _, _⟩ => { st with handles := removeAt st.handles h }
  | none => st

/-- Whether every file and temporary file has a length that R49 allows. -/
def Storage.fits (st : Storage) : Bool :=
  (st.fs.all fun f => decide (f.2.length ≤ Config.fileMax)) && st.temps.all fun f => decide (f.2.length ≤ Config.fileMax)

/-- A free value for the content of a file, no longer than a file can be (R49; log 8, log 33). -/
def freeContent (k : Nat) : Bytes := (Config.freeBytes k).take Config.fileMax

/-- A free value for what a path holds, no longer than a file can be (R49; log 10, log 33). -/
def freeFile (k : Nat) : Option Bytes := (Config.freeFile k).map (·.take Config.fileMax)

/-- The file after `bytes` were written at position `pos`: a gap before `pos` is filled with 0x00 (R76). -/
def writeAt (file : Bytes) (pos : Nat) (bytes : Bytes) : Bytes :=
  (file ++ List.replicate (pos - file.length) 0).take pos ++ bytes ++ file.drop (pos + bytes.length)

/-! ## The engine's computations -/

/-- Why a computation of the engine stops early: a command-level error with the results its rule gives (R286, R287), or a
storage request that is never answered (U14). -/
inductive Stop
  | error (code : ErrorCode) (result0 result1 : Word)
  | unanswered
  deriving DecidableEq, Repr

/-- A computation of the engine. Its effects before a stop remain (R287, R297). -/
abbrev Eng := EStateM Stop Engine

/-- Read from the engine's state. -/
def look {α : Type} (f : Engine → α) : Eng α := fun e => .ok (f e) e

/-- Change the engine's state. -/
def update (f : Engine → Engine) : Eng Unit := fun e => .ok () (f e)

/-- `raise Error(code)` (R286, R287): RESULT0 = RESULT1 = 0. -/
def raise {α : Type} (code : ErrorCode) : Eng α := fun e => .error (.error code 0 0) e

/-- `raise Error(code)` where the command's rule gives results for the error (R287). -/
def raiseWith {α : Type} (code : ErrorCode) (r0 r1 : Word) : Eng α := fun e => .error (.error code r0 r1) e

/-- The value, or `raise Error(code)`. -/
def orRaise {α : Type} (code : ErrorCode) : Option α → Eng α
  | some a => pure a
  | none   => raise code

/-- Go on, or `raise Error(code)`. -/
def check (ok : Bool) (code : ErrorCode) : Eng Unit := if ok then pure () else raise code

/-- The number for the next free value. -/
def nextFree : Eng Nat := fun e => .ok e.draws.free { e with draws := { e.draws with free := e.draws.free + 1 } }

/-- The namespace after the host's changes that are due by request number `n`, in order, and those still to come (R331; log 10). -/
def landing (n : Nat) : List Edit → List (Path × Bytes) → List (Path × Bytes) × List Edit
  | [], fs => (fs, [])
  | x :: xs, fs => if x.due ≤ n then landing n xs (fsSet fs x.path x.content) else (fs, x :: xs)

/-- The engine's world after the host's changes that are due by request number `n`. -/
def Engine.land (e : Engine) (n : Nat) : Engine :=
  let r := landing n e.draws.edits e.storage.fs
  { e with storage := { e.storage with fs := r.1 }, draws := { e.draws with edits := r.2 } }

/-- The engine's world after all of the host's changes to come: the command issues no more requests. -/
def Engine.landAll (e : Engine) : Engine :=
  { e with
    storage := { e.storage with fs := e.draws.edits.foldl (fun fs x => fsSet fs x.path x.content) e.storage.fs }
    draws   := { e.draws with edits := [] } }

/-- One storage request (R72): answered, and numbered, or never answered (U14). The host's changes that are due
come before its effect (R331 duties 1 and 4; log 10). -/
def request : Eng Nat := fun e =>
  let e1 := e.land e.draws.reqNo
  match e.draws.answers with
  | some 0       => .error .unanswered e.landAll
  | some (n + 1) => .ok e.draws.reqNo { e1 with draws := { e1.draws with reqNo := e.draws.reqNo + 1, answers := some n } }
  | none         => .ok e.draws.reqNo { e1 with draws := { e1.draws with reqNo := e.draws.reqNo + 1 } }

/-- A request that may FAIL: whether the storage's draw says so (R82, U10). -/
def failDraw : Eng Bool := do
  let n ← request
  look fun e => e.draws.failAt.contains n

/-- Replace the storage. -/
def setStorage (st : Storage) : Eng Unit := update fun e => { e with storage := st }

/-! ## The storage port (R72 to R83) -/

/-- The answers of SOpen and STemp. -/
inductive OpenAnswer
  | handle (h : Handle)
  | notFound
  | fail
  deriving DecidableEq, Repr

/-- Open a file under a new token, position 0. -/
def newHandle (r : FileRef) (writable : Bool) : Eng OpenAnswer := do
  let st ← look (·.storage)
  setStorage (st.addHandle ⟨r, writable, 0⟩)
  pure (.handle st.nextId)

/-- SOpen(path, R) (R73). -/
def sOpenRead (p : Path) : Eng OpenAnswer := do
  let failed ← failDraw
  let st ← look (·.storage)
  match fsGet st.fs p with
  | none   => pure .notFound
  | some _ => if failed then pure .fail else newHandle (.named p) false

/-- SOpen(path, CW) (R73). -/
def sOpenCreate (p : Path) : Eng OpenAnswer := do
  if (← failDraw) then pure .fail
  else do
    let st ← look (·.storage)
    setStorage { st with fs := fsPut st.fs p [] }
    newHandle (.named p) true

/-- STemp() (R74). -/
def sTemp : Eng OpenAnswer := do
  if (← failDraw) then pure .fail
  else do
    let st ← look (·.storage)
    setStorage { st with temps := st.temps ++ [(st.nextId, [])], nextId := st.nextId + 1 }
    newHandle (.temp st.nextId) true

/-- SRead(h, n): the bytes, or `none` for FAIL (R75). -/
def sRead (h : Handle) (n : Nat) : Eng (Option Bytes) := do
  let failed ← failDraw
  let st ← look (·.storage)
  match lookup st.handles h with
  | none   => pure none
  | some f =>
    if failed then pure none
    else do
      let data := ((st.content f.ref).drop f.pos).take n
      setStorage (st.setPos h f (f.pos + data.length))
      pure (some data)

/-- SWrite(h, bytes): whether it succeeded; after FAIL the file's content is a free value (R76, U5; log 8), and the handle's
position stays as it was, which R76 leaves open (DESIGN CHOICE, log 8). A write past the longest file FAILs (log 33). -/
def sWrite (h : Handle) (bytes : Bytes) : Eng Bool := do
  let failed ← failDraw
  let st ← look (·.storage)
  match lookup st.handles h with
  | none   => pure false
  | some f =>
    if !f.writable then pure false
    else if failed || decide (Config.fileMax < f.pos + bytes.length) then do
      let k ← nextFree
      setStorage (st.setContent f.ref (freeContent k))
      pure false
    else do
      setStorage ((st.setContent f.ref (writeAt (st.content f.ref) f.pos bytes)).setPos h f (f.pos + bytes.length))
      pure true

/-- SSeek(h, pos) (R77). -/
def sSeek (h : Handle) (pos : Nat) : Eng Unit := do
  let _ ← request
  let st ← look (·.storage)
  match lookup st.handles h with
  | none   => pure ()
  | some f => setStorage (st.setPos h f pos)

/-- SSize(h) (R78). -/
def sSize (h : Handle) : Eng Nat := do
  let _ ← request
  let st ← look (·.storage)
  match lookup st.handles h with
  | none   => pure 0
  | some f => pure (st.content f.ref).length

/-- SCopy(src, dst, max): the number of bytes moved, or `none` for FAIL (R79; past the longest file too, log 33). -/
def sCopy (src dst : Handle) (max : Nat) : Eng (Option Nat) := do
  let failed ← failDraw
  let st ← look (·.storage)
  match lookup st.handles src, lookup st.handles dst with
  | some f, some g =>
    let data := ((st.content f.ref).drop f.pos).take max
    if failed || !g.writable || decide (Config.fileMax < g.pos + data.length) then pure none
    else do
      let st1 := st.setPos src f (f.pos + data.length)
      setStorage ((st1.setContent g.ref (writeAt (st1.content g.ref) g.pos data)).setPos dst g (g.pos + data.length))
      pure (some data.length)
  | _, _ => pure none

/-- SReplace(h, path): whether it succeeded; h is then closed and its temporary file is the file at path (R80). -/
def sReplace (h : Handle) (p : Path) : Eng Bool := do
  let failed ← failDraw
  let st ← look (·.storage)
  match lookup st.handles h with
  | some ⟨.temp n, _, _⟩ =>
    if failed then pure false
    else do
      setStorage { st with
        fs := fsPut st.fs p (st.content (.temp n)), temps := removeAt st.temps n, handles := removeAt st.handles h }
      pure true
  | _ => pure false

/-- SClose(h) (R81). -/
def sClose (h : Handle) : Eng Unit := do
  let _ ← request
  let st ← look (·.storage)
  setStorage (st.close h)

/-- SNow() on the time port (R12, R304): a free draw, the next listed answer, and beyond the list a free value (log 6). It always answers:
the engine waits at storage requests only (R306). -/
def sNow : Eng Dword := do
  let e ← look id
  match e.draws.nows with
  | t :: ts => do
    update fun e => { e with draws := { e.draws with nows := ts } }
    pure t
  | [] => do
    let k ← nextFree
    pure (Config.freeNow k)

/-! ## Handle registers (R47, R81) -/

/-- A handle register. -/
def Work.reg (w : Work) : HandleReg → Option Handle
  | .a => w.a
  | .d => w.d
  | .m => w.m
  | .t => w.t
  | .f => w.f
  | .g => w.g

/-- A handle register written. -/
def Work.setReg (w : Work) (r : HandleReg) (v : Option Handle) : Work :=
  match r with
  | .a => { w with a := v }
  | .d => { w with d := v }
  | .m => { w with m := v }
  | .t => { w with t := v }
  | .f => { w with f := v }
  | .g => { w with g := v }

/-- Write a handle register. -/
def setReg (r : HandleReg) (v : Option Handle) : Eng Unit := update fun e => { e with work := e.work.setReg r v }

/-- The handle a register holds; used only while it holds one. -/
def reg (r : HandleReg) : Eng Handle := look fun e => (e.work.reg r).getD 0

/-- Keep the handle of an answer in a register. -/
def keep (r : HandleReg) (ans : OpenAnswer) : Eng OpenAnswer :=
  match ans with
  | .handle h => do
    setReg r (some h)
    pure ans
  | .notFound => pure ans
  | .fail     => pure ans

/-- `r <- SOpen(path, R)`. -/
def openRead (r : HandleReg) (p : Path) : Eng OpenAnswer := do keep r (← sOpenRead p)
/-- `r <- SOpen(path, CW)`. -/
def openCreate (r : HandleReg) (p : Path) : Eng OpenAnswer := do keep r (← sOpenCreate p)
/-- `r <- STemp()`. -/
def openTemp (r : HandleReg) : Eng OpenAnswer := do keep r (← sTemp)

/-- Go on if the answer is a handle, else `raise Error(code)`. -/
def OpenAnswer.must (code : ErrorCode) : OpenAnswer → Eng Unit
  | .handle _ => pure ()
  | .notFound => raise code
  | .fail     => raise code

/-- `SClose(r)`, if the register holds a handle. -/
def closeReg (r : HandleReg) : Eng Unit := do
  match (← look fun e => e.work.reg r) with
  | none   => pure ()
  | some h => do
    sClose h
    setReg r none

/-- At completion the engine closes every handle it still holds, in the order F, G, A, D, M, T (R81, R201). -/
def closeAll : Eng Unit := do
  closeReg .f
  closeReg .g
  closeReg .a
  closeReg .d
  closeReg .m
  closeReg .t

/-- `wr(h, bytes)` (R190). -/
def wr (h : Handle) (bytes : Bytes) : Eng Unit := do check (← sWrite h bytes) .storageError

/-- `copy(s, d, n)` (R190). -/
def copy (src dst : Handle) (n : Nat) : Eng Unit := do
  let k ← sCopy src dst n
  check (k == some n) .storageError

/-- `STATMEM[i] <- v` (R291). -/
def setStatus (i : Nat) (v : NameStatus) : Eng Unit :=
  update fun e => { e with statmem := Memory.write statDefault e.statmem i (statusByte v) }

/-! ## Ends of a command -/

/-- The report of a successful command. -/
def success (r0 r1 : Word) : Report := ⟨.none, r0, r1, none⟩

/-- The files of the namespace that are open for writing. -/
def Storage.openForWriting (st : Storage) : List Path :=
  st.handles.filterMap fun h =>
    match h.2.ref with
    | .named p => if h.2.writable then some p else none
    | .temp _  => none

/-- Give each of the files a free value as content (U6, U7, U8; log 9). -/
def scramble : List Path → Eng Unit
  | [] => pure ()
  | p :: ps => do
    let k ← nextFree
    update fun e => { e with storage := { e.storage with fs := fsPut e.storage.fs p (freeContent k) } }
    scramble ps

/-- Let each of the files hold anything, or be absent (U13; log 10). -/
def unspecify : List Path → Eng Unit
  | [] => pure ()
  | p :: ps => do
    let k ← nextFree
    update fun e => { e with storage := { e.storage with fs := fsSet e.storage.fs p (freeFile k) } }
    unspecify ps

/-- Write statuses from STATMEM[i] on, below the end of STATMEM. -/
def setStatuses : Nat → List NameStatus → Eng Unit
  | _, [] => pure ()
  | i, v :: vs => do
    if i < Config.statmemBytes then setStatus i v else pure ()
    setStatuses (i + 1) vs

/-- A free report in place of a command's own (U13; log 10): its entry is listed only by a command that lists and succeeds
(R42), and only where the name fits. -/
def freeReport (k : Nat) (lists : Bool) (outPtr : Nat) : Report :=
  let r := Config.freeReport k
  { r with listing := r.listing.filter fun en =>
      lists && r.code == .none && Entry.wf en && decide (outPtr + en.name.length + 1 ≤ Config.argmemBytes) }

/-- The report where a duty of R331 was broken: a free one, but STORAGE_ERROR where the command's steps detected the breach, as
R175, R190 and R194 do (R331, U13; log 10). -/
def breachReport (k : Nat) (lists : Bool) (outPtr : Nat) (code : ErrorCode) : Report :=
  let r := freeReport k lists outPtr
  if code = .storageError then ⟨.storageError, r.result0, r.result1, none⟩ else r

/-- What a command's effects become where a duty of R331 was broken, its steps having ended with `code`: unspecified, but it still
completes (U13; log 10). -/
def breachEffects (files : List Path) (statuses : Bool) (lists : Bool) (outPtr : Nat) (code : ErrorCode) : Eng Report := do
  unspecify files
  let k ← nextFree
  if statuses then setStatuses 0 (Config.freeStatuses k) else pure ()
  pure (breachReport k lists outPtr code)

/-- What the model needs to know of a command besides its own steps: the files it names and whether it names one file in
two roles that conflict (R331, duties 1 and 2), and whether it writes per-name statuses or lists an entry. A command whose operand
checks fail names no file, which R331 leaves open (DESIGN CHOICE, log 36). -/
structure Naming where
  files    : List Path
  conflict : Bool
  statuses : Bool
  lists    : Bool
  deriving DecidableEq, Repr

/-- The files named, where a duty was broken by the host during the command or by the command's own operands. -/
def State.breach (s : State) (n : Naming) : Option (List Path) :=
  match s.breached with
  | some ps => some (ps ++ n.files)
  | none    => if n.conflict then some n.files else none

/-- The end of a command's body as a report: a command-level error becomes its report (R287). -/
def reporting (body : Eng Report) : Eng Report := fun e =>
  match body e with
  | .ok rep e'                    => .ok rep e'
  | .error (.error code r0 r1) e' => .ok ⟨code, r0, r1, none⟩ e'
  | .error .unanswered e'         => .error .unanswered e'

/-- Files left open for writing by a STORAGE_ERROR hold anything (U6 to U8; log 9). -/
def abandon (rep : Report) : Eng Unit := do
  if rep.code = .storageError then scramble (← look fun e => e.storage.openForWriting)
  else pure ()

/-- The report of a command; where a duty was broken its effects are free, and its report as breachReport says (U13; log 10). -/
def unlessBreached (s : State) (n : Naming) (rep : Report) : Eng Report :=
  match s.breach n with
  | some ps => breachEffects ps n.statuses n.lists s.outPtr.toNat rep.code
  | none    => pure rep

/-- A command's body up to its completion step, with every handle it still holds closed (R81), and the host's changes of files
that came before that step (log 10). -/
def concluding (s : State) (n : Naming) (body : Eng Report) : Eng Report := do
  let rep ← reporting body
  abandon rep
  closeAll
  update Engine.landAll
  unlessBreached s n rep

/-- `ratio(o, c)` (R213): floor(100 · (o − c) / o) over the integers, 0 for o = 0. -/
def ratio (o c : Nat) : Int := if o = 0 then 0 else (100 * ((o : Int) - (c : Int))) / (o : Int)

/-- `list_output(E)` (R212). -/
def State.listOutput (s : State) (en : Entry) : State :=
  let rt : Dword := BitVec.ofInt 64 (ratio en.orig.toNat en.comp.toNat)
  { s with
    argmem     := Memory.writeBytes (argDefault s.argEpoch) s.argmem s.outPtr.toNat (en.name ++ [0])
    entOrig    := en.orig
    entComp    := en.comp
    entRatioLo := rt.extractLsb' 0 32
    entRatioHi := rt.extractLsb' 32 32
    entTimeLo  := en.time.extractLsb' 0 32
    entTimeHi  := en.time.extractLsb' 32 32 }

/-- The completion step (R294): ERROR.CODE, RESULT0, RESULT1 and LIST_ENTRY's output take their final values, BUSY <- 0,
DONE <- 1, SEQ <- IDLE, in one step. The HCE's "exception entry" is this step with a non-zero code (R297). -/
def State.complete (s : State) (rep : Report) : State :=
  let s1 :=
    match rep.listing with
    | some en => s.listOutput en
    | none    => s
  { s1 with
    errCode := errorBits rep.code, result0 := rep.result0, result1 := rep.result1
    seq := .idle, done := true, breached := none }

/-- Acceptance of a command word (R24), the HCE's nearest to a return from an error too (R298): it clears DONE, ERROR,
RESULT0, RESULT1 and STATMEM and keeps OVR, IE, the arguments, ENT_* and ARGMEM. -/
def State.accept (s : State) (w : Word) : State :=
  { s with
    cmd := w, seq := .run w, done := false, errCode := 0, result0 := 0, result1 := 0
    eng := { s.eng with statmem := [] }, breached := none, cmdNo := s.cmdNo + 1 }

/-- Run a command's body to its completion (R294), or to a request that is never answered (U14), where it keeps the note of a
broken duty for a reset (R322, U13). -/
def runCommand (n : Naming) (s : State) (body : Eng Report) : Host.Outcome State Fault Refusal :=
  match concluding s n body s.eng with
  | .ok rep e  => .next (State.complete { s with eng := e } rep)
  | .error _ e => .next { s with eng := e, seq := .stuck s.cmd, breached := s.breach n }

end Sys2Proof.Machine
end

