-- ==== Sys2Proof/Machine/Format.lean ====
section
/-! DEFINITION. The data formats as functions on byte sequences (spec/20_memory.md R58 to R69): bit packing, the CRC-32
of a sequence (spec/41_crc32.md R140 to R144), the serializer and the parser. The commands work on storage; these say what
an archive is. -/

namespace Sys2Proof.Machine

/-! ## Bit packing (R66) -/

/-- The value of at most eight bits, the first in bit 0. -/
def bitsValue : Bits → Nat
  | [] => 0
  | b :: bs => (if b then 1 else 0) + 2 * bitsValue bs

/-- The bits of a byte, least significant first. -/
def byteBits (b : Byte) : Bits := (List.range 8).map b.getLsbD

/-- The bits of a byte sequence in stream order (R66). -/
def bitsOf (bs : Bytes) : Bits := bs.flatMap byteBits

/-- Packing with at most `n` bytes: bit k in bit (k mod 8) of byte (k div 8), the last byte filled with 0 bits (R66). -/
def packN : (n : Nat) → Bits → Bytes
  | 0, _ => []
  | _ + 1, [] => []
  | n + 1, b :: bs => BitVec.ofNat 8 (bitsValue ((b :: bs).take 8)) :: packN n ((b :: bs).drop 8)

/-- The byte packing of a bit string (R66): ceil(N / 8) bytes. -/
def pack (bs : Bits) : Bytes := packN bs.length bs

/-! ## CRC-32 of a byte sequence (R140 to R144) -/

/-- One round of the table construction (R140). -/
def crcRound (c : Word) : Word := if c.getLsbD 0 then (c >>> 1) ^^^ Config.crcPoly else c >>> 1

/-- CRC_TABLE[i] (R46, R140): a constant function of the index. -/
def crcTable (i : Byte) : Word :=
  crcRound (crcRound (crcRound (crcRound (crcRound (crcRound (crcRound (crcRound (i.setWidth 32))))))))

/-- CRC_REG after `crc_byte(b)` (R142). -/
def crcNext (c : Word) (b : Byte) : Word := crcTable ((c ^^^ b.setWidth 32).extractLsb' 0 8) ^^^ (c >>> 8)

/-- `CRC32(s)` (R143). -/
def crc32Of (bs : Bytes) : Word := (bs.foldl crcNext Config.crcInit) ^^^ Config.crcFinalXor

/-! ## Serializer (R67) -/

/-- `rec(name, o, c, t)` (R63, R67). -/
def recBytes (en : Entry) : Bytes := en.name ++ [0] ++ le32 en.orig ++ le32 en.comp ++ le64 en.time

/-- `body(E, B)` (R67). -/
def bodyBytes (es : List Entry) (bs : List Bytes) : Bytes :=
  le32 (BitVec.ofNat 32 es.length) ++ es.flatMap recBytes ++ bs.flatten

/-- `Ser(E, B)` (R67). -/
def ser (es : List Entry) (bs : List Bytes) : Bytes :=
  Config.magic ++ le32 (crc32Of (bodyBytes es bs)) ++ bodyBytes es bs

/-- The header size H of entries (R58): 20 plus the records' lengths. -/
def headerSize (es : List Entry) : Nat := Config.hdrFixed + (es.map fun en => en.name.length + 17).sum

/-! ## Parser (R68) -/

/-- What Parse returns. -/
inductive ParseResult
  | notAnArchive
  | corrupt
  | archive (es : List Entry) (bs : List Bytes)
  deriving DecidableEq, Repr

/-- The length of the name at the front of the bytes: the number of bytes before the first 0x00, none if the bytes end
first or 255 bytes come first (R68). -/
def nameLength : (n : Nat) → Bytes → Option Nat
  | _, [] => none
  | 0, _ :: _ => none
  | n + 1, b :: bs => if b = 0 then some 0 else (nameLength n bs).map (· + 1)

/-- One record at the front of the bytes, with the bytes after it (R68). -/
def parseRecord (bs : Bytes) : Option (Entry × Bytes) :=
  match nameLength 255 bs with
  | none => none
  | some q =>
    if q = 0 then none
    else if bs.length < q + 17 then none
    else
      let f := bs.drop (q + 1)
      some (⟨bs.take q, rdLE32 (f.take 4), rdLE32 ((f.drop 4).take 4), rdLE64 ((f.drop 8).take 8)⟩, f.drop 16)

/-- `n` records at the front of the bytes, with the bytes after them (R68). -/
def parseRecords : (n : Nat) → Bytes → Option (List Entry × Bytes)
  | 0, bs => some ([], bs)
  | n + 1, bs =>
    match parseRecord bs with
    | none => none
    | some (en, rest) => (parseRecords n rest).map fun r => (en :: r.1, r.2)

/-- The blocks cut from the data region (R64). -/
def cutBlocks : List Entry → Bytes → List Bytes
  | [], _ => []
  | en :: es, bs => bs.take en.comp.toNat :: cutBlocks es (bs.drop en.comp.toNat)

/-- `Parse(bytes, check_crc)` (R68). -/
def parse (bytes : Bytes) (checkCrc : Bool) : ParseResult :=
  if bytes.take 12 ≠ Config.magic then .notAnArchive
  else if bytes.length < 20 then .corrupt
  else if checkCrc && rdLE32 ((bytes.drop 12).take 4) != crc32Of (bytes.drop 16) then .corrupt
  else
    match parseRecords (rdLE32 ((bytes.drop 16).take 4)).toNat (bytes.drop 20) with
    | none => .corrupt
    | some (es, data) =>
      if (es.map fun en => en.comp.toNat).sum = data.length then .archive es (cutBlocks es data) else .corrupt

/-- The 20-byte empty archive (R67, R149). -/
def emptyArchive : Bytes := ser [] []

end Sys2Proof.Machine
end

