-- ==== Sys2Proof/Machine/BitStream.lean ====
section
/-! DEFINITION. The bit streams IN and OUT (spec/40_bitstream.md R120 to R135). -/

namespace Sys2Proof.Machine

/-! ## Input stream -/

/-- `in_init(h, limit)` (R122). -/
def inInit (h : Handle) (limit : Nat) : Eng Unit :=
  update fun e => { e with inp := { e.inp with
    h := h, limit := limit, valid := 0, byte := 0, bit := 0, count := 0 } }

/-- The data of a refill of `n` bytes: no request for n = 0 (R123). -/
def refill (n : Nat) : Eng Bytes := do
  if n = 0 then pure []
  else do orRaise .storageError (← sRead (← look (·.inp.h)) n)

/-- `fill()` (R123): the number of bytes read, 0 when the source is exhausted. -/
def fill : Eng Nat := do
  let n ← look fun e => min Config.bufBytes e.inp.limit
  let data ← refill n
  let k := data.length
  update fun e => { e with inp := { e.inp with
    buf := data ++ e.inp.buf.drop k, valid := k
    limit := if k < n then 0 else e.inp.limit - k
    byte := 0, bit := 0 } }
  pure k

/-- The bit under the cursor. -/
def InStream.bitHere (i : InStream) : Bool := (i.buf.getD i.byte 0).getLsbD i.bit

/-- The stream with the cursor one bit further (R124); IN_COUNT counts modulo 2^64 (R44; log 18). -/
def InStream.advance (i : InStream) : InStream :=
  if i.bit + 1 = 8 then { i with bit := 0, byte := i.byte + 1, count := i.count + 1 }
  else { i with bit := i.bit + 1, count := i.count + 1 }

/-- The bit under the cursor, and the cursor advanced (R124). -/
def takeBit : Eng Bool := do
  let b ← look (·.inp.bitHere)
  update fun e => { e with inp := e.inp.advance }
  pure b

/-- `read_bit()` (R124); `none` is EXHAUSTED. -/
def readBit : Eng (Option Bool) := do
  if (← look fun e => e.inp.byte == e.inp.valid) then do
    if (← fill) = 0 then pure none
    else do pure (some (← takeBit))
  else do pure (some (← takeBit))

/-- The bits from number `i` on of a byte being read, `n` of them; `v` holds those before (R125). -/
def readBits : (n : Nat) → (i : Nat) → (v : Byte) → Eng (Option Byte)
  | 0, _, v => pure (some v)
  | n + 1, i, v => do
    match (← readBit) with
    | none   => pure none
    | some r => readBits n (i + 1) (v ||| ((BitVec.ofBool r).setWidth 8 <<< i))

/-- `read_byte()` (R125); `none` is EXHAUSTED. -/
def readByte : Eng (Option Byte) := readBits 8 0 0

/-- `n` bytes, or `none` if the stream is exhausted before. -/
def readBytes : (n : Nat) → Eng (Option Bytes)
  | 0 => pure (some [])
  | n + 1 => do
    match (← readByte) with
    | none   => pure none
    | some b => do
      match (← readBytes n) with
      | none    => pure none
      | some bs => pure (some (b :: bs))

/-- `rd32()` (R191). -/
def rd32 : Eng (Option Word) := do pure ((← readBytes 4).map rdLE32)

/-- `rd64()` (R191). -/
def rd64 : Eng (Option Dword) := do pure ((← readBytes 8).map rdLE64)

/-! ## Output stream -/

/-- OUT_BUF with every byte 0. -/
def zeroBuf : Bytes := List.replicate Config.bufBytes 0

/-- `out_init(h)` (R126). -/
def outInit (h : Handle) : Eng Unit := update fun e => { e with out := ⟨zeroBuf, 0, 0, 0, h⟩ }

/-- The bytes of OUT_BUF that hold written bits (R127; C1). -/
def OutStream.pending (o : OutStream) : Nat := o.byte + (if o.bit ≠ 0 then 1 else 0)

/-- `flush()` (R127). -/
def flush : Eng Unit := do
  let o ← look (·.out)
  if o.pending > 0 then do check (← sWrite o.h (o.buf.take o.pending)) .storageError
  else pure ()
  update fun e => { e with out := { e.out with
    total := e.out.total + o.pending, buf := zeroBuf, byte := 0, bit := 0 } }

/-- A byte with bit `i` set to `v`. -/
def setBit (b : Byte) (i : Nat) (v : Bool) : Byte :=
  (b &&& ~~~(1#8 <<< i)) ||| ((BitVec.ofBool v).setWidth 8 <<< i)

/-- The stream with a bit written at the cursor and the cursor advanced (R128). -/
def OutStream.put (o : OutStream) (v : Bool) : OutStream :=
  let buf := o.buf.set o.byte (setBit (o.buf.getD o.byte 0) o.bit v)
  if o.bit + 1 = 8 then { o with buf := buf, bit := 0, byte := o.byte + 1 }
  else { o with buf := buf, bit := o.bit + 1 }

/-- `write_bit(v)` (R128): the full buffer is flushed as its last bit is written. -/
def writeBit (v : Bool) : Eng Unit := do
  update fun e => { e with out := e.out.put v }
  if (← look fun e => e.out.byte == Config.bufBytes) then flush else pure ()

/-- A bit string, in order. -/
def writeBits : Bits → Eng Unit
  | [] => pure ()
  | v :: vs => do
    writeBit v
    writeBits vs

/-- `write_byte(b)` (R129): eight bits at the bit cursor, least significant first (C2). -/
def writeByte (b : Byte) : Eng Unit := writeBits (byteBits b)

end Sys2Proof.Machine
end

