-- ==== Sys2Proof/Machine/Operands.lean ====
section
/-! DEFINITION. The operand forms (spec/30_encoding.md R105 to R110): the archive path, the name list, ARGC and the
numeric operands. -/

namespace Sys2Proof.Machine

/-- The bytes from offset `q` up to the first 0x00, looking at `n` bytes at most; `none` if there is no 0x00 among them. -/
def takeString (mem : Nat → Byte) : (n : Nat) → (q : Nat) → Option Bytes
  | 0, _ => none
  | n + 1, q => if mem q = 0 then some [] else (takeString mem n (q + 1)).map (mem q :: ·)

/-- A length from 1 to 254 (R106, R107). -/
def lengthValid (p : Path) : Bool := decide (1 ≤ p.length) && decide (p.length ≤ Config.nameMax)

/-- ArchPath(), `none` where R106 raises BAD_ARGS. -/
def archPath (s : State) : Option Path :=
  (takeString s.argByte (Config.argmemBytes - s.archPtr.toNat) s.archPtr.toNat).filter lengthValid

/-- `count` names from offset `q` on, `none` if one has no 0x00 before the end of ARGMEM (R107). -/
def readNames (mem : Nat → Byte) : (count : Nat) → (q : Nat) → Option (List Path)
  | 0, _ => some []
  | k + 1, q =>
    match takeString mem (Config.argmemBytes - q) q with
    | none   => none
    | some n => (readNames mem k (q + n.length + 1)).map (n :: ·)

/-- Names(), `none` where R107 raises BAD_ARGS. -/
def names (s : State) : Option (List Path) := readNames s.argByte s.argc.toNat s.namesPtr.toNat

/-- The 64-bit start offset of CRC32: CRC_OFF_HI in bits 63:32 (R41, R110). -/
def crcOffset (s : State) : Nat := (s.crcOffHi ++ s.crcOffLo).toNat

/-- The operands of APPEND, EXTRACT and REMOVE (R105), `none` where R106 to R108 raise BAD_ARGS; every failing check has
that one code, so the order of R109 shows only in which check is met first. -/
def batchOperands (s : State) : Option (Path × List Path) := do
  let p ← archPath s
  if s.argc.toNat ≤ Config.maxArgs then do
    let ns ← names s
    pure (p, ns)
  else none

/-- The operands of ENCODE and DECODE: ARGC = 2, input and output paths, each valid; else BAD_ARGS (R107 to R109). -/
def twoFiles (s : State) : Option (Path × Path) :=
  if s.argc = 2 then
    match names s with
    | some [n0, n1] => if lengthValid n0 && lengthValid n1 then some (n0, n1) else none
    | _ => none
  else none

/-- The operand of CRC32: ARGC = 1, a valid path; else BAD_ARGS (R107 to R109). -/
def oneFile (s : State) : Option Path :=
  if s.argc = 1 then
    match names s with
    | some [n0] => if lengthValid n0 then some n0 else none
    | _ => none
  else none

/-- The files ENCODE and DECODE name, in conflict if the two are the same (R331; log 10); none after BAD_ARGS (log 36). -/
def twoFilesNaming (s : State) : Naming :=
  match twoFiles s with
  | some (p0, p1) => ⟨[p0, p1], p0 == p1, false, false⟩
  | none          => ⟨[], false, false, false⟩

/-- The file CRC32 names (R331); none after BAD_ARGS (log 36). -/
def oneFileNaming (s : State) : Naming := ⟨(oneFile s).toList, false, false, false⟩

/-- The file a command with only an archive path names (R331); none after BAD_ARGS (log 36). -/
def archiveNaming (lists : Bool) (s : State) : Naming := ⟨(archPath s).toList, false, false, lists⟩

end Sys2Proof.Machine
end

