-- ==== Sys2Proof/Machine/Crc.lean ====
section
/-! DEFINITION. The CRC-32 generator and the CRC32 command (spec/41_crc32.md R140 to R150). -/

namespace Sys2Proof.Machine

/-- `crc_init()` (R141). -/
def crcInit : Eng Unit := update fun e => { e with crcReg := Config.crcInit }

/-- `crc_byte(b)` (R142). -/
def crcByte (b : Byte) : Eng Unit := update fun e => { e with crcReg := crcNext e.crcReg b }

/-- `crc_final()` (R144). -/
def crcFinal : Eng Word := look fun e => e.crcReg ^^^ Config.crcFinalXor

/-- How many bytes the host's changes still to come hold. -/
def Draws.editBytes (d : Draws) : Nat := (d.edits.map fun x => (x.content.getD []).length).sum

/-- How many bytes of a handle's file from its position on a loop can meet: those it has, and those the host's changes may give
it (log 17). -/
def bytesLeft (h : Handle) : Eng Nat := look fun e =>
  match lookup e.storage.handles h with
  | none   => 0
  | some f => (e.storage.content f.ref).length - f.pos + e.draws.editBytes

/-- The loop of `crc_stream`: bytes to EXHAUSTED, at most `fuel` of them (log 17); `n` were read before. -/
def crcLoop : (fuel : Nat) → (n : Nat) → Eng Nat
  | 0, n => pure n
  | fuel + 1, n => do
    match (← readByte) with
    | none   => pure n
    | some b => do
      crcByte b
      crcLoop fuel (n + 1)

/-- `crc_stream(h)` (R145): the CRC of the bytes from the position to the end of the file, and their number. -/
def crcStream (h : Handle) : Eng (Word × Nat) := do
  inInit h (2 ^ 64 - 1)
  crcInit
  let n ← crcLoop ((← bytesLeft h) + 1) 0
  pure (← crcFinal, n)

/-- `ArchiveCRC(h)` (R147). -/
def archiveCrc (h : Handle) : Eng Word := do
  sSeek h 16
  pure (← crcStream h).1

/-- CRC32's body (R150). -/
def bodyCrc32 (s : State) : Eng Report := do
  let p ← orRaise .badArgs (oneFile s)
  (← openRead .f p).must .fileOpenFailed
  let f ← reg .f
  sSeek f (crcOffset s)
  let (c, n) ← crcStream f
  pure (success c (BitVec.ofNat 32 n))

/-- CRC32 (R150). -/
def execCrc32 (s : State) : Host.Outcome State Fault Refusal :=
  runCommand (oneFileNaming s) s (bodyCrc32 s)

end Sys2Proof.Machine
end

