-- ==== Sys2Proof/Machine/MinHeap.lean ====
section
/-! DEFINITION. The priority queue of tree nodes (spec/42_minheap.md R155 to R161): an array-backed binary min-heap of
node indices with the tie-break of R156. -/

namespace Sys2Proof.Machine

/-- NODE[x]. -/
def Huffman.nodeAt (g : Huffman) (x : Nat) : Node := g.node.getD x (.leaf 0 0)

/-- A node's freq field. -/
def Node.freq : Node → Nat
  | .leaf _ f    => f
  | .inner f _ _ => f

/-- `freq(x)` (R165). -/
def Huffman.freqOf (g : Huffman) (x : Nat) : Nat := (g.nodeAt x).freq

/-- `key(x) < key(y)`: by frequency, then by arena index (R156). -/
def Huffman.keyLt (g : Huffman) (x y : Nat) : Bool :=
  decide (g.freqOf x < g.freqOf y) || (g.freqOf x == g.freqOf y && decide (x < y))

/-- HEAP[i]. -/
def Huffman.heapAt (g : Huffman) (i : Nat) : Nat := g.heap.getD i 0

/-- HEAP[i] and HEAP[j] swapped. -/
def Huffman.swap (g : Huffman) (i j : Nat) : Huffman :=
  { g with heap := (g.heap.set i (g.heapAt j)).set j (g.heapAt i) }

/-- The loop of `insert` (R158); `fuel` is at least i (log 17). -/
def Huffman.siftUp : (fuel : Nat) → (i : Nat) → Huffman → Huffman
  | 0, _, g => g
  | fuel + 1, i, g =>
    if 0 < i ∧ g.keyLt (g.heapAt i) (g.heapAt ((i - 1) / 2)) = true then
      Huffman.siftUp fuel ((i - 1) / 2) (g.swap i ((i - 1) / 2))
    else g

/-- The smallest of position i and its two children below HN (R159). -/
def Huffman.least (g : Huffman) (i : Nat) : Nat :=
  let l := 2 * i + 1
  let r := 2 * i + 2
  let m := if l < g.hn ∧ g.keyLt (g.heapAt l) (g.heapAt i) = true then l else i
  if r < g.hn ∧ g.keyLt (g.heapAt r) (g.heapAt m) = true then r else m

/-- The loop of `extract_min` (R159); `fuel` is at least HN − i (log 17). -/
def Huffman.siftDown : (fuel : Nat) → (i : Nat) → Huffman → Huffman
  | 0, _, g => g
  | fuel + 1, i, g => if g.least i = i then g else Huffman.siftDown fuel (g.least i) (g.swap i (g.least i))

/-- The Huffman state after `insert(x)` below the capacity (R158). -/
def Huffman.pushed (g : Huffman) (x : Nat) : Huffman :=
  Huffman.siftUp g.hn g.hn { g with heap := g.heap.set g.hn x, hn := g.hn + 1 }

/-- The Huffman state after `extract_min()` on a heap that is not empty (R159). -/
def Huffman.popped (g : Huffman) : Huffman :=
  Huffman.siftDown g.hn 0 { g with heap := g.heap.set 0 (g.heapAt (g.hn - 1)), hn := g.hn - 1 }

/-- Change the Huffman state. -/
def updateHuff (f : Huffman → Huffman) : Eng Unit := update fun e => { e with huff := f e.huff }

/-- `heap_init()` (R157). -/
def heapInit : Eng Unit := updateHuff fun g => { g with hn := 0 }

/-- `insert(x)` (R158). -/
def insert (x : Nat) : Eng Unit := do
  check (← look fun e => e.huff.hn != Config.heapCap) .internal
  updateHuff fun g => g.pushed x

/-- `extract_min()` (R159). -/
def extractMin : Eng Nat := do
  let g ← look (·.huff)
  check (g.hn != 0) .internal
  updateHuff fun g => g.popped
  pure (g.heapAt 0)

end Sys2Proof.Machine
end

