-- ==== Sys2Proof/Machine/Huffman.lean ====
section
/-! DEFINITION. The Huffman codec: tree builder, code generator, encoder and decoder, and the commands ENCODE and DECODE
(spec/43_huffman.md R165 to R186). -/

namespace Sys2Proof.Machine

/-! ## Tree data -/

/-- `NODE[NN] <- n; NN <- NN + 1` (R165). -/
def Huffman.alloc (g : Huffman) (n : Node) : Huffman := { g with node := g.node.set g.nn n, nn := g.nn + 1 }

/-- `new_leaf`, `new_internal` (R165): INTERNAL on a full arena, never reached (R171; log 27). -/
def newNode (n : Node) : Eng Nat := do
  let g ← look (·.huff)
  check (g.nn != Config.nodeCap) .internal
  updateHuff fun g => g.alloc n
  pure g.nn

/-! ## Encoder -/

/-- The frequency table with the count of `b` one higher (R166). -/
def Huffman.count (g : Huffman) (b : Byte) : Huffman :=
  { g with freq := g.freq.set b.toNat (g.freq.getD b.toNat 0 + 1) }

/-- The loop of `analyze`: bytes to EXHAUSTED, at most `fuel` (log 17); `o` were read before. -/
def analyzeLoop : (fuel : Nat) → (o : Nat) → Eng Nat
  | 0, o => pure o
  | fuel + 1, o => do
    match (← readByte) with
    | none   => pure o
    | some b => do
      updateHuff fun g => g.count b
      analyzeLoop fuel (o + 1)

/-- `analyze(F, size)` (R166). -/
def analyze (f : Handle) (size : Nat) : Eng Nat := do
  updateHuff fun g => { g with freq := List.replicate Config.alphabet 0 }
  sSeek f 0
  inInit f size
  analyzeLoop (size + 1) 0

/-- FREQ[s]. -/
def Huffman.freqAt (g : Huffman) (s : Nat) : Nat := g.freq.getD s 0

/-- Insert a leaf for each of `n` symbols from `s` on that occurs, in ascending order (R168). -/
def insertLeaves : (n : Nat) → (s : Nat) → Eng Unit
  | 0, _ => pure ()
  | n + 1, s => do
    let f ← look fun e => e.huff.freqAt s
    if 0 < f then do insert (← newNode (.leaf (BitVec.ofNat 8 s) f))
    else pure ()
    insertLeaves n (s + 1)

/-- `while HN > 1`: merge the two least nodes (R168); `fuel` is at least HN (log 17). -/
def mergeLoop : (fuel : Nat) → Eng Unit
  | 0 => pure ()
  | fuel + 1 => do
    if 1 < (← look (·.huff.hn)) then do
      let a ← extractMin
      let b ← extractMin
      let g ← look (·.huff)
      insert (← newNode (.inner (g.freqOf a + g.freqOf b) a b))
      mergeLoop fuel
    else pure ()

/-- `build_tree()` (R168). -/
def buildTree : Eng Unit := do
  updateHuff fun g => { g with nn := 0 }
  heapInit
  insertLeaves Config.alphabet 0
  let hn ← look (·.huff.hn)
  if hn = 0 then updateHuff fun g => { g with root := none }
  else do
    mergeLoop hn
    let r ← extractMin
    updateHuff fun g => { g with root := some r }

/-- CODE_LEN[s] <- len; CODE_BITS[s] <- bits. -/
def Huffman.setCode (g : Huffman) (s : Byte) (len : Nat) (bits : BitVec 64) : Huffman :=
  { g with codeLen := g.codeLen.set s.toNat len, codeBits := g.codeBits.set s.toNat bits }

/-- `visit(x, len, bits)` (R170) with `fuel` = 65 − len: at fuel 0 the code is longer than 64 bits, INTERNAL (log 27). -/
def visit : (fuel : Nat) → (x : Nat) → (len : Nat) → (bits : BitVec 64) → Eng Unit
  | 0, _, _, _ => raise .internal
  | fuel + 1, x, len, bits => do
    match (← look fun e => e.huff.nodeAt x) with
    | .leaf s _ => updateHuff fun g => g.setCode s len bits
    | .inner _ l r => do
      visit fuel l (len + 1) bits
      visit fuel r (len + 1) (bits ||| (1#64 <<< len))

/-- `build_codes()` (R170). -/
def buildCodes : Eng Unit := do
  updateHuff fun g => { g with
    codeLen := List.replicate Config.alphabet 0, codeBits := List.replicate Config.alphabet 0 }
  let g ← look (·.huff)
  match g.root with
  | none   => pure ()
  | some x =>
    match g.nodeAt x with
    | .leaf s _    => updateHuff fun g => g.setCode s 1 0
    | .inner _ _ _ => visit (Config.maxCodeLen + 1) x 0 0

/-- `ser(x)` (R173); `fuel` is more than the depth below x (log 17). -/
def serNode : (fuel : Nat) → (x : Nat) → Eng Unit
  | 0, _ => raise .internal
  | fuel + 1, x => do
    match (← look fun e => e.huff.nodeAt x) with
    | .leaf s _ => do
      writeBit true
      writeByte s
    | .inner _ l r => do
      writeBit false
      serNode fuel l
      serNode fuel r

/-- `serialize_tree()` (R173). -/
def serializeTree : Eng Unit := do
  match (← look (·.huff.root)) with
  | none   => pure ()
  | some x => serNode Config.nodeCap x

/-- The code of a symbol as a bit string, first bit first (R45). -/
def Huffman.code (g : Huffman) (b : Byte) : Bits :=
  (List.range (g.codeLen.getD b.toNat 0)).map (g.codeBits.getD b.toNat 0).getLsbD

/-- The loop of `emit_payload` over the `n` bytes still to come (R175). -/
def payloadLoop : (n : Nat) → Eng Unit
  | 0 => pure ()
  | n + 1 => do
    let b ← orRaise .storageError (← readByte)
    let g ← look (·.huff)
    check (g.codeLen.getD b.toNat 0 != 0) .storageError
    writeBits (g.code b)
    payloadLoop n

/-- `emit_payload(F, o)` (R175). -/
def emitPayload (f : Handle) (o : Nat) : Eng Unit := do
  sSeek f 0
  inInit f o
  payloadLoop o

/-- `encode(F, G)` (R176): (original_size, compressed_size). -/
def encodeFile (f g : Handle) (size : Nat) : Eng (Nat × Nat) := do
  let o ← analyze f size
  buildTree
  buildCodes
  outInit g
  serializeTree
  emitPayload f o
  flush
  pure (o, ← look (·.out.total))

/-! ## Decoder -/

/-- `des()` (R179): the index of the node read, `none` where the rule raises BLOCK_CORRUPT. The 512th node is refused, so
the depth stays below `fuel` = 512 (log 17). -/
def desNode : (fuel : Nat) → Eng (Option Nat)
  | 0 => pure none
  | fuel + 1 => do
    match (← readBit) with
    | none   => pure none
    | some b => do
      let x ← look (·.huff.nn)
      if x = Config.nodeCap then pure none
      else do
        updateHuff fun g => { g with nn := g.nn + 1 }
        if b then do
          match (← readByte) with
          | none   => pure none
          | some s => do
            updateHuff fun g => { g with node := g.node.set x (.leaf s 0) }
            pure (some x)
        else do
          match (← desNode fuel) with
          | none   => pure none
          | some l => do
            match (← desNode fuel) with
            | none   => pure none
            | some r => do
              updateHuff fun g => { g with node := g.node.set x (.inner 0 l r) }
              pure (some x)

/-- `deserialize_tree()` (R179): whether the tree was complete. -/
def deserializeTree : Eng Bool := do
  updateHuff fun g => { g with nn := 0 }
  match (← desNode (Config.nodeCap + 1)) with
  | none   => pure false
  | some x => do
    updateHuff fun g => { g with root := some x }
    pure true

/-- The descent of `decode_symbol` from node x (R180); `fuel` is more than the depth below x (log 17). -/
def descend : (fuel : Nat) → (x : Nat) → Eng (Option Byte)
  | 0, _ => pure none
  | fuel + 1, x => do
    match (← look fun e => e.huff.nodeAt x) with
    | .leaf s _ => pure (some s)
    | .inner _ l r => do
      match (← readBit) with
      | none   => pure none
      | some b => descend fuel (if b then r else l)

/-- `decode_symbol()` (R180); `none` where the rule raises BLOCK_CORRUPT. -/
def decodeSymbol : Eng (Option Byte) := do
  let g ← look (·.huff)
  let x := g.root.getD 0
  match g.nodeAt x with
  | .leaf s _ => do
    match (← readBit) with
    | none   => pure none
    | some _ => pure (some s)
  | .inner _ _ _ => descend Config.nodeCap x

/-- How `decode` ends (R181): (symbols written, bits consumed), or BLOCK_CORRUPT after `w` symbols were written. -/
inductive DecodeEnd
  | done (w bits : Nat)
  | corrupt (w : Nat)
  deriving DecidableEq, Repr

/-- The symbol loop of `decode` (R181): `n` symbols to come, `w` written; the number written in the end, and whether all
symbols were there. -/
def symbolLoop : (n : Nat) → (w : Nat) → Eng (Nat × Bool)
  | 0, w => pure (w, true)
  | n + 1, w => do
    match (← decodeSymbol) with
    | none   => pure (w, false)
    | some s => do
      writeByte s
      symbolLoop n (w + 1)

/-- `decode(h, c, o, G)` (R181). The output is flushed after the last symbol, and also before BLOCK_CORRUPT. -/
def decodeBlock (h : Handle) (c o : Nat) (g : Handle) : Eng DecodeEnd := do
  if o = 0 then pure (.done 0 0)
  else do
    inInit h c
    if (← deserializeTree) then do
      outInit g
      let (w, whole) ← symbolLoop o 0
      flush
      if whole then do pure (.done w (← look (·.inp.count.toNat)))
      else pure (.corrupt w)
    else pure (.corrupt 0)

/-! ## Host commands -/

/-- ENCODE's body (R185). -/
def bodyEncode (s : State) : Eng Report := do
  let (p0, p1) ← orRaise .badArgs (twoFiles s)
  (← openRead .f p0).must .fileOpenFailed
  let size ← sSize (← reg .f)
  check (decide (size ≤ Config.maxOrig)) .tooLarge
  (← openCreate .g p1).must .fileOpenFailed
  let (o, c) ← encodeFile (← reg .f) (← reg .g) size
  pure (success (BitVec.ofNat 32 c) (BitVec.ofNat 32 o))

/-- ENCODE (R185). -/
def execEncode (s : State) : Host.Outcome State Fault Refusal := runCommand (twoFilesNaming s) s (bodyEncode s)

/-- DECODE's body (R186). -/
def bodyDecode (s : State) : Eng Report := do
  let (p0, p1) ← orRaise .badArgs (twoFiles s)
  (← openRead .f p0).must .fileOpenFailed
  (← openCreate .g p1).must .fileOpenFailed
  let f ← reg .f
  let c ← sSize f
  sSeek f 0
  match (← decodeBlock f c s.decSize.toNat (← reg .g)) with
  | .done w bits => pure (success (BitVec.ofNat 32 w) (BitVec.ofNat 32 ((bits + 7) / 8)))
  | .corrupt w   => raiseWith .blockCorrupt (BitVec.ofNat 32 w) 0

/-- DECODE (R186). -/
def execDecode (s : State) : Host.Outcome State Fault Refusal := runCommand (twoFilesNaming s) s (bodyDecode s)

end Sys2Proof.Machine
end

