-- ==== Sys2Proof/Machine/Archive.lean ====
section
/-! DEFINITION. The archive container sequencer and the archive commands (spec/44_archive.md R190 to R217). -/

namespace Sys2Proof.Machine

/-! ## Shared micro-operations -/

/-- Change the working registers. -/
def updateWork (f : Work → Work) : Eng Unit := update fun e => { e with work := f e.work }

/-- The magic, a placeholder checksum 0 and a placeholder count 0 (R192, R203, R207). -/
def placeholder : Bytes := Config.magic ++ le32 0 ++ le32 0

/-- `create_file(path)` (R192). -/
def createFile (p : Path) : Eng Word := do
  (← openCreate .a p).must .fileOpenFailed
  let a ← reg .a
  wr a placeholder
  let c ← archiveCrc a
  sSeek a 12
  wr a (le32 c)
  closeReg .a
  pure c

/-- The name loop of `rec_read` (R193): the bytes up to 0x00, at most 254 of them, none of a 255-byte name or a stream that
ends before; `fuel` = 255 − the number read. -/
def readName : (fuel : Nat) → Eng (Option Path)
  | 0 => pure none
  | fuel + 1 => do
    match (← readByte) with
    | none   => pure none
    | some b =>
      if b = 0 then pure (some [])
      else if fuel = 0 then pure none
      else do pure ((← readName fuel).map (b :: ·))

/-- `rec_read()` (R193): the record's length, its entry in E; `none` is CORRUPT. -/
def recRead : Eng (Option Nat) := do
  match (← readName 255) with
  | none => pure none
  | some nm =>
    if nm.length = 0 then pure none
    else do
      match (← rd32) with
      | none   => pure none
      | some o => do
        match (← rd32) with
        | none   => pure none
        | some c => do
          match (← rd64) with
          | none   => pure none
          | some t => do
            updateWork fun w => { w with entry := ⟨nm, o, c, t⟩ }
            pure (some (nm.length + 17))

/-- `rec_at(pos)` (R194). -/
def recAt (pos : Nat) : Eng Nat := do
  let a ← reg .a
  sSeek a pos
  inInit a ((← look (·.work.size)) - pos)
  orRaise .storageError (← recRead)

/-- The mode of `open_validate` (R195). -/
inductive ValidateMode
  | abort
  | report
  deriving DecidableEq, Repr

/-- What `open_validate` returns (R195): OK or BAD, the stored and the computed checksum. -/
structure Validation where
  ok       : Bool
  stored   : Word
  computed : Word
  deriving DecidableEq, Repr

/-- `fail(mode)` (R195). -/
def failMode (mode : ValidateMode) (stored computed : Word) : Eng Validation :=
  match mode with
  | .abort  => raise .corruptArchive
  | .report => pure ⟨false, stored, computed⟩

/-- `A <- SOpen(path, R)`, after creating the file if it is absent (R195). -/
def openOrCreate (p : Path) : Eng Unit := do
  match (← openRead .a p) with
  | .handle _ => pure ()
  | .fail     => raise .fileOpenFailed
  | .notFound => do
    let _ ← createFile p
    (← openRead .a p).must .fileOpenFailed

/-- The magic test: EXHAUSTED mismatches too (R195). -/
def checkMagic : Bytes → Eng Unit
  | [] => pure ()
  | b :: bs => do
    let r ← readByte
    check (r == some b) .notAnArchive
    checkMagic bs

/-- The record loop of `open_validate` over `n` records to come (R195): the sum of compressed sizes, `none` if a record is
CORRUPT. HLEN grows by each record's length. -/
def validateRecords : (n : Nat) → (sum : Nat) → Eng (Option Nat)
  | 0, sum => pure (some sum)
  | n + 1, sum => do
    match (← recRead) with
    | none   => pure none
    | some k => do
      updateWork fun w => { w with hlen := w.hlen + k }
      validateRecords n (sum + (← look (·.work.entry.comp)).toNat)

/-- The structure test of `open_validate` (R195), after the checksum matched. -/
def validateStructure (a : Handle) : Eng Bool := do
  let size ← look (·.work.size)
  sSeek a 16
  inInit a (size - 16)
  let n ← orRaise .storageError (← rd32)
  updateWork fun w => { w with count := n, hlen := Config.hdrFixed }
  match (← validateRecords n.toNat 0) with
  | none     => pure false
  | some sum => do pure ((← look (·.work.hlen)) + sum == size)

/-- `open_validate(path, mode)` (R195). A file shorter than 20 bytes has its checksum computed for VERIFY's report (log 15);
the header words of a longer one are there, and a file that shrank is a STORAGE_ERROR (log 16). -/
def openValidate (p : Path) (mode : ValidateMode) : Eng Validation := do
  openOrCreate p
  let a ← reg .a
  let size ← sSize a
  updateWork fun w => { w with size := size }
  sSeek a 0
  inInit a 12
  checkMagic Config.magic
  if size < Config.hdrFixed then do
    match mode with
    | .abort  => raise .corruptArchive
    | .report => failMode mode 0 (← archiveCrc a)
  else do
    sSeek a 12
    inInit a 4
    let stored ← orRaise .storageError (← rd32)
    let computed ← archiveCrc a
    if stored = computed then do
      if (← validateStructure a) then pure ⟨true, stored, computed⟩
      else failMode mode stored computed
    else failMode mode stored computed

/-- `commit(T, path, n)` (R199). -/
def commit (p : Path) (n : Nat) : Eng Word := do
  let t ← reg .t
  sSeek t 16
  wr t (le32 (BitVec.ofNat 32 n))
  let c ← archiveCrc t
  sSeek t 12
  wr t (le32 c)
  check (← sReplace t p) .storageError
  setReg .t none
  pure c

/-- Which entries a command selects (R197): those whose name a valid name of the list equals, or all. -/
inductive Selection
  | names (ns : List Path)
  | all
  deriving DecidableEq, Repr

/-- Whether an entry of this name is selected (R197). -/
def Selection.picks : Selection → Path → Bool
  | .names ns, p => ns.any fun n => lengthValid n && n == p
  | .all, _ => true

/-- `STATMEM[i] <- NAME_INVALID` for each invalid name from number `i` on (R205, R207). -/
def markInvalid : (i : Nat) → List Path → Eng Unit
  | _, [] => pure ()
  | i, n :: ns => do
    if lengthValid n then pure () else setStatus i .nameInvalid
    markInvalid (i + 1) ns

/-- `STATMEM[i] <- NAME_NOT_FOUND` for each valid name with status NONE, from number `i` on (R205, R207). -/
def markMissing : (i : Nat) → List Path → Eng Unit
  | _, [] => pure ()
  | i, n :: ns => do
    let v ← look fun e => e.statByte i
    if lengthValid n && v == statusByte .none then setStatus i .nameNotFound else pure ()
    markMissing (i + 1) ns

/-- `STATMEM[i] <- r` for each valid name, from number `i` on, that equals the entry's and has status NONE or OK: the first
failure stays (R205, D29). -/
def markNames (entry : Path) (r : NameStatus) : (i : Nat) → List Path → Eng Unit
  | _, [] => pure ()
  | i, n :: ns => do
    let v ← look fun e => e.statByte i
    if lengthValid n && n == entry && (v == statusByte .none || v == statusByte .ok) then setStatus i r else pure ()
    markNames entry r (i + 1) ns

/-- The statuses of a selected entry: of the names that equal its name, or of entry j < 4096 in an ALL form (R198). -/
def Selection.mark (sel : Selection) (j : Nat) (entry : Path) (r : NameStatus) : Eng Unit :=
  match sel with
  | .names ns => markNames entry r 0 ns
  | .all      => if j < Config.statmemBytes then setStatus j r else pure ()

/-- The names of a selection, none for an ALL form. -/
def Selection.list : Selection → List Path
  | .names ns => ns
  | .all      => []

/-! ## CREATE, VERIFY, INFO, LIST_ENTRY -/

/-- CREATE's body (R202). -/
def bodyCreate (s : State) : Eng Report := do
  let p ← orRaise .badArgs (archPath s)
  let c ← createFile p
  pure (success c 20)

/-- CREATE (R202). -/
def execCreate (s : State) : Host.Outcome State Fault Refusal := runCommand (archiveNaming false s) s (bodyCreate s)

/-- VERIFY's body (R209). -/
def bodyVerify (s : State) : Eng Report := do
  let p ← orRaise .badArgs (archPath s)
  let v ← openValidate p .report
  pure (success (if v.ok then 1 else 0) v.computed)

/-- VERIFY (R209). -/
def execVerify (s : State) : Host.Outcome State Fault Refusal := runCommand (archiveNaming false s) s (bodyVerify s)

/-- INFO's body (R210). -/
def bodyInfo (s : State) : Eng Report := do
  let p ← orRaise .badArgs (archPath s)
  let v ← openValidate p .abort
  pure (success (← look (·.work.count)) v.stored)

/-- INFO (R210). -/
def execInfo (s : State) : Host.Outcome State Fault Refusal := runCommand (archiveNaming false s) s (bodyInfo s)

/-- `for j in 0..n: REC_POS <- REC_POS + rec_at(REC_POS)` (R211). -/
def skipRecords : (n : Nat) → Eng Unit
  | 0 => pure ()
  | n + 1 => do
    let pos ← look (·.work.recPos)
    let k ← recAt pos
    updateWork fun w => { w with recPos := pos + k }
    skipRecords n

/-- LIST_ENTRY's body (R211); the output is written at completion (R212). -/
def bodyListEntry (s : State) : Eng Report := do
  let p ← orRaise .badArgs (archPath s)
  let _ ← openValidate p .abort
  let count ← look (·.work.count)
  check (decide (s.entryIdx.toNat < count.toNat)) .badArgs
  updateWork fun w => { w with recPos := Config.hdrFixed }
  skipRecords s.entryIdx.toNat
  let _ ← recAt (← look (·.work.recPos))
  let en ← look (·.work.entry)
  check (decide (s.outPtr.toNat + en.name.length + 1 ≤ Config.argmemBytes)) .badArgs
  pure ⟨.none, BitVec.ofNat 32 en.name.length, count, some en⟩

/-- LIST_ENTRY (R211, R212). -/
def execListEntry (s : State) : Host.Outcome State Fault Refusal := runCommand (archiveNaming true s) s (bodyListEntry s)

/-! ## APPEND -/

/-- One name of APPEND's batch failed: its status, and K_FAIL counted (R203). -/
def failName (i : Nat) (v : NameStatus) : Eng Unit := do
  setStatus i v
  updateWork fun w => { w with kFail := w.kFail + 1 }

/-- APPEND of a file that opened and is small enough (R203): time, block, record, status OK. -/
def appendFile (i : Nat) (n : Path) (size : Nat) : Eng Unit := do
  let t ← sNow
  let (o, c) ← encodeFile (← reg .f) (← reg .d) size
  closeReg .f
  wr (← reg .m) (recBytes ⟨n, BitVec.ofNat 32 o, BitVec.ofNat 32 c, t⟩)
  setStatus i .ok
  updateWork fun w => { w with kOk := w.kOk + 1 }

/-- One name of APPEND's batch (R203). -/
def appendName (i : Nat) (n : Path) : Eng Unit := do
  if lengthValid n then do
    match (← openRead .f n) with
    | .notFound => failName i .fileOpenFailed
    | .fail     => failName i .fileOpenFailed
    | .handle f => do
      let size ← sSize f
      let w ← look (·.work)
      if Config.maxOrig < size ∨ w.count.toNat + w.kOk = 0xFFFFFFFF then do
        closeReg .f
        failName i .tooLarge
      else appendFile i n size
  else failName i .nameInvalid

/-- APPEND's batch, in name-list order from number `i` on (R203). -/
def appendNames : (i : Nat) → List Path → Eng Unit
  | _, [] => pure ()
  | i, n :: ns => do
    appendName i n
    appendNames (i + 1) ns

/-- `SSeek(h, pos); copy(h, T, n)`. -/
def copyFrom (h : Handle) (pos n : Nat) : Eng Unit := do
  sSeek h pos
  copy h (← reg .t) n

/-- `SSeek(h, 0); copy(h, T, SSize(h))`. -/
def copyWhole (h : Handle) : Eng Unit := do
  sSeek h 0
  let n ← sSize h
  copy h (← reg .t) n

/-- The staged archive of APPEND, committed (R203). -/
def appendCommit (p : Path) : Eng Unit := do
  let t ← reg .t
  sSeek t 0
  wr t placeholder
  let w ← look (·.work)
  let a ← reg .a
  copyFrom a 20 (w.hlen - 20)
  copyWhole (← reg .m)
  copyFrom a w.hlen (w.size - w.hlen)
  copyWhole (← reg .d)
  let _ ← commit p (w.count.toNat + w.kOk)

/-- APPEND's body (R203). -/
def bodyAppend (s : State) : Eng Report := do
  let (p, ns) ← orRaise .badArgs (batchOperands s)
  let _ ← openValidate p .abort
  (← openTemp .d).must .scratchUnavailable
  (← openTemp .m).must .scratchUnavailable
  (← openTemp .t).must .scratchUnavailable
  updateWork fun w => { w with kOk := 0, kFail := 0 }
  appendNames 0 ns
  if 0 < (← look (·.work.kOk)) then appendCommit p else pure ()
  let w ← look (·.work)
  pure (success (BitVec.ofNat 32 w.kOk) (BitVec.ofNat 32 (w.count.toNat + w.kOk)))

/-- The files APPEND names, in conflict if an input is the archive itself (R331; log 10); none where an operand check fails, not even a
valid archive path (DESIGN CHOICE, log 36). -/
def appendNaming (s : State) : Naming :=
  match batchOperands s with
  | some (p, ns) => ⟨p :: ns.filter lengthValid, ns.contains p, true, false⟩
  | none         => ⟨[], false, true, false⟩

/-- APPEND (R203). -/
def execAppend (s : State) : Host.Outcome State Fault Refusal := runCommand (appendNaming s) s (bodyAppend s)

/-! ## EXTRACT and EXTRACT_ALL -/

/-- `extract_entry(E, off)` (R206). -/
def extractEntry (en : Entry) (off : Nat) : Eng NameStatus := do
  match (← openCreate .g en.name) with
  | .fail     => pure .fileOpenFailed
  | .notFound => pure .fileOpenFailed
  | .handle g => do
    let a ← reg .a
    sSeek a off
    match (← decodeBlock a en.comp.toNat en.orig.toNat g) with
    | .corrupt _ => do
      closeReg .g
      pure .blockCorrupt
    | .done _ _ => do
      closeReg .g
      pure .ok

/-- The entry loop of EXTRACT over `n` entries from entry `j` on, in archive order (R205). -/
def extractLoop (sel : Selection) : (n : Nat) → (j : Nat) → Eng Unit
  | 0, _ => pure ()
  | n + 1, j => do
    let pos ← look (·.work.recPos)
    let off ← look (·.work.dataOff)
    let k ← recAt pos
    let en ← look (·.work.entry)
    if sel.picks en.name then do
      let r ← extractEntry en off
      updateWork fun w => if r = .ok then { w with kOk := w.kOk + 1 } else { w with kFail := w.kFail + 1 }
      sel.mark j en.name r
    else pure ()
    updateWork fun w => { w with recPos := pos + k, dataOff := off + en.comp.toNat }
    extractLoop sel n (j + 1)

/-- A STORAGE_ERROR from here on reports the counts reached so far (R205, D43). -/
def withCounts {α : Type} (x : Eng α) : Eng α := fun e =>
  match x e with
  | .error (.error .storageError _ _) e' =>
    .error (.error .storageError (BitVec.ofNat 32 e'.work.kOk) (BitVec.ofNat 32 e'.work.kFail)) e'
  | r => r

/-- EXTRACT after the operand checks (R205). -/
def extractFrom (p : Path) (sel : Selection) : Eng Report := do
  let _ ← openValidate p .abort
  markInvalid 0 sel.list
  updateWork fun w => { w with kOk := 0, kFail := 0, recPos := Config.hdrFixed, dataOff := w.hlen }
  withCounts (extractLoop sel (← look (·.work.count)).toNat 0)
  markMissing 0 sel.list
  let w ← look (·.work)
  pure (success (BitVec.ofNat 32 w.kOk) (BitVec.ofNat 32 w.kFail))

/-- The entries of the archive at a path, none if it is absent or does not parse. -/
def State.entriesAt (s : State) (p : Path) : List Entry :=
  match fsGet s.eng.storage.fs p with
  | none => []
  | some c =>
    match parse c true with
    | .archive es _ => es
    | .notAnArchive => []
    | .corrupt      => []

/-- The files EXTRACT names: the archive, the names of the list and the entries it writes; in conflict if an entry has the
archive's path as its name (R331; log 10); none where an operand check fails (DESIGN CHOICE, log 36). -/
def extractNaming (s : State) (ops : Option (Path × Selection)) : Naming :=
  match ops with
  | some (p, sel) =>
    let es := (s.entriesAt p).map (·.name)
    ⟨p :: (sel.list.filter lengthValid ++ es.filter sel.picks), es.contains p, true, false⟩
  | none => ⟨[], false, true, false⟩

/-- EXTRACT's operands (R105). -/
def namedOperands (s : State) : Option (Path × Selection) := (batchOperands s).map fun o => (o.1, .names o.2)

/-- EXTRACT_ALL's operands (R105). -/
def allOperands (s : State) : Option (Path × Selection) := (archPath s).map fun p => (p, .all)

/-- EXTRACT's body (R205). -/
def bodyExtract (s : State) : Eng Report := do
  let (p, sel) ← orRaise .badArgs (namedOperands s)
  extractFrom p sel

/-- EXTRACT_ALL's body (R205). -/
def bodyExtractAll (s : State) : Eng Report := do
  let (p, sel) ← orRaise .badArgs (allOperands s)
  extractFrom p sel

/-- EXTRACT (R205). -/
def execExtract (s : State) : Host.Outcome State Fault Refusal :=
  runCommand (extractNaming s (namedOperands s)) s (bodyExtract s)

/-- EXTRACT_ALL (R205). -/
def execExtractAll (s : State) : Host.Outcome State Fault Refusal :=
  runCommand (extractNaming s (allOperands s)) s (bodyExtractAll s)

/-! ## REMOVE and REMOVE_ALL -/

/-- Pass 1 of REMOVE over `n` records from entry `j` on (R207): the records kept are copied to T; (kept, removed) in the
end. -/
def removeRecords (sel : Selection) : (n : Nat) → (j : Nat) → (kept removed : Nat) → Eng (Nat × Nat)
  | 0, _, kept, removed => pure (kept, removed)
  | n + 1, j, kept, removed => do
    let pos ← look (·.work.recPos)
    let k ← recAt pos
    let en ← look (·.work.entry)
    if sel.picks en.name then do
      sel.mark j en.name .ok
      updateWork fun w => { w with recPos := pos + k }
      removeRecords sel n (j + 1) kept (removed + 1)
    else do
      copyFrom (← reg .a) pos k
      updateWork fun w => { w with recPos := pos + k }
      removeRecords sel n (j + 1) (kept + 1) removed

/-- Pass 2 of REMOVE over `n` records (R207): the blocks kept are copied to T. -/
def removeBlocks (sel : Selection) : (n : Nat) → Eng Unit
  | 0 => pure ()
  | n + 1 => do
    let pos ← look (·.work.recPos)
    let off ← look (·.work.dataOff)
    let k ← recAt pos
    let en ← look (·.work.entry)
    if sel.picks en.name then pure ()
    else copyFrom (← reg .a) off en.comp.toNat
    updateWork fun w => { w with recPos := pos + k, dataOff := off + en.comp.toNat }
    removeBlocks sel n

/-- REMOVE after the operand checks (R207). -/
def removeFrom (p : Path) (sel : Selection) : Eng Report := do
  let _ ← openValidate p .abort
  (← openTemp .t).must .scratchUnavailable
  markInvalid 0 sel.list
  let t ← reg .t
  sSeek t 0
  wr t placeholder
  let n := (← look (·.work.count)).toNat
  updateWork fun w => { w with recPos := Config.hdrFixed }
  let (kept, removed) ← removeRecords sel n 0 0 0
  updateWork fun w => { w with recPos := Config.hdrFixed, dataOff := w.hlen }
  removeBlocks sel n
  markMissing 0 sel.list
  if 0 < removed then do
    let _ ← commit p kept
  else pure ()
  pure (success (BitVec.ofNat 32 removed) (BitVec.ofNat 32 kept))

/-- The files REMOVE names: the archive and the names of the list (R331); none where an operand check fails (DESIGN CHOICE,
log 36). -/
def removeNaming (ops : Option (Path × Selection)) : Naming :=
  match ops with
  | some (p, sel) => ⟨p :: sel.list.filter lengthValid, false, true, false⟩
  | none          => ⟨[], false, true, false⟩

/-- REMOVE's body (R207). -/
def bodyRemove (s : State) : Eng Report := do
  let (p, sel) ← orRaise .badArgs (namedOperands s)
  removeFrom p sel

/-- REMOVE_ALL's body (R207). -/
def bodyRemoveAll (s : State) : Eng Report := do
  let (p, sel) ← orRaise .badArgs (allOperands s)
  removeFrom p sel

/-- REMOVE (R207). -/
def execRemove (s : State) : Host.Outcome State Fault Refusal := runCommand (removeNaming (namedOperands s)) s (bodyRemove s)

/-- REMOVE_ALL (R207). -/
def execRemoveAll (s : State) : Host.Outcome State Fault Refusal := runCommand (removeNaming (allOperands s)) s (bodyRemoveAll s)

end Sys2Proof.Machine
end

