-- ==== Sys2Proof/Machine/Dispatch.lean ====
section
/-! DEFINITION. The dispatch of a command to its meaning (spec/30_encoding.md R102). -/

namespace Sys2Proof.Machine

/-- The meaning of each command. -/
def exec (i : Instr) (s : State) : Host.Outcome State Fault Refusal :=
  match i with
  | .create => Sys2Proof.Machine.execCreate s
  | .append => Sys2Proof.Machine.execAppend s
  | .extract => Sys2Proof.Machine.execExtract s
  | .extractAll => Sys2Proof.Machine.execExtractAll s
  | .remove => Sys2Proof.Machine.execRemove s
  | .removeAll => Sys2Proof.Machine.execRemoveAll s
  | .verify => Sys2Proof.Machine.execVerify s
  | .info => Sys2Proof.Machine.execInfo s
  | .listEntry => Sys2Proof.Machine.execListEntry s
  | .encode => Sys2Proof.Machine.execEncode s
  | .decode => Sys2Proof.Machine.execDecode s
  | .crc32 => Sys2Proof.Machine.execCrc32 s

end Sys2Proof.Machine
end

