-- ==== Sys2Proof/Machine/HostPort.lean ====
section
/-! DEFINITION. The turns of the agents: the engine (spec/10_state.md R21, R24, spec/30_encoding.md R101), the host's
accesses to the register window (spec/20_memory.md R50 to R56), the host's changes of the namespace (spec/10_state.md R49,
spec/70_reset_and_hazards.md R331) and reset (spec/70_reset_and_hazards.md R315 to R322). -/

namespace Sys2Proof.Machine

/-! ## The engine's turn -/

/-- The completion of a word that is no command: BAD_COMMAND, no storage request (R101, R103). -/
def badCommand (s : State) : State := s.complete ⟨.badCommand, 0, 0, none⟩

/-- The engine's turn (R21): in RUN(w) it decodes w and runs the command to its completion; idle (R317) or at a request
that is never answered (U14) it takes no step. -/
def engineTurn (s : State) : Host.Outcome State Fault Refusal :=
  match s.seq with
  | .idle    => .next s
  | .stuck _ => .next s
  | .run w   =>
    match decode (bytesOfWord w) with
    | .ok (i, _) => exec i s
    | .error _   => .next (badCommand s)

/-- The state the engine's turn leads to, from which reads while BUSY = 1 take final values (U2, U4; log 11, log 12). -/
def lookahead (s : State) : State :=
  match engineTurn s with
  | .next t    => t
  | .fault _   => s
  | .refused _ => s

/-! ## Reads -/

/-- The number of bytes of an access (R52). -/
def Width.bytes : Width → Nat
  | .w8  => 1
  | .w16 => 2
  | .w32 => 4

/-- The regions of the window (R18, R50). -/
inductive Region
  | register (off : Nat)
  | statmem (i : Nat)
  | reserved
  | argmem (i : Nat)
  deriving DecidableEq, Repr

/-- The region a window offset lies in (R18, R50). -/
def regionOf (off : Nat) : Region :=
  if off < 0x1000 then .register off
  else if off < 0x2000 then .statmem (off - 0x1000)
  else if off < 0x10000 then .reserved
  else .argmem (off - 0x10000)

/-- Whether an access of this width is accepted at this offset (R52, R54): the reserved range 0x2000..0xFFFF accepts every
width at every offset (log 13). -/
def accepted (off : Nat) (n : Width) : Bool :=
  match regionOf off with
  | .register o => n == .w32 && o % 4 == 0
  | .statmem i  => i % n.bytes == 0
  | .reserved   => true
  | .argmem i   => i % n.bytes == 0

/-- A register of the window as the host reads it (R18); reserved offsets read 0 (R54). -/
def State.readReg (s : State) (off : Nat) : Word :=
  if off = 0x000 then Config.idValue
  else if off = 0x004 then Config.versionValue
  else if off = 0x008 then s.cmd
  else if off = 0x00C then s.status
  else if off = 0x010 then s.ieWord
  else if off = 0x014 then s.errorWord
  else if off = 0x018 then s.result0
  else if off = 0x01C then s.result1
  else if off = 0x020 then s.archPtr.setWidth 32
  else if off = 0x024 then s.namesPtr.setWidth 32
  else if off = 0x028 then s.argc.setWidth 32
  else if off = 0x02C then s.outPtr.setWidth 32
  else if off = 0x030 then s.entryIdx
  else if off = 0x034 then s.decSize
  else if off = 0x038 then s.crcOffLo
  else if off = 0x03C then s.crcOffHi
  else if off = 0x040 then s.entOrig
  else if off = 0x044 then s.entComp
  else if off = 0x048 then s.entRatioLo
  else if off = 0x04C then s.entRatioHi
  else if off = 0x050 then s.entTimeLo
  else if off = 0x054 then s.entTimeHi
  else 0

/-- Whether STATMEM[i] shows its final value while BUSY = 1 (R198, U2): from a free moment of the command on, and then to its end,
since the counter of free values only grows (log 11). -/
def State.shows (s : State) (i : Nat) : Bool := decide (Config.freeTime s.cmdNo i ≤ s.eng.draws.free)

/-- A STATMEM byte as the host reads it: while BUSY = 1 first 0x00, then its final value (R39, R198, U2; log 11). Of a command that never
completes (U14), which has no final values, it is then the status written when the command came to wait (DESIGN CHOICE, log 11). -/
def State.readStat (s : State) (i : Nat) : Byte :=
  if s.busy then (if s.shows i then (lookahead s).eng.statByte i else 0)
  else s.eng.statByte i

/-- How many bytes from OUT_PTR on a LIST_ENTRY that runs may write (R38, R212): the name and its 0x00 if it is going to succeed,
and the most a name can take where its completion is not known: it waits at a request that is never answered (U14), or a duty
was broken (U13) (log 12). -/
def State.listBytes (s : State) : Nat :=
  if (lookahead s).busy || s.breached.isSome then Config.nameMax + 1
  else if (lookahead s).errCode == 0 then (lookahead s).result0.toNat + 1
  else 0

/-- Whether ARGMEM[i] lies in the output area of a LIST_ENTRY that runs (R38, U4; log 12). -/
def State.inListArea (s : State) (i : Nat) : Bool :=
  s.busy && (decodeWord s.cmd).toOption == some .listEntry &&
    decide (s.outPtr.toNat ≤ i) && decide (i < s.outPtr.toNat + s.listBytes)

/-- An ARGMEM byte as the host reads it: unspecified in the output area of a LIST_ENTRY that runs (R38, U4; log 12). -/
def State.readArg (s : State) (i : Nat) : Byte :=
  if s.inListArea i then Config.freeByte (s.eng.draws.free + i) else s.argByte i

/-- A little-endian value of `n` bytes (R55). -/
def readLE (byteAt : Nat → Byte) (i : Nat) (n : Width) : Word :=
  BitVec.ofNat 32 (leNat ((List.range n.bytes).map fun k => byteAt (i + k)))

/-- The data of an accepted read (R18, R54, R55). -/
def State.readData (s : State) (off : Nat) (n : Width) : Word :=
  match regionOf off with
  | .register o => s.readReg o
  | .statmem i  => readLE s.readStat i n
  | .reserved   => 0
  | .argmem i   => readLE s.readArg i n

/-! ## Writes -/

/-- A host write to CMD: acceptance, or an overrun while BUSY = 1 (R24, R28). -/
def State.writeCmd (s : State) (v : Word) : State := if s.busy then { s with ovr := true } else s.accept v

/-- A host write to an argument register, ignored while BUSY = 1 (R20); reserved bits are dropped (R17). -/
def State.writeArgReg (s : State) (off : Nat) (v : Word) : State :=
  if s.busy then s
  else if off = 0x020 then { s with archPtr := v.extractLsb' 0 16 }
  else if off = 0x024 then { s with namesPtr := v.extractLsb' 0 16 }
  else if off = 0x028 then { s with argc := v.extractLsb' 0 13 }
  else if off = 0x02C then { s with outPtr := v.extractLsb' 0 16 }
  else if off = 0x030 then { s with entryIdx := v }
  else if off = 0x034 then { s with decSize := v }
  else if off = 0x038 then { s with crcOffLo := v }
  else if off = 0x03C then { s with crcOffHi := v }
  else s

/-- A host write to a register (R18, R19); the read-only and reserved ones ignore it (R17, R54). -/
def State.writeReg (s : State) (off : Nat) (v : Word) : State :=
  if off = 0x008 then s.writeCmd v
  else if off = 0x00C then s.writeStatus v
  else if off = 0x010 then s.writeIE v
  else s.writeArgReg off v

/-- A host write to ARGMEM, ignored while BUSY = 1 (R20, R38, R55). -/
def State.writeArg (s : State) (i : Nat) (n : Width) (v : Word) : State :=
  if s.busy then s
  else { s with argmem := Memory.writeBytes (argDefault s.argEpoch) s.argmem i ((bytesOfWord v).take n.bytes) }

/-- An accepted write (R18, R54): STATMEM is read-only (R39). -/
def State.writeData (s : State) (off : Nat) (n : Width) (v : Word) : State :=
  match regionOf off with
  | .register o => s.writeReg o v
  | .statmem _  => s
  | .reserved   => s
  | .argmem i   => s.writeArg i n v

/-- How far a read moves the counter of free values: past every byte number, if it may have used some (U4); a later read may then
show more final statuses (U2). -/
def State.usedFree (s : State) : State :=
  if s.busy then
    { s with eng := { s.eng with draws := { s.eng.draws with free := s.eng.draws.free + Config.argmemBytes } } }
  else s

/-- One host access (R11, R52 to R56): its response is kept in `bus`; a bus error changes nothing else and reads 0. -/
def State.access (s : State) : HostAccess → State
  | .read off n =>
    if accepted off.toNat n then { s.usedFree with bus := ⟨s.readData off.toNat n, false⟩ }
    else { s with bus := ⟨0, true⟩ }
  | .write off n v =>
    if accepted off.toNat n then { s.writeData off.toNat n v with bus := ⟨0, false⟩ }
    else { s with bus := ⟨0, true⟩ }

/-! ## The host's storage turns -/

/-- The files a command names (R331). -/
def naming (i : Instr) (s : State) : Naming :=
  match i with
  | .create     => archiveNaming false s
  | .append     => appendNaming s
  | .extract    => extractNaming s (namedOperands s)
  | .extractAll => extractNaming s (allOperands s)
  | .remove     => removeNaming (namedOperands s)
  | .removeAll  => removeNaming (allOperands s)
  | .verify     => archiveNaming false s
  | .info       => archiveNaming false s
  | .listEntry  => archiveNaming true s
  | .encode     => twoFilesNaming s
  | .decode     => twoFilesNaming s
  | .crc32      => oneFileNaming s

/-- The files the running command names (R331): none if no command runs, and none of a word that is no command or of a command whose
operand checks fail (DESIGN CHOICE, log 36). -/
def State.namedFiles (s : State) : List Path :=
  if s.busy then
    match decodeWord s.cmd with
    | .ok i    => (naming i s).files
    | .error _ => []
  else []

/-- The state with a file of the namespace written or deleted. -/
def State.setFile (s : State) (p : Path) (c : Option Bytes) : State :=
  { s with eng := { s.eng with storage := { s.eng.storage with fs := fsSet s.eng.storage.fs p c } } }

/-- The state with a change of a file to come after `after` more storage requests of the running command (log 10). -/
def State.queueEdit (s : State) (after : Nat) (p : Path) (c : Option Bytes) : State :=
  let d := s.eng.draws
  { s with eng := { s.eng with draws := { d with edits := d.edits ++ [⟨d.reqNo + after, p, c⟩] } } }

/-- Whether the host's change of a file waits for the running command: one the command names may fall between any two of its
requests, and no change overtakes another; the change of any other file is the same at once (log 10). -/
def State.editWaits (s : State) (p : Path) : Bool :=
  match s.seq with
  | .run _   => s.namedFiles.contains p || !s.eng.draws.edits.isEmpty
  | .idle    => false
  | .stuck _ => false

/-- The host writes or deletes a file of the namespace (R49), during a command after `after` more of its requests; a path or a
content that no file can have is ignored (log 28). A file the running command names, before the change or after it, is a
broken duty (R331, U13; log 10). -/
def State.editFile (s : State) (after : Nat) (p : Path) (c : Option Bytes) : State :=
  if Path.wf p && decide ((c.getD []).length ≤ Config.fileMax) then
    let t := if s.editWaits p then s.queueEdit after p c else s.setFile p c
    if s.namedFiles.contains p then
      { t with breached := some (s.breached.getD [] ++ (s.namedFiles ++ (s.setFile p c).namedFiles)) }
    else t
  else s

/-! ## Reset -/

/-- The state of a running command after `answered` more storage requests were answered and no other (R322; log 24). Of a command that
waits at a request that is never answered, that request has no effect, whatever `answered` says; that it took full effect (U21) is
the run in which one request more is answered (DESIGN CHOICE, log 24). -/
def State.cutAfter (s : State) (answered : Nat) : State :=
  match s.seq with
  | .idle    => s
  | .stuck _ => s
  | .run _   =>
    lookahead { s with eng := { s.eng with draws := { s.eng.draws with
      answers := some (min answered (s.eng.draws.answers.getD answered)) } } }

/-- The storage after reset (R319): handles closed, temporary files discarded. -/
def Storage.forget (st : Storage) : Storage := { st with temps := [], handles := [] }

/-- What the storage's files hold after a reset that cut a command: those open for writing anything (U6 to U8; log 9), and
every named file where a duty was broken, by the host or by the command's own operands (U13; log 10). -/
def afterCut (e : Engine) (breached : Option (List Path)) : Engine :=
  match (do scramble e.storage.openForWriting; unspecify (breached.getD []) : Eng Unit) e with
  | .ok _ e'    => e'
  | .error _ e' => e'

/-- Reset (R315 to R320): every register at its reset value, the handles forgotten, FS kept; ARGMEM unspecified (U1;
log 2). `answered` is how many storage requests of a running command were answered before it (R322). -/
def State.resetTurn (s : State) (answered : Nat) : State :=
  let cut := s.cutAfter answered
  let e := afterCut cut.eng (if s.busy then cut.breached else none)
  let left := s.eng.draws.answers.map (· - (e.draws.reqNo - s.eng.draws.reqNo))
  { State.reset with
    argEpoch := s.argEpoch + 1
    cmdNo    := s.cmdNo
    eng      := { e with
      statmem := []
      work    := { e.work with a := none, d := none, m := none, t := none, f := none, g := none }
      storage := e.storage.forget
      draws   := { e.draws with answers := left } }
    bus      := s.bus
    schedule := s.schedule }

end Sys2Proof.Machine
end

