-- ==== Sys2Proof/Machine/Step.lean ====
section
/-! DEFINITION. One step of the system (spec/00_scope.md R7, spec/60_exceptions.md R296): the next turn of the schedule,
and the engine's when the schedule is empty (log 1). -/

namespace Sys2Proof.Machine

/-- The host polls STATUS until it reads DONE = 1 (WAITDONE, R112): one read, and if DONE is 0 the engine's turn and the poll again
come next, before any other turn (R113, R335; log 35). -/
def State.poll (s : State) : State :=
  let t := s.access (.read 0x00C .w32)
  if t.bus.data.getLsbD 1 then t else { t with schedule := .engine :: .waitDone :: t.schedule }

/-- One turn. -/
def turn (t : Turn) (s : State) : Host.Outcome State Fault Refusal :=
  match t with
  | .engine         => engineTurn s
  | .access a       => .next (s.access a)
  | .waitDone       => .next s.poll
  | .putFile k p c  => .next (s.editFile k p (some c))
  | .deleteFile k p => .next (s.editFile k p none)
  | .reset k        => .next (s.resetTurn k)

/-- One step. -/
def step (s : State) : Host.Outcome State Fault Refusal :=
  match s.schedule with
  | []        => engineTurn s
  | t :: rest => turn t { s with schedule := rest }

/-- `s` just after the host's CMD write of the word `w` was accepted (R24), with the engine's turn next: the HCE fetches
nothing (R21), so the command word stands in CMD and SEQ. -/
def State.withFetchWord (s : State) (nbits w : Nat) : State :=
  { s.accept (BitVec.ofNat 32 (w % 2 ^ nbits)) with schedule := .engine :: s.schedule }

end Sys2Proof.Machine
end

