-- ==== Sys2Proof/Machine/Block.lean ====
section
/-! DEFINITION. What a block is (spec/20_memory.md R65, spec/43_huffman.md R165 to R184) as functions on byte sequences and
trees, without the engine's arena, heap and streams: the tree a file has, its serialization, its codes, the block, and
what decoding a block gives. The engine's ENCODE and DECODE work on storage; these say what they compute. -/

namespace Sys2Proof.Machine

/-- A code tree (R165), without frequencies. -/
inductive Tree
  | leaf (sym : Byte)
  | node (l r : Tree)
  deriving DecidableEq, Repr

/-- The preorder serialization (R173): "1" and the symbol for a leaf, "0" and both subtrees for an internal node. -/
def Tree.bits : Tree → Bits
  | .leaf s   => true :: byteBits s
  | .node l r => false :: (l.bits ++ r.bits)

/-- The root-to-leaf paths (R170): "0" on a left edge, "1" on a right edge. -/
def Tree.paths : Tree → List (Byte × Bits)
  | .leaf s   => [(s, [])]
  | .node l r => l.paths.map (fun p => (p.1, false :: p.2)) ++ r.paths.map (fun p => (p.1, true :: p.2))

/-- A symbol's code (R170): its path, and "0" where the tree is one leaf. -/
def Tree.code : Tree → Byte → Bits
  | .leaf _, _   => [false]
  | .node l r, b => (((Tree.node l r).paths.find? fun p => p.1 == b).map (·.2)).getD []

/-- The number of nodes. -/
def Tree.size : Tree → Nat
  | .leaf _   => 1
  | .node l r => l.size + r.size + 1

/-- The number of leaves. -/
def Tree.leaves : Tree → Nat
  | .leaf _   => 1
  | .node l r => l.leaves + r.leaves

/-- A tree waiting to be merged, with its key (frequency, sequence number) (R156). -/
structure Item where
  freq : Nat
  seq  : Nat
  tree : Tree
  deriving DecidableEq, Repr

/-- The order of keys (R156). -/
def Item.lt (a b : Item) : Bool := decide (a.freq < b.freq) || (a.freq == b.freq && decide (a.seq < b.seq))

/-- Insert into a list whose keys rise (R160: any priority queue with this key). -/
def insertItem (x : Item) : List Item → List Item
  | [] => [x]
  | y :: ys => if x.lt y then x :: y :: ys else y :: insertItem x ys

/-- The leaves of the `n` symbols from `s` on that occur in the file, in ascending symbol order, numbered from `k` on
(R168). -/
def leafItems (file : Bytes) : (n : Nat) → (s : Nat) → (k : Nat) → List Item
  | 0, _, _ => []
  | n + 1, s, k =>
    let f := file.count (BitVec.ofNat 8 s)
    if 0 < f then ⟨f, k, .leaf (BitVec.ofNat 8 s)⟩ :: leafItems file n (s + 1) (k + 1) else leafItems file n (s + 1) k

/-- Merge the two least items until one is left (R168): the first extracted is the left child; new nodes are numbered from
`k` on; `fuel` is at least the number of items. -/
def mergeItems : (fuel : Nat) → (k : Nat) → List Item → List Item
  | fuel + 1, k, a :: b :: rest => mergeItems fuel (k + 1) (insertItem ⟨a.freq + b.freq, k, .node a.tree b.tree⟩ rest)
  | _, _, xs => xs

/-- The code tree of a file, none for the empty file (R168). -/
def huffTree (file : Bytes) : Option Tree :=
  let leaves := leafItems file Config.alphabet 0 0
  let sorted := leaves.foldl (fun xs x => insertItem x xs) []
  ((mergeItems leaves.length leaves.length sorted).head?).map (·.tree)

/-- tree_bits ‖ payload_bits (R65). -/
def blockBits (t : Tree) (file : Bytes) : Bits := t.bits ++ file.flatMap t.code

/-- The block of a file (R65, R176): empty for the empty file. -/
def blockOf (file : Bytes) : Bytes :=
  match huffTree file with
  | none   => []
  | some t => pack (blockBits t file)

/-- `des()` (R179) on a bit string: the tree, the number of nodes allocated after it, and the bits that follow; none where
the bits end or a 512th node would be allocated. -/
def readTree : (fuel : Nat) → (nn : Nat) → Bits → Option (Tree × Nat × Bits)
  | 0, _, _ => none
  | _ + 1, _, [] => none
  | fuel + 1, nn, b :: bs =>
    if nn = Config.nodeCap then none
    else if b then
      if bs.length < 8 then none
      else some (.leaf (BitVec.ofNat 8 (bitsValue (bs.take 8))), nn + 1, bs.drop 8)
    else
      match readTree fuel (nn + 1) bs with
      | none => none
      | some (l, n1, bs1) =>
        match readTree fuel n1 bs1 with
        | none => none
        | some (r, n2, bs2) => some (.node l r, n2, bs2)

/-- The descent of R180 from a node: the symbol and the bits that follow. -/
def Tree.walk : Tree → Bits → Option (Byte × Bits)
  | .leaf s, bs => some (s, bs)
  | .node _ _, [] => none
  | .node l r, b :: bs => if b then r.walk bs else l.walk bs

/-- `decode_symbol()` (R180): a one-leaf tree consumes one bit, whose value is not checked (D20). -/
def Tree.symbol : Tree → Bits → Option (Byte × Bits)
  | .leaf s, bs =>
    match bs with
    | [] => none
    | _ :: rest => some (s, rest)
  | .node l r, bs => (Tree.node l r).walk bs

/-- `n` symbols (R181): those decoded, the bits that follow, and whether all were there. -/
def readSymbols (t : Tree) : (n : Nat) → Bits → Bytes × Bits × Bool
  | 0, bs => ([], bs, true)
  | n + 1, bs =>
    match t.symbol bs with
    | none => ([], bs, false)
    | some (s, rest) =>
      let r := readSymbols t n rest
      (s :: r.1, r.2.1, r.2.2)

/-- What decoding a block gives (R181): the bytes written, and the number of bits consumed where it succeeds, none for
BLOCK_CORRUPT. -/
structure Unblocked where
  bytes : Bytes
  used  : Option Nat
  deriving DecidableEq, Repr

/-- `decode` of a block with symbol count `o` (R181). -/
def unblock (block : Bytes) (o : Nat) : Unblocked :=
  if o = 0 then ⟨[], some 0⟩
  else
    match readTree (Config.nodeCap + 1) 0 (bitsOf block) with
    | none => ⟨[], none⟩
    | some (t, _, rest) =>
      let r := readSymbols t o rest
      ⟨r.1, if r.2.2 then some ((bitsOf block).length - r.2.1.length) else none⟩

end Sys2Proof.Machine
end

