-- ==== Sys2Proof/Machine/Effects.lean ====
section
/-! DEFINITION. What each archive command computes (spec/44_archive.md R195 to R208), as functions on the namespace and on
the entries and blocks an archive parses to, where every storage request is answered and none fails. The commands of
Archive.lean work on storage, request by request; these say what they come to. -/

namespace Sys2Proof.Machine

/-- A namespace. -/
abbrev Files := List (Path × Bytes)

/-- The content of the archive that open_validate opens: an absent one is created empty (R195). -/
def openedContent (fs : Files) (p : Path) : Bytes := (fsGet fs p).getD emptyArchive

/-- The namespace after open_validate's open (R195). -/
def openedFs (fs : Files) (p : Path) : Files :=
  match fsGet fs p with
  | some _ => fs
  | none   => fsPut fs p emptyArchive

/-- What the archive that open_validate opens parses to (R68, R196). -/
def openedArchive (fs : Files) (p : Path) : ParseResult := parse (openedContent fs p) true

/-- The stored checksum of an archive (R61). -/
def storedChecksum (c : Bytes) : Word := rdLE32 ((c.drop 12).take 4)

/-- The checksum as recomputed (R147). -/
def bodyChecksum (c : Bytes) : Word := crc32Of (c.drop 16)

/-! ## EXTRACT (R205, R206) -/

/-- How an entry's extraction ends (R206). -/
def entryStatus (x : Entry × Bytes) : NameStatus :=
  if (unblock x.2 x.1.orig.toNat).used.isSome then .ok else .blockCorrupt

/-- The entries a selection picks, with their blocks, in archive order (R197). -/
def picked (sel : Selection) (xs : List (Entry × Bytes)) : List (Entry × Bytes) := xs.filter fun x => sel.picks x.1.name

/-- The namespace after the picked entries were extracted, in archive order (R205). -/
def extractedFs (sel : Selection) (fs : Files) (xs : List (Entry × Bytes)) : Files :=
  (picked sel xs).foldl (fun fs x => fsPut fs x.1.name (unblock x.2 x.1.orig.toNat).bytes) fs

/-- K_OK and K_FAIL (R205). -/
def extractedCounts (sel : Selection) (xs : List (Entry × Bytes)) : Nat × Nat :=
  (((picked sel xs).filter fun x => entryStatus x = .ok).length,
   ((picked sel xs).filter fun x => entryStatus x ≠ .ok).length)

/-- The status of one name of EXTRACT's list: the first failure among the entries it matches, or OK (R205, D29). -/
def extractedStatus (xs : List (Entry × Bytes)) (n : Path) : NameStatus :=
  if lengthValid n then
    match (xs.filter fun x => x.1.name == n).map entryStatus with
    | []     => .nameNotFound
    | v :: vs => ((v :: vs).find? fun r => r ≠ .ok).getD .ok
  else .nameInvalid

/-! ## REMOVE (R207, R208) -/

/-- The entries a selection leaves, with their blocks, in order (R208). -/
def spared (sel : Selection) (xs : List (Entry × Bytes)) : List (Entry × Bytes) := xs.filter fun x => !sel.picks x.1.name

/-- The namespace after REMOVE: unchanged if nothing was removed (R200, R208). -/
def removedFs (sel : Selection) (fs : Files) (p : Path) (xs : List (Entry × Bytes)) : Files :=
  if (picked sel xs).isEmpty then fs
  else fsPut fs p (ser ((spared sel xs).map (·.1)) ((spared sel xs).map (·.2)))

/-- The status of one name of REMOVE's list (R207). -/
def removedStatus (es : List Entry) (n : Path) : NameStatus :=
  if lengthValid n then (if (es.any fun en => en.name == n) then .ok else .nameNotFound) else .nameInvalid

/-! ## APPEND (R203, R204) -/

/-- What becomes of the names of APPEND's batch in an archive of `count` entries, after `k` were added (R203): the new
entries with their blocks, and the statuses. `time i` is the time port's answer for the i-th file added. -/
def appended (fs : Files) (count : Nat) (time : Nat → Dword) : (k : Nat) → List Path →
    List (Entry × Bytes) × List NameStatus
  | _, [] => ([], [])
  | k, n :: ns =>
    if lengthValid n then
      match fsGet fs n with
      | none => let r := appended fs count time k ns; (r.1, .fileOpenFailed :: r.2)
      | some c =>
        if Config.maxOrig < c.length ∨ count + k = 0xFFFFFFFF then
          let r := appended fs count time k ns; (r.1, .tooLarge :: r.2)
        else
          let r := appended fs count time (k + 1) ns
          ((⟨n, BitVec.ofNat 32 c.length, BitVec.ofNat 32 (blockOf c).length, time k⟩, blockOf c) :: r.1, .ok :: r.2)
    else let r := appended fs count time k ns; (r.1, .nameInvalid :: r.2)

/-- The namespace after APPEND: unchanged if nothing was added (R200, R204). -/
def appendedFs (fs : Files) (p : Path) (xs new : List (Entry × Bytes)) : Files :=
  if new.isEmpty then fs
  else fsPut fs p (ser ((xs ++ new).map (·.1)) ((xs ++ new).map (·.2)))

/-- The time port's answer to the i-th request from now on (R304; log 6). -/
def Draws.time (d : Draws) (i : Nat) : Dword :=
  if h : i < d.nows.length then d.nows[i] else Config.freeNow (d.free + (i - d.nows.length))

end Sys2Proof.Machine
end

