-- ==== Sys2Proof/Machine/HostProgram.lean ====
section
/-! DEFINITION. Host programs (spec/30_encoding.md R111 to R113): the statements of the notation and the turns they
expand to, and which lists of statements are programs. -/

namespace Sys2Proof.Machine

/-- The register names of R18. -/
inductive RegName
  | id | version | cmd | status | ie | error | result0 | result1 | archPtr | namesPtr | argc | outPtr | entryIdx
  | decSize | crcOffLo | crcOffHi | entOrig | entComp | entRatioLo | entRatioHi | entTimeLo | entTimeHi
  deriving DecidableEq, Repr

/-- The window offset of a register (R18). -/
def RegName.offset : RegName → BitVec 17
  | .id         => 0x000
  | .version    => 0x004
  | .cmd        => 0x008
  | .status     => 0x00C
  | .ie         => 0x010
  | .error      => 0x014
  | .result0    => 0x018
  | .result1    => 0x01C
  | .archPtr    => 0x020
  | .namesPtr   => 0x024
  | .argc       => 0x028
  | .outPtr     => 0x02C
  | .entryIdx   => 0x030
  | .decSize    => 0x034
  | .crcOffLo   => 0x038
  | .crcOffHi   => 0x03C
  | .entOrig    => 0x040
  | .entComp    => 0x044
  | .entRatioLo => 0x048
  | .entRatioHi => 0x04C
  | .entTimeLo  => 0x050
  | .entTimeHi  => 0x054

/-- The statements of R111 and R112. -/
inductive Stmt
  | wr (r : RegName) (v : Word)
  | rd (r : RegName)
  | wrb (off : BitVec 17) (b : Byte)
  | rdb (off : BitVec 17)
  | argstr (a : BitVec 17) (s : Bytes)
  | issue (i : Instr)
  | waitDone
  | call (i : Instr)
  | expect (r : RegName) (v : Word)
  | expectB (off : BitVec 17) (b : Byte)
  deriving DecidableEq, Repr

/-- `WR reg, v` (R111). -/
def wrTurn (r : RegName) (v : Word) : Turn := .access (.write r.offset .w32 v)
/-- `RD reg` (R111). -/
def rdTurn (r : RegName) : Turn := .access (.read r.offset .w32)
/-- `WRB off, b` (R111). -/
def wrbTurn (off : BitVec 17) (b : Byte) : Turn := .access (.write off .w8 (b.setWidth 32))
/-- `RDB off` (R111). -/
def rdbTurn (off : BitVec 17) : Turn := .access (.read off .w8)

/-- The byte writes of `ARGSTR` from window offset `off` on (R112). A string that runs past the window's last offset 0x1FFFF goes
on at offset 0: R111 has no offset beyond, and R112 does not say what such a string does (DESIGN CHOICE, log 34). -/
def argstrTurns (off : BitVec 17) : Bytes → List Turn
  | [] => []
  | b :: bs => wrbTurn off b :: argstrTurns (off + 1) bs

/-- The turns of a statement (R111, R112). WAITDONE is one turn that comes again until STATUS reads DONE = 1 (State.poll). An EXPECT
is its read; the comparison is the reader's. -/
def Stmt.turns : Stmt → List Turn
  | .wr r v      => [wrTurn r v]
  | .rd r        => [rdTurn r]
  | .wrb off b   => [wrbTurn off b]
  | .rdb off     => [rdbTurn off]
  | .argstr a s  => argstrTurns (0x10000 + a) (s ++ [0])
  | .issue i     => [wrTurn .cmd i.word]
  | .waitDone    => [.waitDone]
  | .call i      => [wrTurn .cmd i.word, .waitDone]
  | .expect r _  => [rdTurn r]
  | .expectB o _ => [rdbTurn o]

/-- Whether a statement writes CMD and does not wait: ISSUE, and the base statement it expands to (R112). -/
def Stmt.issues : Stmt → Bool
  | .issue _ => true
  | .wr r _  => r == .cmd
  | _        => false

/-- Whether a statement only reads STATUS. -/
def Stmt.readsStatus : Stmt → Bool
  | .rd r       => r == .status
  | .expect r _ => r == .status
  | _           => false

/-- Whether a list of statements is a program, a command being under way or not: between an ISSUE and the WAITDONE that follows it
stand only reads of STATUS (R113; log 35). A program may end while a command runs (R336); that after an ISSUE with no WAITDONE to
follow it nothing but reads of STATUS may stand is the model's: R113 speaks of the span up to a WAITDONE (DESIGN CHOICE, log 35). -/
def programOk : (underWay : Bool) → List Stmt → Bool
  | _, [] => true
  | true, st :: rest  => if st == .waitDone then programOk false rest else st.readsStatus && programOk true rest
  | false, st :: rest => programOk st.issues rest

/-- The turns of a program, in order; `none` of a list of statements that is no program (R113). -/
def programTurns (prog : List Stmt) : Option (List Turn) :=
  if programOk false prog then some (prog.flatMap Stmt.turns) else none

end Sys2Proof.Machine
end

