-- ==== Sys2Proof/Safety.lean ====
section
/-! DEFINITION. The terms claims use: the invariant of the machine, the premises on the storage, how a command completed,
and what it leaves alone. -/

namespace Sys2Proof.Machine

/-! ## The invariant -/

/-- The input stream has its size and its cursor its range (R44); a consumed buffer has IN_BIT = 0 (R124). -/
def InStream.shaped (i : InStream) : Bool :=
  i.buf.length == Config.bufBytes && decide (i.valid ≤ Config.bufBytes) && decide (i.byte ≤ i.valid) &&
    decide (i.bit < 8) && (i.byte != i.valid || i.bit == 0)

/-- The output stream has its size and its cursor its range (R44); a flush of the full buffer that fails leaves the cursor at
the buffer's end (R127, R128) until the next out_init. -/
def OutStream.shaped (o : OutStream) : Bool :=
  o.buf.length == Config.bufBytes && decide (o.byte ≤ Config.bufBytes) && decide (o.bit < 8)

/-- The Huffman memories have their sizes and the counters their ranges (R45). -/
def Huffman.shaped (g : Huffman) : Bool :=
  g.freq.length == Config.alphabet && g.node.length == Config.nodeCap && decide (g.nn ≤ Config.nodeCap) &&
    g.heap.length == Config.heapCap && decide (g.hn ≤ Config.heapCap) && g.codeLen.length == Config.alphabet &&
    g.codeBits.length == Config.alphabet && g.codeLen.all fun l => decide (l ≤ Config.maxCodeLen)

/-- The internal memories have their sizes and the cursors and counters their ranges (R44, R45). -/
def Engine.shaped (e : Engine) : Bool := e.inp.shaped && e.out.shaped && e.huff.shaped

/-- No handle register holds a handle (R81). -/
def Work.holdsNone (w : Work) : Bool :=
  w.a.isNone && w.d.isNone && w.m.isNone && w.t.isNone && w.f.isNone && w.g.isNone

/-- The engine holds no handle, and nothing is open or staged (R81, R332). -/
def Engine.atRest (e : Engine) : Bool := e.work.holdsNone && e.storage.handles.isEmpty && e.storage.temps.isEmpty

/-- Every file of the namespace that is open is one the namespace can hold (R49). -/
def Storage.opensPaths (st : Storage) : Bool :=
  st.handles.all fun h =>
    match h.2.ref with
    | .named p => Path.wf p
    | .temp _  => true

/-- A change of a file that the namespace can take (R49). -/
def Edit.fits (x : Edit) : Bool := Path.wf x.path && decide ((x.content.getD []).length ≤ Config.fileMax)

/-- Every status byte is one of R291. -/
def Engine.statusesKnown (e : Engine) : Prop := ∀ i, (e.statByte i).toNat ≤ 6

/-- What every step keeps: memories in canonical form, they and the files within their sizes, internal memories in shape, codes and
statuses those the spec lists, nothing held or open outside a command, DONE, ERROR and the results 0 while one runs, and the
host's changes of files to come only while a command runs with a duty noted as broken. -/
structure State.Inv (s : State) : Prop where
  argmem   : Memory.wf (argDefault s.argEpoch) Config.argmemBytes s.argmem = true
  statmem  : Memory.wf statDefault Config.statmemBytes s.eng.statmem = true
  fs       : fsWf s.eng.storage.fs = true
  shaped   : s.eng.shaped = true
  opens    : s.eng.storage.opensPaths = true
  fits     : s.eng.storage.fits = true
  code     : s.errCode.toNat ≤ 10
  statuses : s.eng.statusesKnown
  rest     : (∀ w, s.seq ≠ .stuck w) → s.eng.atRest = true
  busy     : s.busy = true → s.done = false ∧ s.errCode = 0 ∧ s.result0 = 0 ∧ s.result1 = 0
  running  : ∀ w, s.seq = .run w → s.cmd = w ∧ s.eng.statmem = []
  stuck    : ∀ w, s.seq = .stuck w → s.cmd = w
  duties   : ∀ ps, s.breached = some ps → s.busy = true ∧ ∀ p ∈ ps, Path.wf p = true
  edits    : s.eng.draws.edits ≠ [] → s.breached ≠ none ∧ ∃ i : Instr, s.seq = .run i.word
  editsFit : ∀ x ∈ s.eng.draws.edits, x.fits = true

/-! ## Premises -/

/-- The storage answers every request (duty 3 of R331), none of the requests to come FAILs (R82, R337), and no file changes
between them (duties 1 and 4). -/
def Draws.obliging (d : Draws) : Prop := d.answers = none ∧ (∀ n ∈ d.failAt, n < d.reqNo) ∧ d.edits = []

/-- The engine is ready for a command: nothing held or open, all statuses 0x00, its memories in shape, no file longer than R49
allows, and no change of a file by the host to come. -/
def Engine.ready (e : Engine) : Prop :=
  e.atRest = true ∧ e.shaped = true ∧ e.statmem = [] ∧ e.storage.fits = true ∧ e.draws.edits = []

/-- A command that runs as the spec says it runs normally: no duty of R331 broken, no request failing or unanswered. -/
structure State.Undisturbed (s : State) (i : Instr) : Prop where
  ready    : s.eng.ready
  obliging : s.eng.draws.obliging
  duties   : s.breach (naming i s) = none

/-! ## How a command completed -/

/-- All of the window but what completion writes: the registers and flags that every command leaves alone, and the
model's own schedule, bus response, ARGMEM epoch and command number. -/
structure State.Kept (s t : State) : Prop where
  cmd      : t.cmd = s.cmd
  ovr      : t.ovr = s.ovr
  doneIE   : t.doneIE = s.doneIE
  ovrIE    : t.ovrIE = s.ovrIE
  archPtr  : t.archPtr = s.archPtr
  namesPtr : t.namesPtr = s.namesPtr
  argc     : t.argc = s.argc
  outPtr   : t.outPtr = s.outPtr
  entryIdx : t.entryIdx = s.entryIdx
  decSize  : t.decSize = s.decSize
  crcOffLo : t.crcOffLo = s.crcOffLo
  crcOffHi : t.crcOffHi = s.crcOffHi
  argEpoch : t.argEpoch = s.argEpoch
  cmdNo    : t.cmdNo = s.cmdNo
  bus      : t.bus = s.bus
  schedule : t.schedule = s.schedule

/-- ARGMEM and the ENT_* registers, which only a successful LIST_ENTRY writes (R42, R211). -/
structure State.SameListing (s t : State) : Prop where
  argmem     : t.argmem = s.argmem
  entOrig    : t.entOrig = s.entOrig
  entComp    : t.entComp = s.entComp
  entRatioLo : t.entRatioLo = s.entRatioLo
  entRatioHi : t.entRatioHi = s.entRatioHi
  entTimeLo  : t.entTimeLo = s.entTimeLo
  entTimeHi  : t.entTimeHi = s.entTimeHi

/-- `t` is `s` after a completion step with this code and these results (R294), nothing held or staged (R81, R332). -/
structure State.Completed (s t : State) (code : ErrorCode) (r0 r1 : Word) : Prop where
  seq     : t.seq = .idle
  done    : t.done = true
  errCode : t.errCode = errorBits code
  result0 : t.result0 = r0
  result1 : t.result1 = r1
  rest    : t.eng.atRest = true
  kept    : s.Kept t

/-- The command answers a completion with this code, these results and this namespace, lists nothing, and writes the
per-name statuses listed and no other. -/
def State.Gives (s : State) (i : Instr) (code : ErrorCode) (r0 r1 : Word) (fs : Files) (statuses : List NameStatus) :
    Prop :=
  ∃ t, exec i s = .next t ∧ s.Completed t code r0 r1 ∧ s.SameListing t ∧ t.eng.storage.fs = fs ∧
    ∀ k, t.eng.statByte k = statusByte (statuses.getD k .none)

/-! ## What a command names -/

/-- The archive path of a command that has one and whose operand checks pass (R105 to R109). -/
def archiveOf (i : Instr) (s : State) : Option Path :=
  match i with
  | .create     => archPath s
  | .append     => (batchOperands s).map (·.1)
  | .extract    => (batchOperands s).map (·.1)
  | .extractAll => archPath s
  | .remove     => (batchOperands s).map (·.1)
  | .removeAll  => archPath s
  | .verify     => archPath s
  | .info       => archPath s
  | .listEntry  => archPath s
  | .encode     => none
  | .decode     => none
  | .crc32      => none

/-- The names of the entries that an EXTRACT of the archive at a path selects (R197). -/
def selectedNames (s : State) (p : Path) (sel : Selection) : List Path := ((s.entriesAt p).map (·.name)).filter sel.picks

/-- The file a command opens first, none where an operand check fails (R109). -/
def opensFirst (i : Instr) (s : State) : Option Path :=
  match i with
  | .create     => archiveOf .create s
  | .append     => archiveOf .append s
  | .extract    => archiveOf .extract s
  | .extractAll => archiveOf .extractAll s
  | .remove     => archiveOf .remove s
  | .removeAll  => archiveOf .removeAll s
  | .verify     => archiveOf .verify s
  | .info       => archiveOf .info s
  | .listEntry  => archiveOf .listEntry s
  | .encode     => (twoFiles s).map (·.1)
  | .decode     => (twoFiles s).map (·.1)
  | .crc32      => oneFile s

/-- The files a command may write (R308): an archive command its archive, EXTRACT the entries it selects too, ENCODE and DECODE
their output. -/
def writes (i : Instr) (s : State) : List Path :=
  match i with
  | .create     => (archiveOf .create s).toList
  | .append     => (archiveOf .append s).toList
  | .extract    => (namedOperands s).toList.flatMap fun o => o.1 :: selectedNames s o.1 o.2
  | .extractAll => (allOperands s).toList.flatMap fun o => o.1 :: selectedNames s o.1 o.2
  | .remove     => (archiveOf .remove s).toList
  | .removeAll  => (archiveOf .removeAll s).toList
  | .verify     => (archiveOf .verify s).toList
  | .info       => (archiveOf .info s).toList
  | .listEntry  => (archiveOf .listEntry s).toList
  | .encode     => (twoFiles s).toList.map (·.2)
  | .decode     => (twoFiles s).toList.map (·.2)
  | .crc32      => []

/-- The errors R286 lets a command end with; INTERNAL, which the table says is never raised in fact, is left out (R161,
R171). -/
def mayRaise (i : Instr) : List ErrorCode :=
  match i with
  | .create     => [.none, .badArgs, .fileOpenFailed, .storageError]
  | .append     => [.none, .badArgs, .fileOpenFailed, .notAnArchive, .corruptArchive, .scratchUnavailable, .storageError]
  | .extract    => [.none, .badArgs, .fileOpenFailed, .notAnArchive, .corruptArchive, .storageError]
  | .extractAll => [.none, .badArgs, .fileOpenFailed, .notAnArchive, .corruptArchive, .storageError]
  | .remove     => [.none, .badArgs, .fileOpenFailed, .notAnArchive, .corruptArchive, .scratchUnavailable, .storageError]
  | .removeAll  => [.none, .badArgs, .fileOpenFailed, .notAnArchive, .corruptArchive, .scratchUnavailable, .storageError]
  | .verify     => [.none, .badArgs, .fileOpenFailed, .notAnArchive, .storageError]
  | .info       => [.none, .badArgs, .fileOpenFailed, .notAnArchive, .corruptArchive, .storageError]
  | .listEntry  => [.none, .badArgs, .fileOpenFailed, .notAnArchive, .corruptArchive, .storageError]
  | .encode     => [.none, .badArgs, .fileOpenFailed, .tooLarge, .storageError]
  | .decode     => [.none, .badArgs, .fileOpenFailed, .blockCorrupt, .storageError]
  | .crc32      => [.none, .badArgs, .fileOpenFailed, .storageError]

/-- The archive commands that validate their archive and abort on a corrupt one (R195, mode ABORT). -/
def abortsOnCorrupt (i : Instr) : Bool :=
  match i with
  | .append     => true
  | .extract    => true
  | .extractAll => true
  | .remove     => true
  | .removeAll  => true
  | .info       => true
  | .listEntry  => true
  | .create     => false
  | .verify     => false
  | .encode     => false
  | .decode     => false
  | .crc32      => false

/-- A name list laid out in ARGMEM from offset `q` on: each name's bytes, none 0x00, then a 0x00 (R107). -/
def State.holdsNames (s : State) : (q : Nat) → List Path → Prop
  | _, [] => True
  | q, n :: ns =>
    q + n.length < Config.argmemBytes ∧ (∀ k, k < n.length → n[k]? = some (s.argByte (q + k)) ∧ s.argByte (q + k) ≠ 0) ∧
      s.argByte (q + n.length) = 0 ∧ s.holdsNames (q + n.length + 1) ns

/-! ## The heap and the streams -/

/-- The live node indices of the heap (R155). -/
def Huffman.live (g : Huffman) : List Nat := g.heap.take g.hn

/-- The heap is a binary min-heap within its capacity (R155). -/
structure Huffman.IsHeap (g : Huffman) : Prop where
  size     : g.heap.length = Config.heapCap
  capacity : g.hn ≤ Config.heapCap
  order    : ∀ i, 0 < i → i < g.hn → g.keyLt (g.heapAt ((i - 1) / 2)) (g.heapAt i) = true

/-- `n` successive read_bit results (R124), `none` being EXHAUSTED. -/
def readMany : (n : Nat) → Eng (List (Option Bool))
  | 0 => pure []
  | n + 1 => do
    let r ← readBit
    let rs ← readMany n
    pure (r :: rs)

/-- The file of an open handle exists: a temporary file is listed (R74). -/
def Storage.hasTemp (st : Storage) : FileRef → Prop
  | .named _ => True
  | .temp n  => (lookup st.temps n).isSome = true

end Sys2Proof.Machine
end

