-- ==== Sys2Proof/Certificates/Slice0/Obligations.lean ====
section
/-! DEFINITION. The statements about the HCE: each formalises rules of spec/ or says what the model adds to them. -/

open Sys2Proof Sys2Proof.Machine

/-! ## Encoding -/

/-- R102: the twelve words of the opcode map stand for their commands. -/
def Obligations.CommandWordsDecode : Prop :=
  decodeWord 0x00000001 = .ok .create ∧ decodeWord 0x00000002 = .ok .append ∧ decodeWord 0x00000003 = .ok .extract ∧
  decodeWord 0x00000103 = .ok .extractAll ∧ decodeWord 0x00000004 = .ok .remove ∧
  decodeWord 0x00000104 = .ok .removeAll ∧ decodeWord 0x00000005 = .ok .verify ∧ decodeWord 0x00000006 = .ok .info ∧
  decodeWord 0x00000007 = .ok .listEntry ∧ decodeWord 0x00000010 = .ok .encode ∧ decodeWord 0x00000011 = .ok .decode ∧
  decodeWord 0x00000012 = .ok .crc32

/-- R100: a command word's three fields and the word determine each other. -/
def Obligations.FieldsAndWordAgree : Prop :=
  (∀ c : Cmd32, fieldsOf (wordOf c) = c) ∧ (∀ w : Word, wordOf (fieldsOf w) = w) ∧
  ∀ w : Word, (fieldsOf w).op = w.extractLsb' 0 8 ∧ (fieldsOf w).all = w.getLsbD 8 ∧ (fieldsOf w).rsv = w.extractLsb' 9 23

/-- R104, R101: four bytes and no fewer decode to a command exactly when they are the encoder's bytes of it, the bytes after
them left over; every command is well formed. -/
def Obligations.DecodeInvertsEncode : Prop :=
  (∀ i : Instr, i.wf = true) ∧
  ∀ (bs rest : Bytes) (i : Instr), decode bs = .ok (i, rest) ↔ bs = encode i ++ rest

/-- R103: a word whose reserved field is not 0, whose OP is not listed, or whose ALL is 1 with another OP than 0x03 and 0x04
is no command, and no other word is: running one completes with BAD_COMMAND; OP 0x00 is one of them. -/
def Obligations.ReservedWordsAreNoCommand : Prop :=
  (∀ w : Word,
    (w.extractLsb' 9 23 ≠ 0 ∨
        w.extractLsb' 0 8 ∉ ([0x01, 0x02, 0x03, 0x04, 0x05, 0x06, 0x07, 0x10, 0x11, 0x12] : List (BitVec 8)) ∨
        (w.getLsbD 8 = true ∧ w.extractLsb' 0 8 ≠ 0x03 ∧ w.extractLsb' 0 8 ≠ 0x04)) ↔
      ∃ r, decodeWord w = .error r) ∧
  ∀ (s : State) (w : Word) (r : Reject), s.seq = .run w → s.schedule = [] → decodeWord w = .error r →
    ∃ t, step s = .next t ∧ t.seq = .idle ∧ t.done = true ∧ t.errCode = 5

/-! ## Steps -/

/-- R21, R24, R101: where the engine runs a word that decodes to a command, its turn is that command's meaning; the turn is
the schedule's next, or comes with an empty schedule; and withFetchWord places a command so (log 1). Any other turn that comes
next is that turn's own meaning: a host access, a change of a file, a reset; the poll of WAITDONE (R112) reads STATUS once, and
with DONE = 0 the engine's turn and the poll again come next (log 35). -/
def Obligations.StepRunsTheCommand : Prop :=
  (∀ (s : State) (w : Word) (i : Instr) (rest : Bytes), s.seq = .run w → decode (bytesOfWord w) = .ok (i, rest) →
      s.schedule = [] → step s = exec i s) ∧
  (∀ (s : State) (w : Word) (i : Instr) (rest : Bytes) (ts : List Turn), s.seq = .run w →
      decode (bytesOfWord w) = .ok (i, rest) → s.schedule = .engine :: ts → step s = exec i { s with schedule := ts }) ∧
  (∀ (s : State) (i : Instr), step (s.withFetchWord 32 i.word.toNat) = exec i (s.accept i.word)) ∧
  ∀ (s : State) (ts : List Turn),
    (∀ a, s.schedule = .access a :: ts → step s = .next ({ s with schedule := ts }.access a)) ∧
    (∀ k p c, s.schedule = .putFile k p c :: ts → step s = .next ({ s with schedule := ts }.editFile k p (some c))) ∧
    (∀ k p, s.schedule = .deleteFile k p :: ts → step s = .next ({ s with schedule := ts }.editFile k p none)) ∧
    (∀ k, s.schedule = .reset k :: ts → step s = .next ({ s with schedule := ts }.resetTurn k)) ∧
    (s.schedule = .waitDone :: ts →
      let t := { s with schedule := ts }.access (.read 0x00C .w32)
      step s = .next (if s.done = true then t else { t with schedule := .engine :: .waitDone :: ts }))

/-- R101: a running word that is one of the twelve patterns is executed; any other completes at once with BAD_COMMAND, both
results 0, and touches no storage. -/
def Obligations.EveryWordIsACommandOrBadCommand : Prop :=
  ∀ (s : State) (w : Word), s.seq = .run w → s.schedule = [] →
    (∃ i : Instr, w = i.word ∧ step s = exec i s) ∨
    ((∀ i : Instr, w ≠ i.word) ∧
      ∃ t, step s = .next t ∧ t.seq = .idle ∧ t.done = true ∧ t.errCode = 5 ∧ t.result0 = 0 ∧ t.result1 = 0 ∧
        t.eng = s.eng ∧ s.Kept t ∧ s.SameListing t)

/-- R317, R306: an idle engine takes no step until a command is accepted; U14: nor does one whose request is never
answered. -/
def Obligations.IdleOrStuckEngineTakesNoStep : Prop :=
  ∀ s : State, (s.seq = .idle ∨ ∃ w, s.seq = .stuck w) →
    (s.schedule = [] → step s = .next s) ∧
    ∀ ts, s.schedule = .engine :: ts → step s = .next { s with schedule := ts }

/-- R294, R297, R335: a command whose storage answers every request completes, with any failing requests and whatever duty
was broken: SEQ idle, BUSY 0, DONE 1, a code of R286, no handle held. -/
def Obligations.EveryCommandCompletes : Prop :=
  ∀ (i : Instr) (s : State), s.eng.draws.answers = none → s.eng.atRest = true →
    ∃ (t : State) (code : ErrorCode) (r0 r1 : Word), exec i s = .next t ∧ s.Completed t code r0 r1 ∧ t.busy = false

/-- R307, U14: a command that does not complete waits at a storage request that is never answered, with BUSY = 1, and changes no
register of the window; R304, R306: the time port always answers. -/
def Obligations.UnansweredRequestLeavesItBusy : Prop :=
  (∀ (i : Instr) (s t : State), exec i s = .next t → t.seq ≠ .idle →
    t.seq = .stuck s.cmd ∧ t.busy = true ∧ s.eng.draws.answers ≠ none ∧ s.Kept t ∧ s.SameListing t ∧
      t.done = s.done ∧ t.errCode = s.errCode ∧ t.result0 = s.result0 ∧ t.result1 = s.result1) ∧
  ∀ e : Engine, ∃ t e', sNow e = .ok t e' ∧ e'.storage = e.storage ∧ e'.draws.answers = e.draws.answers ∧
    e'.draws.reqNo = e.draws.reqNo

/-! ## The register window -/

/-- R24: a 32-bit write of w to CMD while BUSY = 0 is an acceptance: it sets CMD, BUSY and SEQ, clears DONE, ERROR, both
results and all of STATMEM, and leaves OVR, IE, the arguments, ENT_*, ARGMEM and the storage; the engine then decodes w
and executes it. CMD reads the last accepted word, 0 after reset; a write of another width is a bus error. -/
def Obligations.AcceptanceIsOneStep : Prop :=
  (∀ (s : State) (w : Word), s.busy = false →
    let t := s.access (.write 0x008 .w32 w)
    t.cmd = w ∧ t.readReg 0x008 = w ∧ t.busy = true ∧ t.seq = .run w ∧ t.done = false ∧ t.errCode = 0 ∧
    t.result0 = 0 ∧ t.result1 = 0 ∧ (∀ k, t.eng.statByte k = 0) ∧ t.eng = { s.eng with statmem := [] } ∧
    t.ovr = s.ovr ∧ t.doneIE = s.doneIE ∧ t.ovrIE = s.ovrIE ∧
    t.archPtr = s.archPtr ∧ t.namesPtr = s.namesPtr ∧ t.argc = s.argc ∧ t.outPtr = s.outPtr ∧ t.entryIdx = s.entryIdx ∧
    t.decSize = s.decSize ∧ t.crcOffLo = s.crcOffLo ∧ t.crcOffHi = s.crcOffHi ∧ s.SameListing t ∧
    ∀ i rest, decode (bytesOfWord w) = .ok (i, rest) → s.schedule = [] → step t = exec i t) ∧
  State.reset.readReg 0x008 = 0 ∧
  ∀ (s : State) (w : Word) (n : Width), n ≠ .w32 → s.access (.write 0x008 n w) = { s with bus := ⟨0, true⟩ }

/-- R28, R87: with BUSY = 1 a CMD write sets OVR and changes nothing else but the bus response, so of two CMD writes in a row to an
idle engine the first is accepted and the second sets OVR; OVR is 0 at reset. -/
def Obligations.WriteWhileBusyOverruns : Prop :=
  (∀ (s : State) (w : Word), s.busy = true → s.access (.write 0x008 .w32 w) = { s with ovr := true, bus := ⟨0, false⟩ }) ∧
  (∀ (s : State) (v w : Word), s.busy = false →
    let t := (s.access (.write 0x008 .w32 v)).access (.write 0x008 .w32 w)
    t.cmd = v ∧ t.seq = .run v ∧ t.ovr = true) ∧
  State.reset.ovr = false

/-- R318: only a reset, or a host write of 1 to bit 3 of STATUS, clears OVR, and only a reset or a LIST_ENTRY that succeeds writes
the ENT_* registers. -/
def Obligations.OverrunAndEntryRegisterWriters : Prop :=
  ∀ s s' : State, step s = .next s' →
    (s.ovr = true → s'.ovr = false →
      ∃ ts, (∃ k, s.schedule = .reset k :: ts) ∨
        ∃ v : Word, v.getLsbD 3 = true ∧ s.schedule = .access (.write 0x00C .w32 v) :: ts) ∧
    ((s'.entOrig ≠ s.entOrig ∨ s'.entComp ≠ s.entComp ∨ s'.entRatioLo ≠ s.entRatioLo ∨ s'.entRatioHi ≠ s.entRatioHi ∨
        s'.entTimeLo ≠ s.entTimeLo ∨ s'.entTimeHi ≠ s.entTimeHi) →
      (∃ k ts, s.schedule = .reset k :: ts) ∨
        (s.seq = .run Instr.listEntry.word ∧ (s.schedule = [] ∨ ∃ ts, s.schedule = .engine :: ts) ∧ s'.seq = .idle ∧
          s'.errCode = 0))

/-- R20: while BUSY = 1 a write to an argument register or to ARGMEM changes nothing but the bus response, writes to STATUS and
IE take effect, and a CMD write is an overrun (R28). -/
def Obligations.ArgumentsAreLockedWhileBusy : Prop :=
  ∀ (s : State) (v : Word), s.busy = true →
    (∀ (off : BitVec 17) (n : Width), ((0x020 ≤ off.toNat ∧ off.toNat < 0x040) ∨ 0x10000 ≤ off.toNat) →
      { s.access (.write off n v) with bus := s.bus } = s ∧
      (accepted off.toNat n = true → (s.access (.write off n v)).bus = ⟨0, false⟩)) ∧
    s.access (.write 0x00C .w32 v) = { s.writeStatus v with bus := ⟨0, false⟩ } ∧
    s.access (.write 0x010 .w32 v) = { s.writeIE v with bus := ⟨0, false⟩ } ∧
    s.access (.write 0x008 .w32 v) = { s with ovr := true, bus := ⟨0, false⟩ }

/-- R17, R33 to R37, R40, R41: while BUSY = 0 an argument register reads back what was written to its bits, its reserved bits
read 0, and the other argument registers keep their values. -/
def Obligations.ArgumentRegistersReadBack : Prop :=
  ∀ (s : State) (v : Word), s.busy = false →
    let off : List (Nat × Nat) :=
      [(0x020, 16), (0x024, 16), (0x028, 13), (0x02C, 16), (0x030, 32), (0x034, 32), (0x038, 32), (0x03C, 32)]
    ∀ r ∈ off, ∀ q ∈ off,
      (s.access (.write (BitVec.ofNat 17 r.1) .w32 v)).readReg q.1 =
        if q.1 = r.1 then BitVec.ofNat 32 (v.toNat % 2 ^ r.2) else s.readReg q.1

/-- R26, R28, R29, R17: at any time a write to STATUS clears DONE and OVR where its bits 1 and 3 are 1 and nothing else, and a
write to IE stores its bits 0 and 1 and nothing else; a read of IE then answers them, with 0 above. -/
def Obligations.StatusAndEnableWrites : Prop :=
  ∀ (s : State) (v : Word),
    s.access (.write 0x00C .w32 v) =
      { s with done := if v.getLsbD 1 then false else s.done, ovr := if v.getLsbD 3 then false else s.ovr,
               bus := ⟨0, false⟩ } ∧
    s.access (.write 0x010 .w32 v) =
      { s with doneIE := v.getLsbD 0, ovrIE := v.getLsbD 1, bus := ⟨0, false⟩ } ∧
    let r := ((s.access (.write 0x010 .w32 v)).access (.read 0x010 .w32)).bus
    r.error = false ∧ ∀ k, k < 32 → r.data.getLsbD k = (decide (k < 2) && v.getLsbD k)

/-- R27, R18, R25 to R29, R31: STATUS reads BUSY, DONE, ERR (ERROR.CODE ≠ 0) and OVR in bits 0 to 3 and 0 above; ERROR reads CODE
in bits 3:0 and 0 above; both read 0 at reset. IE reads its enables in bits 0 and 1; every other register of R18 answers its own
value, the argument registers with 0 above their bits; and a 32-bit read of any register answers what readReg says. -/
def Obligations.StatusAndErrorReads : Prop :=
  (∀ (s : State) (k : Nat), k < 32 →
    (s.readReg 0x00C).getLsbD k =
      (if k = 0 then s.busy else if k = 1 then s.done else if k = 2 then decide (s.errCode ≠ 0)
       else if k = 3 then s.ovr else false) ∧
    (s.readReg 0x014).getLsbD k = (decide (k < 4) && s.errCode.getLsbD k)) ∧
  State.reset.readReg 0x00C = 0 ∧ State.reset.readReg 0x014 = 0 ∧
  (∀ (s : State) (k : Nat), k < 32 →
    (s.readReg 0x010).getLsbD k = (if k = 0 then s.doneIE else if k = 1 then s.ovrIE else false)) ∧
  (∀ (s : State) (off : Nat), off < 0x1000 → off % 4 = 0 →
    (s.access (.read (BitVec.ofNat 17 off) .w32)).bus = ⟨s.readReg off, false⟩) ∧
  ∀ s : State,
    let regs : List (BitVec 17 × Word) :=
      [(0x000, 0x48554646), (0x004, 0x00000001), (0x008, s.cmd), (0x018, s.result0), (0x01C, s.result1),
       (0x020, BitVec.ofNat 32 s.archPtr.toNat), (0x024, BitVec.ofNat 32 s.namesPtr.toNat),
       (0x028, BitVec.ofNat 32 s.argc.toNat), (0x02C, BitVec.ofNat 32 s.outPtr.toNat), (0x030, s.entryIdx),
       (0x034, s.decSize), (0x038, s.crcOffLo), (0x03C, s.crcOffHi), (0x040, s.entOrig), (0x044, s.entComp),
       (0x048, s.entRatioLo), (0x04C, s.entRatioHi), (0x050, s.entTimeLo), (0x054, s.entTimeHi)]
    ∀ r ∈ regs, (s.access (.read r.1 .w32)).bus = ⟨r.2, false⟩

/-- R30: IRQ is (DONE and DONE_IE) or (OVR and OVR_IE), and 0 at reset; R327: it falls when the pending bits are written 1, or
the enables cleared. -/
def Obligations.InterruptLine : Prop :=
  (∀ s : State, s.irq = true ↔ (s.done = true ∧ s.doneIE = true) ∨ (s.ovr = true ∧ s.ovrIE = true)) ∧
  State.reset.irq = false ∧
  ∀ s : State, (s.access (.write 0x00C .w32 0x0000000A)).irq = false ∧ (s.access (.write 0x010 .w32 0)).irq = false

/-- R52, R53: registers accept aligned 32-bit accesses only, STATMEM and ARGMEM aligned accesses of 1, 2 and 4 bytes; any other
access to them answers a bus error, reads 0 and changes no other state. That misaligned accesses in 0x2000..0xFFFF are accepted,
which R53's bracket 'any misaligned access' speaks against, is the model's reading of R52 and R54 (log 13). -/
def Obligations.RefusedAccessesHaveNoEffect : Prop :=
  ∀ (s : State) (off : BitVec 17) (n : Width) (v : Word),
    (accepted off.toNat n = false ↔
      (off.toNat < 0x1000 ∧ (n ≠ .w32 ∨ off.toNat % 4 ≠ 0)) ∨
      (0x1000 ≤ off.toNat ∧ off.toNat < 0x2000 ∧ off.toNat % n.bytes ≠ 0) ∨
      (0x10000 ≤ off.toNat ∧ off.toNat % n.bytes ≠ 0)) ∧
    (accepted off.toNat n = false →
      s.access (.read off n) = { s with bus := ⟨0, true⟩ } ∧ s.access (.write off n v) = { s with bus := ⟨0, true⟩ })

/-- R54: reserved offsets (0x058..0xFFF by aligned 32-bit access, 0x2000..0xFFFF by any width) read 0, ignore writes and raise
no bus error; that a misaligned access inside 0x2000..0xFFFF raises none either is the model's reading (log 13). R17, R19,
R39: host writes to the read-only registers ID, VERSION, ERROR, RESULT0, RESULT1, ENT_* and to STATMEM change nothing but
the bus response. -/
def Obligations.ReservedAndReadOnlyOffsets : Prop :=
  ∀ (s : State) (off : BitVec 17) (n : Width) (v : Word),
    (((0x058 ≤ off.toNat ∧ off.toNat < 0x1000 ∧ off.toNat % 4 = 0 ∧ n = .w32) ∨
        (0x2000 ≤ off.toNat ∧ off.toNat < 0x10000)) →
      (s.access (.read off n)).bus = ⟨0, false⟩ ∧ s.access (.write off n v) = { s with bus := ⟨0, false⟩ }) ∧
    ((off.toNat ∈ [0x000, 0x004, 0x014, 0x018, 0x01C, 0x040, 0x044, 0x048, 0x04C, 0x050, 0x054] ∨
        (0x1000 ≤ off.toNat ∧ off.toNat < 0x2000)) →
      { s.access (.write off n v) with bus := s.bus } = s)

/-- R22, R23: ID reads 0x48554646 and VERSION 0x00000001 at all times. -/
def Obligations.IdentificationIsConstant : Prop :=
  ∀ s : State, (s.access (.read 0x000 .w32)).bus = ⟨0x48554646, false⟩ ∧
    (s.access (.read 0x004 .w32)).bus = ⟨0x00000001, false⟩

/-- R55, R38: with BUSY = 0, an aligned write of n bytes to ARGMEM stores the n bytes of its value, least significant at the
lowest address, and no other byte; reading them back gives the value's low n bytes. -/
def Obligations.ArgmemIsLittleEndian : Prop :=
  ∀ (s : State) (a : Nat) (n : Width) (v : Word), s.busy = false → a < 0x10000 → a % n.bytes = 0 →
    Memory.wf (argDefault s.argEpoch) Config.argmemBytes s.argmem = true →
    let t := s.access (.write (BitVec.ofNat 17 (0x10000 + a)) n v)
    (∀ b, t.argByte b =
      if a ≤ b ∧ b < a + n.bytes then v.extractLsb' (8 * (b - a)) 8 else s.argByte b) ∧
    (t.access (.read (BitVec.ofNat 17 (0x10000 + a)) n)).bus = ⟨BitVec.ofNat 32 (v.toNat % 2 ^ (8 * n.bytes)), false⟩

/-- R56, R330: a read changes nothing but the bus response and, while BUSY = 1, the model's own counter of free values
(log 21); while BUSY = 0 reading again gives the same. -/
def Obligations.ReadsHaveNoSideEffect : Prop :=
  ∀ (s : State) (off : BitVec 17) (n : Width),
    (∃ k, { s.access (.read off n) with bus := s.bus } =
      { s with eng := { s.eng with draws := { s.eng.draws with free := k } } }) ∧
    (s.busy = false →
      { s.access (.read off n) with bus := s.bus } = s ∧
      (s.access (.read off n)).access (.read off n) = s.access (.read off n))

/-- R325, R32, R39, R198, R38, R55, U2: while BUSY = 1 ERROR, RESULT0 and RESULT1 read 0, and a STATMEM byte reads 0x00, and from
some moment on (the model's form, log 11) its final value: no host access, change of a file or turn of the engine takes it back; of a
command that never completes that value is the one written when it came to wait, which is the model's choice (log 11);
with BUSY = 0 it reads its value. An ARGMEM byte reads as it is, but for those that a running LIST_ENTRY may write, how far
these reach being the model's reading (log 12). STATMEM and ARGMEM answer aligned reads of 1, 2 and 4 bytes through the window, little-endian. -/
def Obligations.ReadsWhileBusy : Prop :=
  (∀ s : State, s.Inv → s.busy = true → s.readReg 0x014 = 0 ∧ s.readReg 0x018 = 0 ∧ s.readReg 0x01C = 0) ∧
  (∀ (s t : State) (k : Nat), engineTurn s = .next t →
    (s.busy = true → s.readStat k = if s.shows k = true then t.eng.statByte k else 0) ∧
    (s.busy = false → s.readStat k = s.eng.statByte k) ∧
    (s.shows k = true → t.shows k = true)) ∧
  (∀ (s : State) (k : Nat), s.busy = true → s.shows k = true →
    (∀ a, (s.access a).shows k = true) ∧ ∀ n p c, (s.editFile n p c).shows k = true) ∧
  (∀ (s : State) (a : Nat), s.Inv →
    ¬(s.busy = true ∧ s.cmd = Instr.listEntry.word ∧ s.outPtr.toNat ≤ a ∧ a < s.outPtr.toNat + 255) →
    s.readArg a = s.argByte a) ∧
  ∀ (s : State) (i : Nat) (n : Width), i % n.bytes = 0 →
    (i < 0x1000 →
      let r := (s.access (.read (BitVec.ofNat 17 (0x1000 + i)) n)).bus
      r.error = false ∧ ∀ k, k < 4 → r.data.extractLsb' (8 * k) 8 = if k < n.bytes then s.readStat (i + k) else 0) ∧
    (i < 0x10000 →
      let r := (s.access (.read (BitVec.ofNat 17 (0x10000 + i)) n)).bus
      r.error = false ∧ ∀ k, k < 4 → r.data.extractLsb' (8 * k) 8 = if k < n.bytes then s.readArg (i + k) else 0)

/-! ## Reset -/

/-- R316, R319, R320: after a reset, at any time, every register has its reset value, STATMEM is 0x00, SEQ is idle, no handle is
held, no temporary file is left, DONE and IRQ are 0; while no command runs the reset leaves every file of the namespace. R319,
R322: a reset while a command runs leaves every file that the command may not write, where no duty of R331 was broken; one while
it waits at an unanswered request every file that is not open for writing (that the request has no effect is the model's choice of
U21's outcomes, log 24); and one before a word that is no command is decoded
every file. State.reset is such a state, with an empty namespace (log 4) and ARGMEM 0x00 (log 2), both the model's choice. -/
def Obligations.ResetState : Prop :=
  (∀ (s : State) (k : Nat),
    let t := s.resetTurn k
    (∀ off, off < 0x1000 → t.readReg off = if off = 0 then 0x48554646 else if off = 4 then 1 else 0) ∧
    t.seq = .idle ∧ t.done = false ∧ t.ovr = false ∧ t.doneIE = false ∧ t.ovrIE = false ∧ t.errCode = 0 ∧
    t.irq = false ∧ (∀ j, t.eng.statByte j = 0) ∧ t.eng.atRest = true ∧
    (s.seq = .idle → s.eng.atRest = true → t.eng.storage.fs = s.eng.storage.fs) ∧
    (∀ i p, s.seq = .run i.word → s.eng.ready → s.breach (naming i s) = none → p ∉ writes i s →
      fsGet t.eng.storage.fs p = fsGet s.eng.storage.fs p) ∧
    (∀ w p, s.seq = .stuck w → p ∉ s.eng.storage.openForWriting → p ∉ s.breached.getD [] →
      fsGet t.eng.storage.fs p = fsGet s.eng.storage.fs p) ∧
    (∀ w r, s.seq = .run w → decodeWord w = .error r → s.eng.atRest = true → t.eng.storage.fs = s.eng.storage.fs)) ∧
  (∀ off, off < 0x1000 → State.reset.readReg off = if off = 0 then 0x48554646 else if off = 4 then 1 else 0) ∧
  State.reset.seq = .idle ∧ State.reset.irq = false ∧ (∀ j, State.reset.eng.statByte j = 0) ∧
  State.reset.eng.atRest = true ∧ State.reset.eng.storage.fs = [] ∧ ∀ a, State.reset.argByte a = 0

/-- R214, R322: a reset at any point of APPEND, REMOVE or REMOVE_ALL leaves an existing archive with its old content or with the
content the command gives it when it runs to its completion, whatever requests fail. -/
def Obligations.ResetNeverSplitsAnArchive : Prop :=
  ∀ (i : Instr) (s t : State) (k : Nat) (p : Path) (old : Bytes), (i = .append ∨ i = .remove ∨ i = .removeAll) →
    s.seq = .run i.word → s.eng.ready → s.eng.draws.answers = none → s.breach (naming i s) = none →
    archiveOf i s = some p → fsGet s.eng.storage.fs p = some old → exec i s = .next t →
    fsGet (s.resetTurn k).eng.storage.fs p = some old ∨
      fsGet (s.resetTurn k).eng.storage.fs p = fsGet t.eng.storage.fs p

/-- R49, R331: a host turn that writes or deletes a file changes that file and no other, and nothing else but the model's note of a
broken duty (log 10), which it makes exactly when the running command names the file (none where an operand check fails, log 36). It changes the file at once, or, where the
running command names it, after `n` more requests of the command, in the order of the turns, and no later than the end of the
engine's turn (the model's form, log 10): a request takes effect after the changes due by its number. -/
def Obligations.HostFileTurns : Prop :=
  (∀ (s : State) (n : Nat) (p : Path) (c : Option Bytes), s.Inv → Path.wf p = true →
    (c.getD []).length ≤ Config.fileMax →
    let t := s.editFile n p c
    (∀ q, fsGet t.eng.landAll.storage.fs q = if q = p then c else fsGet s.eng.landAll.storage.fs q) ∧
    (((∀ w, s.seq ≠ .run w) ∨ (p ∉ s.namedFiles ∧ s.eng.draws.edits = [])) →
      t.eng.draws = s.eng.draws ∧ ∀ q, fsGet t.eng.storage.fs q = if q = p then c else fsGet s.eng.storage.fs q) ∧
    (∀ w, s.seq = .run w → p ∈ s.namedFiles →
      t.eng.storage = s.eng.storage ∧ t.eng.draws.edits = s.eng.draws.edits ++ [⟨s.eng.draws.reqNo + n, p, c⟩]) ∧
    { t with eng := s.eng, breached := s.breached } = s ∧
    { t.eng with storage := s.eng.storage, draws := s.eng.draws } = s.eng ∧
    { t.eng.storage with fs := s.eng.storage.fs } = s.eng.storage ∧
    { t.eng.draws with edits := s.eng.draws.edits } = s.eng.draws ∧
    (p ∉ s.namedFiles → t.breached = s.breached) ∧
    (p ∈ s.namedFiles → ∃ ps, t.breached = some ps ∧ ∀ q, (q ∈ s.breached.getD [] ∨ q ∈ s.namedFiles) → q ∈ ps) ∧
    (s.busy = false → s.namedFiles = [])) ∧
  ∀ (e : Engine) (x : Edit), e.draws.answers = none → e.draws.edits = [x] →
    ∃ e', request e = .ok e.draws.reqNo e' ∧
      e'.storage.fs = (if x.due ≤ e.draws.reqNo then fsSet e.storage.fs x.path x.content else e.storage.fs) ∧
      e'.draws.edits = (if x.due ≤ e.draws.reqNo then [] else [x])

/-! ## The invariant -/

/-- Every step keeps the invariant, from every state that has it: canonical memories and namespace, internal memories in shape
(R44, R45), codes and statuses of R286 and R291, nothing held or staged outside a command (R332), DONE, ERROR and the
results 0 while one runs (R325). -/
def Obligations.EveryStepKeepsTheInvariant : Prop := ∀ s s' : State, s.Inv → step s = .next s' → s'.Inv

/-- The state after reset has the invariant. -/
def Obligations.ResetHasTheInvariant : Prop := State.reset.Inv

/-! ## What every command leaves alone -/

/-- R19, R42, R88: a command changes no register of the window but STATUS, ERROR, RESULT0, RESULT1 and STATMEM, and ARGMEM and
ENT_* only if it is LIST_ENTRY, and then only if it succeeds. -/
def Obligations.CommandsLeaveTheWindow : Prop :=
  ∀ (i : Instr) (s t : State), exec i s = .next t →
    s.Kept t ∧ (i ≠ .listEntry → s.SameListing t) ∧ (t.errCode ≠ 0 → s.SameListing t)

/-- R331, R308: with no duty broken a command changes no file but those it names, whatever requests fail or stay unanswered; and of
those only the ones it may write: its archive, an EXTRACT the entries it selects too, ENCODE and DECODE their output. So APPEND's
inputs, ENCODE's and DECODE's input, CRC32's file and a list's other names stay as they are. -/
def Obligations.CommandsTouchOnlyNamedFiles : Prop :=
  ∀ (i : Instr) (s t : State) (p : Path), s.breach (naming i s) = none → s.eng.ready → exec i s = .next t →
    (p ∉ (naming i s).files → fsGet t.eng.storage.fs p = fsGet s.eng.storage.fs p) ∧
    (p ∉ writes i s → fsGet t.eng.storage.fs p = fsGet s.eng.storage.fs p)

/-- R214, R287, R289: an archive that exists is unchanged by every error of every archive command but CREATE, whatever requests
fail. -/
def Obligations.ErrorsLeaveTheArchive : Prop :=
  ∀ (i : Instr) (s t : State) (p : Path) (c : Bytes), i ≠ .create → s.eng.ready → s.breach (naming i s) = none →
    archiveOf i s = some p → fsGet s.eng.storage.fs p = some c → exec i s = .next t → t.seq = .idle → t.errCode ≠ 0 →
    fsGet t.eng.storage.fs p = some c

/-- R209 to R211, R150, R308: VERIFY, INFO and LIST_ENTRY on an archive that exists, and CRC32, change no file, whatever requests
fail. -/
def Obligations.ReadersLeaveTheNamespace : Prop :=
  ∀ (i : Instr) (s t : State), s.eng.ready → s.breach (naming i s) = none → exec i s = .next t →
    (i = .crc32 ∨ ((i = .verify ∨ i = .info ∨ i = .listEntry) ∧
      ∀ p, archiveOf i s = some p → fsGet s.eng.storage.fs p ≠ none)) →
    t.eng.storage.fs = s.eng.storage.fs

/-- R286, R161, R171: a command ends with a code its row of the table allows, and never with INTERNAL, whatever requests fail.
R123, R127, R190, R199: a failing SRead, SWrite, SCopy or SReplace stops its steps with STORAGE_ERROR; R287: the code and results
its steps stop with are those it completes with, as CREATE and CRC32 show; R175, R331: emit_payload stops so where its input
became shorter or has a byte with no code, and a broken duty that is detected so is reported so. -/
def Obligations.ErrorCodesOfEachCommand : Prop :=
  (∀ (i : Instr) (s t : State), s.eng.ready → s.breach (naming i s) = none → exec i s = .next t → t.seq = .idle →
    ∃ code ∈ mayRaise i, t.errCode = errorBits code) ∧
  (∀ e : Engine, e.draws.answers = none → e.draws.failAt.contains e.draws.reqNo = true →
    (∀ n, 0 < n → ∃ e', refill n e = .error (.error .storageError 0 0) e') ∧
    (∀ h bs, ∃ e', wr h bs e = .error (.error .storageError 0 0) e') ∧
    (0 < e.out.pending → ∃ e', flush e = .error (.error .storageError 0 0) e') ∧
    (∀ src dst n, ∃ e', copy src dst n e = .error (.error .storageError 0 0) e') ∧
    ∀ h p, ∃ e', (do check (← sReplace h p) .storageError : Eng Unit) e = .error (.error .storageError 0 0) e') ∧
  (∀ (s : State) (n : Naming) (body : Eng Report) (code : ErrorCode) (r0 r1 : Word) (e : Engine),
    body s.eng = .error (.error code r0 r1) e → e.draws.answers = none → s.breach n = none →
    ∃ t, runCommand n s body = .next t ∧ t.seq = .idle ∧ t.done = true ∧ t.errCode = errorBits code ∧ t.result0 = r0 ∧
      t.result1 = r1 ∧ s.SameListing t) ∧
  (∀ (s : State) (p : Path), s.eng.ready → s.breach (naming .create s) = none → s.eng.draws.answers = none →
    archPath s = some p → s.eng.draws.failAt.contains s.eng.draws.reqNo = false →
    (∃ k ∈ [1, 3, 5], s.eng.draws.failAt.contains (s.eng.draws.reqNo + k) = true) →
    ∃ t, exec .create s = .next t ∧ s.Completed t .storageError 0 0) ∧
  (∀ (s : State) (p : Path), s.eng.ready → s.breach (naming .crc32 s) = none → s.eng.draws.answers = none →
    oneFile s = some p → fsGet s.eng.storage.fs p ≠ none → s.eng.draws.failAt.contains s.eng.draws.reqNo = false →
    s.eng.draws.failAt.contains (s.eng.draws.reqNo + 2) = true →
    s.Gives .crc32 .storageError 0 0 s.eng.storage.fs []) ∧
  (∀ (e : Engine) (h : Handle) (f : OpenFile) (o : Nat), e.draws.obliging → lookup e.storage.handles h = some f →
    (∀ g, lookup e.storage.handles e.out.h = some g → g.ref ≠ f.ref) →
    ((e.storage.content f.ref).length < o ∨
      ∃ b ∈ (e.storage.content f.ref).take o, e.huff.codeLen.getD b.toNat 0 = 0) →
    ∃ e', emitPayload h o e = .error (.error .storageError 0 0) e') ∧
  ∀ (s : State) (n : Naming) (rep : Report) (e : Engine), rep.code = .storageError →
    ∃ rep' e', unlessBreached s n rep e = .ok rep' e' ∧ rep'.code = .storageError

/-- R292: after a command completes, a named batch leaves STATMEM[i] 0x00 from ARGC on, and a successful one every status below
ARGC non-zero; an ALL form leaves 0x00 from the number of entries on, and from 4096 on; the other commands leave all of it 0x00. -/
def Obligations.StatusesAfterCompletion : Prop :=
  ∀ (i : Instr) (s t : State), s.eng.ready → s.breach (naming i s) = none → exec i s = .next t → t.seq = .idle →
    ((i = .append ∨ i = .extract ∨ i = .remove) →
      (∀ k, s.argc.toNat ≤ k → t.eng.statByte k = 0) ∧
      (t.errCode = 0 → ∀ k, k < s.argc.toNat → t.eng.statByte k ≠ 0)) ∧
    ((i = .extractAll ∨ i = .removeAll) →
      (∀ k, Config.statmemBytes ≤ k → t.eng.statByte k = 0) ∧
      ∀ p es bs, archPath s = some p → openedArchive s.eng.storage.fs p = .archive es bs →
        ∀ k, es.length ≤ k → t.eng.statByte k = 0) ∧
    ((i = .create ∨ i = .verify ∨ i = .info ∨ i = .listEntry ∨ i = .encode ∨ i = .decode ∨ i = .crc32) →
      ∀ k, t.eng.statByte k = 0)

/-! ## Operands and errors -/

/-- R106: the archive path is the bytes from ARCH_PTR up to the first 0x00, of which there must be 1 to 254, with the 0x00 before
the end of ARGMEM. -/
def Obligations.ArchivePathOperand : Prop :=
  ∀ (s : State) (p : Path), archPath s = some p ↔
    1 ≤ p.length ∧ p.length ≤ 254 ∧ s.archPtr.toNat + p.length < 65536 ∧
      (∀ k, k < p.length → p[k]? = some (s.argByte (s.archPtr.toNat + k)) ∧ s.argByte (s.archPtr.toNat + k) ≠ 0) ∧
      s.argByte (s.archPtr.toNat + p.length) = 0

/-- R107: the name list is ARGC names laid out from NAMES_PTR on, each ended by the first 0x00 at or after its start, the next
one starting at the byte after it, all before offset 65536. -/
def Obligations.NameListOperand : Prop :=
  ∀ (s : State) (ns : List Path), names s = some ns ↔ ns.length = s.argc.toNat ∧ s.holdsNames s.namesPtr.toNat ns

/-- R106 to R109: a failing operand check completes the command with BAD_ARGS, both results 0, before any storage request. The
checks: of APPEND, EXTRACT and REMOVE the archive path, ARGC ≤ 4096 and the list's delimitation; of ENCODE and DECODE ARGC = 2, the
delimitation and 1 to 254 bytes in each name; of CRC32 the same with ARGC = 1. That such a command names no file, so that neither its
own operands nor a host change of a valid path among them breaks a duty and the effects stay these, is the model's choice (log 36). -/
def Obligations.BadOperandsGiveBadArgs : Prop :=
  (∀ (i : Instr) (s : State), s.eng.ready → s.breached = none → opensFirst i s = none →
    s.Gives i .badArgs 0 0 s.eng.storage.fs [] ∧ ∀ t, exec i s = .next t → t.eng.draws = s.eng.draws) ∧
  ∀ s : State,
    (batchOperands s = none ↔ archPath s = none ∨ 4096 < s.argc.toNat ∨ names s = none) ∧
    (∀ p ns, batchOperands s = some (p, ns) → archPath s = some p ∧ names s = some ns) ∧
    (twoFiles s = none ↔ s.argc.toNat ≠ 2 ∨ names s = none ∨
      ∃ ns, names s = some ns ∧ ∃ n ∈ ns, ¬(1 ≤ n.length ∧ n.length ≤ 254)) ∧
    (∀ p0 p1, twoFiles s = some (p0, p1) → names s = some [p0, p1]) ∧
    (oneFile s = none ↔ s.argc.toNat ≠ 1 ∨ names s = none ∨
      ∃ ns, names s = some ns ∧ ∃ n ∈ ns, ¬(1 ≤ n.length ∧ n.length ≤ 254)) ∧
    ∀ p, oneFile s = some p → names s = some [p]

/-- R73, R286, R288: where the command's first open answers FAIL the command completes with FILE_OPEN_FAILED, both results 0 and
the namespace unchanged; so do ENCODE, DECODE and CRC32 on an absent input, and ENCODE and DECODE whose output's open fails (R185,
R186). R203, R207: after validation a failing STemp of APPEND, REMOVE or REMOVE_ALL gives SCRATCH_UNAVAILABLE. R203, R205, R206,
R216: in a batch a failing open, or APPEND's of an absent file, gives the name the status FILE_OPEN_FAILED, counts it as failed, and
the batch goes on with the storage as it was. -/
def Obligations.FailedOpenGivesFileOpenFailed : Prop :=
  (∀ (i : Instr) (s : State) (p : Path), s.eng.ready → s.breach (naming i s) = none → s.eng.draws.answers = none →
    opensFirst i s = some p →
    (s.eng.draws.failAt.contains s.eng.draws.reqNo = true ∧ (i = .create ∨ fsGet s.eng.storage.fs p ≠ none)) ∨
      ((i = .encode ∨ i = .decode ∨ i = .crc32) ∧ fsGet s.eng.storage.fs p = none) →
    s.Gives i .fileOpenFailed 0 0 s.eng.storage.fs []) ∧
  (∀ (i : Instr) (s : State) (p0 p1 : Path) (c : Bytes), s.eng.ready → s.breach (naming i s) = none →
    s.eng.draws.answers = none → twoFiles s = some (p0, p1) → fsGet s.eng.storage.fs p0 = some c →
    s.eng.draws.failAt.contains s.eng.draws.reqNo = false →
    ((i = .encode ∧ c.length ≤ Config.maxOrig ∧ s.eng.draws.failAt.contains (s.eng.draws.reqNo + 2) = true) ∨
      (i = .decode ∧ s.eng.draws.failAt.contains (s.eng.draws.reqNo + 1) = true)) →
    s.Gives i .fileOpenFailed 0 0 s.eng.storage.fs []) ∧
  (∀ (i : Instr) (s : State) (p : Path) (v : Validation) (e : Engine), s.eng.ready → s.breach (naming i s) = none →
    s.eng.draws.answers = none → archiveOf i s = some p → openValidate p .abort s.eng = .ok v e →
    ((i = .append ∧ ∃ k, k < 3 ∧ e.draws.failAt.contains (e.draws.reqNo + k) = true) ∨
      ((i = .remove ∨ i = .removeAll) ∧ e.draws.failAt.contains e.draws.reqNo = true)) →
    s.Gives i .scratchUnavailable 0 0 e.storage.fs []) ∧
  (∀ (e : Engine) (k : Nat) (n : Path), e.draws.answers = none → e.draws.edits = [] → lengthValid n = true →
    (fsGet e.storage.fs n = none ∨ e.draws.failAt.contains e.draws.reqNo = true) →
    ∃ e', appendName k n e = .ok () e' ∧ e'.storage = e.storage ∧
      e'.work = { e.work with kFail := e.work.kFail + 1 } ∧ e'.statmem = Memory.write statDefault e.statmem k 0x02) ∧
  ∀ (e e1 e2 : Engine) (sel : Selection) (k j : Nat), recAt e.work.recPos e = .ok k e1 →
    sel.picks e1.work.entry.name = true → e1.draws.answers = none → e1.draws.edits = [] →
    e1.draws.failAt.contains e1.draws.reqNo = true →
    sel.mark j e1.work.entry.name .fileOpenFailed e1 = .ok () e2 →
    ∃ e3, extractLoop sel 1 j e = .ok () e3 ∧ e3.storage = e1.storage ∧ e3.work.kOk = e1.work.kOk ∧
      e3.work.kFail = e1.work.kFail + 1 ∧ e3.statmem = e2.statmem

/-- R195, R288, R289: an archive command that validates its archive ends with NOT_AN_ARCHIVE or CORRUPT_ARCHIVE, both results 0
and the namespace unchanged, as the archive parses; VERIFY with NOT_AN_ARCHIVE alone. -/
def Obligations.InvalidArchivesAreRefused : Prop :=
  ∀ (i : Instr) (s : State) (p : Path), s.Undisturbed i → archiveOf i s = some p →
    ((abortsOnCorrupt i = true ∨ i = .verify) → openedArchive s.eng.storage.fs p = .notAnArchive →
      s.Gives i .notAnArchive 0 0 s.eng.storage.fs []) ∧
    (abortsOnCorrupt i = true → openedArchive s.eng.storage.fs p = .corrupt →
      s.Gives i .corruptArchive 0 0 s.eng.storage.fs [])

/-! ## The commands -/

/-- R202, R192, R67: CREATE leaves the 20-byte empty archive at its path, whatever stood there, and gives 0x2144DF1C and 20. -/
def Obligations.CreateWritesTheEmptyArchive : Prop :=
  emptyArchive = [0x4D, 0x41, 0x47, 0x49, 0x43, 0x5F, 0x4E, 0x55, 0x4D, 0x42, 0x45, 0x52, 0x1C, 0xDF, 0x44, 0x21,
    0x00, 0x00, 0x00, 0x00] ∧
  ∀ (s : State) (p : Path), s.Undisturbed .create → archPath s = some p →
    s.Gives .create .none 0x2144DF1C 20 (fsPut s.eng.storage.fs p emptyArchive) []

/-- R209: VERIFY gives 1 for an archive that parses and 0 for a corrupt one, with the recomputed checksum, and changes nothing
but that an absent archive is created. -/
def Obligations.VerifyReports : Prop :=
  ∀ (s : State) (p : Path), s.Undisturbed .verify → archPath s = some p →
    let c := openedContent s.eng.storage.fs p
    (∀ es bs, parse c true = .archive es bs →
      s.Gives .verify .none 1 (bodyChecksum c) (openedFs s.eng.storage.fs p) []) ∧
    (parse c true = .corrupt → s.Gives .verify .none 0 (bodyChecksum c) s.eng.storage.fs [])

/-- R210: INFO gives the number of entries and the stored checksum. -/
def Obligations.InfoReports : Prop :=
  ∀ (s : State) (p : Path) (es : List Entry) (bs : List Bytes), s.Undisturbed .info → archPath s = some p →
    openedArchive s.eng.storage.fs p = .archive es bs →
    s.Gives .info .none (BitVec.ofNat 32 es.length) (storedChecksum (openedContent s.eng.storage.fs p))
      (openedFs s.eng.storage.fs p) []

/-- R211, R212: LIST_ENTRY of an entry in range gives the name's length and the number of entries, and writes the name with its
0x00 to ARGMEM from OUT_PTR on and the entry's fields to ENT_*; it changes no other byte of ARGMEM. An index out of range,
or a name that does not fit at OUT_PTR, ends it with BAD_ARGS after validation, ARGMEM and ENT_* unchanged. -/
def Obligations.ListEntryListsTheEntry : Prop :=
  ∀ (s : State) (p : Path) (es : List Entry) (bs : List Bytes), s.Undisturbed .listEntry → archPath s = some p →
    openedArchive s.eng.storage.fs p = .archive es bs →
    (∀ en, es[s.entryIdx.toNat]? = some en → s.outPtr.toNat + en.name.length + 1 ≤ 65536 →
      Memory.wf (argDefault s.argEpoch) Config.argmemBytes s.argmem = true →
      ∃ t, exec .listEntry s = .next t ∧
        s.Completed t .none (BitVec.ofNat 32 en.name.length) (BitVec.ofNat 32 es.length) ∧
        t.eng.storage.fs = openedFs s.eng.storage.fs p ∧ (∀ k, t.eng.statByte k = 0) ∧
        t.entOrig = en.orig ∧ t.entComp = en.comp ∧ t.entTimeHi ++ t.entTimeLo = en.time ∧
        (t.entRatioHi ++ t.entRatioLo : BitVec 64) = BitVec.ofInt 64 (ratio en.orig.toNat en.comp.toNat) ∧
        ∀ a, t.argByte a =
          if s.outPtr.toNat ≤ a ∧ a < s.outPtr.toNat + en.name.length + 1 then
            (en.name ++ [0]).getD (a - s.outPtr.toNat) 0
          else s.argByte a) ∧
    ((es.length ≤ s.entryIdx.toNat ∨
        ∃ en, es[s.entryIdx.toNat]? = some en ∧ 65536 < s.outPtr.toNat + en.name.length + 1) →
      s.Gives .listEntry .badArgs 0 0 (openedFs s.eng.storage.fs p) [])

/-- R205, R206, R197, R198: EXTRACT writes, for each entry whose name a valid name of the list equals, in archive order, the file
its block decodes to; it counts the entries that decode and those that do not, and gives each name its status. EXTRACT_ALL
does so for every entry, with one status per entry below 4096. -/
def Obligations.ExtractWritesTheSelectedEntries : Prop :=
  (∀ (s : State) (p : Path) (ns : List Path) (es : List Entry) (bs : List Bytes), s.Undisturbed .extract →
    batchOperands s = some (p, ns) → openedArchive s.eng.storage.fs p = .archive es bs →
    let xs := es.zip bs
    s.Gives .extract .none (BitVec.ofNat 32 (extractedCounts (.names ns) xs).1)
      (BitVec.ofNat 32 (extractedCounts (.names ns) xs).2)
      (extractedFs (.names ns) (openedFs s.eng.storage.fs p) xs) (ns.map (extractedStatus xs))) ∧
  ∀ (s : State) (p : Path) (es : List Entry) (bs : List Bytes), s.Undisturbed .extractAll → archPath s = some p →
    openedArchive s.eng.storage.fs p = .archive es bs →
    let xs := es.zip bs
    s.Gives .extractAll .none (BitVec.ofNat 32 (extractedCounts .all xs).1) (BitVec.ofNat 32 (extractedCounts .all xs).2)
      (extractedFs .all (openedFs s.eng.storage.fs p) xs) ((xs.map entryStatus).take 4096)

/-- R207, R208, R200, R197: REMOVE leaves Ser of the entries not named and their blocks, in order, or the archive as it was if no
entry is named; it gives the numbers removed and kept, and each name its status. REMOVE_ALL leaves the empty archive, or
the archive as it was if it had no entry, with one status OK per entry below 4096. -/
def Obligations.RemoveLeavesTheOtherEntries : Prop :=
  (∀ (s : State) (p : Path) (ns : List Path) (es : List Entry) (bs : List Bytes), s.Undisturbed .remove →
    batchOperands s = some (p, ns) → openedArchive s.eng.storage.fs p = .archive es bs →
    let xs := es.zip bs
    s.Gives .remove .none (BitVec.ofNat 32 (picked (.names ns) xs).length) (BitVec.ofNat 32 (spared (.names ns) xs).length)
      (removedFs (.names ns) (openedFs s.eng.storage.fs p) p xs) (ns.map (removedStatus es))) ∧
  ∀ (s : State) (p : Path) (es : List Entry) (bs : List Bytes), s.Undisturbed .removeAll → archPath s = some p →
    openedArchive s.eng.storage.fs p = .archive es bs →
    s.Gives .removeAll .none (BitVec.ofNat 32 es.length) 0
      (if es.isEmpty then openedFs s.eng.storage.fs p else fsPut (openedFs s.eng.storage.fs p) p emptyArchive)
      (List.replicate (min es.length 4096) .ok)

/-- R203, R204, R200, R216, R304: APPEND leaves Ser of the old entries followed by those of the files added, in name-list order,
each with its block and the time port's answer for it, or the archive as it was if none was added, where the result is no
longer than a file can be (R49); it gives the number added and the new number of entries, and each name its status. The
answers are those of the NOW oracle, the free values of Config past its end (log 6). -/
def Obligations.AppendAddsTheFiles : Prop :=
  ∀ (s : State) (p : Path) (ns : List Path) (es : List Entry) (bs : List Bytes), s.Undisturbed .append →
    batchOperands s = some (p, ns) → openedArchive s.eng.storage.fs p = .archive es bs →
    let new := appended (openedFs s.eng.storage.fs p) es.length s.eng.draws.time 0 ns
    (ser ((es.zip bs ++ new.1).map (·.1)) ((es.zip bs ++ new.1).map (·.2))).length ≤ Config.fileMax →
    s.Gives .append .none (BitVec.ofNat 32 new.1.length) (BitVec.ofNat 32 (es.length + new.1.length))
      (appendedFs (openedFs s.eng.storage.fs p) p (es.zip bs) new.1) new.2

/-- R185, R176: ENCODE of a file no longer than MAX_ORIG leaves its block at the output path and gives the block's length and the
file's; a longer file ends with TOO_LARGE and opens no output. -/
def Obligations.EncodeWritesTheBlock : Prop :=
  ∀ (s : State) (p0 p1 : Path) (c : Bytes), s.Undisturbed .encode → twoFiles s = some (p0, p1) →
    fsGet s.eng.storage.fs p0 = some c →
    (c.length ≤ 0xFFFFFEBF →
      s.Gives .encode .none (BitVec.ofNat 32 (blockOf c).length) (BitVec.ofNat 32 c.length)
        (fsPut s.eng.storage.fs p1 (blockOf c)) []) ∧
    (0xFFFFFEBF < c.length → s.Gives .encode .tooLarge 0 0 s.eng.storage.fs [])

/-- R186, R181: DECODE leaves at the output path the DEC_SIZE symbols the block decodes to, and gives their number and the number
of block bytes used; where the block does not decode it leaves the symbols decoded so far, gives their number and 0, and ends
with BLOCK_CORRUPT. -/
def Obligations.DecodeWritesTheFile : Prop :=
  ∀ (s : State) (p0 p1 : Path) (c : Bytes), s.Undisturbed .decode → twoFiles s = some (p0, p1) →
    fsGet s.eng.storage.fs p0 = some c →
    let u := unblock c s.decSize.toNat
    (∀ bits, u.used = some bits →
      s.Gives .decode .none (BitVec.ofNat 32 u.bytes.length) (BitVec.ofNat 32 ((bits + 7) / 8))
        (fsPut s.eng.storage.fs p1 u.bytes) []) ∧
    (u.used = none →
      s.Gives .decode .blockCorrupt (BitVec.ofNat 32 u.bytes.length) 0 (fsPut s.eng.storage.fs p1 u.bytes) [])

/-- R150, R145: CRC32 gives the CRC-32 of the file's bytes from the offset on and their number modulo 2^32, and changes no
file. -/
def Obligations.Crc32Checksums : Prop :=
  ∀ (s : State) (p : Path) (c : Bytes), s.Undisturbed .crc32 → oneFile s = some p → fsGet s.eng.storage.fs p = some c →
    s.Gives .crc32 .none (crc32Of (c.drop (s.crcOffHi.toNat * 2 ^ 32 + s.crcOffLo.toNat)))
      (BitVec.ofNat 32 (c.length - (s.crcOffHi.toNat * 2 ^ 32 + s.crcOffLo.toNat))) s.eng.storage.fs []

/-! ## Laws -/

/-- R68, R67, R215: the parser reads back every archive the serializer writes, for entries with names of R63 and blocks of the
lengths the entries give. -/
def Obligations.ParseInvertsSer : Prop :=
  ∀ (es : List Entry) (bs : List Bytes), (∀ en ∈ es, en.wf = true) → es.length < 2 ^ 32 →
    bs.map (·.length) = es.map (fun en => en.comp.toNat) → parse (ser es bs) true = .archive es bs

/-- R67, R68: an archive that parses is the serialization of what it parses to, so an archive left as it was equals what a commit
would have written (R200); its entries have names of R63 and blocks of their lengths, and H is 20 plus the records' lengths. -/
def Obligations.SerInvertsParse : Prop :=
  ∀ (c : Bytes) (es : List Entry) (bs : List Bytes), parse c true = .archive es bs →
    c = ser es bs ∧ (∀ en ∈ es, en.wf = true) ∧ bs.map (·.length) = es.map (fun en => en.comp.toNat) ∧
      es.length < 2 ^ 32 ∧ headerSize es + (es.map fun en => en.comp.toNat).sum = c.length

/-- R184, R170, R173, R181: decoding a file's block with the file's length gives the file, and consumes the tree's bits and the
codes' bits exactly. -/
def Obligations.BlockRoundTrip : Prop :=
  ∀ S : Bytes,
    unblock (blockOf S) S.length =
      ⟨S, some (match huffTree S with
        | none   => 0
        | some t => (blockBits t S).length)⟩

/-- R184, R185, R186: DECODE of the output of ENCODE, with DEC_SIZE the file's length, writes the file and uses every byte of the
block. -/
def Obligations.DecodeUndoesEncode : Prop :=
  ∀ (s : State) (p0 p1 : Path) (S : Bytes), s.Undisturbed .decode → twoFiles s = some (p0, p1) →
    fsGet s.eng.storage.fs p0 = some (blockOf S) → s.decSize.toNat = S.length →
    s.Gives .decode .none (BitVec.ofNat 32 S.length) (BitVec.ofNat 32 (blockOf S).length)
      (fsPut s.eng.storage.fs p1 S) []

/-- R172, R170, R171: the codes of two different symbols of a file are no prefix of each other, and every code has 1 to 45
bits. -/
def Obligations.CodesArePrefixFree : Prop :=
  ∀ (S : Bytes) (t : Tree), S.length ≤ Config.maxOrig → huffTree S = some t →
    ∀ a ∈ S, (1 ≤ (t.code a).length ∧ (t.code a).length ≤ 45) ∧
      ∀ b ∈ S, a ≠ b → ¬ (t.code a <+: t.code b)

/-- R177: a block is at most 320 bytes longer than its file. -/
def Obligations.BlockSizeBound : Prop := ∀ S : Bytes, (blockOf S).length ≤ S.length + 320

/-- R213: the ratio is floor(100 (o - c) / o) = 100 - ceil(100 c / o), negative when the block is larger than the file, in range for
32-bit o and c, so that 64 bits hold it, and 0 for o = 0; with the rule's examples. -/
def Obligations.RatioIsTheFloor : Prop :=
  (∀ c : Nat, ratio 0 c = 0) ∧
  (∀ o c : Nat, 1 ≤ o → o < 2 ^ 32 → c < 2 ^ 32 →
    ratio o c * o ≤ 100 * ((o : Int) - c) ∧ 100 * ((o : Int) - c) < (ratio o c + 1) * o ∧
    ratio o c = 100 - ((100 * c + o - 1) / o : Nat) ∧ -429496729400 ≤ ratio o c ∧ ratio o c ≤ 100 ∧
    (o < c → ratio o c < 0) ∧ (BitVec.ofInt 64 (ratio o c)).toInt = ratio o c) ∧
  ratio 11 9 = 18 ∧ ratio 1 2 = -100 ∧ ratio 3 2 = 33 ∧ ratio 4 2 = 50 ∧ ratio 256 576 = -125 ∧ ratio 100 0 = 100 ∧
  ratio 0 0 = 0

/-- R143, R149: the CRC-32 of the empty sequence, of four zero bytes and of "123456789"; R148: changing one byte of a sequence
changes its CRC-32. -/
def Obligations.CrcFixturesAndDetection : Prop :=
  crc32Of [] = 0x00000000 ∧ crc32Of [0, 0, 0, 0] = 0x2144DF1C ∧
  crc32Of [0x31, 0x32, 0x33, 0x34, 0x35, 0x36, 0x37, 0x38, 0x39] = 0xCBF43926 ∧
  ∀ (pre post : Bytes) (b c : Byte), b ≠ c → crc32Of (pre ++ b :: post) ≠ crc32Of (pre ++ c :: post)

/-- R132, R66: after in_init(h, limit) with h at position p, successive read_bit results are the bits of the bytes from p on, as
many as the limit and the file allow, then EXHAUSTED. -/
def Obligations.InputStreamLaw : Prop :=
  ∀ (e : Engine) (h : Handle) (f : OpenFile) (limit n : Nat), e.draws.obliging →
    lookup e.storage.handles h = some f →
    let bits := bitsOf (((e.storage.content f.ref).drop f.pos).take limit)
    ∃ e', (do inInit h limit; readMany n : Eng (List (Option Bool))) e = .ok ((List.range n).map fun k => bits[k]?) e' ∧
      e'.storage.fs = e.storage.fs ∧ e'.storage.temps = e.storage.temps

/-- R131, R66: after out_init(h) with h at position p, a bit string and one flush, the file holds the string's packing from p on
and nothing else changed in it, and OUT_TOTAL is the packing's length; an empty string changes nothing. -/
def Obligations.OutputStreamLaw : Prop :=
  (∀ (e : Engine) (h : Handle) (f : OpenFile) (bits : Bits), e.draws.obliging → lookup e.storage.handles h = some f →
    f.writable = true → e.storage.hasTemp f.ref → f.pos + (bits.length + 7) / 8 ≤ Config.fileMax →
    ∃ e', (do outInit h; writeBits bits; flush : Eng Unit) e = .ok () e' ∧
      e'.storage.content f.ref =
        (if bits = [] then e.storage.content f.ref else writeAt (e.storage.content f.ref) f.pos (pack bits)) ∧
      (pack bits).length = (bits.length + 7) / 8 ∧ e'.out.total = (bits.length + 7) / 8) ∧
  ∀ b : Byte, writeByte b = writeBits ((List.range 8).map b.getLsbD)

/-- R155, R158, R159, R160: insert and extract_min keep the heap order and the live nodes, and extract_min returns the live node of
least key. -/
def Obligations.HeapLaw : Prop :=
  (∀ (g : Huffman) (x : Nat), g.IsHeap → g.live.Nodup → g.hn < Config.heapCap → x ∉ g.live →
    (g.pushed x).IsHeap ∧ (g.pushed x).live.Perm (x :: g.live)) ∧
  ∀ g : Huffman, g.IsHeap → g.live.Nodup → 0 < g.hn →
    g.popped.IsHeap ∧ g.live.Perm (g.heapAt 0 :: g.popped.live) ∧
      ∀ y ∈ g.popped.live, g.keyLt (g.heapAt 0) y = true
end

