-- ==== Sys2Proof/Laws/Bits.lean ====
section
/-! SUPPORT. Bit strings and byte sequences (R66): packing and unpacking undo each other. -/

namespace Sys2Proof.Machine

theorem bitsValue_lt (b : Bits) : bitsValue b < 2 ^ b.length := by
  induction b with
  | nil => simp [bitsValue]
  | cons x xs ih =>
    simp only [bitsValue, List.length_cons, Nat.pow_succ]
    split <;> omega

@[simp] theorem byteBits_length (b : Byte) : (byteBits b).length = 8 := by simp [byteBits]

/-- Bit k of a bit string's value is the string's k-th bit. -/
theorem testBit_bitsValue (b : Bits) (k : Nat) : (bitsValue b).testBit k = (b[k]?).getD false := by
  induction b generalizing k with
  | nil => simp [bitsValue]
  | cons x xs ih =>
    cases k with
    | zero =>
      simp only [bitsValue, Nat.testBit_zero]
      cases x <;> simp
    | succ k =>
      rw [Nat.testBit_succ]
      have : ((if x = true then 1 else 0) + 2 * bitsValue xs) / 2 = bitsValue xs := by split <;> omega
      simp only [bitsValue, this, ih]
      simp

/-- The bits of the byte that eight bits or fewer make: the bits, and 0 up to eight. -/
theorem byteBits_bitsValue (b : Bits) (h : b.length ≤ 8) :
    byteBits (BitVec.ofNat 8 (bitsValue b)) = b ++ List.replicate (8 - b.length) false := by
  apply List.ext_getElem?
  intro k
  by_cases hk : k < 8
  · rw [show (byteBits (BitVec.ofNat 8 (bitsValue b)))[k]? = some ((bitsValue b).testBit k) by
      simp only [byteBits, List.getElem?_map, List.getElem?_range hk, Option.map_some, BitVec.getLsbD_ofNat]
      simp [hk], testBit_bitsValue]
    by_cases hb : k < b.length
    · rw [List.getElem?_append_left hb]
      simp [List.getElem?_eq_getElem hb]
    · rw [List.getElem?_append_right (by omega), List.getElem?_eq_none (by omega)]
      rw [List.getElem?_replicate]
      simp
      omega
  · rw [List.getElem?_eq_none (by simp; omega), List.getElem?_eq_none (by simp; omega)]

/-- The byte that a byte's bits make is the byte. -/
theorem bitsValue_byteBits (b : Byte) : BitVec.ofNat 8 (bitsValue (byteBits b)) = b := by
  apply BitVec.eq_of_getLsbD_eq
  intro i hi
  rw [BitVec.getLsbD_ofNat, testBit_bitsValue]
  simp [byteBits, hi]

theorem bitsOf_cons (b : Byte) (bs : Bytes) : bitsOf (b :: bs) = byteBits b ++ bitsOf bs := rfl

@[simp] theorem bitsOf_nil : bitsOf [] = [] := rfl

theorem bitsOf_append (a b : Bytes) : bitsOf (a ++ b) = bitsOf a ++ bitsOf b := by simp [bitsOf]

@[simp] theorem bitsOf_length (bs : Bytes) : (bitsOf bs).length = 8 * bs.length := by
  induction bs with
  | nil => rfl
  | cons b bs ih => rw [bitsOf_cons, List.length_append, ih, byteBits_length, List.length_cons]; omega

theorem bitsOf_drop (bs : Bytes) (n : Nat) : bitsOf (bs.drop n) = (bitsOf bs).drop (8 * n) := by
  induction bs generalizing n with
  | nil => simp
  | cons b bs ih =>
    cases n with
    | zero => rfl
    | succ n =>
      rw [List.drop_succ_cons, ih, bitsOf_cons, List.drop_append, List.drop_of_length_le (l := byteBits b) (by rw [byteBits_length]; omega)]
      simp [Nat.mul_succ]

theorem bitsOf_take (bs : Bytes) (n : Nat) : bitsOf (bs.take n) = (bitsOf bs).take (8 * n) := by
  induction bs generalizing n with
  | nil => simp
  | cons b bs ih =>
    cases n with
    | zero => rfl
    | succ n =>
      rw [List.take_succ_cons, bitsOf_cons, ih, bitsOf_cons, List.take_append, List.take_of_length_le (l := byteBits b) (by rw [byteBits_length]; omega)]
      simp [Nat.mul_succ]

/-- Bit k of a byte sequence is bit k mod 8 of byte k div 8. -/
theorem bitsOf_getElem? (bs : Bytes) (k : Nat) : (bitsOf bs)[k]? = (bs[k / 8]?).map fun b => b.getLsbD (k % 8) := by
  induction bs generalizing k with
  | nil => simp
  | cons b bs ih =>
    rw [bitsOf_cons]
    by_cases hk : k < 8
    · rw [List.getElem?_append_left (by simpa using hk), Nat.div_eq_of_lt hk, Nat.mod_eq_of_lt hk]
      simp [byteBits, hk]
    · rw [List.getElem?_append_right (by simp; omega), byteBits_length, ih]
      have h1 : k / 8 = (k - 8) / 8 + 1 := by omega
      have h2 : (k - 8) % 8 = k % 8 := by omega
      rw [h1, List.getElem?_cons_succ, h2]

/-! ## Packing -/

theorem packN_more {n m : Nat} {b : Bits} (hn : b.length ≤ n) (hm : b.length ≤ m) : packN n b = packN m b := by
  induction n generalizing m b with
  | zero =>
    have : b = [] := List.eq_nil_of_length_eq_zero (by omega)
    subst this
    cases m <;> rfl
  | succ n ih =>
    cases b with
    | nil => cases m <;> rfl
    | cons x xs =>
      cases m with
      | zero => simp at hm
      | succ m =>
        simp only [packN]
        rw [ih (m := m)] <;> · simp only [List.length_drop, List.length_cons] at *; omega

@[simp] theorem pack_nil : pack [] = [] := rfl

/-- Packing goes byte by byte. -/
theorem pack_cons {b : Bits} (h : b ≠ []) : pack b = BitVec.ofNat 8 (bitsValue (b.take 8)) :: pack (b.drop 8) := by
  cases b with
  | nil => exact absurd rfl h
  | cons x xs =>
    show packN (xs.length + 1) (x :: xs) = _
    simp only [packN, pack]
    rw [packN_more (m := ((x :: xs).drop 8).length)] <;> · simp only [List.length_drop, List.length_cons] at *; omega

/-- A bit string of whole bytes packs on its own. -/
theorem pack_append {a b : Bits} (h : a.length % 8 = 0) : pack (a ++ b) = pack a ++ pack b := by
  obtain ⟨n, hn⟩ : ∃ n, a.length = 8 * n := ⟨a.length / 8, by omega⟩
  clear h
  induction n generalizing a with
  | zero =>
    have : a = [] := List.eq_nil_of_length_eq_zero (by omega)
    simp [this]
  | succ n ih =>
    have ha : a ≠ [] := by rintro rfl; simp at hn
    rw [pack_cons (b := a) ha, pack_cons (b := a ++ b) (by simp [ha]), List.take_append_of_le_length (by omega),
      List.drop_append_of_le_length (by omega), ih (a := a.drop 8) (by simp; omega)]
    rfl

/-- ceil(N / 8) bytes. -/
theorem pack_length (b : Bits) : (pack b).length = (b.length + 7) / 8 := by
  obtain ⟨n, hn⟩ : ∃ n, b.length ≤ n := ⟨_, Nat.le_refl _⟩
  induction n generalizing b with
  | zero =>
    have : b = [] := List.eq_nil_of_length_eq_zero (by omega)
    simp [this]
  | succ n ih =>
    by_cases hb : b = []
    · simp [hb]
    · have : 0 < b.length := List.length_pos_iff.2 hb
      rw [pack_cons hb, List.length_cons, ih _ (by simp; omega), List.length_drop]
      omega

/-- The bits of the packed string: the string and 0 up to a whole byte. -/
theorem bitsOf_pack (b : Bits) : bitsOf (pack b) = b ++ List.replicate (8 * ((b.length + 7) / 8) - b.length) false := by
  obtain ⟨n, hn⟩ : ∃ n, b.length ≤ n := ⟨_, Nat.le_refl _⟩
  induction n generalizing b with
  | zero =>
    have : b = [] := List.eq_nil_of_length_eq_zero (by omega)
    simp [this]
  | succ n ih =>
    by_cases hb : b = []
    · simp [hb]
    · have : 0 < b.length := List.length_pos_iff.2 hb
      rw [pack_cons hb, bitsOf_cons, byteBits_bitsValue _ (by rw [List.length_take]; omega), ih _ (by rw [List.length_drop]; omega)]
      by_cases h8 : b.length ≤ 8
      · rw [List.take_of_length_le h8, List.drop_of_length_le h8]
        simp
        omega
      · have h1 : (b.take 8).length = 8 := by simp; omega
        rw [h1]
        simp only [Nat.sub_self, List.replicate_zero, List.append_nil]
        rw [← List.append_assoc, List.take_append_drop, List.length_drop]
        congr 2
        omega

theorem bitsOf_pack_prefix (b : Bits) : b <+: bitsOf (pack b) := by
  rw [bitsOf_pack]
  exact ⟨_, rfl⟩

/-- Packing the bits of a byte sequence gives the sequence. -/
theorem pack_bitsOf (bs : Bytes) : pack (bitsOf bs) = bs := by
  induction bs with
  | nil => rfl
  | cons b bs ih =>
    rw [bitsOf_cons, pack_append (by simp), ih, pack_cons (by simp [byteBits])]
    rw [List.take_of_length_le (by simp), List.drop_of_length_le (by simp), bitsValue_byteBits]
    rfl

/-- Whole bytes in a bit string unpack to themselves. -/
theorem bitsOf_pack_whole {b : Bits} (h : b.length % 8 = 0) : bitsOf (pack b) = b := by
  rw [bitsOf_pack, show 8 * ((b.length + 7) / 8) - b.length = 0 by omega]
  simp

end Sys2Proof.Machine
end

