-- ==== Sys2Proof/Laws/Engine.lean ====
section
/-! SUPPORT. How a computation of the engine ends: a predicate on its two ends, its rule for each combinator, and the
storage port's requests under it. A proof about a command goes through its text with these and never unfolds `Eng`. -/

namespace Sys2Proof.Machine

variable {α β : Type}

/-- From `e` the computation ends with an answer and an engine that `Q` holds of, or stops as `R` says. -/
def Ends (x : Eng α) (e : Engine) (Q : α → Engine → Prop) (R : Stop → Engine → Prop) : Prop :=
  match x e with
  | .ok a e'    => Q a e'
  | .error s e' => R s e'

theorem Ends.mono {x : Eng α} {e : Engine} {Q Q' : α → Engine → Prop} {R R' : Stop → Engine → Prop}
    (h : Ends x e Q R) (hq : ∀ a e', Q a e' → Q' a e') (hr : ∀ s e', R s e' → R' s e') : Ends x e Q' R' := by
  unfold Ends at *
  split <;> simp_all

/-- What an answer says. -/
theorem Ends.of_ok {x : Eng α} {e e' : Engine} {a : α} {Q : α → Engine → Prop} {R : Stop → Engine → Prop}
    (h : Ends x e Q R) (hx : x e = .ok a e') : Q a e' := by simpa [Ends, hx] using h

/-- What a stop says. -/
theorem Ends.of_error {x : Eng α} {e e' : Engine} {s : Stop} {Q : α → Engine → Prop} {R : Stop → Engine → Prop}
    (h : Ends x e Q R) (hx : x e = .error s e') : R s e' := by simpa [Ends, hx] using h

/-- A computation that cannot stop answers. -/
theorem Ends.answers {x : Eng α} {e : Engine} {Q : α → Engine → Prop} (h : Ends x e Q fun _ _ => False) :
    ∃ a e', x e = .ok a e' ∧ Q a e' := by
  unfold Ends at h
  split at h
  · exact ⟨_, _, ‹_›, h⟩
  · exact h.elim

theorem ends_iff_of_ok {x : Eng α} {e e' : Engine} {a : α} {Q : α → Engine → Prop} {R : Stop → Engine → Prop}
    (hx : x e = .ok a e') : Ends x e Q R ↔ Q a e' := by simp [Ends, hx]

theorem ends_and {x : Eng α} {e : Engine} {Q Q' : α → Engine → Prop} {R R' : Stop → Engine → Prop}
    (h : Ends x e Q R) (h' : Ends x e Q' R') : Ends x e (fun a e' => Q a e' ∧ Q' a e') fun s e' => R s e' ∧ R' s e' := by
  unfold Ends at *
  split <;> simp_all

/-! ## Combinators -/

@[simp] theorem ends_pure (a : α) (e : Engine) (Q : α → Engine → Prop) (R : Stop → Engine → Prop) :
    Ends (pure a) e Q R ↔ Q a e := Iff.rfl

@[simp] theorem ends_bind (x : Eng α) (f : α → Eng β) (e : Engine) (Q : β → Engine → Prop) (R : Stop → Engine → Prop) :
    Ends (x >>= f) e Q R ↔ Ends x e (fun a e' => Ends (f a) e' Q R) R := by
  show Ends (EStateM.bind x f) e Q R ↔ _
  unfold Ends EStateM.bind
  cases x e <;> rfl

@[simp] theorem ends_map (f : α → β) (x : Eng α) (e : Engine) (Q : β → Engine → Prop) (R : Stop → Engine → Prop) :
    Ends (f <$> x) e Q R ↔ Ends x e (fun a e' => Q (f a) e') R := by
  show Ends (EStateM.map f x) e Q R ↔ _
  unfold Ends EStateM.map
  cases x e <;> rfl

@[simp] theorem ends_look (f : Engine → α) (e : Engine) (Q : α → Engine → Prop) (R : Stop → Engine → Prop) :
    Ends (look f) e Q R ↔ Q (f e) e := Iff.rfl

@[simp] theorem ends_update (f : Engine → Engine) (e : Engine) (Q : Unit → Engine → Prop) (R : Stop → Engine → Prop) :
    Ends (update f) e Q R ↔ Q () (f e) := Iff.rfl

@[simp] theorem ends_raise (c : ErrorCode) (e : Engine) (Q : α → Engine → Prop) (R : Stop → Engine → Prop) :
    Ends (raise c : Eng α) e Q R ↔ R (.error c 0 0) e := Iff.rfl

@[simp] theorem ends_raiseWith (c : ErrorCode) (r0 r1 : Word) (e : Engine) (Q : α → Engine → Prop)
    (R : Stop → Engine → Prop) : Ends (raiseWith c r0 r1 : Eng α) e Q R ↔ R (.error c r0 r1) e := Iff.rfl

@[simp] theorem ends_orRaise_some (c : ErrorCode) (a : α) (e : Engine) (Q : α → Engine → Prop)
    (R : Stop → Engine → Prop) : Ends (orRaise c (some a)) e Q R ↔ Q a e := Iff.rfl

@[simp] theorem ends_orRaise_none (c : ErrorCode) (e : Engine) (Q : α → Engine → Prop) (R : Stop → Engine → Prop) :
    Ends (orRaise c none) e Q R ↔ R (.error c 0 0) e := Iff.rfl

theorem ends_orRaise (c : ErrorCode) (o : Option α) (e : Engine) (Q : α → Engine → Prop) (R : Stop → Engine → Prop) :
    Ends (orRaise c o) e Q R ↔ (∀ a, o = some a → Q a e) ∧ (o = none → R (.error c 0 0) e) := by
  cases o <;> simp

@[simp] theorem ends_check (b : Bool) (c : ErrorCode) (e : Engine) (Q : Unit → Engine → Prop) (R : Stop → Engine → Prop) :
    Ends (check b c) e Q R ↔ (b = true → Q () e) ∧ (b = false → R (.error c 0 0) e) := by
  cases b <;> simp [check]

theorem ends_ite {P : Prop} [Decidable P] (x y : Eng α) (e : Engine) (Q : α → Engine → Prop) (R : Stop → Engine → Prop) :
    Ends (if P then x else y) e Q R ↔ (P → Ends x e Q R) ∧ (¬P → Ends y e Q R) := by split <;> simp_all

@[simp] theorem ends_nextFree (e : Engine) (Q : Nat → Engine → Prop) (R : Stop → Engine → Prop) :
    Ends nextFree e Q R ↔ Q e.draws.free { e with draws := { e.draws with free := e.draws.free + 1 } } := Iff.rfl

@[simp] theorem ends_setStorage (st : Storage) (e : Engine) (Q : Unit → Engine → Prop) (R : Stop → Engine → Prop) :
    Ends (setStorage st) e Q R ↔ Q () { e with storage := st } := Iff.rfl

@[simp] theorem ends_setReg (r : HandleReg) (v : Option Handle) (e : Engine) (Q : Unit → Engine → Prop)
    (R : Stop → Engine → Prop) : Ends (setReg r v) e Q R ↔ Q () { e with work := e.work.setReg r v } := Iff.rfl

@[simp] theorem ends_reg (r : HandleReg) (e : Engine) (Q : Handle → Engine → Prop) (R : Stop → Engine → Prop) :
    Ends (reg r) e Q R ↔ Q ((e.work.reg r).getD 0) e := Iff.rfl

@[simp] theorem ends_setStatus (i : Nat) (v : NameStatus) (e : Engine) (Q : Unit → Engine → Prop)
    (R : Stop → Engine → Prop) :
    Ends (setStatus i v) e Q R ↔ Q () { e with statmem := Memory.write statDefault e.statmem i (statusByte v) } := Iff.rfl

/-! ## Requests -/

/-- The draws after a request is answered. -/
def Draws.next (d : Draws) : Draws := { d with reqNo := d.reqNo + 1, answers := d.answers.map (· - 1) }

/-- The engine after a request is answered, before its effect: the host's changes that are due have come. -/
def Engine.asked (e : Engine) : Engine :=
  { e.land e.draws.reqNo with draws := (e.land e.draws.reqNo).draws.next }

/-- Whether the next request FAILs, if it may. -/
def Draws.fails (d : Draws) : Bool := d.failAt.contains d.reqNo

theorem ends_request (e : Engine) (Q : Nat → Engine → Prop) (R : Stop → Engine → Prop) :
    Ends request e Q R ↔
      (e.draws.answers = some 0 → R .unanswered e.landAll) ∧ (e.draws.answers ≠ some 0 → Q e.draws.reqNo e.asked) := by
  unfold Ends request
  match h : e.draws.answers with
  | some 0       => simp
  | some (n + 1) => simp [Engine.asked, Draws.next, Engine.land, h]
  | none         => simp [Engine.asked, Draws.next, Engine.land, h]

theorem ends_failDraw (e : Engine) (Q : Bool → Engine → Prop) (R : Stop → Engine → Prop) :
    Ends failDraw e Q R ↔
      (e.draws.answers = some 0 → R .unanswered e.landAll) ∧ (e.draws.answers ≠ some 0 → Q e.draws.fails e.asked) := by
  simp only [failDraw, ends_bind, ends_request, ends_look]
  exact Iff.rfl

theorem Draws.obliging.answered {d : Draws} (h : d.obliging) : d.answers ≠ some 0 := by simp [h.1]

theorem Draws.obliging.fails {d : Draws} (h : d.obliging) : d.fails = false := by
  cases hc : d.fails with
  | false => rfl
  | true => exact absurd (h.2.1 d.reqNo (by simpa [Draws.fails] using hc)) (Nat.lt_irrefl _)

theorem Draws.obliging.next {d : Draws} (h : d.obliging) : d.next.obliging :=
  ⟨by simp [Draws.next, h.1], fun n hn => Nat.lt_succ_of_lt (h.2.1 n hn), h.2.2⟩

/-- With no change of a file to come, a request changes the draws alone. -/
theorem asked_of_settled {e : Engine} (h : e.draws.edits = []) : e.asked = { e with draws := e.draws.next } := by
  obtain ⟨_, _, _, _, _, _, _, ⟨_, _, _, _, _, edits⟩⟩ := e
  cases h
  rfl

theorem landAll_of_settled {e : Engine} (h : e.draws.edits = []) : e.landAll = e := by
  obtain ⟨_, _, _, _, _, _, _, ⟨_, _, _, _, _, edits⟩⟩ := e
  cases h
  rfl

theorem Draws.obliging.asked {e : Engine} (h : e.draws.obliging) : e.asked = { e with draws := e.draws.next } :=
  asked_of_settled h.2.2

theorem Draws.obliging.askedStorage {e : Engine} (h : e.draws.obliging) : e.asked.storage = e.storage := by rw [h.asked]

theorem Draws.obliging.askedDraws {e : Engine} (h : e.draws.obliging) : e.asked.draws.obliging := by
  rw [h.asked]
  exact h.next

end Sys2Proof.Machine
end

