-- ==== Sys2Proof/Laws/Port.lean ====
section
/-! SUPPORT. What each storage port request (R72 to R83) can do: unanswered it stops the command where it stands; answered,
its answer and the storage after it. -/

namespace Sys2Proof.Machine

variable {e : Engine} {Q' : Unit → Engine → Prop} {R : Stop → Engine → Prop}

@[simp] theorem asked_handles : e.asked.storage.handles = e.storage.handles := rfl
@[simp] theorem asked_temps : e.asked.storage.temps = e.storage.temps := rfl
@[simp] theorem asked_nextId : e.asked.storage.nextId = e.storage.nextId := rfl
@[simp] theorem asked_work : e.asked.work = e.work := rfl
@[simp] theorem asked_inp : e.asked.inp = e.inp := rfl
@[simp] theorem asked_out : e.asked.out = e.out := rfl
@[simp] theorem asked_huff : e.asked.huff = e.huff := rfl
@[simp] theorem asked_crcReg : e.asked.crcReg = e.crcReg := rfl
@[simp] theorem asked_statmem : e.asked.statmem = e.statmem := rfl
@[simp] theorem asked_failAt : e.asked.draws.failAt = e.draws.failAt := rfl
@[simp] theorem asked_reqNo : e.asked.draws.reqNo = e.draws.reqNo + 1 := rfl
@[simp] theorem asked_answers : e.asked.draws.answers = e.draws.answers.map (· - 1) := rfl
@[simp] theorem asked_nows : e.asked.draws.nows = e.draws.nows := rfl
@[simp] theorem asked_free : e.asked.draws.free = e.draws.free := rfl

/-- The host's changes touch the namespace and their own list alone. -/
@[simp] theorem landAll_handles : e.landAll.storage.handles = e.storage.handles := rfl
@[simp] theorem landAll_temps : e.landAll.storage.temps = e.storage.temps := rfl
@[simp] theorem landAll_nextId : e.landAll.storage.nextId = e.storage.nextId := rfl
@[simp] theorem landAll_work : e.landAll.work = e.work := rfl
@[simp] theorem landAll_inp : e.landAll.inp = e.inp := rfl
@[simp] theorem landAll_out : e.landAll.out = e.out := rfl
@[simp] theorem landAll_huff : e.landAll.huff = e.huff := rfl
@[simp] theorem landAll_statmem : e.landAll.statmem = e.statmem := rfl
@[simp] theorem landAll_edits : e.landAll.draws.edits = [] := rfl

/-- The engine with another storage. -/
def Engine.withStorage (e : Engine) (st : Storage) : Engine := { e with storage := st }

@[simp] theorem withStorage_storage (st : Storage) : (e.withStorage st).storage = st := rfl
@[simp] theorem withStorage_work (st : Storage) : (e.withStorage st).work = e.work := rfl
@[simp] theorem withStorage_inp (st : Storage) : (e.withStorage st).inp = e.inp := rfl
@[simp] theorem withStorage_out (st : Storage) : (e.withStorage st).out = e.out := rfl
@[simp] theorem withStorage_huff (st : Storage) : (e.withStorage st).huff = e.huff := rfl
@[simp] theorem withStorage_crcReg (st : Storage) : (e.withStorage st).crcReg = e.crcReg := rfl
@[simp] theorem withStorage_statmem (st : Storage) : (e.withStorage st).statmem = e.statmem := rfl
@[simp] theorem withStorage_draws (st : Storage) : (e.withStorage st).draws = e.draws := rfl

/-- The storage after SOpen(path, R) opened a file. -/
def Storage.openedRead (st : Storage) (p : Path) : Storage := st.addHandle ⟨.named p, false, 0⟩

/-- The storage after SOpen(path, CW). -/
def Storage.openedCreate (st : Storage) (p : Path) : Storage :=
  Storage.addHandle { st with fs := fsPut st.fs p [] } ⟨.named p, true, 0⟩

/-- The storage after STemp(). -/
def Storage.openedTemp (st : Storage) : Storage :=
  Storage.addHandle { st with temps := st.temps ++ [(st.nextId, [])], nextId := st.nextId + 1 } ⟨.temp st.nextId, true, 0⟩

/-- The bytes SRead(h, n) answers. -/
def Storage.dataAt (st : Storage) (f : OpenFile) (n : Nat) : Bytes := ((st.content f.ref).drop f.pos).take n

/-- The storage after SWrite(h, bytes) succeeded. -/
def Storage.written (st : Storage) (h : Handle) (f : OpenFile) (bs : Bytes) : Storage :=
  (st.setContent f.ref (writeAt (st.content f.ref) f.pos bs)).setPos h f (f.pos + bs.length)

/-- The storage after SReplace(h, path) succeeded. -/
def Storage.replaced (st : Storage) (h : Handle) (n : Nat) (p : Path) : Storage :=
  { st with
    fs := fsPut st.fs p (st.content (.temp n)), temps := removeAt st.temps n, handles := removeAt st.handles h }

/-- SOpen(path, R) (R73). -/
theorem ends_sOpenRead (p : Path) (Q : OpenAnswer → Engine → Prop) :
    Ends (sOpenRead p) e Q R ↔
      (e.draws.answers = some 0 → R .unanswered e.landAll) ∧
      (e.draws.answers ≠ some 0 →
        (fsGet e.asked.storage.fs p = none → Q .notFound e.asked) ∧
        (fsGet e.asked.storage.fs p ≠ none → e.draws.fails = true → Q .fail e.asked) ∧
        (fsGet e.asked.storage.fs p ≠ none → e.draws.fails = false →
          Q (.handle e.storage.nextId) (e.asked.withStorage (e.asked.storage.openedRead p)))) := by
  simp only [sOpenRead, ends_bind, ends_failDraw, ends_look]
  cases fsGet e.asked.storage.fs p with
  | none => simp
  | some c =>
    cases e.draws.fails <;>
      simp [newHandle, Engine.withStorage, Storage.openedRead]

/-- SOpen(path, CW) (R73). -/
theorem ends_sOpenCreate (p : Path) (Q : OpenAnswer → Engine → Prop) :
    Ends (sOpenCreate p) e Q R ↔
      (e.draws.answers = some 0 → R .unanswered e.landAll) ∧
      (e.draws.answers ≠ some 0 →
        (e.draws.fails = true → Q .fail e.asked) ∧
        (e.draws.fails = false →
          Q (.handle e.storage.nextId) (e.asked.withStorage (e.asked.storage.openedCreate p)))) := by
  simp only [sOpenCreate, ends_bind, ends_failDraw]
  cases e.draws.fails <;>
    simp [newHandle, Engine.withStorage, Storage.openedCreate, Storage.addHandle]

/-- STemp() (R74). -/
theorem ends_sTemp (Q : OpenAnswer → Engine → Prop) :
    Ends sTemp e Q R ↔
      (e.draws.answers = some 0 → R .unanswered e.landAll) ∧
      (e.draws.answers ≠ some 0 →
        (e.draws.fails = true → Q .fail e.asked) ∧
        (e.draws.fails = false →
          Q (.handle (e.storage.nextId + 1)) (e.asked.withStorage e.asked.storage.openedTemp))) := by
  simp only [sTemp, ends_bind, ends_failDraw]
  cases e.draws.fails <;>
    simp [newHandle, Engine.withStorage, Storage.openedTemp, Storage.addHandle]

/-- SRead(h, n) (R75). -/
theorem ends_sRead (h : Handle) (n : Nat) (Q : Option Bytes → Engine → Prop) :
    Ends (sRead h n) e Q R ↔
      (e.draws.answers = some 0 → R .unanswered e.landAll) ∧
      (e.draws.answers ≠ some 0 →
        (lookup e.storage.handles h = none → Q none e.asked) ∧
        ∀ f, lookup e.storage.handles h = some f →
          (e.draws.fails = true → Q none e.asked) ∧
          (e.draws.fails = false →
            Q (some (e.asked.storage.dataAt f n))
              (e.asked.withStorage (e.asked.storage.setPos h f (f.pos + (e.asked.storage.dataAt f n).length))))) := by
  simp only [sRead, ends_bind, ends_failDraw, ends_look, asked_handles]
  cases lookup e.storage.handles h with
  | none => simp
  | some f => cases e.draws.fails <;> simp [Engine.withStorage, Storage.dataAt]

/-- Whether a write of `n` bytes at a handle's position FAILs: by draw, or past the longest file (log 33). -/
def Draws.failsWrite (d : Draws) (f : OpenFile) (n : Nat) : Bool := d.fails || decide (Config.fileMax < f.pos + n)

theorem Draws.obliging.writes {d : Draws} (h : d.obliging) {f : OpenFile} {n : Nat} (hn : f.pos + n ≤ Config.fileMax) :
    d.failsWrite f n = false := by
  rw [Draws.failsWrite, h.fails, Bool.false_or, decide_eq_false (Nat.not_lt.2 hn)]

/-- SWrite(h, bytes) (R76). -/
theorem ends_sWrite (h : Handle) (bs : Bytes) (Q : Bool → Engine → Prop) :
    Ends (sWrite h bs) e Q R ↔
      (e.draws.answers = some 0 → R .unanswered e.landAll) ∧
      (e.draws.answers ≠ some 0 →
        (lookup e.storage.handles h = none → Q false e.asked) ∧
        ∀ f, lookup e.storage.handles h = some f →
          (f.writable = false → Q false e.asked) ∧
          (f.writable = true → e.draws.failsWrite f bs.length = true →
            Q false { e.asked with
              storage := e.asked.storage.setContent f.ref (freeContent e.draws.free)
              draws := { e.asked.draws with free := e.draws.free + 1 } }) ∧
          (f.writable = true → e.draws.failsWrite f bs.length = false →
            Q true (e.asked.withStorage (e.asked.storage.written h f bs)))) := by
  simp only [sWrite, ends_bind, ends_failDraw, ends_look, asked_handles]
  cases lookup e.storage.handles h with
  | none => simp
  | some f =>
    simp only [Draws.failsWrite]
    cases hf : f.writable <;> cases hw : (e.draws.fails || decide (Config.fileMax < f.pos + bs.length)) <;>
      simp [Engine.withStorage, Storage.written, hf, hw, -Bool.or_eq_true, -Bool.or_eq_false_iff]

/-- SSeek(h, pos) (R77). -/
theorem ends_sSeek (h : Handle) (pos : Nat) (Q : Unit → Engine → Prop) :
    Ends (sSeek h pos) e Q R ↔
      (e.draws.answers = some 0 → R .unanswered e.landAll) ∧
      (e.draws.answers ≠ some 0 →
        (lookup e.storage.handles h = none → Q () e.asked) ∧
        ∀ f, lookup e.storage.handles h = some f → Q () (e.asked.withStorage (e.asked.storage.setPos h f pos))) := by
  simp only [sSeek, ends_bind, ends_request, ends_look, asked_handles]
  cases lookup e.storage.handles h <;> simp [Engine.withStorage]

/-- SSize(h) (R78). -/
theorem ends_sSize (h : Handle) (Q : Nat → Engine → Prop) :
    Ends (sSize h) e Q R ↔
      (e.draws.answers = some 0 → R .unanswered e.landAll) ∧
      (e.draws.answers ≠ some 0 →
        (lookup e.storage.handles h = none → Q 0 e.asked) ∧
        ∀ f, lookup e.storage.handles h = some f → Q (e.asked.storage.content f.ref).length e.asked) := by
  simp only [sSize, ends_bind, ends_request, ends_look, asked_handles]
  cases lookup e.storage.handles h <;> simp

/-- The storage after SCopy moved the bytes `data` from `src` to `dst` (R79). -/
def Storage.copied (st : Storage) (src dst : Handle) (f g : OpenFile) (data : Bytes) : Storage :=
  ((st.setPos src f (f.pos + data.length)).setContent g.ref
    (writeAt ((st.setPos src f (f.pos + data.length)).content g.ref) g.pos data)).setPos dst g (g.pos + data.length)

/-- SCopy(src, dst, max) (R79). -/
theorem ends_sCopy (src dst : Handle) (max : Nat) (Q : Option Nat → Engine → Prop) :
    Ends (sCopy src dst max) e Q R ↔
      (e.draws.answers = some 0 → R .unanswered e.landAll) ∧
      (e.draws.answers ≠ some 0 →
        (lookup e.storage.handles src = none ∨ lookup e.storage.handles dst = none → Q none e.asked) ∧
        ∀ f g, lookup e.storage.handles src = some f → lookup e.storage.handles dst = some g →
          (e.draws.failsWrite g (e.asked.storage.dataAt f max).length = true ∨ g.writable = false → Q none e.asked) ∧
          (e.draws.failsWrite g (e.asked.storage.dataAt f max).length = false → g.writable = true →
            Q (some (e.asked.storage.dataAt f max).length)
              (e.asked.withStorage (e.asked.storage.copied src dst f g (e.asked.storage.dataAt f max))))) := by
  simp only [sCopy, ends_bind, ends_failDraw, ends_look, asked_handles]
  cases lookup e.storage.handles src with
  | none => simp
  | some f =>
    cases lookup e.storage.handles dst with
    | none => simp
    | some g =>
      have hb : (e.draws.fails || !g.writable || decide (Config.fileMax < g.pos + (e.asked.storage.dataAt f max).length)) =
          (e.draws.failsWrite g (e.asked.storage.dataAt f max).length || !g.writable) := by
        simp only [Draws.failsWrite, Bool.or_assoc, Bool.or_comm]
      show _ ∧ (_ → Ends (if (e.draws.fails || !g.writable ||
        decide (Config.fileMax < g.pos + (e.asked.storage.dataAt f max).length)) = true then _ else _) _ _ _) ↔ _
      rw [hb]
      cases hg : g.writable <;> cases hw : e.draws.failsWrite g (e.asked.storage.dataAt f max).length <;>
        simp [Engine.withStorage, Storage.copied, hg, hw]
      simp [Storage.dataAt]

/-- SReplace(h, path) (R80). -/
theorem ends_sReplace (h : Handle) (p : Path) (Q : Bool → Engine → Prop) :
    Ends (sReplace h p) e Q R ↔
      (e.draws.answers = some 0 → R .unanswered e.landAll) ∧
      (e.draws.answers ≠ some 0 →
        ((∀ n w k, lookup e.storage.handles h ≠ some ⟨.temp n, w, k⟩) → Q false e.asked) ∧
        ∀ n w k, lookup e.storage.handles h = some ⟨.temp n, w, k⟩ →
          (e.draws.fails = true → Q false e.asked) ∧
          (e.draws.fails = false → Q true (e.asked.withStorage (e.asked.storage.replaced h n p)))) := by
  simp only [sReplace, ends_bind, ends_failDraw, ends_look, asked_handles]
  rcases lookup e.storage.handles h with _ | ⟨⟨q⟩ | ⟨n⟩, w, k⟩
  · simp
  · simp
  · cases e.draws.fails <;> simp [Engine.withStorage, Storage.replaced]

/-- SClose(h) (R81). -/
theorem ends_sClose (h : Handle) (Q : Unit → Engine → Prop) :
    Ends (sClose h) e Q R ↔
      (e.draws.answers = some 0 → R .unanswered e.landAll) ∧
      (e.draws.answers ≠ some 0 → Q () (e.asked.withStorage (e.asked.storage.close h))) := by
  simp only [sClose, ends_bind, ends_request, ends_look, ends_setStorage]
  exact Iff.rfl

/-- SNow() (R304): the listed answer, or a free value. -/
theorem ends_sNow (Q : Dword → Engine → Prop) :
    Ends sNow e Q R ↔
      (∀ t ts, e.draws.nows = t :: ts → Q t { e with draws := { e.draws with nows := ts } }) ∧
      (e.draws.nows = [] →
        Q (Config.freeNow e.draws.free) { e with draws := { e.draws with free := e.draws.free + 1 } }) := by
  simp only [sNow, ends_bind, ends_look, id]
  cases hd : e.draws.nows <;> simp [hd]

/-- Closing a handle register (R81). -/
theorem ends_closeReg (r : HandleReg) (Q : Unit → Engine → Prop) :
    Ends (closeReg r) e Q R ↔
      (e.work.reg r = none → Q () e) ∧
      ∀ h, e.work.reg r = some h →
        (e.draws.answers = some 0 → R .unanswered e.landAll) ∧
        (e.draws.answers ≠ some 0 →
          Q () { e.asked.withStorage (e.asked.storage.close h) with work := e.work.setReg r none }) := by
  simp only [closeReg, ends_bind, ends_look]
  cases e.work.reg r <;> simp [ends_sClose]

/-- Keeping a handle of an answer. -/
theorem ends_keep (r : HandleReg) (a : OpenAnswer) (Q : OpenAnswer → Engine → Prop) :
    Ends (keep r a) e Q R ↔
      (∀ h, a = .handle h → Q a { e with work := e.work.setReg r (some h) }) ∧
      ((∀ h, a ≠ .handle h) → Q a e) := by
  cases a <;> simp [keep]

@[simp] theorem ends_must (c : ErrorCode) (a : OpenAnswer) (Q : Unit → Engine → Prop) :
    Ends (a.must c) e Q R ↔ (∀ h, a = .handle h → Q () e) ∧ ((∀ h, a ≠ .handle h) → R (.error c 0 0) e) := by
  cases a <;> simp [OpenAnswer.must]

end Sys2Proof.Machine
end

