-- ==== Sys2Proof/Laws/State.lean ====
section
/-! SUPPORT. The fields of State after each of its named updates: one lemma per field per update. -/

namespace Sys2Proof.Machine

/-! ## Acceptance (R24) -/

@[simp] theorem State.accept_cmd (s : State) (w : Word) :
    (s.accept w).cmd = w := rfl
@[simp] theorem State.accept_seq (s : State) (w : Word) :
    (s.accept w).seq = .run w := rfl
@[simp] theorem State.accept_done (s : State) (w : Word) :
    (s.accept w).done = false := rfl
@[simp] theorem State.accept_ovr (s : State) (w : Word) :
    (s.accept w).ovr = s.ovr := rfl
@[simp] theorem State.accept_doneIE (s : State) (w : Word) :
    (s.accept w).doneIE = s.doneIE := rfl
@[simp] theorem State.accept_ovrIE (s : State) (w : Word) :
    (s.accept w).ovrIE = s.ovrIE := rfl
@[simp] theorem State.accept_errCode (s : State) (w : Word) :
    (s.accept w).errCode = 0 := rfl
@[simp] theorem State.accept_result0 (s : State) (w : Word) :
    (s.accept w).result0 = 0 := rfl
@[simp] theorem State.accept_result1 (s : State) (w : Word) :
    (s.accept w).result1 = 0 := rfl
@[simp] theorem State.accept_archPtr (s : State) (w : Word) :
    (s.accept w).archPtr = s.archPtr := rfl
@[simp] theorem State.accept_namesPtr (s : State) (w : Word) :
    (s.accept w).namesPtr = s.namesPtr := rfl
@[simp] theorem State.accept_argc (s : State) (w : Word) :
    (s.accept w).argc = s.argc := rfl
@[simp] theorem State.accept_outPtr (s : State) (w : Word) :
    (s.accept w).outPtr = s.outPtr := rfl
@[simp] theorem State.accept_entryIdx (s : State) (w : Word) :
    (s.accept w).entryIdx = s.entryIdx := rfl
@[simp] theorem State.accept_decSize (s : State) (w : Word) :
    (s.accept w).decSize = s.decSize := rfl
@[simp] theorem State.accept_crcOffLo (s : State) (w : Word) :
    (s.accept w).crcOffLo = s.crcOffLo := rfl
@[simp] theorem State.accept_crcOffHi (s : State) (w : Word) :
    (s.accept w).crcOffHi = s.crcOffHi := rfl
@[simp] theorem State.accept_entOrig (s : State) (w : Word) :
    (s.accept w).entOrig = s.entOrig := rfl
@[simp] theorem State.accept_entComp (s : State) (w : Word) :
    (s.accept w).entComp = s.entComp := rfl
@[simp] theorem State.accept_entRatioLo (s : State) (w : Word) :
    (s.accept w).entRatioLo = s.entRatioLo := rfl
@[simp] theorem State.accept_entRatioHi (s : State) (w : Word) :
    (s.accept w).entRatioHi = s.entRatioHi := rfl
@[simp] theorem State.accept_entTimeLo (s : State) (w : Word) :
    (s.accept w).entTimeLo = s.entTimeLo := rfl
@[simp] theorem State.accept_entTimeHi (s : State) (w : Word) :
    (s.accept w).entTimeHi = s.entTimeHi := rfl
@[simp] theorem State.accept_argmem (s : State) (w : Word) :
    (s.accept w).argmem = s.argmem := rfl
@[simp] theorem State.accept_argEpoch (s : State) (w : Word) :
    (s.accept w).argEpoch = s.argEpoch := rfl
@[simp] theorem State.accept_eng (s : State) (w : Word) :
    (s.accept w).eng = { s.eng with statmem := [] } := rfl
@[simp] theorem State.accept_breached (s : State) (w : Word) :
    (s.accept w).breached = none := rfl
@[simp] theorem State.accept_cmdNo (s : State) (w : Word) :
    (s.accept w).cmdNo = s.cmdNo + 1 := rfl
@[simp] theorem State.accept_bus (s : State) (w : Word) :
    (s.accept w).bus = s.bus := rfl
@[simp] theorem State.accept_schedule (s : State) (w : Word) :
    (s.accept w).schedule = s.schedule := rfl

/-! ## A placed command (log 1) -/

@[simp] theorem State.withFetchWord_cmd (s : State) (nbits w : Nat) :
    (s.withFetchWord nbits w).cmd = (BitVec.ofNat 32 (w % 2 ^ nbits)) := rfl
@[simp] theorem State.withFetchWord_seq (s : State) (nbits w : Nat) :
    (s.withFetchWord nbits w).seq = .run (BitVec.ofNat 32 (w % 2 ^ nbits)) := rfl
@[simp] theorem State.withFetchWord_done (s : State) (nbits w : Nat) :
    (s.withFetchWord nbits w).done = false := rfl
@[simp] theorem State.withFetchWord_ovr (s : State) (nbits w : Nat) :
    (s.withFetchWord nbits w).ovr = s.ovr := rfl
@[simp] theorem State.withFetchWord_doneIE (s : State) (nbits w : Nat) :
    (s.withFetchWord nbits w).doneIE = s.doneIE := rfl
@[simp] theorem State.withFetchWord_ovrIE (s : State) (nbits w : Nat) :
    (s.withFetchWord nbits w).ovrIE = s.ovrIE := rfl
@[simp] theorem State.withFetchWord_errCode (s : State) (nbits w : Nat) :
    (s.withFetchWord nbits w).errCode = 0 := rfl
@[simp] theorem State.withFetchWord_result0 (s : State) (nbits w : Nat) :
    (s.withFetchWord nbits w).result0 = 0 := rfl
@[simp] theorem State.withFetchWord_result1 (s : State) (nbits w : Nat) :
    (s.withFetchWord nbits w).result1 = 0 := rfl
@[simp] theorem State.withFetchWord_archPtr (s : State) (nbits w : Nat) :
    (s.withFetchWord nbits w).archPtr = s.archPtr := rfl
@[simp] theorem State.withFetchWord_namesPtr (s : State) (nbits w : Nat) :
    (s.withFetchWord nbits w).namesPtr = s.namesPtr := rfl
@[simp] theorem State.withFetchWord_argc (s : State) (nbits w : Nat) :
    (s.withFetchWord nbits w).argc = s.argc := rfl
@[simp] theorem State.withFetchWord_outPtr (s : State) (nbits w : Nat) :
    (s.withFetchWord nbits w).outPtr = s.outPtr := rfl
@[simp] theorem State.withFetchWord_entryIdx (s : State) (nbits w : Nat) :
    (s.withFetchWord nbits w).entryIdx = s.entryIdx := rfl
@[simp] theorem State.withFetchWord_decSize (s : State) (nbits w : Nat) :
    (s.withFetchWord nbits w).decSize = s.decSize := rfl
@[simp] theorem State.withFetchWord_crcOffLo (s : State) (nbits w : Nat) :
    (s.withFetchWord nbits w).crcOffLo = s.crcOffLo := rfl
@[simp] theorem State.withFetchWord_crcOffHi (s : State) (nbits w : Nat) :
    (s.withFetchWord nbits w).crcOffHi = s.crcOffHi := rfl
@[simp] theorem State.withFetchWord_entOrig (s : State) (nbits w : Nat) :
    (s.withFetchWord nbits w).entOrig = s.entOrig := rfl
@[simp] theorem State.withFetchWord_entComp (s : State) (nbits w : Nat) :
    (s.withFetchWord nbits w).entComp = s.entComp := rfl
@[simp] theorem State.withFetchWord_entRatioLo (s : State) (nbits w : Nat) :
    (s.withFetchWord nbits w).entRatioLo = s.entRatioLo := rfl
@[simp] theorem State.withFetchWord_entRatioHi (s : State) (nbits w : Nat) :
    (s.withFetchWord nbits w).entRatioHi = s.entRatioHi := rfl
@[simp] theorem State.withFetchWord_entTimeLo (s : State) (nbits w : Nat) :
    (s.withFetchWord nbits w).entTimeLo = s.entTimeLo := rfl
@[simp] theorem State.withFetchWord_entTimeHi (s : State) (nbits w : Nat) :
    (s.withFetchWord nbits w).entTimeHi = s.entTimeHi := rfl
@[simp] theorem State.withFetchWord_argmem (s : State) (nbits w : Nat) :
    (s.withFetchWord nbits w).argmem = s.argmem := rfl
@[simp] theorem State.withFetchWord_argEpoch (s : State) (nbits w : Nat) :
    (s.withFetchWord nbits w).argEpoch = s.argEpoch := rfl
@[simp] theorem State.withFetchWord_eng (s : State) (nbits w : Nat) :
    (s.withFetchWord nbits w).eng = { s.eng with statmem := [] } := rfl
@[simp] theorem State.withFetchWord_breached (s : State) (nbits w : Nat) :
    (s.withFetchWord nbits w).breached = none := rfl
@[simp] theorem State.withFetchWord_cmdNo (s : State) (nbits w : Nat) :
    (s.withFetchWord nbits w).cmdNo = s.cmdNo + 1 := rfl
@[simp] theorem State.withFetchWord_bus (s : State) (nbits w : Nat) :
    (s.withFetchWord nbits w).bus = s.bus := rfl
@[simp] theorem State.withFetchWord_schedule (s : State) (nbits w : Nat) :
    (s.withFetchWord nbits w).schedule = .engine :: s.schedule := rfl

/-! ## Completion (R294) -/

@[simp] theorem State.complete_cmd (s : State) (rep : Report) :
    (s.complete rep).cmd = s.cmd := by
  cases rep with | mk _ _ _ l => cases l <;> rfl
@[simp] theorem State.complete_seq (s : State) (rep : Report) :
    (s.complete rep).seq = .idle := by
  cases rep with | mk _ _ _ l => cases l <;> rfl
@[simp] theorem State.complete_done (s : State) (rep : Report) :
    (s.complete rep).done = true := by
  cases rep with | mk _ _ _ l => cases l <;> rfl
@[simp] theorem State.complete_ovr (s : State) (rep : Report) :
    (s.complete rep).ovr = s.ovr := by
  cases rep with | mk _ _ _ l => cases l <;> rfl
@[simp] theorem State.complete_doneIE (s : State) (rep : Report) :
    (s.complete rep).doneIE = s.doneIE := by
  cases rep with | mk _ _ _ l => cases l <;> rfl
@[simp] theorem State.complete_ovrIE (s : State) (rep : Report) :
    (s.complete rep).ovrIE = s.ovrIE := by
  cases rep with | mk _ _ _ l => cases l <;> rfl
@[simp] theorem State.complete_errCode (s : State) (rep : Report) :
    (s.complete rep).errCode = errorBits rep.code := by
  cases rep with | mk _ _ _ l => cases l <;> rfl
@[simp] theorem State.complete_result0 (s : State) (rep : Report) :
    (s.complete rep).result0 = rep.result0 := by
  cases rep with | mk _ _ _ l => cases l <;> rfl
@[simp] theorem State.complete_result1 (s : State) (rep : Report) :
    (s.complete rep).result1 = rep.result1 := by
  cases rep with | mk _ _ _ l => cases l <;> rfl
@[simp] theorem State.complete_archPtr (s : State) (rep : Report) :
    (s.complete rep).archPtr = s.archPtr := by
  cases rep with | mk _ _ _ l => cases l <;> rfl
@[simp] theorem State.complete_namesPtr (s : State) (rep : Report) :
    (s.complete rep).namesPtr = s.namesPtr := by
  cases rep with | mk _ _ _ l => cases l <;> rfl
@[simp] theorem State.complete_argc (s : State) (rep : Report) :
    (s.complete rep).argc = s.argc := by
  cases rep with | mk _ _ _ l => cases l <;> rfl
@[simp] theorem State.complete_outPtr (s : State) (rep : Report) :
    (s.complete rep).outPtr = s.outPtr := by
  cases rep with | mk _ _ _ l => cases l <;> rfl
@[simp] theorem State.complete_entryIdx (s : State) (rep : Report) :
    (s.complete rep).entryIdx = s.entryIdx := by
  cases rep with | mk _ _ _ l => cases l <;> rfl
@[simp] theorem State.complete_decSize (s : State) (rep : Report) :
    (s.complete rep).decSize = s.decSize := by
  cases rep with | mk _ _ _ l => cases l <;> rfl
@[simp] theorem State.complete_crcOffLo (s : State) (rep : Report) :
    (s.complete rep).crcOffLo = s.crcOffLo := by
  cases rep with | mk _ _ _ l => cases l <;> rfl
@[simp] theorem State.complete_crcOffHi (s : State) (rep : Report) :
    (s.complete rep).crcOffHi = s.crcOffHi := by
  cases rep with | mk _ _ _ l => cases l <;> rfl
@[simp] theorem State.complete_argEpoch (s : State) (rep : Report) :
    (s.complete rep).argEpoch = s.argEpoch := by
  cases rep with | mk _ _ _ l => cases l <;> rfl
@[simp] theorem State.complete_eng (s : State) (rep : Report) :
    (s.complete rep).eng = s.eng := by
  cases rep with | mk _ _ _ l => cases l <;> rfl
@[simp] theorem State.complete_breached (s : State) (rep : Report) :
    (s.complete rep).breached = none := by
  cases rep with | mk _ _ _ l => cases l <;> rfl
@[simp] theorem State.complete_cmdNo (s : State) (rep : Report) :
    (s.complete rep).cmdNo = s.cmdNo := by
  cases rep with | mk _ _ _ l => cases l <;> rfl
@[simp] theorem State.complete_bus (s : State) (rep : Report) :
    (s.complete rep).bus = s.bus := by
  cases rep with | mk _ _ _ l => cases l <;> rfl
@[simp] theorem State.complete_schedule (s : State) (rep : Report) :
    (s.complete rep).schedule = s.schedule := by
  cases rep with | mk _ _ _ l => cases l <;> rfl

/-! ## LIST_ENTRY's output (R212) -/

@[simp] theorem State.listOutput_cmd (s : State) (en : Entry) :
    (s.listOutput en).cmd = s.cmd := rfl
@[simp] theorem State.listOutput_seq (s : State) (en : Entry) :
    (s.listOutput en).seq = s.seq := rfl
@[simp] theorem State.listOutput_done (s : State) (en : Entry) :
    (s.listOutput en).done = s.done := rfl
@[simp] theorem State.listOutput_ovr (s : State) (en : Entry) :
    (s.listOutput en).ovr = s.ovr := rfl
@[simp] theorem State.listOutput_doneIE (s : State) (en : Entry) :
    (s.listOutput en).doneIE = s.doneIE := rfl
@[simp] theorem State.listOutput_ovrIE (s : State) (en : Entry) :
    (s.listOutput en).ovrIE = s.ovrIE := rfl
@[simp] theorem State.listOutput_errCode (s : State) (en : Entry) :
    (s.listOutput en).errCode = s.errCode := rfl
@[simp] theorem State.listOutput_result0 (s : State) (en : Entry) :
    (s.listOutput en).result0 = s.result0 := rfl
@[simp] theorem State.listOutput_result1 (s : State) (en : Entry) :
    (s.listOutput en).result1 = s.result1 := rfl
@[simp] theorem State.listOutput_archPtr (s : State) (en : Entry) :
    (s.listOutput en).archPtr = s.archPtr := rfl
@[simp] theorem State.listOutput_namesPtr (s : State) (en : Entry) :
    (s.listOutput en).namesPtr = s.namesPtr := rfl
@[simp] theorem State.listOutput_argc (s : State) (en : Entry) :
    (s.listOutput en).argc = s.argc := rfl
@[simp] theorem State.listOutput_outPtr (s : State) (en : Entry) :
    (s.listOutput en).outPtr = s.outPtr := rfl
@[simp] theorem State.listOutput_entryIdx (s : State) (en : Entry) :
    (s.listOutput en).entryIdx = s.entryIdx := rfl
@[simp] theorem State.listOutput_decSize (s : State) (en : Entry) :
    (s.listOutput en).decSize = s.decSize := rfl
@[simp] theorem State.listOutput_crcOffLo (s : State) (en : Entry) :
    (s.listOutput en).crcOffLo = s.crcOffLo := rfl
@[simp] theorem State.listOutput_crcOffHi (s : State) (en : Entry) :
    (s.listOutput en).crcOffHi = s.crcOffHi := rfl
@[simp] theorem State.listOutput_entOrig (s : State) (en : Entry) :
    (s.listOutput en).entOrig = en.orig := rfl
@[simp] theorem State.listOutput_entComp (s : State) (en : Entry) :
    (s.listOutput en).entComp = en.comp := rfl
@[simp] theorem State.listOutput_entRatioLo (s : State) (en : Entry) :
    (s.listOutput en).entRatioLo = (BitVec.ofInt 64 (ratio en.orig.toNat en.comp.toNat)).extractLsb' 0 32 := rfl
@[simp] theorem State.listOutput_entRatioHi (s : State) (en : Entry) :
    (s.listOutput en).entRatioHi = (BitVec.ofInt 64 (ratio en.orig.toNat en.comp.toNat)).extractLsb' 32 32 := rfl
@[simp] theorem State.listOutput_entTimeLo (s : State) (en : Entry) :
    (s.listOutput en).entTimeLo = en.time.extractLsb' 0 32 := rfl
@[simp] theorem State.listOutput_entTimeHi (s : State) (en : Entry) :
    (s.listOutput en).entTimeHi = en.time.extractLsb' 32 32 := rfl
@[simp] theorem State.listOutput_argmem (s : State) (en : Entry) :
    (s.listOutput en).argmem = Memory.writeBytes (argDefault s.argEpoch) s.argmem s.outPtr.toNat (en.name ++ [0]) := rfl
@[simp] theorem State.listOutput_argEpoch (s : State) (en : Entry) :
    (s.listOutput en).argEpoch = s.argEpoch := rfl
@[simp] theorem State.listOutput_eng (s : State) (en : Entry) :
    (s.listOutput en).eng = s.eng := rfl
@[simp] theorem State.listOutput_breached (s : State) (en : Entry) :
    (s.listOutput en).breached = s.breached := rfl
@[simp] theorem State.listOutput_cmdNo (s : State) (en : Entry) :
    (s.listOutput en).cmdNo = s.cmdNo := rfl
@[simp] theorem State.listOutput_bus (s : State) (en : Entry) :
    (s.listOutput en).bus = s.bus := rfl
@[simp] theorem State.listOutput_schedule (s : State) (en : Entry) :
    (s.listOutput en).schedule = s.schedule := rfl

/-! ## A write to STATUS (R26, R28) -/

@[simp] theorem State.writeStatus_cmd (s : State) (v : Word) :
    (s.writeStatus v).cmd = s.cmd := rfl
@[simp] theorem State.writeStatus_seq (s : State) (v : Word) :
    (s.writeStatus v).seq = s.seq := rfl
@[simp] theorem State.writeStatus_done (s : State) (v : Word) :
    (s.writeStatus v).done = (s.done && !v.getLsbD 1) := rfl
@[simp] theorem State.writeStatus_ovr (s : State) (v : Word) :
    (s.writeStatus v).ovr = (s.ovr && !v.getLsbD 3) := rfl
@[simp] theorem State.writeStatus_doneIE (s : State) (v : Word) :
    (s.writeStatus v).doneIE = s.doneIE := rfl
@[simp] theorem State.writeStatus_ovrIE (s : State) (v : Word) :
    (s.writeStatus v).ovrIE = s.ovrIE := rfl
@[simp] theorem State.writeStatus_errCode (s : State) (v : Word) :
    (s.writeStatus v).errCode = s.errCode := rfl
@[simp] theorem State.writeStatus_result0 (s : State) (v : Word) :
    (s.writeStatus v).result0 = s.result0 := rfl
@[simp] theorem State.writeStatus_result1 (s : State) (v : Word) :
    (s.writeStatus v).result1 = s.result1 := rfl
@[simp] theorem State.writeStatus_archPtr (s : State) (v : Word) :
    (s.writeStatus v).archPtr = s.archPtr := rfl
@[simp] theorem State.writeStatus_namesPtr (s : State) (v : Word) :
    (s.writeStatus v).namesPtr = s.namesPtr := rfl
@[simp] theorem State.writeStatus_argc (s : State) (v : Word) :
    (s.writeStatus v).argc = s.argc := rfl
@[simp] theorem State.writeStatus_outPtr (s : State) (v : Word) :
    (s.writeStatus v).outPtr = s.outPtr := rfl
@[simp] theorem State.writeStatus_entryIdx (s : State) (v : Word) :
    (s.writeStatus v).entryIdx = s.entryIdx := rfl
@[simp] theorem State.writeStatus_decSize (s : State) (v : Word) :
    (s.writeStatus v).decSize = s.decSize := rfl
@[simp] theorem State.writeStatus_crcOffLo (s : State) (v : Word) :
    (s.writeStatus v).crcOffLo = s.crcOffLo := rfl
@[simp] theorem State.writeStatus_crcOffHi (s : State) (v : Word) :
    (s.writeStatus v).crcOffHi = s.crcOffHi := rfl
@[simp] theorem State.writeStatus_entOrig (s : State) (v : Word) :
    (s.writeStatus v).entOrig = s.entOrig := rfl
@[simp] theorem State.writeStatus_entComp (s : State) (v : Word) :
    (s.writeStatus v).entComp = s.entComp := rfl
@[simp] theorem State.writeStatus_entRatioLo (s : State) (v : Word) :
    (s.writeStatus v).entRatioLo = s.entRatioLo := rfl
@[simp] theorem State.writeStatus_entRatioHi (s : State) (v : Word) :
    (s.writeStatus v).entRatioHi = s.entRatioHi := rfl
@[simp] theorem State.writeStatus_entTimeLo (s : State) (v : Word) :
    (s.writeStatus v).entTimeLo = s.entTimeLo := rfl
@[simp] theorem State.writeStatus_entTimeHi (s : State) (v : Word) :
    (s.writeStatus v).entTimeHi = s.entTimeHi := rfl
@[simp] theorem State.writeStatus_argmem (s : State) (v : Word) :
    (s.writeStatus v).argmem = s.argmem := rfl
@[simp] theorem State.writeStatus_argEpoch (s : State) (v : Word) :
    (s.writeStatus v).argEpoch = s.argEpoch := rfl
@[simp] theorem State.writeStatus_eng (s : State) (v : Word) :
    (s.writeStatus v).eng = s.eng := rfl
@[simp] theorem State.writeStatus_breached (s : State) (v : Word) :
    (s.writeStatus v).breached = s.breached := rfl
@[simp] theorem State.writeStatus_cmdNo (s : State) (v : Word) :
    (s.writeStatus v).cmdNo = s.cmdNo := rfl
@[simp] theorem State.writeStatus_bus (s : State) (v : Word) :
    (s.writeStatus v).bus = s.bus := rfl
@[simp] theorem State.writeStatus_schedule (s : State) (v : Word) :
    (s.writeStatus v).schedule = s.schedule := rfl

/-! ## A write to IE (R29) -/

@[simp] theorem State.writeIE_cmd (s : State) (v : Word) :
    (s.writeIE v).cmd = s.cmd := rfl
@[simp] theorem State.writeIE_seq (s : State) (v : Word) :
    (s.writeIE v).seq = s.seq := rfl
@[simp] theorem State.writeIE_done (s : State) (v : Word) :
    (s.writeIE v).done = s.done := rfl
@[simp] theorem State.writeIE_ovr (s : State) (v : Word) :
    (s.writeIE v).ovr = s.ovr := rfl
@[simp] theorem State.writeIE_doneIE (s : State) (v : Word) :
    (s.writeIE v).doneIE = v.getLsbD 0 := rfl
@[simp] theorem State.writeIE_ovrIE (s : State) (v : Word) :
    (s.writeIE v).ovrIE = v.getLsbD 1 := rfl
@[simp] theorem State.writeIE_errCode (s : State) (v : Word) :
    (s.writeIE v).errCode = s.errCode := rfl
@[simp] theorem State.writeIE_result0 (s : State) (v : Word) :
    (s.writeIE v).result0 = s.result0 := rfl
@[simp] theorem State.writeIE_result1 (s : State) (v : Word) :
    (s.writeIE v).result1 = s.result1 := rfl
@[simp] theorem State.writeIE_archPtr (s : State) (v : Word) :
    (s.writeIE v).archPtr = s.archPtr := rfl
@[simp] theorem State.writeIE_namesPtr (s : State) (v : Word) :
    (s.writeIE v).namesPtr = s.namesPtr := rfl
@[simp] theorem State.writeIE_argc (s : State) (v : Word) :
    (s.writeIE v).argc = s.argc := rfl
@[simp] theorem State.writeIE_outPtr (s : State) (v : Word) :
    (s.writeIE v).outPtr = s.outPtr := rfl
@[simp] theorem State.writeIE_entryIdx (s : State) (v : Word) :
    (s.writeIE v).entryIdx = s.entryIdx := rfl
@[simp] theorem State.writeIE_decSize (s : State) (v : Word) :
    (s.writeIE v).decSize = s.decSize := rfl
@[simp] theorem State.writeIE_crcOffLo (s : State) (v : Word) :
    (s.writeIE v).crcOffLo = s.crcOffLo := rfl
@[simp] theorem State.writeIE_crcOffHi (s : State) (v : Word) :
    (s.writeIE v).crcOffHi = s.crcOffHi := rfl
@[simp] theorem State.writeIE_entOrig (s : State) (v : Word) :
    (s.writeIE v).entOrig = s.entOrig := rfl
@[simp] theorem State.writeIE_entComp (s : State) (v : Word) :
    (s.writeIE v).entComp = s.entComp := rfl
@[simp] theorem State.writeIE_entRatioLo (s : State) (v : Word) :
    (s.writeIE v).entRatioLo = s.entRatioLo := rfl
@[simp] theorem State.writeIE_entRatioHi (s : State) (v : Word) :
    (s.writeIE v).entRatioHi = s.entRatioHi := rfl
@[simp] theorem State.writeIE_entTimeLo (s : State) (v : Word) :
    (s.writeIE v).entTimeLo = s.entTimeLo := rfl
@[simp] theorem State.writeIE_entTimeHi (s : State) (v : Word) :
    (s.writeIE v).entTimeHi = s.entTimeHi := rfl
@[simp] theorem State.writeIE_argmem (s : State) (v : Word) :
    (s.writeIE v).argmem = s.argmem := rfl
@[simp] theorem State.writeIE_argEpoch (s : State) (v : Word) :
    (s.writeIE v).argEpoch = s.argEpoch := rfl
@[simp] theorem State.writeIE_eng (s : State) (v : Word) :
    (s.writeIE v).eng = s.eng := rfl
@[simp] theorem State.writeIE_breached (s : State) (v : Word) :
    (s.writeIE v).breached = s.breached := rfl
@[simp] theorem State.writeIE_cmdNo (s : State) (v : Word) :
    (s.writeIE v).cmdNo = s.cmdNo := rfl
@[simp] theorem State.writeIE_bus (s : State) (v : Word) :
    (s.writeIE v).bus = s.bus := rfl
@[simp] theorem State.writeIE_schedule (s : State) (v : Word) :
    (s.writeIE v).schedule = s.schedule := rfl

/-! ## A file written or deleted at once (R49) -/

@[simp] theorem State.setFile_cmd (s : State) (p : Path) (c : Option Bytes) :
    (s.setFile p c).cmd = s.cmd := rfl
@[simp] theorem State.setFile_seq (s : State) (p : Path) (c : Option Bytes) :
    (s.setFile p c).seq = s.seq := rfl
@[simp] theorem State.setFile_done (s : State) (p : Path) (c : Option Bytes) :
    (s.setFile p c).done = s.done := rfl
@[simp] theorem State.setFile_ovr (s : State) (p : Path) (c : Option Bytes) :
    (s.setFile p c).ovr = s.ovr := rfl
@[simp] theorem State.setFile_doneIE (s : State) (p : Path) (c : Option Bytes) :
    (s.setFile p c).doneIE = s.doneIE := rfl
@[simp] theorem State.setFile_ovrIE (s : State) (p : Path) (c : Option Bytes) :
    (s.setFile p c).ovrIE = s.ovrIE := rfl
@[simp] theorem State.setFile_errCode (s : State) (p : Path) (c : Option Bytes) :
    (s.setFile p c).errCode = s.errCode := rfl
@[simp] theorem State.setFile_result0 (s : State) (p : Path) (c : Option Bytes) :
    (s.setFile p c).result0 = s.result0 := rfl
@[simp] theorem State.setFile_result1 (s : State) (p : Path) (c : Option Bytes) :
    (s.setFile p c).result1 = s.result1 := rfl
@[simp] theorem State.setFile_archPtr (s : State) (p : Path) (c : Option Bytes) :
    (s.setFile p c).archPtr = s.archPtr := rfl
@[simp] theorem State.setFile_namesPtr (s : State) (p : Path) (c : Option Bytes) :
    (s.setFile p c).namesPtr = s.namesPtr := rfl
@[simp] theorem State.setFile_argc (s : State) (p : Path) (c : Option Bytes) :
    (s.setFile p c).argc = s.argc := rfl
@[simp] theorem State.setFile_outPtr (s : State) (p : Path) (c : Option Bytes) :
    (s.setFile p c).outPtr = s.outPtr := rfl
@[simp] theorem State.setFile_entryIdx (s : State) (p : Path) (c : Option Bytes) :
    (s.setFile p c).entryIdx = s.entryIdx := rfl
@[simp] theorem State.setFile_decSize (s : State) (p : Path) (c : Option Bytes) :
    (s.setFile p c).decSize = s.decSize := rfl
@[simp] theorem State.setFile_crcOffLo (s : State) (p : Path) (c : Option Bytes) :
    (s.setFile p c).crcOffLo = s.crcOffLo := rfl
@[simp] theorem State.setFile_crcOffHi (s : State) (p : Path) (c : Option Bytes) :
    (s.setFile p c).crcOffHi = s.crcOffHi := rfl
@[simp] theorem State.setFile_entOrig (s : State) (p : Path) (c : Option Bytes) :
    (s.setFile p c).entOrig = s.entOrig := rfl
@[simp] theorem State.setFile_entComp (s : State) (p : Path) (c : Option Bytes) :
    (s.setFile p c).entComp = s.entComp := rfl
@[simp] theorem State.setFile_entRatioLo (s : State) (p : Path) (c : Option Bytes) :
    (s.setFile p c).entRatioLo = s.entRatioLo := rfl
@[simp] theorem State.setFile_entRatioHi (s : State) (p : Path) (c : Option Bytes) :
    (s.setFile p c).entRatioHi = s.entRatioHi := rfl
@[simp] theorem State.setFile_entTimeLo (s : State) (p : Path) (c : Option Bytes) :
    (s.setFile p c).entTimeLo = s.entTimeLo := rfl
@[simp] theorem State.setFile_entTimeHi (s : State) (p : Path) (c : Option Bytes) :
    (s.setFile p c).entTimeHi = s.entTimeHi := rfl
@[simp] theorem State.setFile_argmem (s : State) (p : Path) (c : Option Bytes) :
    (s.setFile p c).argmem = s.argmem := rfl
@[simp] theorem State.setFile_argEpoch (s : State) (p : Path) (c : Option Bytes) :
    (s.setFile p c).argEpoch = s.argEpoch := rfl
@[simp] theorem State.setFile_eng (s : State) (p : Path) (c : Option Bytes) :
    (s.setFile p c).eng = { s.eng with storage := { s.eng.storage with fs := fsSet s.eng.storage.fs p c } } := rfl
@[simp] theorem State.setFile_breached (s : State) (p : Path) (c : Option Bytes) :
    (s.setFile p c).breached = s.breached := rfl
@[simp] theorem State.setFile_cmdNo (s : State) (p : Path) (c : Option Bytes) :
    (s.setFile p c).cmdNo = s.cmdNo := rfl
@[simp] theorem State.setFile_bus (s : State) (p : Path) (c : Option Bytes) :
    (s.setFile p c).bus = s.bus := rfl
@[simp] theorem State.setFile_schedule (s : State) (p : Path) (c : Option Bytes) :
    (s.setFile p c).schedule = s.schedule := rfl

/-! ## A change of a file to come (R331) -/

@[simp] theorem State.queueEdit_cmd (s : State) (n : Nat) (p : Path) (c : Option Bytes) :
    (s.queueEdit n p c).cmd = s.cmd := rfl
@[simp] theorem State.queueEdit_seq (s : State) (n : Nat) (p : Path) (c : Option Bytes) :
    (s.queueEdit n p c).seq = s.seq := rfl
@[simp] theorem State.queueEdit_done (s : State) (n : Nat) (p : Path) (c : Option Bytes) :
    (s.queueEdit n p c).done = s.done := rfl
@[simp] theorem State.queueEdit_ovr (s : State) (n : Nat) (p : Path) (c : Option Bytes) :
    (s.queueEdit n p c).ovr = s.ovr := rfl
@[simp] theorem State.queueEdit_doneIE (s : State) (n : Nat) (p : Path) (c : Option Bytes) :
    (s.queueEdit n p c).doneIE = s.doneIE := rfl
@[simp] theorem State.queueEdit_ovrIE (s : State) (n : Nat) (p : Path) (c : Option Bytes) :
    (s.queueEdit n p c).ovrIE = s.ovrIE := rfl
@[simp] theorem State.queueEdit_errCode (s : State) (n : Nat) (p : Path) (c : Option Bytes) :
    (s.queueEdit n p c).errCode = s.errCode := rfl
@[simp] theorem State.queueEdit_result0 (s : State) (n : Nat) (p : Path) (c : Option Bytes) :
    (s.queueEdit n p c).result0 = s.result0 := rfl
@[simp] theorem State.queueEdit_result1 (s : State) (n : Nat) (p : Path) (c : Option Bytes) :
    (s.queueEdit n p c).result1 = s.result1 := rfl
@[simp] theorem State.queueEdit_archPtr (s : State) (n : Nat) (p : Path) (c : Option Bytes) :
    (s.queueEdit n p c).archPtr = s.archPtr := rfl
@[simp] theorem State.queueEdit_namesPtr (s : State) (n : Nat) (p : Path) (c : Option Bytes) :
    (s.queueEdit n p c).namesPtr = s.namesPtr := rfl
@[simp] theorem State.queueEdit_argc (s : State) (n : Nat) (p : Path) (c : Option Bytes) :
    (s.queueEdit n p c).argc = s.argc := rfl
@[simp] theorem State.queueEdit_outPtr (s : State) (n : Nat) (p : Path) (c : Option Bytes) :
    (s.queueEdit n p c).outPtr = s.outPtr := rfl
@[simp] theorem State.queueEdit_entryIdx (s : State) (n : Nat) (p : Path) (c : Option Bytes) :
    (s.queueEdit n p c).entryIdx = s.entryIdx := rfl
@[simp] theorem State.queueEdit_decSize (s : State) (n : Nat) (p : Path) (c : Option Bytes) :
    (s.queueEdit n p c).decSize = s.decSize := rfl
@[simp] theorem State.queueEdit_crcOffLo (s : State) (n : Nat) (p : Path) (c : Option Bytes) :
    (s.queueEdit n p c).crcOffLo = s.crcOffLo := rfl
@[simp] theorem State.queueEdit_crcOffHi (s : State) (n : Nat) (p : Path) (c : Option Bytes) :
    (s.queueEdit n p c).crcOffHi = s.crcOffHi := rfl
@[simp] theorem State.queueEdit_entOrig (s : State) (n : Nat) (p : Path) (c : Option Bytes) :
    (s.queueEdit n p c).entOrig = s.entOrig := rfl
@[simp] theorem State.queueEdit_entComp (s : State) (n : Nat) (p : Path) (c : Option Bytes) :
    (s.queueEdit n p c).entComp = s.entComp := rfl
@[simp] theorem State.queueEdit_entRatioLo (s : State) (n : Nat) (p : Path) (c : Option Bytes) :
    (s.queueEdit n p c).entRatioLo = s.entRatioLo := rfl
@[simp] theorem State.queueEdit_entRatioHi (s : State) (n : Nat) (p : Path) (c : Option Bytes) :
    (s.queueEdit n p c).entRatioHi = s.entRatioHi := rfl
@[simp] theorem State.queueEdit_entTimeLo (s : State) (n : Nat) (p : Path) (c : Option Bytes) :
    (s.queueEdit n p c).entTimeLo = s.entTimeLo := rfl
@[simp] theorem State.queueEdit_entTimeHi (s : State) (n : Nat) (p : Path) (c : Option Bytes) :
    (s.queueEdit n p c).entTimeHi = s.entTimeHi := rfl
@[simp] theorem State.queueEdit_argmem (s : State) (n : Nat) (p : Path) (c : Option Bytes) :
    (s.queueEdit n p c).argmem = s.argmem := rfl
@[simp] theorem State.queueEdit_argEpoch (s : State) (n : Nat) (p : Path) (c : Option Bytes) :
    (s.queueEdit n p c).argEpoch = s.argEpoch := rfl
@[simp] theorem State.queueEdit_eng (s : State) (n : Nat) (p : Path) (c : Option Bytes) :
    (s.queueEdit n p c).eng = { s.eng with draws :=
      { s.eng.draws with edits := s.eng.draws.edits ++ [⟨s.eng.draws.reqNo + n, p, c⟩] } } := rfl
@[simp] theorem State.queueEdit_breached (s : State) (n : Nat) (p : Path) (c : Option Bytes) :
    (s.queueEdit n p c).breached = s.breached := rfl
@[simp] theorem State.queueEdit_cmdNo (s : State) (n : Nat) (p : Path) (c : Option Bytes) :
    (s.queueEdit n p c).cmdNo = s.cmdNo := rfl
@[simp] theorem State.queueEdit_bus (s : State) (n : Nat) (p : Path) (c : Option Bytes) :
    (s.queueEdit n p c).bus = s.bus := rfl
@[simp] theorem State.queueEdit_schedule (s : State) (n : Nat) (p : Path) (c : Option Bytes) :
    (s.queueEdit n p c).schedule = s.schedule := rfl

end Sys2Proof.Machine
end

