-- ==== Sys2Proof/Laws/Command.lean ====
section
/-! SUPPORT. A command as one computation: its body, its conclusion (R81, R287), and the state it leads to (R294). -/

namespace Sys2Proof.Machine

/-- The body of each command. -/
def Instr.body (i : Instr) (s : State) : Eng Report :=
  match i with
  | .create     => bodyCreate s
  | .append     => bodyAppend s
  | .extract    => bodyExtract s
  | .extractAll => bodyExtractAll s
  | .remove     => bodyRemove s
  | .removeAll  => bodyRemoveAll s
  | .verify     => bodyVerify s
  | .info       => bodyInfo s
  | .listEntry  => bodyListEntry s
  | .encode     => bodyEncode s
  | .decode     => bodyDecode s
  | .crc32      => bodyCrc32 s

/-- Every command is its body, run to its completion. -/
theorem exec_eq (i : Instr) (s : State) : exec i s = runCommand (naming i s) s (Instr.body i s) := by cases i <;> rfl

section
variable {e : Engine} {Q : Unit → Engine → Prop} {R : Stop → Engine → Prop}

/-- The ends of a body as a report. -/
theorem ends_reporting (body : Eng Report) (Q : Report → Engine → Prop) :
    Ends (reporting body) e Q R ↔
      Ends body e Q fun st e' =>
        match st with
        | .error c r0 r1 => Q ⟨c, r0, r1, none⟩ e'
        | .unanswered    => R .unanswered e' := by
  unfold Ends reporting
  cases body e with
  | ok rep e' => rfl
  | error st e' => cases st <;> rfl

theorem ends_abandon (rep : Report) :
    Ends (abandon rep) e Q R ↔
      (rep.code = .storageError → Ends (scramble e.storage.openForWriting) e Q R) ∧ (rep.code ≠ .storageError → Q () e) := by
  simp only [abandon, ends_ite, ends_bind, ends_look, ends_pure, ne_eq]

/-- The handles are closed in the order F, G, A, D, M, T (R81). -/
theorem ends_closeAll :
    Ends closeAll e Q R ↔
      Ends (closeReg .f) e (fun _ e => Ends (closeReg .g) e (fun _ e => Ends (closeReg .a) e (fun _ e =>
        Ends (closeReg .d) e (fun _ e => Ends (closeReg .m) e (fun _ e => Ends (closeReg .t) e Q R) R) R) R) R) R := by
  simp only [closeAll, ends_bind]

theorem ends_unlessBreached (s : State) (n : Naming) (rep : Report) (Q : Report → Engine → Prop) :
    Ends (unlessBreached s n rep) e Q R ↔
      (s.breach n = none → Q rep e) ∧
      ∀ ps, s.breach n = some ps → Ends (breachEffects ps n.statuses n.lists s.outPtr.toNat rep.code) e Q R := by
  unfold unlessBreached
  cases s.breach n <;> simp

theorem ends_concluding (s : State) (n : Naming) (body : Eng Report) (Q : Report → Engine → Prop) :
    Ends (concluding s n body) e Q R ↔
      Ends (reporting body) e (fun rep e => Ends (abandon rep) e (fun _ e => Ends closeAll e
        (fun _ e => Ends (unlessBreached s n rep) e.landAll Q R) R) R) R := by
  simp only [concluding, ends_bind, ends_update]

end

/-- No more stops than these: a stop of the parts of a conclusion is an unanswered request. -/
theorem concluding_stops (s : State) (n : Naming) (body : Eng Report) (e : Engine) :
    Ends (concluding s n body) e (fun _ _ => True) fun st _ => st = .unanswered := by
  have hclose : ∀ r e, Ends (closeReg r) e (fun _ _ => True) (fun st _ => st = .unanswered) := by
    intro r e
    rw [ends_closeReg]
    simp
  have hscr : ∀ ps e, Ends (scramble ps) e (fun _ _ => True) (fun st _ => st = .unanswered) := by
    intro ps
    induction ps with
    | nil => intro e; trivial
    | cons p ps ih => intro e; simp only [scramble, ends_bind, ends_nextFree, ends_update]; exact ih _
  have huns : ∀ ps e, Ends (unspecify ps) e (fun _ _ => True) (fun st _ => st = .unanswered) := by
    intro ps
    induction ps with
    | nil => intro e; trivial
    | cons p ps ih => intro e; simp only [unspecify, ends_bind, ends_nextFree, ends_update]; exact ih _
  have hsts : ∀ vs k e, Ends (setStatuses k vs) e (fun _ _ => True) (fun st _ => st = .unanswered) := by
    intro vs
    induction vs with
    | nil => intro k e; trivial
    | cons v vs ih =>
      intro k e
      simp only [setStatuses, ends_bind, ends_ite, ends_setStatus]
      exact ⟨fun _ => ih _ _, fun _ => ih _ _⟩
  have hlast : ∀ rep e, Ends (unlessBreached s n rep) e (fun _ _ => True) (fun st _ => st = .unanswered) := by
    intro rep e
    rw [ends_unlessBreached]
    refine ⟨fun _ => trivial, fun ps _ => ?_⟩
    simp only [breachEffects, ends_bind, ends_nextFree, ends_ite, ends_pure]
    exact (huns _ _).mono (fun _ _ _ => ⟨fun _ => (hsts _ _ _).mono (fun _ _ _ => trivial) fun _ _ h => h, fun _ => trivial⟩)
      fun _ _ h => h
  have hall : ∀ rep e, Ends closeAll e (fun _ e => Ends (unlessBreached s n rep) e.landAll (fun _ _ => True)
      (fun st _ => st = .unanswered)) (fun st _ => st = .unanswered) := by
    intro rep e
    rw [ends_closeAll]
    exact (hclose _ _).mono (fun _ _ _ => (hclose _ _).mono (fun _ _ _ => (hclose _ _).mono (fun _ _ _ =>
      (hclose _ _).mono (fun _ _ _ => (hclose _ _).mono (fun _ _ _ => (hclose _ _).mono (fun _ _ _ => hlast _ _)
        fun _ _ h => h) fun _ _ h => h) fun _ _ h => h) fun _ _ h => h) fun _ _ h => h) fun _ _ h => h
  rw [ends_concluding, ends_reporting]
  have hrest : ∀ rep e, Ends (abandon rep) e (fun _ e => Ends closeAll e (fun _ e =>
      Ends (unlessBreached s n rep) e.landAll (fun _ _ => True) (fun st _ => st = .unanswered)) (fun st _ => st = .unanswered))
      (fun st _ => st = .unanswered) := by
    intro rep e
    rw [ends_abandon]
    exact ⟨fun _ => (hscr _ _).mono (fun _ _ _ => hall _ _) fun _ _ h => h, fun _ => hall _ _⟩
  unfold Ends
  split
  · exact hrest _ _
  · rename_i st e' _
    cases st with
    | error c r0 r1 => exact hrest _ _
    | unanswered => rfl

/-- A command completes, or waits at a request that is never answered. -/
theorem exec_next {i : Instr} {s t : State} (h : exec i s = .next t) :
    (∃ rep e, concluding s (naming i s) (Instr.body i s) s.eng = .ok rep e ∧ t = State.complete { s with eng := e } rep) ∨
    ∃ e, concluding s (naming i s) (Instr.body i s) s.eng = .error .unanswered e ∧
      t = { s with eng := e, seq := .stuck s.cmd, breached := s.breach (naming i s) } := by
  rw [exec_eq, runCommand] at h
  split at h
  · injection h with h
    exact .inl ⟨_, _, ‹_›, h.symm⟩
  · rename_i st e he
    injection h with h
    have := (concluding_stops s (naming i s) (Instr.body i s) s.eng).of_error he
    subst this
    exact .inr ⟨e, he, h.symm⟩

end Sys2Proof.Machine
end

