-- ==== Sys2Proof/Laws/Namespace.lean ====
section
/-! SUPPORT. The storage namespace as a list in canonical form (log 22), and the token lists: reads after writes, and that
every operation keeps the form. -/

namespace Sys2Proof.Machine

theorem pathLt_irrefl (p : Path) : pathLt p p = false := by
  induction p with
  | nil => rfl
  | cons a as ih => simp [pathLt, ih]

theorem pathLt_trans {p q r : Path} (h : pathLt p q = true) (h' : pathLt q r = true) : pathLt p r = true := by
  induction p generalizing q r with
  | nil =>
    match q, r, h' with
    | _ :: _, _ :: _, _ => rfl
    | [], _ :: _, _ => rfl
  | cons a as ih =>
    match q, r, h, h' with
    | b :: bs, c :: cs, h, h' =>
      simp only [pathLt] at *
      split at h <;> split at h' <;> split <;> simp_all
      · exact ih h h'
      · exact absurd (BitVec.eq_of_toNat_eq (by omega)) (by assumption)
      · omega

theorem pathLt_ne {p q : Path} (h : pathLt p q = true) : p ≠ q := by
  rintro rfl
  simp [pathLt_irrefl] at h

theorem pathLt_total {p q : Path} (h : p ≠ q) (h' : pathLt p q = false) : pathLt q p = true := by
  induction p generalizing q with
  | nil =>
    match q, h with
    | [], h => simp at h
    | _ :: _, _ => simp [pathLt] at h'
  | cons a as ih =>
    match q, h, h' with
    | [], _, _ => rfl
    | b :: bs, h, h' =>
      simp only [pathLt] at *
      by_cases hab : a = b
      · subst hab
        simp only at *
        exact ih (fun hc => h (by rw [hc])) h'
      · have hn : a.toNat ≠ b.toNat := fun hc => hab (BitVec.eq_of_toNat_eq hc)
        have : ¬ b = a := fun hc => hab hc.symm
        simp_all
        omega

/-! ## FS[p] -/

variable {fs : List (Path × Bytes)} {p q : Path} {c : Bytes}

/-- FS after FS[p] <- c. -/
theorem fsGet_fsPut : fsGet (fsPut fs p c) q = if q = p then some c else fsGet fs q := by
  induction fs with
  | nil => simp [fsPut, fsGet]
  | cons x rest ih =>
    obtain ⟨r, d⟩ := x
    simp only [fsPut]
    by_cases hpr : p = r
    · rw [if_pos hpr]
      by_cases hq : q = p <;> simp [fsGet, hq, ← hpr]
    · rw [if_neg hpr]
      split
      · by_cases hq : q = p <;> simp [fsGet, hq]
      · simp only [fsGet, ih]
        by_cases hqr : q = r
        · subst hqr
          simp [Ne.symm hpr]
        · simp [hqr]

theorem fsRisesFrom_mono {p' : Path} (h : fsRisesFrom p fs = true) (hp : p' = p ∨ pathLt p' p = true) :
    fsRisesFrom p' fs = true := by
  rcases hp with rfl | hp
  · exact h
  · cases fs with
    | nil => rfl
    | cons x rest =>
      simp only [fsRisesFrom, Bool.and_eq_true] at *
      exact ⟨pathLt_trans hp h.1, h.2⟩

/-- A path at or below the first is not listed. -/
theorem fsGet_below (h : fsRisesFrom p fs = true) (hq : q = p ∨ pathLt q p = true) : fsGet fs q = none := by
  induction fs generalizing p with
  | nil => rfl
  | cons x rest ih =>
    obtain ⟨r, d⟩ := x
    simp only [fsRisesFrom, Bool.and_eq_true] at h
    have hqr : pathLt q r = true := by
      rcases hq with rfl | hq
      · exact h.1
      · exact pathLt_trans hq h.1
    simp only [fsGet, if_neg (pathLt_ne hqr)]
    exact ih h.2 (.inr hqr)

/-- FS without p. -/
theorem fsGet_fsDelete {lo : Path} (h : fsRisesFrom lo fs = true) :
    fsGet (fsDelete fs p) q = if q = p then none else fsGet fs q := by
  induction fs generalizing lo with
  | nil => simp [fsDelete, fsGet]
  | cons x rest ih =>
    obtain ⟨r, d⟩ := x
    simp only [fsRisesFrom, Bool.and_eq_true] at h
    simp only [fsDelete]
    by_cases hpr : p = r
    · subst hpr
      rw [if_pos rfl]
      by_cases hq : q = p
      · rw [if_pos hq, fsGet_below h.2 (.inl hq)]
      · simp [fsGet, hq]
    · rw [if_neg hpr]
      simp only [fsGet, ih h.2]
      by_cases hqr : q = r
      · subst hqr
        simp [Ne.symm hpr]
      · simp [hqr]

theorem fsRisesFrom_fsPut {lo : Path} (h : fsRisesFrom lo fs = true) (hp : pathLt lo p = true) :
    fsRisesFrom lo (fsPut fs p c) = true := by
  induction fs generalizing lo with
  | nil => simp [fsPut, fsRisesFrom, hp]
  | cons x rest ih =>
    obtain ⟨r, d⟩ := x
    simp only [fsRisesFrom, Bool.and_eq_true] at h
    simp only [fsPut]
    by_cases hpr : p = r
    · subst hpr
      simp [fsRisesFrom, hp, h.2]
    · rw [if_neg hpr]
      by_cases hl : pathLt p r = true
      · rw [if_pos hl]
        simp [fsRisesFrom, hp, hl, h.2]
      · rw [if_neg hl]
        simp only [fsRisesFrom, Bool.and_eq_true]
        exact ⟨h.1, ih h.2 (pathLt_total hpr (by simpa using hl))⟩

theorem fsRisesFrom_fsDelete {lo : Path} (h : fsRisesFrom lo fs = true) : fsRisesFrom lo (fsDelete fs p) = true := by
  induction fs generalizing lo with
  | nil => rfl
  | cons x rest ih =>
    obtain ⟨r, d⟩ := x
    simp only [fsRisesFrom, Bool.and_eq_true] at h
    simp only [fsDelete]
    split
    · exact fsRisesFrom_mono h.2 (.inr h.1)
    · simp only [fsRisesFrom, Bool.and_eq_true]
      exact ⟨h.1, ih h.2⟩

theorem mem_fsPut {x : Path × Bytes} (h : x ∈ fsPut fs p c) : x = (p, c) ∨ x ∈ fs := by
  induction fs with
  | nil => simpa [fsPut] using h
  | cons y rest ih =>
    simp only [fsPut] at h
    split at h
    · rcases List.mem_cons.1 h with h | h <;> simp [h]
    · split at h
      · simpa using h
      · rcases List.mem_cons.1 h with h | h
        · simp [h]
        · rcases ih h with h | h <;> simp [h]

theorem mem_of_mem_fsDelete {x : Path × Bytes} (h : x ∈ fsDelete fs p) : x ∈ fs := by
  induction fs with
  | nil => exact h
  | cons y rest ih =>
    simp only [fsDelete] at h
    split at h
    · simp [h]
    · rcases List.mem_cons.1 h with h | h
      · simp [h]
      · simp [ih h]

theorem Path.wf_nonempty (h : Path.wf p = true) : pathLt [] p = true := by
  cases p with
  | nil => simp [Path.wf] at h
  | cons a as => rfl

/-- Writing a path that a file can have keeps the canonical form. -/
theorem fsWf_fsPut (h : fsWf fs = true) (hp : Path.wf p = true) : fsWf (fsPut fs p c) = true := by
  simp only [fsWf, Bool.and_eq_true, List.all_eq_true] at *
  refine ⟨fsRisesFrom_fsPut h.1 (Path.wf_nonempty hp), fun x hx => ?_⟩
  rcases mem_fsPut hx with rfl | hx
  · exact hp
  · exact h.2 x hx

theorem fsWf_fsDelete (h : fsWf fs = true) : fsWf (fsDelete fs p) = true := by
  simp only [fsWf, Bool.and_eq_true, List.all_eq_true] at *
  exact ⟨fsRisesFrom_fsDelete h.1, fun x hx => h.2 x (mem_of_mem_fsDelete hx)⟩

theorem fsWf_fsSet (h : fsWf fs = true) (hp : Path.wf p = true) (o : Option Bytes) : fsWf (fsSet fs p o) = true := by
  cases o with
  | none => exact fsWf_fsDelete h
  | some c => exact fsWf_fsPut h hp

/-- FS after the host or the model sets one path. -/
theorem fsGet_fsSet (h : fsWf fs = true) (o : Option Bytes) :
    fsGet (fsSet fs p o) q = if q = p then o else fsGet fs q := by
  simp only [fsWf, Bool.and_eq_true] at h
  cases o with
  | none => exact fsGet_fsDelete h.1
  | some c => exact fsGet_fsPut

/-- Writing what is there changes nothing. -/
theorem fsPut_fsGet {lo : Path} (h : fsRisesFrom lo fs = true) (hp : fsGet fs p = some c) : fsPut fs p c = fs := by
  induction fs generalizing lo with
  | nil => simp [fsGet] at hp
  | cons x rest ih =>
    obtain ⟨r, d⟩ := x
    simp only [fsRisesFrom, Bool.and_eq_true] at h
    simp only [fsGet] at hp
    simp only [fsPut]
    split at hp
    · simp_all
    · rw [if_neg ‹_›]
      by_cases hl : pathLt p r = true
      · rw [fsGet_below h.2 (.inr hl)] at hp
        simp at hp
      · rw [if_neg hl, ih h.2 hp]

/-- The last write to a path stands. -/
theorem fsPut_fsPut {d : Bytes} : fsPut (fsPut fs p c) p d = fsPut fs p d := by
  induction fs with
  | nil => simp [fsPut]
  | cons x rest ih =>
    obtain ⟨r, b⟩ := x
    simp only [fsPut]
    by_cases hpr : p = r
    · subst hpr; simp [fsPut]
    · by_cases hl : pathLt p r = true
      · simp [hpr, hl, fsPut]
      · simp [hpr, hl, fsPut, ih]

/-- Namespaces in canonical form that agree at every path are equal. -/
theorem fs_ext {lo : Path} {fs' : List (Path × Bytes)} (h : fsRisesFrom lo fs = true) (h' : fsRisesFrom lo fs' = true)
    (heq : ∀ p, fsGet fs p = fsGet fs' p) : fs = fs' := by
  induction fs generalizing lo fs' with
  | nil =>
    cases fs' with
    | nil => rfl
    | cons y ys => simpa [fsGet] using heq y.1
  | cons x rest ih =>
    obtain ⟨r, d⟩ := x
    cases fs' with
    | nil => simpa [fsGet] using heq r
    | cons y ys =>
      obtain ⟨r', d'⟩ := y
      simp only [fsRisesFrom, Bool.and_eq_true] at h h'
      have hr : r = r' := by
        cases hl : pathLt r r' with
        | true =>
          have := heq r
          simp only [fsGet, if_pos, if_neg (pathLt_ne hl), fsGet_below h'.2 (.inr hl)] at this
          simp at this
        | false =>
          cases Classical.em (r = r') with
          | inl he => exact he
          | inr hn =>
            have hl' := pathLt_total hn hl
            have := heq r'
            simp only [fsGet, if_pos, if_neg (pathLt_ne hl'), fsGet_below h.2 (.inr hl')] at this
            simp at this
      subst hr
      have hd := heq r
      simp only [fsGet, if_pos] at hd
      injection hd with hd
      subst hd
      rw [ih h.2 h'.2 fun p => ?_]
      by_cases hp : p = r
      · subst hp
        rw [fsGet_below h.2 (.inl rfl), fsGet_below h'.2 (.inl rfl)]
      · have := heq p
        simpa [fsGet, hp] using this

/-! ## Token lists -/

variable {α : Type}

theorem lookup_replaceAt (v : α) (l : List (Nat × α)) (n m : Nat) :
    lookup (replaceAt v l n) m = if m = n ∧ (lookup l n).isSome = true then some v else lookup l m := by
  induction l with
  | nil => simp [replaceAt, lookup]
  | cons x rest ih =>
    obtain ⟨k, u⟩ := x
    simp only [replaceAt]
    by_cases hnk : n = k
    · subst hnk
      by_cases hm : m = n <;> simp [lookup, hm]
    · by_cases hm : m = k
      · subst hm
        simp [lookup, hnk, Ne.symm hnk]
      · simp [lookup, hnk, hm, ih]

theorem lookup_replaceAt_self (v : α) (l : List (Nat × α)) (n : Nat) (h : (lookup l n).isSome = true) :
    lookup (replaceAt v l n) n = some v := by simp [lookup_replaceAt, h]

theorem lookup_replaceAt_other (v : α) (l : List (Nat × α)) {n m : Nat} (h : m ≠ n) :
    lookup (replaceAt v l n) m = lookup l m := by simp [lookup_replaceAt, h]

@[simp] theorem replaceAt_keys (v : α) (l : List (Nat × α)) (n : Nat) : (replaceAt v l n).map (·.1) = l.map (·.1) := by
  induction l with
  | nil => rfl
  | cons x rest ih =>
    simp only [replaceAt]
    split <;> simp_all

theorem replaceAt_replaceAt (u v : α) (l : List (Nat × α)) (n : Nat) : replaceAt v (replaceAt u l n) n = replaceAt v l n := by
  induction l with
  | nil => rfl
  | cons x rest ih =>
    obtain ⟨k, w⟩ := x
    simp only [replaceAt]
    by_cases hnk : n = k <;> simp [replaceAt, hnk, ih]

theorem lookup_append (l l' : List (Nat × α)) (n : Nat) :
    lookup (l ++ l') n = (lookup l n).or (lookup l' n) := by
  induction l with
  | nil => simp [lookup]
  | cons x rest ih =>
    simp only [List.cons_append, lookup]
    split <;> simp_all

theorem lookup_mem {l : List (Nat × α)} {n : Nat} {v : α} (h : lookup l n = some v) : (n, v) ∈ l := by
  induction l with
  | nil => simp [lookup] at h
  | cons x rest ih =>
    obtain ⟨k, u⟩ := x
    simp only [lookup] at h
    split at h
    · injection h with h
      simp [*]
    · simp [ih h]

theorem lookup_none {l : List (Nat × α)} {n : Nat} (h : n ∉ l.map (·.1)) : lookup l n = none := by
  induction l with
  | nil => rfl
  | cons x rest ih =>
    simp only [List.map_cons, List.mem_cons, not_or] at h
    simp [lookup, h.1, ih h.2]

theorem lookup_removeAt_other (l : List (Nat × α)) {n m : Nat} (h : m ≠ n) : lookup (removeAt l n) m = lookup l m := by
  induction l with
  | nil => rfl
  | cons x rest ih =>
    obtain ⟨k, u⟩ := x
    simp only [removeAt]
    by_cases hnk : n = k
    · subst hnk; simp [lookup, h]
    · simp only [if_neg hnk, lookup, ih]

theorem removeAt_sublist (l : List (Nat × α)) (n : Nat) : (removeAt l n).Sublist l := by
  induction l with
  | nil => exact .slnil
  | cons x rest ih =>
    simp only [removeAt]
    split
    · exact .cons _ (List.Sublist.refl _)
    · exact .cons_cons _ ih

end Sys2Proof.Machine
end

