-- ==== Sys2Proof/Laws/Output.lean ====
section
/-! SUPPORT. The output stream (R126 to R131) where no request fails: the bits written so far lie partly in the file and
partly in OUT_BUF, and flush puts the rest into the file. -/

namespace Sys2Proof.Machine

/-! ## Files -/

/-- Two writes that follow each other are one. -/
theorem writeAt_writeAt (c : Bytes) (s : Nat) (a b : Bytes) :
    writeAt (writeAt c s a) (s + a.length) b = writeAt c s (a ++ b) := by
  have hp : ((c ++ List.replicate (s - c.length) 0).take s).length = s := by simp; omega
  have hl : (writeAt c s a).length = s + a.length + (c.length - (s + a.length)) := by
    simp only [writeAt, List.length_append, hp, List.length_drop]
  have h1 : s + a.length - (writeAt c s a).length = 0 := by omega
  have h2 : (writeAt c s a).take (s + a.length) = (c ++ List.replicate (s - c.length) 0).take s ++ a := by
    unfold writeAt
    rw [List.take_append_of_le_length (by simp only [List.length_append, hp]; omega)]
    rw [List.take_of_length_le (by simp only [List.length_append, hp]; omega)]
  have h3 : (writeAt c s a).drop (s + a.length + b.length) = c.drop (s + a.length + b.length) := by
    unfold writeAt
    rw [List.drop_append, List.drop_of_length_le (by simp only [List.length_append, hp]; omega), List.nil_append,
      List.drop_drop]
    congr 1
    simp only [List.length_append, hp]
    omega
  have h4 : writeAt (writeAt c s a) (s + a.length) b =
      (writeAt c s a ++ List.replicate (s + a.length - (writeAt c s a).length) 0).take (s + a.length) ++ b ++
        (writeAt c s a).drop (s + a.length + b.length) := rfl
  rw [h4, h1, h3, List.replicate_zero, List.append_nil, h2]
  unfold writeAt
  simp only [List.append_assoc, List.length_append, Nat.add_assoc]

/-- Writing nothing at a position inside the file changes nothing. -/
theorem writeAt_nil {c : Bytes} {s : Nat} (h : s ≤ c.length) : writeAt c s [] = c := by
  simp only [writeAt, List.length_nil, Nat.add_zero, List.append_nil, Nat.sub_eq_zero_of_le h, List.replicate_zero,
    List.take_append_drop]

theorem Storage.content_setContent {st : Storage} {r r' : FileRef} {c : Bytes} (h : st.hasTemp r) :
    (st.setContent r c).content r' = if r' = r then c else st.content r' := by
  cases r with
  | named p =>
    cases r' with
    | named q =>
      simp only [Storage.setContent, Storage.content, fsGet_fsPut]
      by_cases hq : q = p <;> simp [hq]
    | temp m => simp [Storage.setContent, Storage.content]
  | temp n =>
    cases r' with
    | named q => simp [Storage.setContent, Storage.content]
    | temp m =>
      simp only [Storage.setContent, Storage.content, lookup_replaceAt]
      by_cases hm : m = n
      · subst hm
        simp [show (lookup st.temps m).isSome = true from h]
      · simp [hm]

@[simp] theorem Storage.content_setPos (st : Storage) (h : Handle) (f : OpenFile) (k : Nat) (r : FileRef) :
    (st.setPos h f k).content r = st.content r := by cases r <;> rfl

@[simp] theorem Storage.fs_setPos (st : Storage) (h : Handle) (f : OpenFile) (k : Nat) : (st.setPos h f k).fs = st.fs := rfl
@[simp] theorem Storage.temps_setPos (st : Storage) (h : Handle) (f : OpenFile) (k : Nat) :
    (st.setPos h f k).temps = st.temps := rfl
@[simp] theorem Storage.nextId_setPos (st : Storage) (h : Handle) (f : OpenFile) (k : Nat) :
    (st.setPos h f k).nextId = st.nextId := rfl
@[simp] theorem Storage.handles_setContent (st : Storage) (r : FileRef) (c : Bytes) :
    (st.setContent r c).handles = st.handles := by cases r <;> rfl
@[simp] theorem Storage.nextId_setContent (st : Storage) (r : FileRef) (c : Bytes) :
    (st.setContent r c).nextId = st.nextId := by cases r <;> rfl

theorem Storage.hasTemp_setContent {st : Storage} {r r' : FileRef} {c : Bytes} (h : st.hasTemp r') :
    (st.setContent r c).hasTemp r' := by
  cases r with
  | named p => cases r' <;> exact h
  | temp n =>
    cases r' with
    | named q => exact h
    | temp m =>
      show (lookup (replaceAt c st.temps n) m).isSome = true
      rw [lookup_replaceAt]
      split
      · rfl
      · exact h

theorem Storage.hasTemp_setPos {st : Storage} {h : Handle} {f : OpenFile} {k : Nat} {r : FileRef} (hr : st.hasTemp r) :
    (st.setPos h f k).hasTemp r := by cases r <;> exact hr

/-! ## The buffer -/

theorem getLsbD_setBit (b : Byte) (i : Nat) (v : Bool) (k : Nat) (hi : i < 8) (hk : k < 8) :
    (setBit b i v).getLsbD k = if k = i then v else b.getLsbD k := by
  simp only [setBit, BitVec.getLsbD_or, BitVec.getLsbD_and, BitVec.getLsbD_not, BitVec.getLsbD_shiftLeft, hk, decide_true,
    Bool.true_and, BitVec.getLsbD_setWidth, BitVec.getLsbD_ofBool]
  by_cases h : k = i
  · subst h
    simp
  · by_cases hl : k < i
    · simp [h, hl]
    · have : ¬ (k - i = 0) := by omega
      simp [h, hl, this]

/-- OUT_BUF and the cursor stand for the bits `b` written since the last flush. -/
structure OutStream.Holds (o : OutStream) (b : Bits) : Prop where
  byte : o.byte = b.length / 8
  bit  : o.bit = b.length % 8
  len  : b.length ≤ 8 * Config.bufBytes
  buf  : bitsOf o.buf = b ++ List.replicate (8 * Config.bufBytes - b.length) false

theorem bitsOf_replicate_zero (n : Nat) : bitsOf (List.replicate n 0) = List.replicate (8 * n) false := by
  induction n with
  | zero => rfl
  | succ n ih =>
    rw [List.replicate_succ, bitsOf_cons, ih]
    show List.replicate 8 false ++ List.replicate (8 * n) false = _
    rw [List.replicate_append_replicate]
    congr 1
    omega

theorem bitsOf_inj {a b : Bytes} (h : bitsOf a = bitsOf b) : a = b := by
  rw [← pack_bitsOf a, h, pack_bitsOf]

theorem OutStream.holds_empty (t : Nat) (h : Handle) : (⟨zeroBuf, 0, 0, t, h⟩ : OutStream).Holds [] where
  byte := rfl
  bit := rfl
  len := by simp
  buf := by
    show bitsOf (List.replicate Config.bufBytes 0) = _
    rw [bitsOf_replicate_zero]
    rfl

theorem OutStream.Holds.length_buf {o : OutStream} {b : Bits} (h : o.Holds b) : o.buf.length = Config.bufBytes := by
  have := congrArg List.length h.buf
  simp only [bitsOf_length, List.length_append, List.length_replicate] at this
  have := h.len
  omega

/-- One bit more (R128). -/
theorem OutStream.Holds.put {o : OutStream} {b : Bits} (h : o.Holds b) (hl : b.length < 8 * Config.bufBytes) (v : Bool) :
    (o.put v).Holds (b ++ [v]) := by
  have hbuf := h.length_buf
  have hb8 : o.bit < 8 := by rw [h.bit]; omega
  have hby : o.byte < o.buf.length := by rw [h.byte, hbuf]; omega
  have hk : b.length = 8 * o.byte + o.bit := by rw [h.byte, h.bit]; omega
  have hbits : bitsOf (o.buf.set o.byte (setBit (o.buf.getD o.byte 0) o.bit v)) =
      (b ++ [v]) ++ List.replicate (8 * Config.bufBytes - (b ++ [v]).length) false := by
    apply List.ext_getElem?
    intro k
    have hold := congrArg (·[k]?) h.buf
    simp only [bitsOf_getElem?] at hold
    rw [bitsOf_getElem?, List.getElem?_set]
    by_cases hke : k = b.length
    · have hd : k / 8 = o.byte := by omega
      have hm : k % 8 = o.bit := by omega
      rw [if_pos hd.symm, if_pos (by omega), hm, Option.map_some, getLsbD_setBit _ _ _ _ hb8 hb8, if_pos rfl,
        List.append_assoc, List.getElem?_append_right (by omega), hke]
      simp
    · have hnew : ((b ++ [v]) ++ List.replicate (8 * Config.bufBytes - (b ++ [v]).length) false)[k]? =
          (b ++ List.replicate (8 * Config.bufBytes - b.length) false)[k]? := by
        by_cases hlt : k < b.length
        · rw [List.append_assoc, List.getElem?_append_left hlt, List.getElem?_append_left hlt]
        · rw [List.getElem?_append_right (by simp; omega), List.getElem?_append_right (by omega)]
          simp only [List.getElem?_replicate, List.length_append, List.length_singleton]
          by_cases hin : k < 8 * Config.bufBytes
          · rw [if_pos (by omega), if_pos (by omega)]
          · rw [if_neg (by omega), if_neg (by omega)]
      rw [hnew, ← hold]
      by_cases hd : o.byte = k / 8
      · rw [if_pos hd, if_pos (by omega), Option.map_some, getLsbD_setBit _ _ _ _ hb8 (Nat.mod_lt _ (by omega)),
          if_neg (by omega), List.getElem?_eq_getElem (by omega)]
        simp only [Option.map_some, ← hd]
        simp [List.getD_eq_getElem?_getD, List.getElem?_eq_getElem hby]
      · rw [if_neg hd]
  have hlen : (b ++ [v]).length = b.length + 1 := by simp
  unfold OutStream.put
  by_cases h7 : o.bit + 1 = 8
  · simp only [if_pos h7]
    exact ⟨by show o.byte + 1 = _; rw [hlen]; omega, by show 0 = _; rw [hlen]; omega, by rw [hlen]; omega, hbits⟩
  · simp only [if_neg h7]
    exact ⟨by show o.byte = _; rw [hlen]; omega, by show o.bit + 1 = _; rw [hlen]; omega, by rw [hlen]; omega, hbits⟩

/-- What a flush writes (R127): the packing of the bits held. -/
theorem OutStream.Holds.pending_bytes {o : OutStream} {b : Bits} (h : o.Holds b) :
    o.pending = (b.length + 7) / 8 ∧ o.buf.take o.pending = pack b := by
  have hp : o.pending = (b.length + 7) / 8 := by
    simp only [OutStream.pending, h.byte, h.bit]
    split <;> omega
  refine ⟨hp, bitsOf_inj ?_⟩
  have hl := h.len
  rw [bitsOf_take, h.buf, bitsOf_pack, hp, List.take_append, List.take_of_length_le (by omega), List.take_replicate]
  congr 2
  omega

/-! ## The stream and its file -/

/-- The bits `b` were written through OUT to the file `r` since out_init at position `start`, when it held `base`. -/
structure Engine.OutAt (e : Engine) (r : FileRef) (base : Bytes) (start : Nat) (b : Bits) : Prop where
  obliging : e.draws.obliging
  temp     : e.storage.hasTemp r
  split    : ∃ w rest, b = w ++ rest ∧ w.length % 8 = 0 ∧ rest.length < 8 * Config.bufBytes ∧ e.out.Holds rest ∧
    lookup e.storage.handles e.out.h = some ⟨r, true, start + w.length / 8⟩ ∧
    e.storage.content r = (if w = [] then base else writeAt base start (pack w)) ∧ e.out.total = w.length / 8

/-- What writing through OUT to the file `r` leaves alone. -/
structure Engine.OutKept (e e' : Engine) (r : FileRef) : Prop where
  statmem  : e'.statmem = e.statmem
  inp      : e'.inp = e.inp
  huff     : e'.huff = e.huff
  crcReg   : e'.crcReg = e.crcReg
  work     : e'.work = e.work
  outH     : e'.out.h = e.out.h
  nows     : e'.draws.nows = e.draws.nows
  free     : e'.draws.free = e.draws.free
  obliging : e.draws.obliging → e'.draws.obliging
  nextId   : e'.storage.nextId = e.storage.nextId
  content  : ∀ r', r' ≠ r → e'.storage.content r' = e.storage.content r'
  handles  : ∀ h, h ≠ e.out.h → lookup e'.storage.handles h = lookup e.storage.handles h
  keys     : e'.storage.handles.map (·.1) = e.storage.handles.map (·.1)
  temps    : e'.storage.temps.map (·.1) = e.storage.temps.map (·.1)
  fs       : ∀ p, (∀ q, r = .named q → p ≠ q) → fsGet e'.storage.fs p = fsGet e.storage.fs p
  sameFs   : (∀ q, r ≠ .named q) → e'.storage.fs = e.storage.fs

theorem Engine.OutKept.refl (e : Engine) (r : FileRef) : e.OutKept e r := by
  constructor <;> intros <;> first | rfl | assumption

theorem Engine.OutKept.trans {e e' e'' : Engine} {r : FileRef} (h : e.OutKept e' r) (h' : e'.OutKept e'' r) :
    e.OutKept e'' r where
  statmem := h'.statmem.trans h.statmem
  inp := h'.inp.trans h.inp
  huff := h'.huff.trans h.huff
  crcReg := h'.crcReg.trans h.crcReg
  work := h'.work.trans h.work
  outH := h'.outH.trans h.outH
  nows := h'.nows.trans h.nows
  free := h'.free.trans h.free
  obliging := fun ho => h'.obliging (h.obliging ho)
  nextId := h'.nextId.trans h.nextId
  content := fun r' hr => (h'.content r' hr).trans (h.content r' hr)
  handles := fun k hk => (h'.handles k (by rw [h.outH]; exact hk)).trans (h.handles k hk)
  keys := h'.keys.trans h.keys
  temps := h'.temps.trans h.temps
  fs := fun p hp => (h'.fs p hp).trans (h.fs p hp)
  sameFs := fun hq => (h'.sameFs hq).trans (h.sameFs hq)

/-- A write of bytes through OUT's handle keeps all else. -/
theorem Engine.OutKept.written {e : Engine} {r : FileRef} {k : Nat} (bs : Bytes) (ht : e.storage.hasTemp r)
    (o : OutStream) (ho : o.h = e.out.h) :
    e.OutKept { e.asked.withStorage (e.storage.written e.out.h ⟨r, true, k⟩ bs) with out := o } r where
  statmem := rfl
  inp := rfl
  huff := rfl
  crcReg := rfl
  work := rfl
  outH := ho
  nows := rfl
  free := rfl
  obliging := fun h => h.askedDraws
  nextId := by simp [Storage.written]
  content := fun r' hr => by simp [Storage.written, Storage.content_setContent ht, hr]
  handles := fun h hh => by
    simp only [Storage.written, Storage.setPos, withStorage_storage, Storage.handles_setContent]
    exact lookup_replaceAt_other _ _ hh
  keys := by simp [Storage.written, Storage.setPos]
  temps := by
    cases r with
    | named q => simp [Storage.written, Storage.setContent]
    | temp n => simp [Storage.written, Storage.setContent]
  fs := fun p hp => by
    cases r with
    | named q => simp [Storage.written, Storage.setContent, fsGet_fsPut, hp q rfl]
    | temp n => simp [Storage.written, Storage.setContent]
  sameFs := fun hq => by
    cases r with
    | named q => exact absurd rfl (hq q)
    | temp n => simp [Storage.written, Storage.setContent]

/-- out_init starts an empty stream at the handle's position (R126). -/
theorem ends_outInit {e : Engine} {h : Handle} {r : FileRef} {k : Nat} (ho : e.draws.obliging)
    (hh : lookup e.storage.handles h = some ⟨r, true, k⟩) (ht : e.storage.hasTemp r) (R : Stop → Engine → Prop) :
    Ends (outInit h) e
      (fun _ e' => e' = { e with out := ⟨zeroBuf, 0, 0, 0, h⟩ } ∧ e'.OutAt r (e.storage.content r) k []) R :=
  ⟨rfl, ho, ht, [], [], rfl, rfl, by decide, OutStream.holds_empty 0 h, hh, rfl, rfl⟩

/-- flush puts the bits held into the file (R127): the file holds the packing of all bits written. -/
theorem ends_flush {e : Engine} {r : FileRef} {base : Bytes} {start : Nat} {b : Bits} (h : e.OutAt r base start b)
    (hmax : start + (b.length + 7) / 8 ≤ Config.fileMax) :
    Ends flush e
      (fun _ e' => e.OutKept e' r ∧ e'.out.Holds [] ∧ e'.out.total = (b.length + 7) / 8 ∧ e'.storage.hasTemp r ∧
        lookup e'.storage.handles e'.out.h = some ⟨r, true, start + (b.length + 7) / 8⟩ ∧
        e'.storage.content r = (if b = [] then base else writeAt base start (pack b)))
      fun _ _ => False := by
  obtain ⟨w, rest, hb, hw, hrest, hold, hh, hc, htot⟩ := h.split
  obtain ⟨hp, hbytes⟩ := hold.pending_bytes
  rw [hp] at hbytes
  have hlen : (b.length + 7) / 8 = w.length / 8 + (rest.length + 7) / 8 := by rw [hb, List.length_append]; omega
  simp only [flush, ends_bind, ends_look, hp, hbytes]
  by_cases hr : rest = []
  · have h0 : ¬ (rest.length + 7) / 8 > 0 := by rw [hr]; decide
    rw [if_neg h0]
    simp only [ends_update]
    have hbw : b = w := by rw [hb, hr, List.append_nil]
    have hlw : (b.length + 7) / 8 = w.length / 8 := by rw [hlen, hr]; rfl
    refine ⟨?_, OutStream.holds_empty _ _, ?_, h.temp, ?_, ?_⟩
    · constructor <;> intros <;> first | rfl | assumption
    · show e.out.total + (rest.length + 7) / 8 = _
      rw [htot, hlen]
    · rw [hlw]; exact hh
    · rw [hbw]; exact hc
  · have hpos : 0 < rest.length := List.length_pos_iff.2 hr
    have h0 : (rest.length + 7) / 8 > 0 := by omega
    rw [if_pos h0]
    have hlp : (pack rest).length = (rest.length + 7) / 8 := pack_length rest
    have hfw : e.draws.failsWrite ⟨r, true, start + w.length / 8⟩ (pack rest).length = false :=
      h.obliging.writes (by show start + w.length / 8 + (pack rest).length ≤ _; rw [hlp]; omega)
    simp only [ends_bind, ends_sWrite, ends_check, ends_update, hh, h.obliging.askedStorage]
    refine ⟨fun ha => absurd ha h.obliging.answered, fun _ => ⟨by simp, ?_⟩⟩
    intro f hf
    injection hf with hf
    subst hf
    refine ⟨by simp, by simp [hfw], fun _ _ => ⟨fun _ => ?_, by simp⟩⟩
    have hs : (e.storage.setContent r (writeAt (e.storage.content r) (start + w.length / 8) (pack rest))).hasTemp r :=
      Storage.hasTemp_setContent h.temp
    refine ⟨Engine.OutKept.written (pack rest) h.temp _ rfl, OutStream.holds_empty _ _, ?_,
      Storage.hasTemp_setPos hs, ?_, ?_⟩
    · show e.out.total + (rest.length + 7) / 8 = _
      rw [htot, hlen]
    · simp only [Storage.written, Storage.setPos, withStorage_storage, Storage.handles_setContent, withStorage_out, asked_out]
      rw [lookup_replaceAt_self _ _ _ (by simp [hh])]
      simp only [hlp, hlen, Nat.add_assoc]
    · simp only [Storage.written, withStorage_storage, Storage.content_setPos, Storage.content_setContent h.temp,
        if_true]
      have hbn : b ≠ [] := by
        rw [hb]
        simp [hr]
      rw [if_neg hbn, hc, hb, pack_append hw]
      by_cases hwn : w = []
      · simp [hwn]
      · have : (pack w).length = w.length / 8 := by rw [pack_length]; omega
        rw [if_neg hwn, ← this, writeAt_writeAt]

/-- write_bit appends one bit (R128). -/
theorem ends_writeBit {e : Engine} {r : FileRef} {base : Bytes} {start : Nat} {b : Bits} (h : e.OutAt r base start b)
    (hmax : start + (b.length + 1 + 7) / 8 ≤ Config.fileMax) (v : Bool) :
    Ends (writeBit v) e (fun _ e' => e.OutKept e' r ∧ e'.OutAt r base start (b ++ [v])) fun _ _ => False := by
  obtain ⟨w, rest, hb, hw, hrest, hold, hh, hc, htot⟩ := h.split
  have hput := hold.put hrest v
  have houtH : (e.out.put v).h = e.out.h := by unfold OutStream.put; split <;> rfl
  have houtT : (e.out.put v).total = e.out.total := by unfold OutStream.put; split <;> rfl
  have hkept : e.OutKept { e with out := e.out.put v } r := by
    constructor <;> intros <;> first | rfl | assumption
  simp only [writeBit, ends_bind, ends_update, ends_look]
  have hbyte := hput.byte
  have hlen : (rest ++ [v]).length = rest.length + 1 := by simp
  by_cases hfull : (e.out.put v).byte = Config.bufBytes
  · simp only [hfull, beq_self_eq_true, if_true]
    have hl : (rest ++ [v]).length = 8 * Config.bufBytes := by
      have := hput.len
      omega
    have hmid : Ends flush { e with out := e.out.put v }
        (fun _ e' => Engine.OutKept { e with out := e.out.put v } e' r ∧ e'.out.Holds [] ∧
          e'.out.total = (w ++ (rest ++ [v])).length / 8 ∧ e'.storage.hasTemp r ∧
          lookup e'.storage.handles e'.out.h = some ⟨r, true, start + (w ++ (rest ++ [v])).length / 8⟩ ∧
          e'.storage.content r = writeAt base start (pack (w ++ (rest ++ [v]))))
        fun _ _ => False := by
      obtain ⟨hp, hbytes⟩ := hput.pending_bytes
      have hpos : (e.out.put v).pending > 0 := by rw [hp, hl]; decide
      simp only [flush, ends_bind, ends_look, if_pos hpos, hbytes]
      have ha : Engine.storage (Engine.asked { e with out := e.out.put v }) = e.storage :=
        Draws.obliging.askedStorage (e := { e with out := e.out.put v }) h.obliging
      simp only [ends_sWrite, ends_check, ends_update, ha]
      have hh' : lookup e.storage.handles (e.out.put v).h = some ⟨r, true, start + w.length / 8⟩ := by rw [houtH]; exact hh
      have hlp : (pack (rest ++ [v])).length = Config.bufBytes := by rw [pack_length, hl]; decide
      have hlb : b.length + 1 = w.length + 8 * Config.bufBytes := by
        rw [hb, List.length_append]
        omega
      have hfw : e.draws.failsWrite ⟨r, true, start + w.length / 8⟩ (pack (rest ++ [v])).length = false :=
        h.obliging.writes (by show start + w.length / 8 + (pack (rest ++ [v])).length ≤ _; rw [hlp]; omega)
      simp only [hh']
      refine ⟨fun ha => absurd ha h.obliging.answered, fun _ => ⟨by simp, ?_⟩⟩
      intro f hf
      injection hf with hf
      subst hf
      refine ⟨by simp, by simp [hfw], fun _ _ => ⟨fun _ => ?_, by simp⟩⟩
      have hdiv : (w ++ (rest ++ [v])).length / 8 = w.length / 8 + Config.bufBytes := by
        rw [List.length_append, hl]
        omega
      refine ⟨Engine.OutKept.written (e := { e with out := e.out.put v }) (pack (rest ++ [v])) h.temp _ rfl,
        OutStream.holds_empty _ _, ?_, Storage.hasTemp_setPos (Storage.hasTemp_setContent h.temp), ?_, ?_⟩
      · show (e.out.put v).total + (e.out.put v).pending = _
        rw [houtT, htot, hp, hl, hdiv]
        rfl
      · simp only [Storage.written, Storage.setPos, withStorage_storage, Storage.handles_setContent, withStorage_out, asked_out]
        rw [lookup_replaceAt_self _ _ _ (by simp [hh'])]
        simp only [hlp, hdiv, Nat.add_assoc]
      · simp only [Storage.written, withStorage_storage, Storage.content_setPos]
        rw [Storage.content_setContent h.temp, if_pos rfl, hc, pack_append hw]
        by_cases hwn : w = []
        · simp [hwn]
        · have : (pack w).length = w.length / 8 := by rw [pack_length]; omega
          rw [if_neg hwn, ← this, writeAt_writeAt]
    refine hmid.mono (fun _ e' hq => ?_) fun _ _ hf => hf
    obtain ⟨hk, hho, ht', htemp', hh', hc'⟩ := hq
    refine ⟨hkept.trans hk, hk.obliging h.obliging, htemp', w ++ (rest ++ [v]), [], by simp [hb], ?_, by decide, hho, hh', ?_, ht'⟩
    · rw [List.length_append, hl]
      omega
    · rw [if_neg (by simp)]
      exact hc'
  · have hne : ((e.out.put v).byte == Config.bufBytes) = false := by simpa using hfull
    simp only [hne, Bool.false_eq_true, if_false, ends_pure]
    refine ⟨hkept, h.obliging, h.temp, w, rest ++ [v], by simp [hb], hw, ?_, hput, ?_, hc, ?_⟩
    · rw [hlen] at hbyte ⊢
      have := hput.len
      rw [hlen] at this
      have : ¬ rest.length + 1 = 8 * Config.bufBytes := by
        intro hc
        rw [hc] at hbyte
        exact hfull (by rw [hbyte]; omega)
      omega
    · show lookup e.storage.handles (e.out.put v).h = _
      rw [houtH]; exact hh
    · show (e.out.put v).total = _
      rw [houtT, htot]

/-- A bit string is written in order. -/
theorem ends_writeBits {e : Engine} {r : FileRef} {base : Bytes} {start : Nat} {b : Bits} (h : e.OutAt r base start b)
    (vs : Bits) (hmax : start + ((b ++ vs).length + 7) / 8 ≤ Config.fileMax) :
    Ends (writeBits vs) e (fun _ e' => e.OutKept e' r ∧ e'.OutAt r base start (b ++ vs)) fun _ _ => False := by
  induction vs generalizing e b with
  | nil => exact ⟨Engine.OutKept.refl e r, by simpa using h⟩
  | cons v vs ih =>
    rw [writeBits, ends_bind]
    simp only [List.length_append, List.length_cons] at hmax
    refine (ends_writeBit h (by omega) v).mono (fun _ e1 h1 => ?_) fun _ _ hf => hf
    refine (ih h1.2 (by simp only [List.length_append, List.length_singleton]; omega)).mono (fun _ e2 h2 => ?_) fun _ _ hf => hf
    exact ⟨h1.1.trans h2.1, by simpa using h2.2⟩

/-- A byte is written least significant bit first (R129). -/
theorem ends_writeByte {e : Engine} {r : FileRef} {base : Bytes} {start : Nat} {b : Bits} (h : e.OutAt r base start b)
    (x : Byte) (hmax : start + (b.length + 8 + 7) / 8 ≤ Config.fileMax) :
    Ends (writeByte x) e (fun _ e' => e.OutKept e' r ∧ e'.OutAt r base start (b ++ byteBits x)) fun _ _ => False :=
  ends_writeBits h (byteBits x) (by simpa using hmax)

end Sys2Proof.Machine
end

