-- ==== Sys2Proof/Laws/Input.lean ====
section
/-! SUPPORT. The input stream (R122 to R125, R132) where no request fails: the bits still to come, and what each read
takes from them. -/

namespace Sys2Proof.Machine

/-- The bits IN still supplies: those in IN_BUF past the cursor, and those of the file's bytes that the limit allows. -/
structure Engine.InAt (e : Engine) (f : OpenFile) (b : Bits) : Prop where
  obliging : e.draws.obliging
  handle   : lookup e.storage.handles e.inp.h = some f
  valid    : e.inp.valid ≤ e.inp.buf.length
  cursor   : 8 * e.inp.byte + e.inp.bit ≤ 8 * e.inp.valid ∧ e.inp.bit < 8
  bits     : (bitsOf (e.inp.buf.take e.inp.valid)).drop (8 * e.inp.byte + e.inp.bit) ++
    bitsOf (e.storage.dataAt f e.inp.limit) = b

/-- What reading through IN leaves alone: all but IN, the position of its handle, and the request's number. -/
structure Engine.InKept (e e' : Engine) : Prop where
  statmem  : e'.statmem = e.statmem
  out      : e'.out = e.out
  huff     : e'.huff = e.huff
  crcReg   : e'.crcReg = e.crcReg
  work     : e'.work = e.work
  inH      : e'.inp.h = e.inp.h
  nows     : e'.draws.nows = e.draws.nows
  free     : e'.draws.free = e.draws.free
  obliging : e.draws.obliging → e'.draws.obliging
  fs       : e'.storage.fs = e.storage.fs
  temps    : e'.storage.temps = e.storage.temps
  nextId   : e'.storage.nextId = e.storage.nextId
  handles  : ∀ h, h ≠ e.inp.h → lookup e'.storage.handles h = lookup e.storage.handles h
  keys     : e'.storage.handles.map (·.1) = e.storage.handles.map (·.1)

theorem Engine.InKept.refl (e : Engine) : e.InKept e := by
  constructor <;> intros <;> first | rfl | assumption

theorem Engine.InKept.trans {e e' e'' : Engine} (h : e.InKept e') (h' : e'.InKept e'') : e.InKept e'' where
  statmem := h'.statmem.trans h.statmem
  out := h'.out.trans h.out
  huff := h'.huff.trans h.huff
  crcReg := h'.crcReg.trans h.crcReg
  work := h'.work.trans h.work
  inH := h'.inH.trans h.inH
  nows := h'.nows.trans h.nows
  free := h'.free.trans h.free
  obliging := fun ho => h'.obliging (h.obliging ho)
  fs := h'.fs.trans h.fs
  temps := h'.temps.trans h.temps
  nextId := h'.nextId.trans h.nextId
  handles := fun k hk => (h'.handles k (by rw [h.inH]; exact hk)).trans (h.handles k hk)
  keys := h'.keys.trans h.keys

theorem Engine.InKept.content {e e' : Engine} (h : e.InKept e') (r : FileRef) :
    e'.storage.content r = e.storage.content r := by
  cases r with
  | named p => simp only [Storage.content, h.fs]
  | temp n => simp only [Storage.content, h.temps]

theorem Storage.dataAt_of_content {st st' : Storage} (f : OpenFile) (n : Nat) (h : st'.content f.ref = st.content f.ref) :
    st'.dataAt f n = st.dataAt f n := by simp only [Storage.dataAt, h]

/-- in_init starts a stream of the file's bytes from the handle's position on, at most `limit` of them (R122). -/
theorem ends_inInit {e : Engine} {h : Handle} {f : OpenFile} (limit : Nat) (ho : e.draws.obliging)
    (hh : lookup e.storage.handles h = some f) (R : Stop → Engine → Prop) :
    Ends (inInit h limit) e
      (fun _ e' => e' = { e with inp := { e.inp with h := h, limit := limit, valid := 0, byte := 0, bit := 0, count := 0 } } ∧
        e'.InAt f (bitsOf (e.storage.dataAt f limit))) R :=
  ⟨rfl, ho, hh, Nat.zero_le _, ⟨Nat.le_refl _, Nat.succ_pos 7⟩, by simp⟩

/-- The bit under the cursor is the first still to come. -/
theorem InStream.bitHere_eq {i : InStream} (hv : i.valid ≤ i.buf.length) (hc : 8 * i.byte + i.bit < 8 * i.valid)
    (hb : i.bit < 8) :
    (bitsOf (i.buf.take i.valid)).drop (8 * i.byte + i.bit) =
      i.bitHere :: (bitsOf (i.buf.take i.valid)).drop (8 * i.byte + i.bit + 1) := by
  have hl : 8 * i.byte + i.bit < (bitsOf (i.buf.take i.valid)).length := by simp; omega
  rw [List.drop_eq_getElem_cons hl]
  congr 1
  have h1 : (bitsOf (i.buf.take i.valid))[8 * i.byte + i.bit]? = some i.bitHere := by
    rw [bitsOf_getElem?, show (8 * i.byte + i.bit) / 8 = i.byte by omega, show (8 * i.byte + i.bit) % 8 = i.bit by omega,
      List.getElem?_take_of_lt (by omega), List.getElem?_eq_getElem (show i.byte < i.buf.length by omega)]
    simp [InStream.bitHere, List.getD_eq_getElem?_getD, List.getElem?_eq_getElem (show i.byte < i.buf.length by omega)]
  rw [List.getElem?_eq_getElem hl] at h1
  injection h1

/-- The stream after a bit was taken (R124). -/
theorem Engine.InAt.advance {e : Engine} {f : OpenFile} {b : Bits} (h : e.InAt f b)
    (hc : 8 * e.inp.byte + e.inp.bit < 8 * e.inp.valid) :
    ∃ t, b = e.inp.bitHere :: t ∧ Engine.InAt { e with inp := e.inp.advance } f t := by
  have hb := h.cursor.2
  have hd := InStream.bitHere_eq h.valid hc hb
  refine ⟨(bitsOf (e.inp.buf.take e.inp.valid)).drop (8 * e.inp.byte + e.inp.bit + 1) ++
    bitsOf (e.storage.dataAt f e.inp.limit), ?_, ?_⟩
  · rw [← h.bits, hd]
    rfl
  · unfold InStream.advance
    by_cases h7 : e.inp.bit + 1 = 8
    · simp only [if_pos h7]
      refine ⟨h.obliging, h.handle, h.valid, ⟨?_, Nat.succ_pos 7⟩, ?_⟩
      · show 8 * (e.inp.byte + 1) + 0 ≤ 8 * e.inp.valid
        omega
      · show (bitsOf (e.inp.buf.take e.inp.valid)).drop (8 * (e.inp.byte + 1) + 0) ++ _ = _
        congr 2
        omega
    · simp only [if_neg h7]
      refine ⟨h.obliging, h.handle, h.valid, ⟨?_, ?_⟩, ?_⟩
      · show 8 * e.inp.byte + (e.inp.bit + 1) ≤ 8 * e.inp.valid
        omega
      · show e.inp.bit + 1 < 8
        omega
      · rfl

theorem InStream.advance_count (i : InStream) : i.advance.count = i.count + 1 := by unfold InStream.advance; split <;> rfl
theorem InStream.advance_h (i : InStream) : i.advance.h = i.h := by unfold InStream.advance; split <;> rfl

theorem ends_takeBit {e : Engine} {f : OpenFile} {b : Bits} (h : e.InAt f b)
    (hc : 8 * e.inp.byte + e.inp.bit < 8 * e.inp.valid) :
    Ends takeBit e
      (fun v e' => ∃ t, b = v :: t ∧ e.InKept e' ∧ e'.inp.count = e.inp.count + 1 ∧ e'.InAt f t)
      fun _ _ => False := by
  obtain ⟨t, hb, ht⟩ := h.advance hc
  simp only [takeBit, ends_bind, ends_look, ends_update, ends_pure]
  refine ⟨t, hb, ?_, InStream.advance_count _, ht⟩
  constructor <;> intros <;> first | rfl | assumption | exact InStream.advance_h _

/-- fill (R123): the next bytes, up to a buffer of them, and 0 where none is left. -/
theorem ends_fill {e : Engine} {f : OpenFile} {b : Bits} (h : e.InAt f b)
    (hc : e.inp.byte = e.inp.valid) :
    Ends fill e
      (fun k e' => ∃ f' : OpenFile, e.InKept e' ∧ e'.inp.count = e.inp.count ∧ e'.InAt f' b ∧ f'.ref = f.ref ∧
        f'.writable = f.writable ∧ e'.inp.byte = 0 ∧ e'.inp.bit = 0 ∧ e'.inp.valid = k ∧ (k = 0 → b = []))
      fun _ _ => False := by
  have hbit : e.inp.bit = 0 := by have := h.cursor; omega
  have hb : b = bitsOf (e.storage.dataAt f e.inp.limit) := by
    rw [← h.bits, List.drop_of_length_le, List.nil_append]
    simp only [bitsOf_length, List.length_take]
    omega
  simp only [fill, ends_bind, ends_look]
  by_cases hn : min Config.bufBytes e.inp.limit = 0
  · have hl : e.inp.limit = 0 := by have : Config.bufBytes = 16384 := rfl; omega
    simp only [refill, if_pos hn, ends_pure, ends_update, List.length_nil]
    have hbn : b = [] := by rw [hb, hl]; simp [Storage.dataAt]
    refine ⟨f, by constructor <;> intros <;> first | rfl | assumption, by trivial,
      ⟨h.obliging, h.handle, Nat.zero_le _, ⟨by simp, Nat.succ_pos 7⟩, ?_⟩, by trivial, by trivial, by trivial, by trivial,
      by trivial, fun _ => hbn⟩
    rw [hbn]
    simp [hl, Storage.dataAt]
  · simp only [refill, if_neg hn, ends_bind, ends_look, ends_sRead, ends_orRaise, ends_update, ends_pure, h.handle,
      h.obliging.fails, h.obliging.askedStorage]
    refine ⟨fun ha => absurd ha h.obliging.answered, fun _ => ⟨by simp, ?_⟩⟩
    intro g hg
    injection hg with hg
    subst hg
    refine ⟨by simp, fun _ => ⟨?_, by simp⟩⟩
    intro data hdata
    injection hdata with hdata
    subst hdata
    let d := e.storage.dataAt f (min Config.bufBytes e.inp.limit)
    have hd : d = ((e.storage.content f.ref).drop f.pos).take (min Config.bufBytes e.inp.limit) := rfl
    have hdl : d.length = min (min Config.bufBytes e.inp.limit) ((e.storage.content f.ref).length - f.pos) := by
      rw [hd, List.length_take, List.length_drop]
    refine ⟨{ f with pos := f.pos + d.length }, ?_, by trivial, ?_, by trivial, by trivial, by trivial, by trivial, by trivial, ?_⟩
    · constructor <;> intros <;> first | rfl | exact Draws.obliging.askedDraws ‹_› | skip
      · exact lookup_replaceAt_other _ _ ‹_›
      · exact replaceAt_keys _ _ _
    · refine ⟨h.obliging.askedDraws, ?_, ?_, ⟨by simp, Nat.succ_pos 7⟩, ?_⟩
      · exact lookup_replaceAt_self _ _ _ (by simp [h.handle])
      · show d.length ≤ (d ++ e.inp.buf.drop d.length).length
        simp
      · show (bitsOf ((d ++ e.inp.buf.drop d.length).take d.length)).drop (8 * 0 + 0) ++
          bitsOf (Storage.dataAt (e.storage.setPos e.inp.h f (f.pos + d.length)) { f with pos := f.pos + d.length }
            (if d.length < min Config.bufBytes e.inp.limit then 0 else e.inp.limit - d.length)) = b
        rw [List.take_left, Nat.mul_zero, List.drop_zero, ← bitsOf_append, hb]
        congr 1
        simp only [Storage.dataAt, Storage.content_setPos]
        split
        · rw [List.take_zero, List.append_nil, hd]
          rw [List.take_of_length_le (by rw [List.length_drop]; omega),
            List.take_of_length_le (by rw [List.length_drop]; omega)]
        · have : d.length = min Config.bufBytes e.inp.limit := by omega
          rw [this, hd, ← List.drop_drop]
          generalize (e.storage.content f.ref).drop f.pos = c
          have hs : e.inp.limit = min Config.bufBytes e.inp.limit + (e.inp.limit - min Config.bufBytes e.inp.limit) := by omega
          conv => rhs; rw [hs, List.take_add]
    · intro hk
      have hk' : d.length = 0 := hk
      rw [hb]
      have : (e.storage.content f.ref).length - f.pos = 0 := by omega
      have : (e.storage.content f.ref).drop f.pos = [] := List.drop_of_length_le (by omega)
      simp [Storage.dataAt, this]

/-- read_bit (R124, R132): the first bit still to come, or EXHAUSTED where none is. -/
theorem ends_readBit {e : Engine} {f : OpenFile} {b : Bits} (h : e.InAt f b) :
    Ends readBit e
      (fun v e' => ∃ f' : OpenFile, v = b.head? ∧ e.InKept e' ∧ e'.InAt f' b.tail ∧ f'.ref = f.ref ∧
        f'.writable = f.writable ∧ e'.inp.count = e.inp.count + BitVec.ofNat 64 (if b = [] then 0 else 1))
      fun _ _ => False := by
  simp only [readBit, ends_bind, ends_look]
  by_cases hc : e.inp.byte = e.inp.valid
  · simp only [hc, beq_self_eq_true, if_true, ends_bind]
    refine (ends_fill h hc).mono (fun k e1 hq => ?_) fun _ _ hf => hf
    obtain ⟨f1, hk1, hcnt, hin, hr, hw, hby, hbi, hval, hz⟩ := hq
    by_cases hk : k = 0
    · rw [if_pos hk, ends_pure]
      have hbn := hz hk
      refine ⟨f1, by rw [hbn]; rfl, hk1, by rw [hbn] at hin ⊢; exact hin, hr, hw, by rw [hcnt, if_pos hbn]; exact (BitVec.add_zero _).symm⟩
    · rw [if_neg hk]
      simp only [ends_bind, ends_pure]
      refine (ends_takeBit hin (by omega)).mono (fun v e2 hq => ?_) fun _ _ hf => hf
      obtain ⟨t, hb, hk2, hcnt2, hin2⟩ := hq
      exact ⟨f1, by rw [hb]; rfl, hk1.trans hk2, by rw [hb]; exact hin2, hr, hw, by rw [hcnt2, hcnt, hb]; rfl⟩
  · have hcf : (e.inp.byte == e.inp.valid) = false := by simpa using hc
    simp only [hcf, Bool.false_eq_true, if_false, ends_bind, ends_pure]
    have := h.cursor
    refine (ends_takeBit h (by omega)).mono (fun v e2 hq => ?_) fun _ _ hf => hf
    obtain ⟨t, hb, hk2, hcnt2, hin2⟩ := hq
    exact ⟨f, by rw [hb]; rfl, hk2, by rw [hb]; exact hin2, rfl, rfl, by rw [hcnt2, hb]; rfl⟩

/-- The value that bits read from number `i` on add to a byte. -/
theorem or_shift_testBit (v : Byte) (r : Bool) (i k : Nat) (hi : i < 8) (hk : k < 8)
    (hv : ∀ j, i ≤ j → v.getLsbD j = false) :
    (v ||| ((BitVec.ofBool r).setWidth 8 <<< i)).getLsbD k = if k = i then r else v.getLsbD k := by
  simp only [BitVec.getLsbD_or, BitVec.getLsbD_shiftLeft, hk, decide_true, Bool.true_and, BitVec.getLsbD_setWidth,
    BitVec.getLsbD_ofBool]
  by_cases h : k = i
  · subst h
    simp [hv k (Nat.le_refl _)]
  · by_cases hl : k < i
    · simp [h, hl]
    · have : ¬ (k - i = 0) := by omega
      simp [h, hl, this]

/-- The bits from number `i` on (R125). -/
theorem ends_readBits {n i : Nat} {v : Byte} {e : Engine} {f : OpenFile} {b : Bits} (hn : n + i = 8)
    (hv : ∀ j, i ≤ j → v.getLsbD j = false) (h : e.InAt f b) :
    Ends (readBits n i v) e
      (fun r e' => ∃ f' : OpenFile, e.InKept e' ∧ e'.InAt f' (b.drop n) ∧ f'.ref = f.ref ∧ f'.writable = f.writable ∧
        e'.inp.count = e.inp.count + BitVec.ofNat 64 (min n b.length) ∧
        (b.length < n → r = none) ∧
        (n ≤ b.length → ∃ x : Byte, r = some x ∧
          ∀ k, k < 8 → x.getLsbD k = if k < i then v.getLsbD k else (b[k - i]?).getD false))
      fun _ _ => False := by
  induction n generalizing i v e f b with
  | zero =>
    refine ⟨f, Engine.InKept.refl e, by simpa using h, rfl, rfl, by simp, by simp, fun _ => ⟨v, rfl, fun k hk => ?_⟩⟩
    rw [if_pos (by omega)]
  | succ n ih =>
    rw [readBits, ends_bind]
    refine (ends_readBit h).mono (fun r e1 hq => ?_) fun _ _ hf => hf
    obtain ⟨f1, hr, hk1, hin, hf1, hw1, hcnt⟩ := hq
    cases b with
    | nil =>
      subst hr
      simp only [List.head?_nil, ends_pure]
      exact ⟨f1, hk1, by simpa using hin, hf1, hw1, by simpa using hcnt, fun _ => by trivial, fun hl => absurd hl (by simp)⟩
    | cons x t =>
      subst hr
      simp only [List.head?_cons]
      have hv' : ∀ j, i + 1 ≤ j → (v ||| ((BitVec.ofBool x).setWidth 8 <<< i)).getLsbD j = false := by
        intro j hj
        by_cases hj8 : j < 8
        · rw [or_shift_testBit v x i j (by omega) hj8 hv, if_neg (by omega)]
          exact hv j (by omega)
        · exact BitVec.getLsbD_of_ge _ _ (by omega)
      refine (ih (by omega) hv' hin).mono (fun r e2 hq => ?_) fun _ _ hf => hf
      obtain ⟨f2, hk2, hin2, hf2, hw2, hcnt2, hnone, hsome⟩ := hq
      refine ⟨f2, hk1.trans hk2, by simpa using hin2, hf2.trans hf1, hw2.trans hw1, ?_, ?_, ?_⟩
      · rw [hcnt2, hcnt, BitVec.add_assoc, ← BitVec.ofNat_add]
        simp only [List.tail_cons, List.length_cons, reduceCtorEq, if_false]
        congr 2
        omega
      · intro hl
        exact hnone (by simpa using hl)
      · intro hl
        obtain ⟨y, hy, hbits⟩ := hsome (by simpa using hl)
        refine ⟨y, hy, fun k hk => ?_⟩
        rw [hbits k hk]
        by_cases hki : k < i
        · rw [if_pos (by omega), if_pos hki, or_shift_testBit v x i k (by omega) hk hv, if_neg (by omega)]
        · by_cases hke : k = i
          · rw [if_pos (by omega), if_neg hki, or_shift_testBit v x i k (by omega) hk hv, if_pos hke, hke]
            simp
          · rw [if_neg (by omega), if_neg hki]
            rw [show k - i = (k - (i + 1)) + 1 by omega]
            rfl

/-- read_byte (R125, R132): the byte the next eight bits make, or EXHAUSTED where fewer are left. -/
theorem ends_readByte {e : Engine} {f : OpenFile} {b : Bits} (h : e.InAt f b) :
    Ends readByte e
      (fun r e' => ∃ f' : OpenFile, e.InKept e' ∧ e'.InAt f' (b.drop 8) ∧ f'.ref = f.ref ∧ f'.writable = f.writable ∧
        e'.inp.count = e.inp.count + BitVec.ofNat 64 (min 8 b.length) ∧
        r = if b.length < 8 then none else some (BitVec.ofNat 8 (bitsValue (b.take 8))))
      fun _ _ => False := by
  refine (ends_readBits (n := 8) (i := 0) (v := 0) rfl (by simp) h).mono (fun r e' hq => ?_) fun _ _ hf => hf
  obtain ⟨f', hk, hin, hf, hw, hcnt, hnone, hsome⟩ := hq
  refine ⟨f', hk, hin, hf, hw, hcnt, ?_⟩
  by_cases hl : b.length < 8
  · rw [if_pos hl, hnone hl]
  · rw [if_neg hl]
    obtain ⟨x, hx, hbits⟩ := hsome (by omega)
    rw [hx]
    congr 1
    apply BitVec.eq_of_getLsbD_eq
    intro k hk
    rw [hbits k hk, if_neg (by omega), BitVec.getLsbD_ofNat, testBit_bitsValue, Nat.sub_zero,
      List.getElem?_take_of_lt hk]
    simp [hk]

/-- read_byte on a stream of whole bytes: its first byte. -/
theorem ends_readByte_bytes {e : Engine} {f : OpenFile} {bs : Bytes} (h : e.InAt f (bitsOf bs)) :
    Ends readByte e
      (fun r e' => ∃ f' : OpenFile, e.InKept e' ∧ e'.InAt f' (bitsOf bs.tail) ∧ f'.ref = f.ref ∧ f'.writable = f.writable ∧
        r = bs.head?)
      fun _ _ => False := by
  refine (ends_readByte h).mono (fun r e' hq => ?_) fun _ _ hf => hf
  obtain ⟨f', hk, hin, hf, hw, -, hr⟩ := hq
  cases bs with
  | nil => exact ⟨f', hk, by simpa using hin, hf, hw, by simpa using hr⟩
  | cons x xs =>
    rw [bitsOf_cons, List.drop_append, List.drop_of_length_le (by simp)] at hin
    refine ⟨f', hk, by simpa using hin, hf, hw, ?_⟩
    rw [hr, if_neg (by rw [bitsOf_length, List.length_cons]; omega), bitsOf_cons, List.take_append, List.take_of_length_le (by simp)]
    simp [bitsValue_byteBits]

/-- `n` bytes of a stream of whole bytes, or EXHAUSTED where fewer are left. -/
theorem ends_readBytes {n : Nat} {e : Engine} {f : OpenFile} {bs : Bytes} (h : e.InAt f (bitsOf bs)) :
    Ends (readBytes n) e
      (fun r e' => ∃ f' : OpenFile, e.InKept e' ∧ f'.ref = f.ref ∧ f'.writable = f.writable ∧ e'.InAt f' (bitsOf (bs.drop n)) ∧
        r = if bs.length < n then none else some (bs.take n))
      fun _ _ => False := by
  induction n generalizing e f bs with
  | zero => exact ⟨f, Engine.InKept.refl e, rfl, rfl, by simpa using h, by simp⟩
  | succ n ih =>
    rw [readBytes, ends_bind]
    refine (ends_readByte_bytes h).mono (fun r e1 hq => ?_) fun _ _ hf => hf
    obtain ⟨f1, hk1, hin, hf1, hw1, hr⟩ := hq
    subst hr
    cases bs with
    | nil =>
      simp only [List.head?_nil, ends_pure]
      exact ⟨f1, hk1, hf1, hw1, by simpa using hin, by simp⟩
    | cons x xs =>
      simp only [List.head?_cons, ends_bind]
      refine (ih hin).mono (fun r e2 hq => ?_) fun _ _ hf => hf
      obtain ⟨f2, hk2, hf2, hw2, hin2, hr⟩ := hq
      by_cases hl : xs.length < n
      · have hr' : r = none := by simpa [hl] using hr
        subst hr'
        exact ⟨f2, hk1.trans hk2, hf2.trans hf1, hw2.trans hw1, by simpa using hin2, by simp [hl]⟩
      · have hr' : r = some (xs.take n) := by simpa [hl] using hr
        subst hr'
        exact ⟨f2, hk1.trans hk2, hf2.trans hf1, hw2.trans hw1, by simpa using hin2, by simp [hl]⟩

end Sys2Proof.Machine
end

