-- ==== Sys2Proof/Laws/Crc.lean ====
section
/-! SUPPORT. The CRC-32 (R140 to R148): a byte step is eight invertible linear rounds, and `crc_stream` computes the CRC-32
of the bytes from the position to the end of the file. -/

namespace Sys2Proof.Machine

/-- Eight rounds of the table construction. -/
def crcRounds (c : Word) : Word := crcRound (crcRound (crcRound (crcRound (crcRound (crcRound (crcRound (crcRound c)))))))

theorem crcRound_xor (a b : Word) : crcRound (a ^^^ b) = crcRound a ^^^ crcRound b := by
  unfold crcRound
  rw [BitVec.getLsbD_xor, BitVec.ushiftRight_xor_distrib]
  cases a.getLsbD 0 <;> cases b.getLsbD 0 <;> simp only [Bool.xor_false, Bool.xor_true, Bool.not_false, Bool.not_true,
    Bool.false_eq_true, if_true, if_false]
  · ac_rfl
  · ac_rfl
  · rw [show a >>> 1 ^^^ Config.crcPoly ^^^ (b >>> 1 ^^^ Config.crcPoly) =
      a >>> 1 ^^^ b >>> 1 ^^^ (Config.crcPoly ^^^ Config.crcPoly) by ac_rfl, BitVec.xor_self, BitVec.xor_zero]

theorem crcRounds_xor (a b : Word) : crcRounds (a ^^^ b) = crcRounds a ^^^ crcRounds b := by
  simp only [crcRounds, crcRound_xor]

/-- The polynomial's top bit shows the bit shifted out, so a round loses nothing. -/
theorem crcRound_inj {a b : Word} (h : crcRound a = crcRound b) : a = b := by
  have h0 : crcRound (a ^^^ b) = 0 := by rw [crcRound_xor, h, BitVec.xor_self]; rfl
  have hz : a ^^^ b = 0 := by
    generalize a ^^^ b = x at h0
    unfold crcRound at h0
    cases hx : x.getLsbD 0 with
    | true =>
      rw [hx] at h0
      have := congrArg (·.getLsbD 31) h0
      simp [Config.crcPoly] at this
    | false =>
      rw [hx] at h0
      apply BitVec.eq_of_getLsbD_eq
      intro i hi
      cases i with
      | zero => simpa using hx
      | succ i =>
        have := congrArg (·.getLsbD i) h0
        simp only [Bool.false_eq_true, if_false, BitVec.getLsbD_ushiftRight] at this
        rw [Nat.add_comm 1 i] at this
        simpa using this
  have := congrArg (· ^^^ b) hz
  simpa [BitVec.xor_assoc] using this

theorem crcRounds_inj {a b : Word} (h : crcRounds a = crcRounds b) : a = b := by
  unfold crcRounds at h
  exact crcRound_inj (crcRound_inj (crcRound_inj (crcRound_inj (crcRound_inj (crcRound_inj (crcRound_inj (crcRound_inj h)))))))

/-- Eight rounds shift out eight zeros. -/
theorem crcRounds_shift (c : Word) (h : ∀ i, i < 8 → c.getLsbD i = false) : crcRounds c = c >>> 8 := by
  have one : ∀ (d : Word), d.getLsbD 0 = false → crcRound d = d >>> 1 := by
    intro d hd
    unfold crcRound
    rw [hd]
    rfl
  have hs : ∀ k, k < 8 → (c >>> k).getLsbD 0 = false := by
    intro k hk
    rw [BitVec.getLsbD_ushiftRight]
    exact h _ (by omega)
  have step : ∀ k, k < 8 → crcRound (c >>> k) = c >>> (k + 1) := by
    intro k hk
    rw [one _ (hs k hk), ← BitVec.shiftRight_add]
  unfold crcRounds
  rw [one c (h 0 (by omega)), step 1 (by omega), step 2 (by omega), step 3 (by omega), step 4 (by omega), step 5 (by omega),
    step 6 (by omega), step 7 (by omega)]

/-- A byte step is eight rounds of the register with the byte mixed in (R140, R142). -/
theorem crcNext_eq (c : Word) (b : Byte) : crcNext c b = crcRounds (c ^^^ b.setWidth 32) := by
  have hsplit : c ^^^ b.setWidth 32 =
      ((c ^^^ b.setWidth 32).extractLsb' 0 8).setWidth 32 ^^^ ((c >>> 8) <<< 8) := by
    apply BitVec.eq_of_getLsbD_eq
    intro i hi
    by_cases h8 : i < 8
    · simp [h8, hi]
    · have h1 : 8 + (i - 8) = i := by omega
      have h2 : b.getLsbD i = false := BitVec.getLsbD_of_ge _ _ (by omega)
      simp [h8, hi, h1, h2]
  have hhigh : crcRounds ((c >>> 8) <<< 8) = c >>> 8 := by
    rw [crcRounds_shift]
    · apply BitVec.eq_of_getLsbD_eq
      intro i hi
      by_cases h24 : i + 8 < 32
      · have h1 : 8 + i < 32 := by omega
        simp [h1]
      · have h1 : ¬ 8 + i < 32 := by omega
        have h2 : c.getLsbD (8 + i) = false := BitVec.getLsbD_of_ge _ _ (by omega)
        simp [h1, h2]
    · intro i hi
      simp [hi]
  conv => rhs; rw [hsplit, crcRounds_xor, hhigh]
  rfl

/-- Different registers stay different. -/
theorem crcNext_inj_left {c d : Word} {b : Byte} (h : crcNext c b = crcNext d b) : c = d := by
  rw [crcNext_eq, crcNext_eq] at h
  have := congrArg (· ^^^ b.setWidth 32) (crcRounds_inj h)
  simpa [BitVec.xor_assoc] using this

/-- Different bytes make different registers. -/
theorem crcNext_inj_right {c : Word} {a b : Byte} (h : crcNext c a = crcNext c b) : a = b := by
  rw [crcNext_eq, crcNext_eq] at h
  have h1 := congrArg (c ^^^ ·) (crcRounds_inj h)
  have h2 : a.setWidth 32 = b.setWidth 32 := by simpa [← BitVec.xor_assoc] using h1
  have h3 := congrArg (fun w : Word => w.setWidth 8) h2
  simpa using h3

theorem foldl_crcNext_inj {c d : Word} (bs : Bytes) (h : bs.foldl crcNext c = bs.foldl crcNext d) : c = d := by
  induction bs generalizing c d with
  | nil => exact h
  | cons b bs ih => exact crcNext_inj_left (ih h)

/-! ## The stream -/

/-- `crc_byte` over a stream of whole bytes, to its end. -/
theorem ends_crcLoop {fuel n : Nat} {e : Engine} {f : OpenFile} {bs : Bytes} (h : e.InAt f (bitsOf bs))
    (hf : bs.length < fuel) :
    Ends (crcLoop fuel n) e
      (fun r e' => ∃ f' : OpenFile, Engine.InKept { e with crcReg := e'.crcReg } e' ∧ f'.ref = f.ref ∧
        f'.writable = f.writable ∧ e'.InAt f' [] ∧ e'.crcReg = bs.foldl crcNext e.crcReg ∧ r = n + bs.length)
      fun _ _ => False := by
  induction fuel generalizing n e f bs with
  | zero => omega
  | succ fuel ih =>
    rw [crcLoop, ends_bind]
    refine (ends_readByte_bytes h).mono (fun r e1 hq => ?_) fun _ _ hf => hf
    obtain ⟨f1, hk1, hin, hf1, hw1, hr⟩ := hq
    subst hr
    cases bs with
    | nil =>
      have hc : e1.crcReg = e.crcReg := hk1.crcReg
      refine ⟨f1, ?_, hf1, hw1, hin, by simpa using hc, by simp⟩
      have : ({ e with crcReg := e1.crcReg } : Engine) = e := by rw [hc]
      rw [this]
      exact hk1
    | cons x xs =>
      simp only [List.head?_cons, ends_bind, crcByte, ends_update]
      have hin' : Engine.InAt { e1 with crcReg := crcNext e1.crcReg x } f1 (bitsOf xs) :=
        ⟨hin.obliging, hin.handle, hin.valid, hin.cursor, hin.bits⟩
      refine (ih hin' (by simpa using hf)).mono (fun r e2 hq => ?_) fun _ _ hf => hf
      obtain ⟨f2, hk2, hf2, hw2, hin2, hc2, hr2⟩ := hq
      refine ⟨f2, ?_, hf2.trans hf1, hw2.trans hw1, hin2, ?_, ?_⟩
      · exact
          { statmem := hk2.statmem.trans hk1.statmem, out := hk2.out.trans hk1.out, huff := hk2.huff.trans hk1.huff
            crcReg := rfl, work := hk2.work.trans hk1.work, inH := hk2.inH.trans hk1.inH
            nows := hk2.nows.trans hk1.nows, free := hk2.free.trans hk1.free
            obliging := fun ho => hk2.obliging (hk1.obliging ho), fs := hk2.fs.trans hk1.fs
            temps := hk2.temps.trans hk1.temps, nextId := hk2.nextId.trans hk1.nextId
            handles := fun k hk => (hk2.handles k (by show k ≠ e1.inp.h; rw [hk1.inH]; exact hk)).trans (hk1.handles k hk)
            keys := hk2.keys.trans hk1.keys }
      · rw [hc2, List.foldl_cons, hk1.crcReg]
      · rw [hr2, List.length_cons]
        omega

/-- `crc_stream(h)` (R145): the CRC-32 of the bytes from the position to the end, and their number. -/
theorem ends_crcStream {e : Engine} {h : Handle} {f : OpenFile} (ho : e.draws.obliging)
    (hh : lookup e.storage.handles h = some f) (hl : (e.storage.content f.ref).length ≤ Config.fileMax) :
    Ends (crcStream h) e
      (fun r e' => r = (crc32Of ((e.storage.content f.ref).drop f.pos), (e.storage.content f.ref).length - f.pos) ∧
        e'.statmem = e.statmem ∧ e'.out = e.out ∧ e'.huff = e.huff ∧ e'.work = e.work ∧ e'.draws.nows = e.draws.nows ∧
        e'.draws.free = e.draws.free ∧ e'.draws.obliging ∧ e'.storage.fs = e.storage.fs ∧
        e'.storage.temps = e.storage.temps ∧ e'.storage.nextId = e.storage.nextId ∧
        (∀ k, k ≠ h → lookup e'.storage.handles k = lookup e.storage.handles k) ∧
        e'.storage.handles.map (·.1) = e.storage.handles.map (·.1) ∧
        ∃ p, lookup e'.storage.handles h = some { f with pos := p })
      fun _ _ => False := by
  have hdata : e.storage.dataAt f (2 ^ 64 - 1) = (e.storage.content f.ref).drop f.pos := by
    unfold Storage.dataAt
    exact List.take_of_length_le (by rw [List.length_drop]; exact Nat.le_trans (Nat.sub_le _ _) hl)
  simp only [crcStream, ends_bind]
  refine (ends_inInit (2 ^ 64 - 1) ho hh _).mono (fun _ e1 hq => ?_) fun _ _ hf => hf
  obtain ⟨rfl, hin⟩ := hq
  rw [hdata] at hin
  simp only [crcInit, ends_update, bytesLeft, ends_look, hh]
  have hin' := (⟨hin.obliging, hin.handle, hin.valid, hin.cursor, hin.bits⟩ :
    Engine.InAt { e with
      inp := { e.inp with h := h, limit := 2 ^ 64 - 1, valid := 0, byte := 0, bit := 0, count := 0 }
      crcReg := Config.crcInit } f (bitsOf ((e.storage.content f.ref).drop f.pos)))
  refine (ends_crcLoop hin' (by rw [List.length_drop]; omega)).mono (fun n e2 hq => ?_) fun _ _ hf => hf
  obtain ⟨f2, hk, hf2, hw2, hin2, hc, hn⟩ := hq
  simp only [crcFinal, ends_look, ends_pure]
  have hinh2 : e2.inp.h = h := hk.inH
  refine ⟨?_, hk.statmem, hk.out, hk.huff, hk.work, hk.nows, hk.free, hin2.obliging, hk.fs, hk.temps, hk.nextId, hk.handles,
    hk.keys, f2.pos, ?_⟩
  · rw [hc, hn, List.length_drop, Nat.zero_add]
    rfl
  · rw [← hinh2, hin2.handle]
    cases f2
    cases f
    simp_all

end Sys2Proof.Machine
end

