-- ==== Sys2Proof/Laws/Memory.lean ====
section
/-! SUPPORT. Byte memories in canonical form: reads after writes, and that every operation keeps the form. -/

namespace Sys2Proof.Machine

variable {dflt : Nat → Byte} {size lo : Nat} {m : Memory}

theorem Memory.wfFrom_cons {a : Nat} {v : Byte} {rest : Memory} :
    Memory.wfFrom dflt size lo ((a, v) :: rest) = true ↔
      lo ≤ a ∧ a < size ∧ v ≠ dflt a ∧ Memory.wfFrom dflt size (a + 1) rest = true := by
  simp [Memory.wfFrom, and_assoc]

theorem Memory.wfFrom_mono {lo' : Nat} (h : Memory.wfFrom dflt size lo m = true) (hl : lo' ≤ lo) :
    Memory.wfFrom dflt size lo' m = true := by
  cases m with
  | nil => rfl
  | cons x rest =>
    obtain ⟨a, v⟩ := x
    rw [Memory.wfFrom_cons] at h ⊢
    exact ⟨by omega, h.2⟩

theorem Memory.read_below (h : Memory.wfFrom dflt size lo m = true) {a : Nat} (ha : a < lo) :
    Memory.read dflt m a = dflt a := by
  induction m generalizing lo with
  | nil => rfl
  | cons x rest ih =>
    obtain ⟨b, v⟩ := x
    rw [Memory.wfFrom_cons] at h
    rw [Memory.read, if_neg (by omega), ih h.2.2.2 (by omega)]

theorem Memory.read_beyond (h : Memory.wfFrom dflt size lo m = true) {a : Nat} (ha : size ≤ a) :
    Memory.read dflt m a = dflt a := by
  induction m generalizing lo with
  | nil => rfl
  | cons x rest ih =>
    obtain ⟨b, v⟩ := x
    rw [Memory.wfFrom_cons] at h
    rw [Memory.read, if_neg (by omega), ih h.2.2.2]

/-- A read after a write: the value written at its address, what was there before elsewhere. -/
theorem Memory.read_write (h : Memory.wfFrom dflt size lo m = true) (a b : Nat) (v : Byte) :
    Memory.read dflt (Memory.write dflt m a v) b = if b = a then v else Memory.read dflt m b := by
  induction m generalizing lo with
  | nil =>
    unfold Memory.write
    by_cases hv : v = dflt a
    · rw [if_pos hv]
      by_cases hb : b = a
      · simp [Memory.read, hb, hv]
      · simp [Memory.read, hb]
    · rw [if_neg hv]; simp [Memory.read]
  | cons x rest ih =>
    obtain ⟨c, u⟩ := x
    have h' := h
    rw [Memory.wfFrom_cons] at h'
    unfold Memory.write
    by_cases hac : a < c
    · rw [if_pos hac]
      by_cases hv : v = dflt a
      · rw [if_pos hv]
        by_cases hb : b = a
        · rw [if_pos hb, hb, Memory.read, if_neg (by omega), Memory.read_below h'.2.2.2 (by omega), hv]
        · rw [if_neg hb]
      · rw [if_neg hv]
        by_cases hb : b = a <;> simp [Memory.read, hb]
    · rw [if_neg hac]
      by_cases hac' : a = c
      · rw [if_pos hac']
        by_cases hv : v = dflt a
        · rw [if_pos hv]
          by_cases hb : b = a
          · rw [if_pos hb, hb, Memory.read_below h'.2.2.2 (by omega), hv]
          · rw [if_neg hb, Memory.read, if_neg (by omega)]
        · rw [if_neg hv]
          subst hac'
          by_cases hb : b = a <;> simp [Memory.read, hb]
      · rw [if_neg hac', Memory.read, Memory.read, ih h'.2.2.2]
        by_cases hbc : b = c
        · rw [if_pos hbc, if_pos hbc, if_neg (by omega)]
        · rw [if_neg hbc, if_neg hbc]

/-- A write keeps the canonical form. -/
theorem Memory.wfFrom_write (h : Memory.wfFrom dflt size lo m = true) {a : Nat} (v : Byte) (hl : lo ≤ a) (ha : a < size) :
    Memory.wfFrom dflt size lo (Memory.write dflt m a v) = true := by
  induction m generalizing lo with
  | nil =>
    unfold Memory.write
    by_cases hv : v = dflt a
    · rw [if_pos hv]; rfl
    · rw [if_neg hv, Memory.wfFrom_cons]; exact ⟨hl, ha, hv, rfl⟩
  | cons x rest ih =>
    obtain ⟨c, u⟩ := x
    have h' := h
    rw [Memory.wfFrom_cons] at h'
    unfold Memory.write
    by_cases hac : a < c
    · rw [if_pos hac]
      by_cases hv : v = dflt a
      · rw [if_pos hv]; exact h
      · rw [if_neg hv, Memory.wfFrom_cons, Memory.wfFrom_cons]
        exact ⟨hl, ha, hv, by omega, h'.2⟩
    · rw [if_neg hac]
      by_cases hac' : a = c
      · rw [if_pos hac']
        by_cases hv : v = dflt a
        · rw [if_pos hv]; exact Memory.wfFrom_mono h'.2.2.2 (by omega)
        · rw [if_neg hv, Memory.wfFrom_cons]
          exact ⟨hl, ha, hv, by rw [hac']; exact h'.2.2.2⟩
      · rw [if_neg hac', Memory.wfFrom_cons]
        exact ⟨h'.1, h'.2.1, h'.2.2.1, ih h'.2.2.2 (by omega)⟩

/-- A write of one byte keeps the canonical form of the whole memory. -/
theorem Memory.wf_write (h : Memory.wf dflt size m = true) {a : Nat} (v : Byte) (ha : a < size) :
    Memory.wf dflt size (Memory.write dflt m a v) = true := Memory.wfFrom_write h v (Nat.zero_le a) ha

/-- A write of consecutive bytes keeps the canonical form. -/
theorem Memory.wf_writeBytes (vs : Bytes) {a : Nat} (h : Memory.wf dflt size m = true) (ha : a + vs.length ≤ size) :
    Memory.wf dflt size (Memory.writeBytes dflt m a vs) = true := by
  induction vs generalizing m a with
  | nil => exact h
  | cons v vs ih =>
    simp only [List.length_cons] at ha
    exact ih (Memory.wf_write h v (by omega)) (by omega)

/-- A read after a write of consecutive bytes. -/
theorem Memory.read_writeBytes (vs : Bytes) {a : Nat} (h : Memory.wf dflt size m = true) (ha : a + vs.length ≤ size)
    (b : Nat) :
    Memory.read dflt (Memory.writeBytes dflt m a vs) b =
      if a ≤ b ∧ b < a + vs.length then vs.getD (b - a) 0 else Memory.read dflt m b := by
  induction vs generalizing m a with
  | nil => rw [if_neg (by simp)]; rfl
  | cons v vs ih =>
    simp only [List.length_cons] at ha ⊢
    rw [Memory.writeBytes, ih (Memory.wf_write h v (by omega)) (by omega), Memory.read_write h]
    by_cases hb : b = a
    · subst hb
      rw [if_neg (by omega), if_pos rfl, if_pos (by omega)]; simp
    · rw [if_neg hb]
      by_cases hr : a + 1 ≤ b ∧ b < a + 1 + vs.length
      · rw [if_pos hr, if_pos (by omega)]
        obtain ⟨k, hk⟩ : ∃ k, b - a = k + 1 := ⟨b - a - 1, by omega⟩
        rw [hk, show b - (a + 1) = k by omega]; simp
      · rw [if_neg hr, if_neg (by omega)]

/-- Equal memories are equal data: two memories in canonical form that read alike are the same list. -/
theorem Memory.ext_of_read {m' : Memory} (h : Memory.wfFrom dflt size lo m = true)
    (h' : Memory.wfFrom dflt size lo m' = true) (hr : ∀ a, Memory.read dflt m a = Memory.read dflt m' a) : m = m' := by
  induction m generalizing lo m' with
  | nil =>
    cases m' with
    | nil => rfl
    | cons y r' =>
      obtain ⟨b, w⟩ := y
      rw [Memory.wfFrom_cons] at h'
      have := hr b
      rw [Memory.read, Memory.read, if_pos rfl] at this
      exact absurd this.symm h'.2.2.1
  | cons x r ih =>
    obtain ⟨a, v⟩ := x
    rw [Memory.wfFrom_cons] at h
    cases m' with
    | nil =>
      have := hr a
      rw [Memory.read, Memory.read, if_pos rfl] at this
      exact absurd this h.2.2.1
    | cons y r' =>
      obtain ⟨b, w⟩ := y
      rw [Memory.wfFrom_cons] at h'
      have hab : a = b := by
        rcases Nat.lt_trichotomy a b with hl | he | hl
        · have := hr a
          rw [Memory.read, if_pos rfl, Memory.read, if_neg (by omega), Memory.read_below h'.2.2.2 (by omega)] at this
          exact absurd this h.2.2.1
        · exact he
        · have := hr b
          rw [Memory.read, if_neg (by omega), Memory.read_below h.2.2.2 (by omega), Memory.read, if_pos rfl] at this
          exact absurd this.symm h'.2.2.1
      subst hab
      have hv : v = w := by
        have := hr a
        rwa [Memory.read, if_pos rfl, Memory.read, if_pos rfl] at this
      subst hv
      congr 1
      refine ih h.2.2.2 h'.2.2.2 fun c => ?_
      have := hr c
      rw [Memory.read, Memory.read] at this
      by_cases hc : c = a
      · subst hc
        rw [Memory.read_below h.2.2.2 (by omega), Memory.read_below h'.2.2.2 (by omega)]
      · rwa [if_neg hc, if_neg hc] at this

/-- The memories of the state after reset are in canonical form. -/
theorem reset_argmem_wf : Memory.wf (argDefault State.reset.argEpoch) Config.argmemBytes State.reset.argmem = true := rfl
theorem reset_statmem_wf : Memory.wf statDefault Config.statmemBytes State.reset.eng.statmem = true := rfl

end Sys2Proof.Machine
end

