-- ==== Sys2Proof/Laws/Operands.lean ====
section
/-! SUPPORT. What the operand readers of R106 and R107 answer. -/

namespace Sys2Proof.Machine

variable {mem : Nat → Byte} {n q : Nat} {p : Bytes}

/-- A string is the bytes before the first 0x00, which lies among the `n` bytes looked at. -/
theorem takeString_eq_some :
    takeString mem n q = some p ↔
      p.length < n ∧ (∀ k, k < p.length → p[k]? = some (mem (q + k)) ∧ mem (q + k) ≠ 0) ∧ mem (q + p.length) = 0 := by
  induction n generalizing q p with
  | zero => simp [takeString]
  | succ n ih =>
    simp only [takeString]
    by_cases h0 : mem q = 0
    · rw [if_pos h0]
      constructor
      · intro h
        injection h with h
        subst h
        exact ⟨Nat.succ_pos n, fun k hk => absurd hk (Nat.not_lt_zero k), h0⟩
      · rintro ⟨-, hk, -⟩
        cases p with
        | nil => rfl
        | cons b bs => exact absurd h0 (hk 0 (Nat.succ_pos _)).2
    · rw [if_neg h0, Option.map_eq_some_iff]
      constructor
      · rintro ⟨bs, hbs, rfl⟩
        obtain ⟨hl, hk, hz⟩ := ih.1 hbs
        refine ⟨Nat.succ_lt_succ hl, fun k hkl => ?_, ?_⟩
        · cases k with
          | zero => exact ⟨rfl, h0⟩
          | succ k =>
            have := hk k (Nat.lt_of_succ_lt_succ hkl)
            rw [Nat.add_right_comm] at this
            exact this
        · rw [Nat.add_right_comm] at hz
          exact hz
      · rintro ⟨hl, hk, hz⟩
        cases p with
        | nil => exact absurd hz h0
        | cons b bs =>
          have hb := (hk 0 (Nat.succ_pos _)).1
          injection hb with hb
          refine ⟨bs, ih.2 ⟨Nat.lt_of_succ_lt_succ hl, fun k hkl => ?_, ?_⟩, by rw [hb]; rfl⟩
          · have := hk (k + 1) (Nat.succ_lt_succ hkl)
            rw [← Nat.add_assoc, Nat.add_right_comm] at this
            exact this
          · have : q + (b :: bs).length = q + 1 + bs.length := by simp only [List.length_cons]; omega
            rw [← this]
            exact hz

/-- A string read from ARGMEM holds no 0x00. -/
theorem takeString_no_zero (h : takeString mem n q = some p) : 0 ∉ p := by
  intro hb
  obtain ⟨k, hk, hz⟩ := List.mem_iff_getElem.1 hb
  obtain ⟨-, h2, -⟩ := takeString_eq_some.1 h
  have := h2 k hk
  rw [List.getElem?_eq_getElem hk, hz] at this
  injection this.1 with he
  exact this.2 he.symm

/-- A list of `k` names is read as `k` names, none with a 0x00. -/
theorem readNames_spec {k : Nat} {ns : List Path} (h : readNames mem k q = some ns) :
    ns.length = k ∧ ∀ m ∈ ns, 0 ∉ m := by
  induction k generalizing q ns with
  | zero =>
    injection h with h
    subst h
    exact ⟨rfl, fun _ hm => absurd hm List.not_mem_nil⟩
  | succ k ih =>
    simp only [readNames] at h
    split at h
    · exact absurd h (by simp)
    · rename_i m hm
      rw [Option.map_eq_some_iff] at h
      obtain ⟨ms, hms, rfl⟩ := h
      obtain ⟨hl, hz⟩ := ih hms
      exact ⟨by simp [hl], fun x hx => by
        rcases List.mem_cons.1 hx with rfl | hx
        · exact takeString_no_zero hm
        · exact hz x hx⟩

/-- A valid operand string is a path of the namespace. -/
theorem path_wf_of_valid (hz : 0 ∉ p) (hv : lengthValid p = true) : Path.wf p = true := by
  simp only [lengthValid, Bool.and_eq_true, decide_eq_true_eq] at hv
  simp only [Path.wf, Bool.and_eq_true, decide_eq_true_eq, Bool.not_eq_true', List.contains_eq_mem, decide_eq_false_iff_not]
  exact ⟨⟨hv.1, hv.2⟩, hz⟩

theorem archPath_wf {s : State} (h : archPath s = some p) : Path.wf p = true := by
  simp only [archPath, Option.filter_eq_some_iff] at h
  exact path_wf_of_valid (takeString_no_zero h.1) h.2

theorem names_spec {s : State} {ns : List Path} (h : names s = some ns) :
    ns.length = s.argc.toNat ∧ ∀ m ∈ ns, lengthValid m = true → Path.wf m = true :=
  ⟨(readNames_spec h).1, fun m hm hv => path_wf_of_valid ((readNames_spec h).2 m hm) hv⟩

/-- The operands of a named batch (R105): the two strings, ARGC at most 4096. -/
theorem batchOperands_eq_some {s : State} {ns : List Path} :
    batchOperands s = some (p, ns) ↔ archPath s = some p ∧ names s = some ns ∧ s.argc.toNat ≤ Config.maxArgs := by
  simp only [batchOperands]
  cases ha : archPath s with
  | none => simp
  | some p' =>
    by_cases hc : s.argc.toNat ≤ Config.maxArgs
    · cases hn : names s <;> simp [hc]
    · simp [hc]

theorem twoFiles_eq_some {s : State} {p0 p1 : Path} :
    twoFiles s = some (p0, p1) ↔
      s.argc = 2 ∧ names s = some [p0, p1] ∧ lengthValid p0 = true ∧ lengthValid p1 = true := by
  simp only [twoFiles]
  by_cases hc : s.argc = 2
  · rw [if_pos hc]
    split
    · rename_i n0 n1 hn
      rw [hn]
      by_cases hv : (lengthValid n0 && lengthValid n1) = true
      · rw [if_pos hv]
        simp only [Bool.and_eq_true] at hv
        constructor
        · intro h
          injection h with h
          injection h with h0 h1
          subst h0 h1
          exact ⟨hc, rfl, hv.1, hv.2⟩
        · rintro ⟨-, h, -, -⟩
          simp_all
      · rw [if_neg hv]
        simp only [Bool.and_eq_true] at hv
        constructor
        · intro h; simp at h
        · rintro ⟨-, h, h0, h1⟩
          injection h with h
          injection h with ha hb
          injection hb with hb
          subst ha hb
          exact absurd ⟨h0, h1⟩ hv
    · rename_i hn
      constructor
      · intro h; simp at h
      · rintro ⟨-, h, -, -⟩
        exact absurd h (hn p0 p1)
  · rw [if_neg hc]
    constructor
    · intro h; simp at h
    · rintro ⟨h, -⟩
      exact absurd h hc

theorem oneFile_eq_some {s : State} :
    oneFile s = some p ↔ s.argc = 1 ∧ names s = some [p] ∧ lengthValid p = true := by
  simp only [oneFile]
  by_cases hc : s.argc = 1
  · rw [if_pos hc]
    split
    · rename_i n0 hn
      rw [hn]
      by_cases hv : lengthValid n0 = true
      · rw [if_pos hv]
        constructor
        · intro h
          injection h with h
          subst h
          exact ⟨hc, rfl, hv⟩
        · rintro ⟨-, h, -⟩
          injection h with h
          injection h with h
          rw [h]
      · rw [if_neg hv]
        constructor
        · intro h; simp at h
        · rintro ⟨-, h, h0⟩
          injection h with h
          injection h with h
          subst h
          exact absurd h0 hv
    · rename_i hn
      constructor
      · intro h; simp at h
      · rintro ⟨-, h, -⟩
        exact absurd h (hn p)
  · rw [if_neg hc]
    constructor
    · intro h; simp at h
    · rintro ⟨h, -⟩
      exact absurd h hc

end Sys2Proof.Machine
end

