-- ==== Sys2Proof/Laws/Fit.lean ====
section
/-! SUPPORT. What every computation of the engine keeps, wherever it ends: STATMEM and the namespace in canonical form,
statuses of R291, files and internal memories within their sizes (R39, R44, R45, R49). -/

namespace Sys2Proof.Machine

variable {α β : Type}

/-- Paths that files can have, lengths that files can have. -/
structure Storage.Ok (st : Storage) : Prop where
  fs    : fsWf st.fs = true
  opens : st.opensPaths = true
  fits  : st.fits = true

/-- The engine's part of the invariant, with `G` for the output stream. -/
structure Engine.FitFor (G : OutStream → Prop) (e : Engine) : Prop where
  statmem  : Memory.wf statDefault Config.statmemBytes e.statmem = true
  statuses : e.statusesKnown
  storage  : e.storage.Ok
  inp      : e.inp.shaped = true
  out      : G e.out
  huff     : e.huff.shaped = true
  edits    : ∀ x ∈ e.draws.edits, x.fits = true

/-- The output stream within its size (R44). -/
def OutStream.Sized (o : OutStream) : Prop := o.shaped = true

/-- The output cursor inside the buffer: everywhere but after a flush that failed. -/
def OutStream.Ready (o : OutStream) : Prop := o.shaped = true ∧ o.byte < Config.bufBytes

/-- Wherever the computation ends, `P` holds if it held before. -/
def Keeps (P : Engine → Prop) (x : Eng α) : Prop := ∀ e, P e → Ends x e (fun _ => P) (fun _ => P)

section
variable {P : Engine → Prop}

theorem Keeps.pure (a : α) : Keeps P (pure a : Eng α) := fun _ h => h
theorem Keeps.bind {x : Eng α} {f : α → Eng β} (hx : Keeps P x) (hf : ∀ a, Keeps P (f a)) : Keeps P (x >>= f) := by
  intro e he
  rw [ends_bind]
  exact (hx e he).mono (fun a e' h => hf a e' h) fun _ _ h => h
theorem Keeps.map {x : Eng α} (f : α → β) (hx : Keeps P x) : Keeps P (f <$> x) := by
  intro e he
  rw [ends_map]
  exact hx e he
theorem Keeps.look (f : Engine → α) : Keeps P (look f) := fun _ h => h
theorem Keeps.update {f : Engine → Engine} (h : ∀ e, P e → P (f e)) : Keeps P (update f) := h
theorem Keeps.raise (c : ErrorCode) : Keeps P (raise c : Eng α) := fun _ h => h
theorem Keeps.raiseWith (c : ErrorCode) (a b : Word) : Keeps P (raiseWith c a b : Eng α) := fun _ h => h
theorem Keeps.orRaise (c : ErrorCode) (o : Option α) : Keeps P (orRaise c o) := by
  cases o
  · exact Keeps.raise c
  · exact Keeps.pure _
theorem Keeps.check (b : Bool) (c : ErrorCode) : Keeps P (check b c) := by
  cases b
  · exact Keeps.raise c
  · exact Keeps.pure _
theorem Keeps.ite {b : Prop} [Decidable b] {x y : Eng α} (hx : Keeps P x) (hy : Keeps P y) : Keeps P (if b then x else y) := by
  split <;> assumption
theorem Keeps.must (c : ErrorCode) (a : OpenAnswer) : Keeps P (a.must c) := by
  cases a
  · exact Keeps.pure _
  · exact Keeps.raise c
  · exact Keeps.raise c
theorem Keeps.reg (r : HandleReg) : Keeps P (reg r) := fun _ h => h

/-- With what the answer says. -/
theorem Keeps.bindTo {x : Eng α} {f : α → Eng β} {Q : α → Prop} (hx : ∀ e, P e → Ends x e (fun a e' => P e' ∧ Q a) (fun _ => P))
    (hf : ∀ a, Q a → Keeps P (f a)) : Keeps P (x >>= f) := by
  intro e he
  rw [ends_bind]
  exact (hx e he).mono (fun a e' h => hf a h.2 e' h.1) fun _ _ h => h
end

/-! ## Storage -/

theorem Storage.fits_iff {st : Storage} :
    st.fits = true ↔ (∀ x ∈ st.fs, x.2.length ≤ Config.fileMax) ∧ ∀ x ∈ st.temps, x.2.length ≤ Config.fileMax := by
  simp [Storage.fits]

theorem Storage.opens_iff {st : Storage} :
    st.opensPaths = true ↔ ∀ x ∈ st.handles, ∀ p, x.2.ref = .named p → Path.wf p = true := by
  simp only [Storage.opensPaths, List.all_eq_true]
  constructor
  · intro h x hx p hp
    have := h x hx
    rw [hp] at this
    exact this
  · intro h x hx
    have := h x hx
    split
    · exact this _ ‹_›
    · rfl

theorem mem_replaceAt {l : List (Nat × α)} {v : α} {n : Nat} {x : Nat × α} (h : x ∈ replaceAt v l n) :
    x ∈ l ∨ x = (n, v) := by
  induction l with
  | nil => exact .inl h
  | cons y ys ih =>
    obtain ⟨k, u⟩ := y
    simp only [replaceAt] at h
    split at h
    · rcases List.mem_cons.1 h with h | h
      · right; simp [*]
      · left; simp [h]
    · rcases List.mem_cons.1 h with h | h
      · left; simp [h]
      · rcases ih h with h | h
        · left; simp [h]
        · exact .inr h

theorem fsGet_mem {fs : List (Path × Bytes)} {p : Path} {c : Bytes} (h : fsGet fs p = some c) : (p, c) ∈ fs := by
  induction fs with
  | nil => simp [fsGet] at h
  | cons x rest ih =>
    obtain ⟨q, d⟩ := x
    simp only [fsGet] at h
    split at h
    · injection h with h
      simp [*]
    · simp [ih h]

theorem Storage.Ok.pathOf {st : Storage} (h : st.Ok) {p : Path} (hp : fsGet st.fs p ≠ none) : Path.wf p = true := by
  cases hc : fsGet st.fs p with
  | none => exact absurd hc hp
  | some c =>
    have := h.fs
    simp only [fsWf, Bool.and_eq_true, List.all_eq_true] at this
    exact this.2 _ (fsGet_mem hc)

theorem Storage.Ok.content {st : Storage} (h : st.Ok) (r : FileRef) : (st.content r).length ≤ Config.fileMax := by
  have hf := Storage.fits_iff.1 h.fits
  cases r with
  | named p =>
    cases hc : fsGet st.fs p with
    | none => simp [Storage.content, hc]
    | some c => simpa [Storage.content, hc] using hf.1 _ (fsGet_mem hc)
  | temp n =>
    cases hc : lookup st.temps n with
    | none => simp [Storage.content, hc]
    | some c => simpa [Storage.content, hc] using hf.2 _ (lookup_mem hc)

theorem Storage.Ok.refOf {st : Storage} (h : st.Ok) {k : Handle} {f : OpenFile} (hk : lookup st.handles k = some f) {p : Path}
    (hp : f.ref = .named p) : Path.wf p = true := Storage.opens_iff.1 h.opens _ (lookup_mem hk) p hp

theorem Storage.Ok.addHandle {st : Storage} (h : st.Ok) {f : OpenFile} (hf : ∀ p, f.ref = .named p → Path.wf p = true) :
    (st.addHandle f).Ok := by
  refine ⟨h.fs, Storage.opens_iff.2 fun x hx p hp => ?_, h.fits⟩
  rcases List.mem_append.1 hx with hx | hx
  · exact Storage.opens_iff.1 h.opens x hx p hp
  · simp only [List.mem_singleton] at hx
    subst hx
    exact hf p hp

theorem Storage.Ok.put {st : Storage} (h : st.Ok) {p : Path} {c : Bytes} (hp : Path.wf p = true)
    (hc : c.length ≤ Config.fileMax) : Storage.Ok { st with fs := fsPut st.fs p c } := by
  refine ⟨fsWf_fsPut h.fs hp, h.opens, Storage.fits_iff.2 ⟨fun x hx => ?_, (Storage.fits_iff.1 h.fits).2⟩⟩
  rcases mem_fsPut hx with rfl | hx
  · exact hc
  · exact (Storage.fits_iff.1 h.fits).1 x hx

theorem Storage.Ok.set {st : Storage} (h : st.Ok) {p : Path} {c : Option Bytes} (hp : Path.wf p = true)
    (hc : (c.getD []).length ≤ Config.fileMax) : Storage.Ok { st with fs := fsSet st.fs p c } := by
  cases c with
  | some c => exact h.put hp hc
  | none =>
    refine ⟨fsWf_fsDelete h.fs, h.opens, Storage.fits_iff.2 ⟨fun x hx => ?_, (Storage.fits_iff.1 h.fits).2⟩⟩
    exact (Storage.fits_iff.1 h.fits).1 x (mem_of_mem_fsDelete hx)

theorem Storage.Ok.setContent {st : Storage} (h : st.Ok) {k : Handle} {f : OpenFile} {c : Bytes}
    (hk : lookup st.handles k = some f) (hc : c.length ≤ Config.fileMax) : (st.setContent f.ref c).Ok := by
  cases hr : f.ref with
  | named p => exact h.put (h.refOf hk hr) hc
  | temp n =>
    refine ⟨h.fs, h.opens, Storage.fits_iff.2 ⟨(Storage.fits_iff.1 h.fits).1, fun x hx => ?_⟩⟩
    rcases mem_replaceAt hx with hx | rfl
    · exact (Storage.fits_iff.1 h.fits).2 x hx
    · exact hc

theorem Storage.Ok.setPos {st : Storage} (h : st.Ok) {k : Handle} {f : OpenFile} (hf : ∀ p, f.ref = .named p → Path.wf p = true)
    (n : Nat) : (st.setPos k f n).Ok := by
  refine ⟨h.fs, Storage.opens_iff.2 fun x hx p hp => ?_, h.fits⟩
  rcases mem_replaceAt hx with hx | rfl
  · exact Storage.opens_iff.1 h.opens x hx p hp
  · exact hf p hp

theorem Storage.Ok.sub {st st' : Storage} (h : st.Ok) (hfs : st'.fs = st.fs) (ht : ∀ x ∈ st'.temps, x ∈ st.temps)
    (hh : ∀ x ∈ st'.handles, x ∈ st.handles) : st'.Ok := by
  refine ⟨by rw [hfs]; exact h.fs, Storage.opens_iff.2 fun x hx p hp => Storage.opens_iff.1 h.opens x (hh x hx) p hp,
    Storage.fits_iff.2 ⟨by rw [hfs]; exact (Storage.fits_iff.1 h.fits).1, fun x hx => (Storage.fits_iff.1 h.fits).2 x (ht x hx)⟩⟩

theorem mem_removeAt {l : List (Nat × α)} {n : Nat} {x : Nat × α} (h : x ∈ removeAt l n) : x ∈ l :=
  (removeAt_sublist l n).subset h

theorem Storage.Ok.close {st : Storage} (h : st.Ok) (k : Handle) : (st.close k).Ok := by
  unfold Storage.close
  split
  · exact h.sub rfl (fun _ hx => mem_removeAt hx) fun _ hx => mem_removeAt hx
  · exact h.sub rfl (fun _ hx => hx) fun _ hx => mem_removeAt hx
  · exact h

theorem writeAt_length (c : Bytes) (p : Nat) (b : Bytes) : (writeAt c p b).length = max c.length (p + b.length) := by
  simp only [writeAt, List.length_append, List.length_take, List.length_replicate, List.length_drop]
  omega

theorem freeContent_length (k : Nat) : (freeContent k).length ≤ Config.fileMax := by
  simp only [freeContent, List.length_take]
  omega

theorem freeFile_length (k : Nat) : ((freeFile k).getD []).length ≤ Config.fileMax := by
  unfold freeFile
  cases Config.freeFile k with
  | none => exact Nat.zero_le _
  | some c => simp only [Option.map_some, Option.getD_some, List.length_take]; omega

theorem Draws.failsWrite_false {d : Draws} {f : OpenFile} {n : Nat} (h : d.failsWrite f n = false) :
    f.pos + n ≤ Config.fileMax := by
  simp only [Draws.failsWrite, Bool.or_eq_false_iff, decide_eq_false_iff_not] at h
  omega

theorem Storage.Ok.written {st : Storage} (h : st.Ok) {k : Handle} {f : OpenFile} (hk : lookup st.handles k = some f)
    {b : Bytes} (hb : f.pos + b.length ≤ Config.fileMax) : (st.written k f b).Ok := by
  refine Storage.Ok.setPos (h.setContent hk ?_) (fun p hp => h.refOf hk hp) _
  rw [writeAt_length]
  exact Nat.max_le.2 ⟨h.content _, hb⟩

/-! ## The engine -/

variable {G : OutStream → Prop}

/-- The host's changes keep the namespace canonical and its files within their sizes. -/
theorem Storage.Ok.changed {st : Storage} (h : st.Ok) {x : Edit} (hx : x.fits = true) :
    Storage.Ok { st with fs := fsSet st.fs x.path x.content } := by
  simp only [Edit.fits, Bool.and_eq_true, decide_eq_true_eq] at hx
  exact h.set hx.1 hx.2

theorem Storage.Ok.landing {xs : List Edit} (hx : ∀ x ∈ xs, x.fits = true) (n : Nat) {st : Storage} (h : st.Ok) :
    Storage.Ok { st with fs := (landing n xs st.fs).1 } ∧ ∀ x ∈ (Machine.landing n xs st.fs).2, x.fits = true := by
  induction xs generalizing st with
  | nil => exact ⟨h, hx⟩
  | cons x xs ih =>
    rw [Machine.landing]
    split
    · exact ih (fun y hy => hx y (by simp [hy])) (h.changed (hx x (by simp)))
    · exact ⟨h, hx⟩

theorem Storage.Ok.changedAll {xs : List Edit} (hx : ∀ x ∈ xs, x.fits = true) {st : Storage} (h : st.Ok) :
    Storage.Ok { st with fs := xs.foldl (fun fs x => fsSet fs x.path x.content) st.fs } := by
  induction xs generalizing st with
  | nil => exact h
  | cons x xs ih => exact ih (fun y hy => hx y (by simp [hy])) (h.changed (hx x (by simp)))

theorem Engine.FitFor.asked {e : Engine} (h : e.FitFor G) : e.asked.FitFor G :=
  ⟨h.statmem, h.statuses, (h.storage.landing h.edits _).1, h.inp, h.out, h.huff, (h.storage.landing h.edits _).2⟩

theorem Engine.FitFor.landAll {e : Engine} (h : e.FitFor G) : e.landAll.FitFor G :=
  ⟨h.statmem, h.statuses, h.storage.changedAll h.edits, h.inp, h.out, h.huff, fun _ hx => absurd hx (by simp)⟩

theorem Engine.FitFor.withStorage {e : Engine} (h : e.FitFor G) {st : Storage} (hs : st.Ok) : (e.asked.withStorage st).FitFor G :=
  ⟨h.statmem, h.statuses, hs, h.inp, h.out, h.huff, h.asked.edits⟩

theorem fit_sOpenRead (p : Path) : Keeps (Engine.FitFor G) (sOpenRead p) := by
  intro e h
  rw [ends_sOpenRead]
  exact ⟨fun _ => h.landAll, fun _ => ⟨fun _ => h.asked, fun _ _ => h.asked, fun hp _ =>
    h.withStorage (h.asked.storage.addHandle fun q hq => by injection hq with hq; subst hq; exact h.asked.storage.pathOf hp)⟩⟩

theorem fit_sOpenCreate {p : Path} (hp : Path.wf p = true) : Keeps (Engine.FitFor G) (sOpenCreate p) := by
  intro e h
  rw [ends_sOpenCreate]
  exact ⟨fun _ => h.landAll, fun _ => ⟨fun _ => h.asked, fun _ =>
    h.withStorage (Storage.Ok.addHandle (h.asked.storage.put hp (Nat.zero_le _)) fun q hq => by
      injection hq with hq; subst hq; exact hp)⟩⟩

theorem fit_sTemp : Keeps (Engine.FitFor G) sTemp := by
  intro e h
  rw [ends_sTemp]
  refine ⟨fun _ => h.landAll, fun _ => ⟨fun _ => h.asked, fun _ => h.withStorage (Storage.Ok.addHandle ?_ fun q hq => by simp at hq)⟩⟩
  refine ⟨h.asked.storage.fs, h.asked.storage.opens, Storage.fits_iff.2 ⟨(Storage.fits_iff.1 h.asked.storage.fits).1, fun x hx => ?_⟩⟩
  rcases List.mem_append.1 hx with hx | hx
  · exact (Storage.fits_iff.1 h.asked.storage.fits).2 x hx
  · simp only [List.mem_singleton] at hx
    subst hx
    exact Nat.zero_le _

/-- SRead gives at most the bytes asked for. -/
theorem fit_sRead (k : Handle) (n : Nat) (e : Engine) (h : e.FitFor G) :
    Ends (sRead k n) e (fun r e' => e'.FitFor G ∧ e'.inp = e.inp ∧ ∀ d, r = some d → d.length ≤ n) (fun _ => Engine.FitFor G) := by
  rw [ends_sRead]
  refine ⟨fun _ => h.landAll, fun _ => ⟨fun _ => ⟨h.asked, rfl, by simp⟩, fun f hf => ⟨fun _ => ⟨h.asked, rfl, by simp⟩, fun _ => ⟨?_, rfl, ?_⟩⟩⟩⟩
  · exact h.withStorage (h.asked.storage.setPos (fun p hp => h.asked.storage.refOf hf hp) _)
  · intro d hd
    injection hd with hd
    subst hd
    simp only [Storage.dataAt, List.length_take]
    omega

theorem fit_sWrite (k : Handle) (b : Bytes) : Keeps (Engine.FitFor G) (sWrite k b) := by
  intro e h
  rw [ends_sWrite]
  refine ⟨fun _ => h.landAll, fun _ => ⟨fun _ => h.asked, fun f hf => ⟨fun _ => h.asked, fun _ _ => ?_, fun _ hw => ?_⟩⟩⟩
  · exact ⟨h.statmem, h.statuses, h.asked.storage.setContent hf (freeContent_length _), h.inp, h.out, h.huff, h.asked.edits⟩
  · exact h.withStorage (h.asked.storage.written hf (Draws.failsWrite_false hw))

theorem fit_sSeek (k : Handle) (n : Nat) : Keeps (Engine.FitFor G) (sSeek k n) := by
  intro e h
  rw [ends_sSeek]
  exact ⟨fun _ => h.landAll, fun _ => ⟨fun _ => h.asked, fun f hf => h.withStorage (h.asked.storage.setPos (fun p hp => h.asked.storage.refOf hf hp) _)⟩⟩

theorem fit_sSize (k : Handle) : Keeps (Engine.FitFor G) (sSize k) := by
  intro e h
  rw [ends_sSize]
  exact ⟨fun _ => h.landAll, fun _ => ⟨fun _ => h.asked, fun f hf => h.asked⟩⟩

theorem fit_sCopy (src dst : Handle) (n : Nat) : Keeps (Engine.FitFor G) (sCopy src dst n) := by
  intro e h
  rw [ends_sCopy]
  refine ⟨fun _ => h.landAll, fun _ => ⟨fun _ => h.asked, fun f g hf hg => ⟨fun _ => h.asked, fun hw _ => h.withStorage ?_⟩⟩⟩
  have h1 : (e.asked.storage.setPos src f (f.pos + (e.asked.storage.dataAt f n).length)).Ok :=
    h.asked.storage.setPos (fun p hp => h.asked.storage.refOf hf hp) _
  have hlen := Draws.failsWrite_false hw
  refine Storage.Ok.setPos ?_ (fun p hp => h.asked.storage.refOf hg hp) _
  have hc : (writeAt ((e.asked.storage.setPos src f (f.pos + (e.asked.storage.dataAt f n).length)).content g.ref) g.pos
      (e.asked.storage.dataAt f n)).length ≤ Config.fileMax := by
    rw [writeAt_length]
    exact Nat.max_le.2 ⟨h1.content _, hlen⟩
  cases hr : g.ref with
  | named p => rw [hr] at hc; exact h1.put (h.asked.storage.refOf hg hr) hc
  | temp m =>
    rw [hr] at hc
    refine ⟨h1.fs, h1.opens, Storage.fits_iff.2 ⟨(Storage.fits_iff.1 h1.fits).1, fun x hx => ?_⟩⟩
    rcases mem_replaceAt hx with hx | rfl
    · exact (Storage.fits_iff.1 h1.fits).2 x hx
    · exact hc

theorem fit_sReplace (k : Handle) {p : Path} (hp : Path.wf p = true) : Keeps (Engine.FitFor G) (sReplace k p) := by
  intro e h
  rw [ends_sReplace]
  refine ⟨fun _ => h.landAll, fun _ => ⟨fun _ => h.asked, fun n w m hk => ⟨fun _ => h.asked, fun _ => h.withStorage ?_⟩⟩⟩
  exact (h.asked.storage.put hp (h.asked.storage.content (.temp n))).sub rfl (fun _ hx => mem_removeAt hx) fun _ hx => mem_removeAt hx

theorem fit_sClose (k : Handle) : Keeps (Engine.FitFor G) (sClose k) := by
  intro e h
  rw [ends_sClose]
  exact ⟨fun _ => h.landAll, fun _ => h.withStorage (h.asked.storage.close k)⟩

theorem fit_sNow : Keeps (Engine.FitFor G) sNow := by
  intro e h
  rw [ends_sNow]
  exact ⟨fun _ _ _ => ⟨h.statmem, h.statuses, h.storage, h.inp, h.out, h.huff, h.edits⟩,
    fun _ => ⟨h.statmem, h.statuses, h.storage, h.inp, h.out, h.huff, h.edits⟩⟩

theorem fit_updateWork (f : Work → Work) : Keeps (Engine.FitFor G) (updateWork f) :=
  Keeps.update fun _ h => ⟨h.statmem, h.statuses, h.storage, h.inp, h.out, h.huff, h.edits⟩

theorem fit_setReg (r : HandleReg) (v : Option Handle) : Keeps (Engine.FitFor G) (setReg r v) :=
  Keeps.update fun _ h => ⟨h.statmem, h.statuses, h.storage, h.inp, h.out, h.huff, h.edits⟩

theorem fit_nextFree : Keeps (Engine.FitFor G) nextFree := fun _ h => ⟨h.statmem, h.statuses, h.storage, h.inp, h.out, h.huff, h.edits⟩

theorem statusByte_le (v : NameStatus) : (statusByte v).toNat ≤ 6 := by cases v <;> decide

theorem fit_setStatus {i : Nat} (hi : i < Config.statmemBytes) (v : NameStatus) : Keeps (Engine.FitFor G) (setStatus i v) := by
  refine Keeps.update fun e h => ⟨Memory.wf_write h.statmem _ hi, fun k => ?_, h.storage, h.inp, h.out, h.huff, h.edits⟩
  simp only [Engine.statByte]
  rw [Memory.read_write h.statmem]
  split
  · exact statusByte_le v
  · exact h.statuses k

theorem fit_keep (r : HandleReg) (a : OpenAnswer) : Keeps (Engine.FitFor G) (keep r a) := by
  cases a with
  | handle k => exact (fit_setReg r _).bind fun _ => Keeps.pure _
  | notFound => exact Keeps.pure _
  | fail => exact Keeps.pure _

theorem fit_openRead (r : HandleReg) (p : Path) : Keeps (Engine.FitFor G) (openRead r p) := (fit_sOpenRead p).bind fun a => fit_keep r a
theorem fit_openCreate (r : HandleReg) {p : Path} (hp : Path.wf p = true) : Keeps (Engine.FitFor G) (openCreate r p) :=
  (fit_sOpenCreate hp).bind fun a => fit_keep r a
theorem fit_openTemp (r : HandleReg) : Keeps (Engine.FitFor G) (openTemp r) := fit_sTemp.bind fun a => fit_keep r a

theorem fit_closeReg (r : HandleReg) : Keeps (Engine.FitFor G) (closeReg r) := by
  refine (Keeps.look _).bind fun o => ?_
  cases o with
  | none => exact Keeps.pure _
  | some k => exact (fit_sClose k).bind fun _ => fit_setReg r none

theorem fit_closeAll : Keeps (Engine.FitFor G) closeAll :=
  (fit_closeReg _).bind fun _ => (fit_closeReg _).bind fun _ => (fit_closeReg _).bind fun _ => (fit_closeReg _).bind fun _ =>
    (fit_closeReg _).bind fun _ => fit_closeReg _

theorem fit_wr (k : Handle) (b : Bytes) : Keeps (Engine.FitFor G) (wr k b) := (fit_sWrite k b).bind fun _ => Keeps.check _ _
theorem fit_copy (s d : Handle) (n : Nat) : Keeps (Engine.FitFor G) (copy s d n) := (fit_sCopy s d n).bind fun _ => Keeps.check _ _

theorem fit_scramble {ps : List Path} (h : ∀ p ∈ ps, Path.wf p = true) : Keeps (Engine.FitFor G) (scramble ps) := by
  induction ps with
  | nil => exact Keeps.pure _
  | cons p ps ih =>
    refine fit_nextFree.bind fun k => (Keeps.update fun e he => ?_).bind fun _ => ih fun q hq => h q (by simp [hq])
    exact ⟨he.statmem, he.statuses, he.storage.put (h p (by simp)) (freeContent_length k), he.inp, he.out, he.huff, he.edits⟩

theorem fit_unspecify {ps : List Path} (h : ∀ p ∈ ps, Path.wf p = true) : Keeps (Engine.FitFor G) (unspecify ps) := by
  induction ps with
  | nil => exact Keeps.pure _
  | cons p ps ih =>
    refine fit_nextFree.bind fun k => (Keeps.update fun e he => ?_).bind fun _ => ih fun q hq => h q (by simp [hq])
    exact ⟨he.statmem, he.statuses, he.storage.set (h p (by simp)) (freeFile_length k), he.inp, he.out, he.huff, he.edits⟩

theorem fit_setStatuses (vs : List NameStatus) (i : Nat) : Keeps (Engine.FitFor G) (setStatuses i vs) := by
  induction vs generalizing i with
  | nil => exact Keeps.pure _
  | cons v vs ih =>
    show Keeps _ (if i < Config.statmemBytes then setStatus i v >>= fun _ => setStatuses (i + 1) vs else setStatuses (i + 1) vs)
    split
    · exact (fit_setStatus ‹_› v).bind fun _ => ih _
    · exact ih _

/-! ## The streams -/

theorem InStream.shaped_iff {i : InStream} :
    i.shaped = true ↔ i.buf.length = Config.bufBytes ∧ i.valid ≤ Config.bufBytes ∧ i.byte ≤ i.valid ∧ i.bit < 8 ∧
      (i.byte = i.valid → i.bit = 0) := by
  simp only [InStream.shaped, Bool.and_eq_true, beq_iff_eq, decide_eq_true_eq, Bool.or_eq_true, bne_iff_ne, ne_eq, and_assoc]
  constructor
  · rintro ⟨a, b, c, d, e⟩
    exact ⟨a, b, c, d, fun h => e.resolve_left fun hn => hn h⟩
  · rintro ⟨a, b, c, d, e⟩
    refine ⟨a, b, c, d, ?_⟩
    by_cases h : i.byte = i.valid
    · exact .inr (e h)
    · exact .inl h

theorem fit_inInit (k : Handle) (n : Nat) : Keeps (Engine.FitFor G) (inInit k n) := by
  refine Keeps.update fun e h => ⟨h.statmem, h.statuses, h.storage, ?_, h.out, h.huff, h.edits⟩
  have := InStream.shaped_iff.1 h.inp
  exact InStream.shaped_iff.2 ⟨this.1, Nat.zero_le _, Nat.le_refl _, Nat.succ_pos 7, fun _ => rfl⟩

/-- fill leaves the cursor at the first bit of what it read. -/
theorem fit_fill (e : Engine) (h : e.FitFor G) :
    Ends fill e (fun k e' => e'.FitFor G ∧ e'.inp.byte = 0 ∧ e'.inp.bit = 0 ∧ e'.inp.valid = k) (fun _ => Engine.FitFor G) := by
  have hin := InStream.shaped_iff.1 h.inp
  have hset : ∀ (e1 : Engine) (data : Bytes), e1.FitFor G → e1.inp = e.inp → data.length ≤ min Config.bufBytes e.inp.limit →
      Engine.FitFor G { e1 with inp := { e1.inp with
        buf := data ++ e1.inp.buf.drop data.length, valid := data.length
        limit := if data.length < min Config.bufBytes e.inp.limit then 0 else e1.inp.limit - data.length
        byte := 0, bit := 0 } } := by
    intro e1 data h1 he hd
    refine ⟨h1.statmem, h1.statuses, h1.storage, InStream.shaped_iff.2 ⟨?_, ?_, Nat.zero_le _, Nat.succ_pos 7, fun _ => rfl⟩, h1.out, h1.huff, h1.edits⟩
    · show (data ++ e1.inp.buf.drop data.length).length = _
      rw [he, List.length_append, List.length_drop, hin.1]
      omega
    · show data.length ≤ _
      omega
  simp only [fill, ends_bind, ends_look, refill]
  split
  · simp only [ends_pure, ends_update]
    exact ⟨hset e [] h rfl (Nat.zero_le _), by trivial, by trivial, by trivial⟩
  · simp only [ends_bind, ends_look, ends_orRaise, ends_update, ends_pure]
    refine (fit_sRead _ _ e h).mono (fun r e1 hq => ⟨fun d hd => ?_, fun _ => hq.1⟩) fun _ _ hs => hs
    exact ⟨hset e1 d hq.1 hq.2.1 (hq.2.2 d hd), by trivial, by trivial, by trivial⟩

theorem fit_takeBit {e : Engine} (h : e.FitFor G) (hc : e.inp.byte ≠ e.inp.valid) :
    Ends takeBit e (fun _ => Engine.FitFor G) (fun _ => Engine.FitFor G) := by
  have hin := InStream.shaped_iff.1 h.inp
  simp only [takeBit, ends_bind, ends_look, ends_update, ends_pure]
  refine ⟨h.statmem, h.statuses, h.storage, InStream.shaped_iff.2 ?_, h.out, h.huff, h.edits⟩
  show e.inp.advance.buf.length = _ ∧ _
  unfold InStream.advance
  split
  · refine ⟨hin.1, hin.2.1, ?_, Nat.succ_pos 7, fun _ => rfl⟩
    show e.inp.byte + 1 ≤ e.inp.valid
    omega
  · refine ⟨hin.1, hin.2.1, hin.2.2.1, ?_, fun hb => absurd hb hc⟩
    show e.inp.bit + 1 < 8
    omega

theorem fit_readBit : Keeps (Engine.FitFor G) readBit := by
  intro e h
  simp only [readBit, ends_bind, ends_look]
  by_cases hc : e.inp.byte = e.inp.valid
  · simp only [hc, beq_self_eq_true, if_true, ends_bind]
    refine (fit_fill e h).mono (fun k e1 hq => ?_) fun _ _ hs => hs
    obtain ⟨h1, hby, hbi, hva⟩ := hq
    by_cases hk : k = 0
    · rw [if_pos hk]
      exact h1
    · rw [if_neg hk]
      simp only [ends_bind, ends_pure]
      exact fit_takeBit h1 (by omega)
  · have hcf : (e.inp.byte == e.inp.valid) = false := by simpa using hc
    simp only [hcf, Bool.false_eq_true, if_false, ends_bind, ends_pure]
    exact fit_takeBit h hc

theorem fit_readBits (n i : Nat) (v : Byte) : Keeps (Engine.FitFor G) (readBits n i v) := by
  induction n generalizing i v with
  | zero => exact Keeps.pure _
  | succ n ih =>
    refine fit_readBit.bind fun r => ?_
    cases r with
    | none => exact Keeps.pure _
    | some b => exact ih _ _

theorem fit_readByte : Keeps (Engine.FitFor G) readByte := fit_readBits 8 0 0

theorem fit_readBytes (n : Nat) : Keeps (Engine.FitFor G) (readBytes n) := by
  induction n with
  | zero => exact Keeps.pure _
  | succ n ih =>
    refine fit_readByte.bind fun r => ?_
    cases r with
    | none => exact Keeps.pure _
    | some b =>
      refine ih.bind fun r => ?_
      cases r <;> exact Keeps.pure _

theorem fit_rd32 : Keeps (Engine.FitFor G) rd32 := (fit_readBytes 4).bind fun _ => Keeps.pure _
theorem fit_rd64 : Keeps (Engine.FitFor G) rd64 := (fit_readBytes 8).bind fun _ => Keeps.pure _

theorem OutStream.shaped_iff {o : OutStream} :
    o.shaped = true ↔ o.buf.length = Config.bufBytes ∧ o.byte ≤ Config.bufBytes ∧ o.bit < 8 := by
  simp only [OutStream.shaped, Bool.and_eq_true, beq_iff_eq, decide_eq_true_eq, and_assoc]

theorem zeroBuf_ready (t : Nat) (h : Handle) : (⟨zeroBuf, 0, 0, t, h⟩ : OutStream).Ready :=
  ⟨OutStream.shaped_iff.2 ⟨List.length_replicate, Nat.zero_le _, Nat.succ_pos 7⟩, show 0 < Config.bufBytes by decide⟩

theorem Engine.FitFor.sized {e : Engine} (h : e.FitFor OutStream.Ready) : e.FitFor OutStream.Sized :=
  ⟨h.statmem, h.statuses, h.storage, h.inp, h.out.1, h.huff, h.edits⟩

/-- A computation that may write through OUT: its cursor stays inside the buffer, unless a flush fails. -/
def Writes (x : Eng α) : Prop :=
  ∀ e, e.FitFor OutStream.Ready → Ends x e (fun _ => Engine.FitFor OutStream.Ready) (fun _ => Engine.FitFor OutStream.Sized)

theorem Writes.of_keeps {x : Eng α} (h : Keeps (Engine.FitFor OutStream.Ready) x) : Writes x :=
  fun e he => (h e he).mono (fun _ _ h => h) fun _ _ h => h.sized

theorem Writes.bind {x : Eng α} {f : α → Eng β} (hx : Writes x) (hf : ∀ a, Writes (f a)) : Writes (x >>= f) := by
  intro e he
  rw [ends_bind]
  exact (hx e he).mono (fun a e' h => hf a e' h) fun _ _ h => h

theorem Writes.keeps {x : Eng α} (h : Writes x) (e : Engine) (he : e.FitFor OutStream.Ready) :
    Ends x e (fun _ => Engine.FitFor OutStream.Sized) (fun _ => Engine.FitFor OutStream.Sized) :=
  (h e he).mono (fun _ _ h => h.sized) fun _ _ h => h

/-- out_init puts the cursor at the start of the buffer, wherever it was. -/
theorem Keeps.outInit_bind {f : Unit → Eng α} (k : Handle) (hf : Writes (f ())) :
    Keeps (Engine.FitFor OutStream.Sized) (outInit k >>= f) := by
  intro e h
  rw [ends_bind]
  exact hf.keeps _ ⟨h.statmem, h.statuses, h.storage, h.inp, zeroBuf_ready 0 k, h.huff, h.edits⟩

theorem writes_flush : Writes flush := by
  intro e h
  simp only [flush, ends_bind, ends_look, ends_ite, ends_check, ends_update]
  refine ⟨fun _ => ?_, fun _ => ⟨h.statmem, h.statuses, h.storage, h.inp, zeroBuf_ready _ _, h.huff, h.edits⟩⟩
  refine (fit_sWrite _ _ _ h).mono (fun b e1 h1 => ⟨fun _ => ?_, fun _ => h1.sized⟩) fun _ _ hs => hs.sized
  exact ⟨h1.statmem, h1.statuses, h1.storage, h1.inp, zeroBuf_ready _ _, h1.huff, h1.edits⟩

theorem writes_writeBit (v : Bool) : Writes (writeBit v) := by
  intro e h
  have ho := OutStream.shaped_iff.1 h.out.1
  have hput : Engine.FitFor OutStream.Sized { e with out := e.out.put v } := by
    refine ⟨h.statmem, h.statuses, h.storage, h.inp, OutStream.shaped_iff.2 ?_, h.huff, h.edits⟩
    show (e.out.put v).buf.length = _ ∧ _
    have hb := h.out.2
    unfold OutStream.put
    split
    · refine ⟨by simp [ho.1], ?_, Nat.succ_pos 7⟩
      show e.out.byte + 1 ≤ _
      omega
    · refine ⟨by simp [ho.1], ho.2.1, ?_⟩
      show e.out.bit + 1 < 8
      omega
  simp only [writeBit, ends_bind, ends_update, ends_look]
  by_cases hf : (e.out.put v).byte = Config.bufBytes
  · simp only [hf, beq_self_eq_true, if_true]
    simp only [flush, ends_bind, ends_look, ends_ite, ends_check, ends_update]
    refine ⟨fun _ => ?_, fun _ => ⟨hput.statmem, hput.statuses, hput.storage, hput.inp, zeroBuf_ready _ _, hput.huff, hput.edits⟩⟩
    refine (fit_sWrite _ _ _ hput).mono (fun b e1 h1 => ⟨fun _ => ?_, fun _ => h1⟩) fun _ _ hs => hs
    exact ⟨h1.statmem, h1.statuses, h1.storage, h1.inp, zeroBuf_ready _ _, h1.huff, h1.edits⟩
  · have hne : ((e.out.put v).byte == Config.bufBytes) = false := by simpa using hf
    simp only [hne, Bool.false_eq_true, if_false, ends_pure]
    have h2 : (e.out.put v).byte ≤ Config.bufBytes := (OutStream.shaped_iff.1 hput.out).2.1
    exact ⟨hput.statmem, hput.statuses, hput.storage, hput.inp, ⟨hput.out, show (e.out.put v).byte < _ by omega⟩, hput.huff, hput.edits⟩

theorem writes_writeBits (vs : Bits) : Writes (writeBits vs) := by
  induction vs with
  | nil => exact Writes.of_keeps (Keeps.pure _)
  | cons v vs ih => exact (writes_writeBit v).bind fun _ => ih

theorem writes_writeByte (b : Byte) : Writes (writeByte b) := writes_writeBits _

/-! ## CRC and Huffman -/

theorem Huffman.shaped_iff {g : Huffman} :
    g.shaped = true ↔ g.freq.length = Config.alphabet ∧ g.node.length = Config.nodeCap ∧ g.nn ≤ Config.nodeCap ∧
      g.heap.length = Config.heapCap ∧ g.hn ≤ Config.heapCap ∧ g.codeLen.length = Config.alphabet ∧
      g.codeBits.length = Config.alphabet ∧ ∀ l ∈ g.codeLen, l ≤ Config.maxCodeLen := by
  simp only [Huffman.shaped, Bool.and_eq_true, beq_iff_eq, decide_eq_true_eq, and_assoc, List.all_eq_true]

theorem fit_updateHuff {f : Huffman → Huffman} (hf : ∀ g, g.shaped = true → (f g).shaped = true) :
    Keeps (Engine.FitFor G) (updateHuff f) :=
  Keeps.update fun _ h => ⟨h.statmem, h.statuses, h.storage, h.inp, h.out, hf _ h.huff, h.edits⟩

theorem fit_crcInit : Keeps (Engine.FitFor G) crcInit :=
  Keeps.update fun _ h => ⟨h.statmem, h.statuses, h.storage, h.inp, h.out, h.huff, h.edits⟩
theorem fit_crcByte (b : Byte) : Keeps (Engine.FitFor G) (crcByte b) :=
  Keeps.update fun _ h => ⟨h.statmem, h.statuses, h.storage, h.inp, h.out, h.huff, h.edits⟩

theorem fit_crcLoop (fuel n : Nat) : Keeps (Engine.FitFor G) (crcLoop fuel n) := by
  induction fuel generalizing n with
  | zero => exact Keeps.pure _
  | succ fuel ih =>
    refine fit_readByte.bind fun r => ?_
    cases r with
    | none => exact Keeps.pure _
    | some b => exact (fit_crcByte b).bind fun _ => ih _

theorem fit_crcStream (k : Handle) : Keeps (Engine.FitFor G) (crcStream k) :=
  (fit_inInit _ _).bind fun _ => fit_crcInit.bind fun _ => (Keeps.look _).bind fun _ => (fit_crcLoop _ _).bind fun _ =>
    (Keeps.look _).bind fun _ => Keeps.pure _

theorem fit_archiveCrc (k : Handle) : Keeps (Engine.FitFor G) (archiveCrc k) :=
  (fit_sSeek _ _).bind fun _ => (fit_crcStream _).bind fun _ => Keeps.pure _

theorem Huffman.swap_shaped {g : Huffman} (h : g.shaped = true) (i j : Nat) : (g.swap i j).shaped = true := by
  have := Huffman.shaped_iff.1 h
  exact Huffman.shaped_iff.2 ⟨this.1, this.2.1, this.2.2.1, by simp [Huffman.swap, this.2.2.2.1], this.2.2.2.2⟩

theorem Huffman.siftUp_shaped (fuel i : Nat) {g : Huffman} (h : g.shaped = true) : (Huffman.siftUp fuel i g).shaped = true := by
  induction fuel generalizing i g with
  | zero => exact h
  | succ fuel ih =>
    unfold Huffman.siftUp
    split
    · exact ih _ (Huffman.swap_shaped h _ _)
    · exact h

theorem Huffman.siftDown_shaped (fuel i : Nat) {g : Huffman} (h : g.shaped = true) :
    (Huffman.siftDown fuel i g).shaped = true := by
  induction fuel generalizing i g with
  | zero => exact h
  | succ fuel ih =>
    unfold Huffman.siftDown
    split
    · exact h
    · exact ih _ (Huffman.swap_shaped h _ _)

theorem fit_insert (x : Nat) : Keeps (Engine.FitFor G) (insert x) := by
  intro e h
  simp only [insert, ends_bind, ends_look, ends_check, updateHuff, ends_update, bne_iff_ne, ne_eq]
  refine ⟨fun hn => ⟨h.statmem, h.statuses, h.storage, h.inp, h.out, ?_, h.edits⟩, fun _ => h⟩
  have := Huffman.shaped_iff.1 h.huff
  refine Huffman.siftUp_shaped _ _ (Huffman.shaped_iff.2 ⟨this.1, this.2.1, this.2.2.1, by simp [this.2.2.2.1], ?_, this.2.2.2.2.2⟩)
  show e.huff.hn + 1 ≤ _
  have := this.2.2.2.2.1
  omega

theorem fit_extractMin : Keeps (Engine.FitFor G) extractMin := by
  refine (Keeps.look _).bind fun g => (Keeps.check _ _).bind fun _ => (fit_updateHuff fun g h => ?_).bind fun _ => Keeps.pure _
  have := Huffman.shaped_iff.1 h
  refine Huffman.siftDown_shaped _ _ (Huffman.shaped_iff.2 ⟨this.1, this.2.1, this.2.2.1, by simp [this.2.2.2.1], ?_, this.2.2.2.2.2⟩)
  show g.hn - 1 ≤ _
  have := this.2.2.2.2.1
  omega

theorem fit_newNode (n : Node) : Keeps (Engine.FitFor G) (newNode n) := by
  intro e h
  simp only [newNode, ends_bind, ends_look, ends_check, updateHuff, ends_update, bne_iff_ne, ne_eq, ends_pure]
  refine ⟨fun hn => ⟨h.statmem, h.statuses, h.storage, h.inp, h.out, ?_, h.edits⟩, fun _ => h⟩
  have := Huffman.shaped_iff.1 h.huff
  refine Huffman.shaped_iff.2 ⟨this.1, by simp [Huffman.alloc, this.2.1], ?_, this.2.2.2⟩
  show e.huff.nn + 1 ≤ _
  have := this.2.2.1
  omega

theorem Huffman.count_shaped {g : Huffman} (h : g.shaped = true) (b : Byte) : (g.count b).shaped = true := by
  have := Huffman.shaped_iff.1 h
  exact Huffman.shaped_iff.2 ⟨by simp [Huffman.count, this.1], this.2⟩

theorem fit_analyzeLoop (fuel o : Nat) : Keeps (Engine.FitFor G) (analyzeLoop fuel o) := by
  induction fuel generalizing o with
  | zero => exact Keeps.pure _
  | succ fuel ih =>
    refine fit_readByte.bind fun r => ?_
    cases r with
    | none => exact Keeps.pure _
    | some b => exact (fit_updateHuff fun g h => Huffman.count_shaped h b).bind fun _ => ih _

theorem fit_analyze (f : Handle) (n : Nat) : Keeps (Engine.FitFor G) (analyze f n) := by
  refine (fit_updateHuff fun g h => ?_).bind fun _ => (fit_sSeek _ _).bind fun _ => (fit_inInit _ _).bind fun _ =>
    fit_analyzeLoop _ _
  have := Huffman.shaped_iff.1 h
  exact Huffman.shaped_iff.2 ⟨List.length_replicate, this.2⟩

theorem fit_insertLeaves (n s : Nat) : Keeps (Engine.FitFor G) (insertLeaves n s) := by
  induction n generalizing s with
  | zero => exact Keeps.pure _
  | succ n ih =>
    refine (Keeps.look _).bind fun f => ?_
    exact Keeps.ite ((fit_newNode _).bind fun _ => (fit_insert _).bind fun _ => ih _) (ih _)

theorem fit_mergeLoop (fuel : Nat) : Keeps (Engine.FitFor G) (mergeLoop fuel) := by
  induction fuel with
  | zero => exact Keeps.pure _
  | succ fuel ih =>
    refine (Keeps.look _).bind fun hn => Keeps.ite ?_ (Keeps.pure _)
    exact fit_extractMin.bind fun _ => fit_extractMin.bind fun _ => (Keeps.look _).bind fun _ => (fit_newNode _).bind fun _ =>
      (fit_insert _).bind fun _ => ih

theorem Huffman.root_shaped {g : Huffman} (h : g.shaped = true) (r : Option Nat) : ({ g with root := r } : Huffman).shaped = true := h

theorem fit_buildTree : Keeps (Engine.FitFor G) buildTree := by
  refine (fit_updateHuff fun g h => ?_).bind fun _ => (fit_updateHuff fun g h => ?_).bind fun _ =>
    (fit_insertLeaves _ _).bind fun _ => (Keeps.look _).bind fun hn => Keeps.ite (fit_updateHuff fun g h => h) ?_
  · have := Huffman.shaped_iff.1 h
    exact Huffman.shaped_iff.2 ⟨this.1, this.2.1, Nat.zero_le _, this.2.2.2⟩
  · have := Huffman.shaped_iff.1 h
    exact Huffman.shaped_iff.2 ⟨this.1, this.2.1, this.2.2.1, this.2.2.2.1, Nat.zero_le _, this.2.2.2.2.2⟩
  · exact (fit_mergeLoop _).bind fun _ => fit_extractMin.bind fun _ => fit_updateHuff fun g h => h

theorem Huffman.setCode_shaped {g : Huffman} (h : g.shaped = true) (s : Byte) {len : Nat} (hl : len ≤ Config.maxCodeLen)
    (bits : BitVec 64) : (g.setCode s len bits).shaped = true := by
  have := Huffman.shaped_iff.1 h
  refine Huffman.shaped_iff.2 ⟨this.1, this.2.1, this.2.2.1, this.2.2.2.1, this.2.2.2.2.1, by simp [Huffman.setCode, this.2.2.2.2.2.1],
    by simp [Huffman.setCode, this.2.2.2.2.2.2.1], fun l hm => ?_⟩
  rcases List.mem_or_eq_of_mem_set hm with hm | rfl
  · exact this.2.2.2.2.2.2.2 l hm
  · exact hl

theorem fit_visit (fuel x len : Nat) (bits : BitVec 64) (hl : len + fuel ≤ Config.maxCodeLen + 1) :
    Keeps (Engine.FitFor G) (visit fuel x len bits) := by
  induction fuel generalizing x len bits with
  | zero => exact Keeps.raise _
  | succ fuel ih =>
    refine (Keeps.look _).bind fun n => ?_
    cases n with
    | leaf s f => exact fit_updateHuff fun g h => Huffman.setCode_shaped h s (by omega) bits
    | inner f l r => exact (ih _ _ _ (by omega)).bind fun _ => ih _ _ _ (by omega)

theorem fit_buildCodes : Keeps (Engine.FitFor G) buildCodes := by
  refine (fit_updateHuff fun g h => ?_).bind fun _ => (Keeps.look _).bind fun g => ?_
  · have := Huffman.shaped_iff.1 h
    refine Huffman.shaped_iff.2 ⟨this.1, this.2.1, this.2.2.1, this.2.2.2.1, this.2.2.2.2.1, List.length_replicate,
      List.length_replicate, fun l hl => ?_⟩
    rw [List.eq_of_mem_replicate hl]
    exact Nat.zero_le _
  · cases g.root with
    | none => exact Keeps.pure _
    | some x =>
      show Keeps _ (match g.nodeAt x with
        | .leaf s _ => updateHuff fun g => g.setCode s 1 0
        | .inner _ _ _ => visit (Config.maxCodeLen + 1) x 0 0)
      cases g.nodeAt x with
      | leaf s f => exact fit_updateHuff fun g h => Huffman.setCode_shaped h s (by decide) 0
      | inner f l r => exact fit_visit _ _ _ _ (by decide)

theorem writes_serNode (fuel x : Nat) : Writes (serNode fuel x) := by
  induction fuel generalizing x with
  | zero => exact Writes.of_keeps (Keeps.raise _)
  | succ fuel ih =>
    refine (Writes.of_keeps (Keeps.look _)).bind fun n => ?_
    cases n with
    | leaf s f => exact (writes_writeBit _).bind fun _ => writes_writeByte _
    | inner f l r => exact (writes_writeBit _).bind fun _ => (ih _).bind fun _ => ih _

theorem writes_serializeTree : Writes serializeTree := by
  refine (Writes.of_keeps (Keeps.look _)).bind fun r => ?_
  cases r with
  | none => exact Writes.of_keeps (Keeps.pure _)
  | some x => exact writes_serNode _ _

theorem writes_payloadLoop (n : Nat) : Writes (payloadLoop n) := by
  induction n with
  | zero => exact Writes.of_keeps (Keeps.pure _)
  | succ n ih =>
    exact (Writes.of_keeps fit_readByte).bind fun _ => (Writes.of_keeps (Keeps.orRaise _ _)).bind fun _ =>
      (Writes.of_keeps (Keeps.look _)).bind fun _ => (Writes.of_keeps (Keeps.check _ _)).bind fun _ =>
      (writes_writeBits _).bind fun _ => ih

theorem writes_emitPayload (f : Handle) (o : Nat) : Writes (emitPayload f o) :=
  (Writes.of_keeps (fit_sSeek _ _)).bind fun _ => (Writes.of_keeps (fit_inInit _ _)).bind fun _ => writes_payloadLoop _

theorem fit_encodeFile (f g : Handle) (n : Nat) : Keeps (Engine.FitFor OutStream.Sized) (encodeFile f g n) :=
  (fit_analyze _ _).bind fun _ => fit_buildTree.bind fun _ => fit_buildCodes.bind fun _ => Keeps.outInit_bind _ <|
    writes_serializeTree.bind fun _ => (writes_emitPayload _ _).bind fun _ => writes_flush.bind fun _ =>
    (Writes.of_keeps (Keeps.look _)).bind fun _ => Writes.of_keeps (Keeps.pure _)

theorem Huffman.node_shaped {g : Huffman} (h : g.shaped = true) (x : Nat) (n : Node) :
    ({ g with node := g.node.set x n } : Huffman).shaped = true := by
  have := Huffman.shaped_iff.1 h
  exact Huffman.shaped_iff.2 ⟨this.1, by simp [this.2.1], this.2.2⟩

theorem fit_desNode (fuel : Nat) : Keeps (Engine.FitFor G) (desNode fuel) := by
  induction fuel with
  | zero => exact Keeps.pure _
  | succ fuel ih =>
    refine fit_readBit.bind fun r => ?_
    cases r with
    | none => exact Keeps.pure _
    | some b =>
      intro e h
      show Ends (look (·.huff.nn) >>= _) e _ _
      rw [ends_bind, ends_look]
      by_cases hc : e.huff.nn = Config.nodeCap
      · rw [if_pos hc]
        exact h
      · rw [if_neg hc]
        have h1 : Engine.FitFor G { e with huff := { e.huff with nn := e.huff.nn + 1 } } := by
          have := Huffman.shaped_iff.1 h.huff
          refine ⟨h.statmem, h.statuses, h.storage, h.inp, h.out, Huffman.shaped_iff.2 ⟨this.1, this.2.1, ?_, this.2.2.2⟩, h.edits⟩
          show e.huff.nn + 1 ≤ _
          have := this.2.2.1
          omega
        rw [ends_bind, updateHuff, ends_update]
        refine (?_ : Keeps (Engine.FitFor G) _) _ h1
        refine Keeps.ite ?_ ?_
        · refine fit_readByte.bind fun r => ?_
          cases r with
          | none => exact Keeps.pure _
          | some s => exact (fit_updateHuff fun g h => Huffman.node_shaped h _ _).bind fun _ => Keeps.pure _
        · refine ih.bind fun r => ?_
          cases r with
          | none => exact Keeps.pure _
          | some l =>
            refine ih.bind fun r => ?_
            cases r with
            | none => exact Keeps.pure _
            | some r => exact (fit_updateHuff fun g h => Huffman.node_shaped h _ _).bind fun _ => Keeps.pure _

theorem fit_deserializeTree : Keeps (Engine.FitFor G) deserializeTree := by
  refine (fit_updateHuff fun g h => ?_).bind fun _ => (fit_desNode _).bind fun r => ?_
  · have := Huffman.shaped_iff.1 h
    exact Huffman.shaped_iff.2 ⟨this.1, this.2.1, Nat.zero_le _, this.2.2.2⟩
  · cases r with
    | none => exact Keeps.pure _
    | some x => exact (fit_updateHuff fun g h => Huffman.root_shaped h _).bind fun _ => Keeps.pure _

theorem fit_descend (fuel x : Nat) : Keeps (Engine.FitFor G) (descend fuel x) := by
  induction fuel generalizing x with
  | zero => exact Keeps.pure _
  | succ fuel ih =>
    refine (Keeps.look _).bind fun n => ?_
    cases n with
    | leaf s f => exact Keeps.pure _
    | inner f l r =>
      refine fit_readBit.bind fun b => ?_
      cases b with
      | none => exact Keeps.pure _
      | some b => exact ih _

theorem fit_decodeSymbol : Keeps (Engine.FitFor G) decodeSymbol := by
  refine (Keeps.look _).bind fun g => ?_
  show Keeps _ (match g.nodeAt (g.root.getD 0) with
    | .leaf s _ => (do
      match (← readBit) with
      | none => pure none
      | some _ => pure (some s) : Eng (Option Byte))
    | .inner _ _ _ => descend Config.nodeCap (g.root.getD 0))
  cases g.nodeAt (g.root.getD 0) with
  | leaf s f =>
    refine fit_readBit.bind fun b => ?_
    cases b <;> exact Keeps.pure _
  | inner f l r => exact fit_descend _ _

theorem writes_symbolLoop (n w : Nat) : Writes (symbolLoop n w) := by
  induction n generalizing w with
  | zero => exact Writes.of_keeps (Keeps.pure _)
  | succ n ih =>
    refine (Writes.of_keeps fit_decodeSymbol).bind fun r => ?_
    cases r with
    | none => exact Writes.of_keeps (Keeps.pure _)
    | some s => exact (writes_writeByte s).bind fun _ => ih _

theorem fit_decodeBlock (h : Handle) (c o : Nat) (g : Handle) : Keeps (Engine.FitFor OutStream.Sized) (decodeBlock h c o g) := by
  refine Keeps.ite (Keeps.pure _) ((fit_inInit _ _).bind fun _ => fit_deserializeTree.bind fun b => Keeps.ite ?_ (Keeps.pure _))
  refine Keeps.outInit_bind _ ((writes_symbolLoop _ _).bind fun r => writes_flush.bind fun _ => ?_)
  cases r.2 with
  | true => exact (Writes.of_keeps (Keeps.look _)).bind fun _ => Writes.of_keeps (Keeps.pure _)
  | false => exact Writes.of_keeps (Keeps.pure _)

end Sys2Proof.Machine
end

