-- ==== Sys2Proof/Laws/FitCommands.lean ====
section
/-! SUPPORT. Every command keeps the engine's part of the invariant, wherever it ends. -/

namespace Sys2Proof.Machine

variable {α β : Type} {G : OutStream → Prop}

/-! ## Names -/

theorem nameLength_le {n : Nat} {bs : Bytes} {q : Nat} (h : nameLength n bs = some q) : q < n + 1 ∧ q < n := by
  induction n generalizing bs q with
  | zero => cases bs <;> simp [nameLength] at h
  | succ n ih =>
    cases bs with
    | nil => simp [nameLength] at h
    | cons b bs =>
      simp only [nameLength] at h
      split at h
      · injection h with h
        omega
      · rw [Option.map_eq_some_iff] at h
        obtain ⟨q', hq, rfl⟩ := h
        have := ih hq
        omega

/-- A name read has no 0x00 and fewer bytes than `fuel`. -/
theorem fit_readName (fuel : Nat) (e : Engine) (h : e.FitFor G) :
    Ends (readName fuel) e (fun r e' => e'.FitFor G ∧ ∀ p, r = some p → 0 ∉ p ∧ p.length < fuel) (fun _ => Engine.FitFor G) := by
  induction fuel generalizing e with
  | zero => exact ⟨h, by simp⟩
  | succ fuel ih =>
    rw [readName, ends_bind]
    refine (fit_readByte e h).mono (fun r e1 h1 => ?_) fun _ _ hs => hs
    cases r with
    | none => exact ⟨h1, by simp⟩
    | some b =>
      show Ends (if b = 0 then _ else if fuel = 0 then _ else _) _ _ _
      by_cases hb : b = 0
      · rw [if_pos hb]
        exact ⟨h1, fun p hp => by injection hp with hp; subst hp; simp⟩
      · rw [if_neg hb]
        by_cases hf : fuel = 0
        · rw [if_pos hf]
          exact ⟨h1, by simp⟩
        · rw [if_neg hf, ends_bind]
          refine (ih e1 h1).mono (fun r e2 h2 => ⟨h2.1, fun p hp => ?_⟩) fun _ _ hs => hs
          rw [Option.map_eq_some_iff] at hp
          obtain ⟨q, hq, rfl⟩ := hp
          have := h2.2 q hq
          refine ⟨?_, by rw [List.length_cons]; omega⟩
          simp only [List.mem_cons, not_or]
          exact ⟨fun hc => hb hc.symm, this.1⟩

/-- A record read leaves a well-formed entry in E (R63, R193). -/
theorem fit_recRead (e : Engine) (h : e.FitFor G) :
    Ends recRead e (fun r e' => e'.FitFor G ∧ (r ≠ none → e'.work.entry.wf = true)) (fun _ => Engine.FitFor G) := by
  rw [recRead, ends_bind]
  refine (fit_readName 255 e h).mono (fun r e1 h1 => ?_) fun _ _ hs => hs
  cases r with
  | none => exact ⟨h1.1, by simp⟩
  | some nm =>
    obtain ⟨hz, hl⟩ := h1.2 nm rfl
    show Ends (if nm.length = 0 then _ else _) _ _ _
    by_cases hn : nm.length = 0
    · rw [if_pos hn]
      exact ⟨h1.1, by simp⟩
    · rw [if_neg hn, ends_bind]
      have hwf : Path.wf nm = true := path_wf_of_valid hz (by
        simp only [lengthValid, Bool.and_eq_true, decide_eq_true_eq]
        have : Config.nameMax = 254 := rfl
        omega)
      refine (fit_rd32 _ h1.1).mono (fun r e2 h2 => ?_) fun _ _ hs => hs
      cases r with
      | none => exact ⟨h2, by simp⟩
      | some o =>
        show Ends (rd32 >>= _) _ _ _
        rw [ends_bind]
        refine (fit_rd32 _ h2).mono (fun r e3 h3 => ?_) fun _ _ hs => hs
        cases r with
        | none => exact ⟨h3, by simp⟩
        | some c =>
          show Ends (rd64 >>= _) _ _ _
          rw [ends_bind]
          refine (fit_rd64 _ h3).mono (fun r e4 h4 => ?_) fun _ _ hs => hs
          cases r with
          | none => exact ⟨h4, by simp⟩
          | some t => exact ⟨⟨h4.statmem, h4.statuses, h4.storage, h4.inp, h4.out, h4.huff, h4.edits⟩, fun _ => hwf⟩

theorem fit_recAt (pos : Nat) (e : Engine) (h : e.FitFor G) :
    Ends (recAt pos) e (fun _ e' => e'.FitFor G ∧ e'.work.entry.wf = true) (fun _ => Engine.FitFor G) := by
  simp only [recAt, ends_bind, ends_reg, ends_look]
  refine (fit_sSeek _ _ _ h).mono (fun _ e1 h1 => ?_) fun _ _ hs => hs
  refine (fit_inInit _ _ _ h1).mono (fun _ e2 h2 => ?_) fun _ _ hs => hs
  refine (fit_recRead _ h2).mono (fun r e3 h3 => ?_) fun _ _ hs => hs
  rw [ends_orRaise]
  refine ⟨fun k hk => ⟨h3.1, h3.2 (by simp [hk])⟩, fun _ => h3.1⟩

theorem keeps_recAt (pos : Nat) : Keeps (Engine.FitFor G) (recAt pos) :=
  fun e h => (fit_recAt pos e h).mono (fun _ _ h => h.1) fun _ _ h => h

/-! ## The sequencer -/

theorem fit_createFile {p : Path} (hp : Path.wf p = true) : Keeps (Engine.FitFor G) (createFile p) :=
  (fit_openCreate _ hp).bind fun _ => (Keeps.must _ _).bind fun _ => (Keeps.reg _).bind fun _ => (fit_wr _ _).bind fun _ =>
    (fit_archiveCrc _).bind fun _ => (fit_sSeek _ _).bind fun _ => (fit_wr _ _).bind fun _ => (fit_closeReg _).bind fun _ =>
    Keeps.pure _

theorem fit_failMode (m : ValidateMode) (a b : Word) : Keeps (Engine.FitFor G) (failMode m a b) := by
  cases m
  · exact Keeps.raise _
  · exact Keeps.pure _

theorem fit_openOrCreate {p : Path} (hp : Path.wf p = true) : Keeps (Engine.FitFor G) (openOrCreate p) := by
  refine (fit_openRead _ p).bind fun a => ?_
  cases a with
  | handle k => exact Keeps.pure _
  | fail => exact Keeps.raise _
  | notFound => exact (fit_createFile hp).bind fun _ => (fit_openRead _ p).bind fun _ => Keeps.must _ _

theorem fit_checkMagic (bs : Bytes) : Keeps (Engine.FitFor G) (checkMagic bs) := by
  induction bs with
  | nil => exact Keeps.pure _
  | cons b bs ih => exact fit_readByte.bind fun _ => (Keeps.check _ _).bind fun _ => ih

theorem keeps_recRead : Keeps (Engine.FitFor G) recRead :=
  fun e h => (fit_recRead e h).mono (fun _ _ h => h.1) fun _ _ h => h

theorem fit_validateRecords (n sum : Nat) : Keeps (Engine.FitFor G) (validateRecords n sum) := by
  induction n generalizing sum with
  | zero => exact Keeps.pure _
  | succ n ih =>
    refine keeps_recRead.bind fun r => ?_
    cases r with
    | none => exact Keeps.pure _
    | some k => exact (fit_updateWork _).bind fun _ => (Keeps.look _).bind fun _ => ih _

theorem fit_validateStructure (a : Handle) : Keeps (Engine.FitFor G) (validateStructure a) := by
  refine (Keeps.look _).bind fun _ => (fit_sSeek _ _).bind fun _ => (fit_inInit _ _).bind fun _ => fit_rd32.bind fun _ =>
    (Keeps.orRaise _ _).bind fun _ => (fit_updateWork _).bind fun _ => (fit_validateRecords _ _).bind fun r => ?_
  cases r with
  | none => exact Keeps.pure _
  | some sum => exact (Keeps.look _).bind fun _ => Keeps.pure _

theorem fit_openValidate {p : Path} (hp : Path.wf p = true) (m : ValidateMode) :
    Keeps (Engine.FitFor G) (openValidate p m) := by
  refine (fit_openOrCreate hp).bind fun _ => (Keeps.reg _).bind fun _ => (fit_sSize _).bind fun _ => (fit_updateWork _).bind fun _ =>
    (fit_sSeek _ _).bind fun _ => (fit_inInit _ _).bind fun _ => (fit_checkMagic _).bind fun _ => Keeps.ite ?_ ?_
  · cases m with
    | abort => exact Keeps.raise _
    | report => exact (fit_archiveCrc _).bind fun _ => fit_failMode _ _ _
  · refine (fit_sSeek _ _).bind fun _ => (fit_inInit _ _).bind fun _ => fit_rd32.bind fun _ => (Keeps.orRaise _ _).bind fun _ =>
      (fit_archiveCrc _).bind fun _ => Keeps.ite ?_ (fit_failMode _ _ _)
    exact (fit_validateStructure _).bind fun _ => Keeps.ite (Keeps.pure _) (fit_failMode _ _ _)

theorem fit_commit {p : Path} (hp : Path.wf p = true) (n : Nat) : Keeps (Engine.FitFor G) (commit p n) :=
  (Keeps.reg _).bind fun _ => (fit_sSeek _ _).bind fun _ => (fit_wr _ _).bind fun _ => (fit_archiveCrc _).bind fun _ =>
    (fit_sSeek _ _).bind fun _ => (fit_wr _ _).bind fun _ => (fit_sReplace _ hp).bind fun _ => (Keeps.check _ _).bind fun _ =>
    (fit_setReg _ _).bind fun _ => Keeps.pure _

theorem fit_markInvalid (ns : List Path) (i : Nat) (hi : i + ns.length ≤ Config.statmemBytes) :
    Keeps (Engine.FitFor G) (markInvalid i ns) := by
  induction ns generalizing i with
  | nil => exact Keeps.pure _
  | cons n ns ih =>
    rw [List.length_cons] at hi
    exact Keeps.ite (ih _ (by omega)) ((fit_setStatus (by omega) _).bind fun _ => ih _ (by omega))

theorem fit_markMissing (ns : List Path) (i : Nat) (hi : i + ns.length ≤ Config.statmemBytes) :
    Keeps (Engine.FitFor G) (markMissing i ns) := by
  induction ns generalizing i with
  | nil => exact Keeps.pure _
  | cons n ns ih =>
    rw [List.length_cons] at hi
    exact (Keeps.look _).bind fun _ =>
      Keeps.ite ((fit_setStatus (by omega) _).bind fun _ => ih _ (by omega)) (ih _ (by omega))

theorem fit_markNames (p : Path) (r : NameStatus) (ns : List Path) (i : Nat) (hi : i + ns.length ≤ Config.statmemBytes) :
    Keeps (Engine.FitFor G) (markNames p r i ns) := by
  induction ns generalizing i with
  | nil => exact Keeps.pure _
  | cons n ns ih =>
    rw [List.length_cons] at hi
    exact (Keeps.look _).bind fun _ =>
      Keeps.ite ((fit_setStatus (by omega) _).bind fun _ => ih _ (by omega)) (ih _ (by omega))

theorem fit_mark (sel : Selection) (hs : sel.list.length ≤ Config.statmemBytes) (j : Nat) (p : Path) (r : NameStatus) :
    Keeps (Engine.FitFor G) (sel.mark j p r) := by
  cases sel with
  | names ns => exact fit_markNames p r ns 0 (by simpa [Selection.list] using hs)
  | all =>
    show Keeps _ (if j < Config.statmemBytes then setStatus j r else pure ())
    split
    · exact fit_setStatus ‹_› r
    · exact Keeps.pure _

/-! ## Bodies -/

theorem fit_orRaise_bind {c : ErrorCode} {o : Option α} {f : α → Eng β} {P : Engine → Prop} (hf : ∀ a, o = some a → Keeps P (f a)) :
    Keeps P (orRaise c o >>= f) := by
  cases o with
  | none => exact fun e h => h
  | some a => exact fun e h => by rw [ends_bind]; exact hf a rfl e h

theorem fit_bodyCreate (s : State) : Keeps (Engine.FitFor G) (bodyCreate s) :=
  fit_orRaise_bind fun _ hp => (fit_createFile (archPath_wf hp)).bind fun _ => Keeps.pure _

theorem fit_bodyVerify (s : State) : Keeps (Engine.FitFor G) (bodyVerify s) :=
  fit_orRaise_bind fun _ hp => (fit_openValidate (archPath_wf hp) _).bind fun _ => Keeps.pure _

theorem fit_bodyInfo (s : State) : Keeps (Engine.FitFor G) (bodyInfo s) :=
  fit_orRaise_bind fun _ hp => (fit_openValidate (archPath_wf hp) _).bind fun _ => (Keeps.look _).bind fun _ => Keeps.pure _

theorem fit_skipRecords (n : Nat) : Keeps (Engine.FitFor G) (skipRecords n) := by
  induction n with
  | zero => exact Keeps.pure _
  | succ n ih => exact (Keeps.look _).bind fun _ => (keeps_recAt _).bind fun _ => (fit_updateWork _).bind fun _ => ih

/-- LIST_ENTRY lists a well-formed entry whose name fits at OUT_PTR, and succeeds then. -/
theorem fit_bodyListEntry (s : State) (e : Engine) (h : e.FitFor G) :
    Ends (bodyListEntry s) e
      (fun rep e' => e'.FitFor G ∧ ∀ en, rep.listing = some en →
        en.wf = true ∧ s.outPtr.toNat + en.name.length + 1 ≤ Config.argmemBytes)
      (fun _ => Engine.FitFor G) := by
  rw [bodyListEntry, ends_bind, ends_orRaise]
  refine ⟨fun p hp => ?_, fun _ => h⟩
  rw [ends_bind]
  refine (fit_openValidate (archPath_wf hp) _ e h).mono (fun _ e1 h1 => ?_) fun _ _ hs => hs
  simp only [ends_bind, ends_look, ends_check]
  refine ⟨fun _ => ?_, fun _ => h1⟩
  refine (fit_updateWork _ _ h1).mono (fun _ e2 h2 => ?_) fun _ _ hs => hs
  refine (fit_skipRecords _ _ h2).mono (fun _ e3 h3 => ?_) fun _ _ hs => hs
  refine (fit_recAt _ _ h3).mono (fun _ e4 h4 => ⟨fun hc => ?_, fun _ => h4.1⟩) fun _ _ hs => hs
  refine ⟨h4.1, fun en hen => ?_⟩
  injection hen with hen
  subst hen
  exact ⟨h4.2, by simpa using hc⟩

theorem fit_appendName (i : Nat) (hi : i < Config.statmemBytes) (n : Path) :
    Keeps (Engine.FitFor OutStream.Sized) (appendName i n) := by
  have hfail : ∀ v, Keeps (Engine.FitFor OutStream.Sized) (failName i v) :=
    fun v => (fit_setStatus hi v).bind fun _ => fit_updateWork _
  refine Keeps.ite ((fit_openRead _ n).bind fun a => ?_) (hfail _)
  cases a with
  | notFound => exact hfail _
  | fail => exact hfail _
  | handle f =>
    refine (fit_sSize _).bind fun size => (Keeps.look _).bind fun w => Keeps.ite ((fit_closeReg _).bind fun _ => hfail _) ?_
    exact fit_sNow.bind fun _ => (Keeps.reg _).bind fun _ => (Keeps.reg _).bind fun _ => (fit_encodeFile _ _ _).bind fun _ =>
      (fit_closeReg _).bind fun _ => (Keeps.reg _).bind fun _ => (fit_wr _ _).bind fun _ => (fit_setStatus hi _).bind fun _ =>
      fit_updateWork _

theorem fit_appendNames (ns : List Path) (i : Nat) (hi : i + ns.length ≤ Config.statmemBytes) :
    Keeps (Engine.FitFor OutStream.Sized) (appendNames i ns) := by
  induction ns generalizing i with
  | nil => exact Keeps.pure _
  | cons n ns ih =>
    rw [List.length_cons] at hi
    exact (fit_appendName i (by omega) n).bind fun _ => ih _ (by omega)

theorem fit_copyFrom (h : Handle) (pos n : Nat) : Keeps (Engine.FitFor G) (copyFrom h pos n) :=
  (fit_sSeek _ _).bind fun _ => (Keeps.reg _).bind fun _ => fit_copy _ _ _

theorem fit_copyWhole (h : Handle) : Keeps (Engine.FitFor G) (copyWhole h) :=
  (fit_sSeek _ _).bind fun _ => (fit_sSize _).bind fun _ => (Keeps.reg _).bind fun _ => fit_copy _ _ _

theorem fit_appendCommit {p : Path} (hp : Path.wf p = true) : Keeps (Engine.FitFor G) (appendCommit p) :=
  (Keeps.reg _).bind fun _ => (fit_sSeek _ _).bind fun _ => (fit_wr _ _).bind fun _ => (Keeps.look _).bind fun _ =>
    (Keeps.reg _).bind fun _ => (fit_copyFrom _ _ _).bind fun _ => (Keeps.reg _).bind fun _ => (fit_copyWhole _).bind fun _ =>
    (fit_copyFrom _ _ _).bind fun _ => (Keeps.reg _).bind fun _ => (fit_copyWhole _).bind fun _ => (fit_commit hp _).bind fun _ =>
    Keeps.pure _

theorem batch_wf {s : State} {p : Path} {ns : List Path} (h : batchOperands s = some (p, ns)) :
    Path.wf p = true ∧ ns.length ≤ Config.statmemBytes := by
  obtain ⟨hp, hn, hc⟩ := batchOperands_eq_some.1 h
  refine ⟨archPath_wf hp, ?_⟩
  rw [(names_spec hn).1]
  exact hc

theorem fit_bodyAppend (s : State) : Keeps (Engine.FitFor OutStream.Sized) (bodyAppend s) := by
  refine fit_orRaise_bind fun o ho => ?_
  obtain ⟨p, ns⟩ := o
  obtain ⟨hp, hn⟩ := batch_wf ho
  refine (fit_openValidate hp _).bind fun _ => (fit_openTemp _).bind fun _ => (Keeps.must _ _).bind fun _ =>
    (fit_openTemp _).bind fun _ => (Keeps.must _ _).bind fun _ => (fit_openTemp _).bind fun _ => (Keeps.must _ _).bind fun _ =>
    (fit_updateWork _).bind fun _ => (fit_appendNames ns 0 (by omega)).bind fun _ => (Keeps.look _).bind fun k => ?_
  exact Keeps.ite ((fit_appendCommit hp).bind fun _ => (Keeps.look _).bind fun _ => Keeps.pure _)
    ((Keeps.look _).bind fun _ => Keeps.pure _)

theorem fit_extractEntry {en : Entry} (hen : en.wf = true) (off : Nat) :
    Keeps (Engine.FitFor OutStream.Sized) (extractEntry en off) := by
  refine (fit_openCreate _ hen).bind fun a => ?_
  cases a with
  | notFound => exact Keeps.pure _
  | fail => exact Keeps.pure _
  | handle g =>
    refine (Keeps.reg _).bind fun _ => (fit_sSeek _ _).bind fun _ => (fit_decodeBlock _ _ _ _).bind fun r => ?_
    cases r with
    | corrupt w => exact (fit_closeReg _).bind fun _ => Keeps.pure _
    | done w b => exact (fit_closeReg _).bind fun _ => Keeps.pure _

/-- Reading a record and going on with the entry it left. -/
theorem Keeps.recAt_bind {pos : Nat} {f : Nat → Entry → Eng α} (hf : ∀ k en, en.wf = true → Keeps (Engine.FitFor G) (f k en)) :
    Keeps (Engine.FitFor G) (recAt pos >>= fun k => Machine.look (·.work.entry) >>= fun en => f k en) := by
  intro e h
  rw [ends_bind]
  refine (fit_recAt pos e h).mono (fun k e1 h1 => ?_) fun _ _ hs => hs
  rw [ends_bind, ends_look]
  exact hf k _ h1.2 e1 h1.1

theorem fit_extractLoop (sel : Selection) (hs : sel.list.length ≤ Config.statmemBytes) (n j : Nat) :
    Keeps (Engine.FitFor OutStream.Sized) (extractLoop sel n j) := by
  induction n generalizing j with
  | zero => exact Keeps.pure _
  | succ n ih =>
    refine (Keeps.look _).bind fun pos => (Keeps.look _).bind fun off => Keeps.recAt_bind fun k en hen => ?_
    refine Keeps.ite ?_ ((fit_updateWork _).bind fun _ => ih _)
    exact (fit_extractEntry hen _).bind fun r => (fit_updateWork _).bind fun _ => (fit_mark sel hs _ _ _).bind fun _ =>
      (fit_updateWork _).bind fun _ => ih _

theorem Keeps.withCounts {P : Engine → Prop} {x : Eng α} (h : Keeps P x) : Keeps P (withCounts x) := by
  intro e he
  have := h e he
  unfold Ends at this ⊢
  unfold Machine.withCounts
  cases hx : x e with
  | ok a e' => simpa [hx] using this
  | error st e' =>
    rw [hx] at this
    cases st with
    | unanswered => exact this
    | error c r0 r1 => cases c <;> exact this

theorem fit_extractFrom {p : Path} (hp : Path.wf p = true) (sel : Selection) (hs : sel.list.length ≤ Config.statmemBytes) :
    Keeps (Engine.FitFor OutStream.Sized) (extractFrom p sel) :=
  (fit_openValidate hp _).bind fun _ => (fit_markInvalid _ 0 (by omega)).bind fun _ => (fit_updateWork _).bind fun _ =>
    (Keeps.look _).bind fun _ => (Keeps.withCounts (fit_extractLoop sel hs _ _)).bind fun _ =>
    (fit_markMissing _ 0 (by omega)).bind fun _ => (Keeps.look _).bind fun _ => Keeps.pure _

theorem named_wf {s : State} {p : Path} {sel : Selection} (h : namedOperands s = some (p, sel)) :
    Path.wf p = true ∧ sel.list.length ≤ Config.statmemBytes := by
  simp only [namedOperands, Option.map_eq_some_iff] at h
  obtain ⟨⟨p', ns⟩, ho, heq⟩ := h
  injection heq with h1 h2
  subst h1 h2
  exact batch_wf ho

theorem all_wf {s : State} {p : Path} {sel : Selection} (h : allOperands s = some (p, sel)) :
    Path.wf p = true ∧ sel.list.length ≤ Config.statmemBytes := by
  simp only [allOperands, Option.map_eq_some_iff] at h
  obtain ⟨p', ho, heq⟩ := h
  injection heq with h1 h2
  subst h1 h2
  exact ⟨archPath_wf ho, by decide⟩

theorem fit_bodyExtract (s : State) : Keeps (Engine.FitFor OutStream.Sized) (bodyExtract s) :=
  fit_orRaise_bind fun _ ho => fit_extractFrom (named_wf ho).1 _ (named_wf ho).2

theorem fit_bodyExtractAll (s : State) : Keeps (Engine.FitFor OutStream.Sized) (bodyExtractAll s) :=
  fit_orRaise_bind fun _ ho => fit_extractFrom (all_wf ho).1 _ (all_wf ho).2

theorem fit_removeRecords (sel : Selection) (hs : sel.list.length ≤ Config.statmemBytes) (n j a b : Nat) :
    Keeps (Engine.FitFor G) (removeRecords sel n j a b) := by
  induction n generalizing j a b with
  | zero => exact Keeps.pure _
  | succ n ih =>
    refine (Keeps.look _).bind fun pos => (keeps_recAt _).bind fun k => (Keeps.look _).bind fun en => Keeps.ite ?_ ?_
    · exact (fit_mark sel hs _ _ _).bind fun _ => (fit_updateWork _).bind fun _ => ih _ _ _
    · exact (Keeps.reg _).bind fun _ => (fit_copyFrom _ _ _).bind fun _ => (fit_updateWork _).bind fun _ => ih _ _ _

theorem fit_removeBlocks (sel : Selection) (n : Nat) : Keeps (Engine.FitFor G) (removeBlocks sel n) := by
  induction n with
  | zero => exact Keeps.pure _
  | succ n ih =>
    refine (Keeps.look _).bind fun pos => (Keeps.look _).bind fun off => (keeps_recAt _).bind fun k => (Keeps.look _).bind fun en =>
      Keeps.ite ((fit_updateWork _).bind fun _ => ih) ?_
    exact (Keeps.reg _).bind fun _ => (fit_copyFrom _ _ _).bind fun _ => (fit_updateWork _).bind fun _ => ih

theorem fit_removeFrom {p : Path} (hp : Path.wf p = true) (sel : Selection) (hs : sel.list.length ≤ Config.statmemBytes) :
    Keeps (Engine.FitFor G) (removeFrom p sel) :=
  (fit_openValidate hp _).bind fun _ => (fit_openTemp _).bind fun _ => (Keeps.must _ _).bind fun _ =>
    (fit_markInvalid _ 0 (by omega)).bind fun _ => (Keeps.reg _).bind fun _ => (fit_sSeek _ _).bind fun _ => (fit_wr _ _).bind fun _ =>
    (Keeps.look _).bind fun _ => (fit_updateWork _).bind fun _ => (fit_removeRecords sel hs _ _ _ _).bind fun _ =>
    (fit_updateWork _).bind fun _ => (fit_removeBlocks sel _).bind fun _ => (fit_markMissing _ 0 (by omega)).bind fun _ =>
    Keeps.ite ((fit_commit hp _).bind fun _ => Keeps.pure _) (Keeps.pure _)

theorem fit_bodyRemove (s : State) : Keeps (Engine.FitFor G) (bodyRemove s) :=
  fit_orRaise_bind fun _ ho => fit_removeFrom (named_wf ho).1 _ (named_wf ho).2

theorem fit_bodyRemoveAll (s : State) : Keeps (Engine.FitFor G) (bodyRemoveAll s) :=
  fit_orRaise_bind fun _ ho => fit_removeFrom (all_wf ho).1 _ (all_wf ho).2

theorem two_wf {s : State} {p0 p1 : Path} (h : twoFiles s = some (p0, p1)) : Path.wf p0 = true ∧ Path.wf p1 = true := by
  obtain ⟨-, hn, h0, h1⟩ := twoFiles_eq_some.1 h
  exact ⟨(names_spec hn).2 _ (by simp) h0, (names_spec hn).2 _ (by simp) h1⟩

theorem fit_bodyEncode (s : State) : Keeps (Engine.FitFor OutStream.Sized) (bodyEncode s) :=
  fit_orRaise_bind fun _ ho => (fit_openRead _ _).bind fun _ => (Keeps.must _ _).bind fun _ => (Keeps.reg _).bind fun _ =>
    (fit_sSize _).bind fun _ => (Keeps.check _ _).bind fun _ => (fit_openCreate _ (two_wf ho).2).bind fun _ =>
    (Keeps.must _ _).bind fun _ => (Keeps.reg _).bind fun _ => (Keeps.reg _).bind fun _ => (fit_encodeFile _ _ _).bind fun _ =>
    Keeps.pure _

theorem fit_bodyDecode (s : State) : Keeps (Engine.FitFor OutStream.Sized) (bodyDecode s) := by
  refine fit_orRaise_bind fun _ ho => (fit_openRead _ _).bind fun _ => (Keeps.must _ _).bind fun _ =>
    (fit_openCreate _ (two_wf ho).2).bind fun _ => (Keeps.must _ _).bind fun _ => (Keeps.reg _).bind fun _ =>
    (fit_sSize _).bind fun _ => (fit_sSeek _ _).bind fun _ => (Keeps.reg _).bind fun _ => (fit_decodeBlock _ _ _ _).bind fun r => ?_
  cases r with
  | done w b => exact Keeps.pure _
  | corrupt w => exact Keeps.raiseWith _ _ _

theorem fit_bodyCrc32 (s : State) : Keeps (Engine.FitFor G) (bodyCrc32 s) :=
  fit_orRaise_bind fun _ _ => (fit_openRead _ _).bind fun _ => (Keeps.must _ _).bind fun _ => (Keeps.reg _).bind fun _ =>
    (fit_sSeek _ _).bind fun _ => (fit_crcStream _).bind fun _ => Keeps.pure _

/-- Every command's body keeps the engine's part of the invariant. -/
theorem keeps_body (i : Instr) (s : State) : Keeps (Engine.FitFor OutStream.Sized) (Instr.body i s) := by
  cases i with
  | create => exact fit_bodyCreate s
  | append => exact fit_bodyAppend s
  | extract => exact fit_bodyExtract s
  | extractAll => exact fit_bodyExtractAll s
  | remove => exact fit_bodyRemove s
  | removeAll => exact fit_bodyRemoveAll s
  | verify => exact fit_bodyVerify s
  | info => exact fit_bodyInfo s
  | listEntry => exact fun e h => (fit_bodyListEntry s e h).mono (fun _ _ h => h.1) fun _ _ h => h
  | encode => exact fit_bodyEncode s
  | decode => exact fit_bodyDecode s
  | crc32 => exact fit_bodyCrc32 s

/-! ## What a report lists -/

/-- The answer is in `Q`, wherever the computation starts. -/
def Answers (Q : α → Prop) (x : Eng α) : Prop := ∀ e, Ends x e (fun a _ => Q a) (fun _ _ => True)

section
variable {Q : β → Prop}

theorem Answers.bind {x : Eng α} {f : α → Eng β} (hf : ∀ a, Answers Q (f a)) : Answers Q (x >>= f) := by
  intro e
  rw [ends_bind]
  unfold Ends
  split
  · exact hf _ _
  · trivial

theorem Answers.pure {b : β} (h : Q b) : Answers Q (pure b : Eng β) := fun _ => h

end

/-- Only LIST_ENTRY lists an entry. -/
theorem body_lists_nothing {i : Instr} (hi : i ≠ .listEntry) (s : State) :
    Answers (fun rep : Report => rep.listing = none) (Instr.body i s) := by
  have hx : ∀ p sel, Answers (fun rep : Report => rep.listing = none) (extractFrom p sel) := fun p sel =>
    Answers.bind fun _ => Answers.bind fun _ => Answers.bind fun _ => Answers.bind fun _ => Answers.bind fun _ => Answers.bind fun _ =>
      Answers.bind fun _ => Answers.pure rfl
  have hr : ∀ p sel, Answers (fun rep : Report => rep.listing = none) (removeFrom p sel) := fun p sel =>
    Answers.bind fun _ => Answers.bind fun _ => Answers.bind fun _ => Answers.bind fun _ => Answers.bind fun _ => Answers.bind fun _ =>
      Answers.bind fun _ => Answers.bind fun _ => Answers.bind fun _ => Answers.bind fun _ => Answers.bind fun _ => Answers.bind fun _ =>
      Answers.bind fun _ => by
        show Answers _ (if _ then _ else _)
        split
        · exact Answers.bind fun _ => Answers.pure rfl
        · exact Answers.pure rfl
  cases i with
  | create => exact Answers.bind fun _ => Answers.bind fun _ => Answers.pure rfl
  | append =>
    refine Answers.bind fun o => Answers.bind fun _ => Answers.bind fun _ => Answers.bind fun _ => Answers.bind fun _ => Answers.bind fun _ =>
      Answers.bind fun _ => Answers.bind fun _ => Answers.bind fun _ => Answers.bind fun _ => Answers.bind fun _ => ?_
    show Answers _ (if _ then _ else _)
    split
    · exact Answers.bind fun _ => Answers.bind fun _ => Answers.pure rfl
    · exact Answers.bind fun _ => Answers.pure rfl
  | extract => exact Answers.bind fun _ => hx _ _
  | extractAll => exact Answers.bind fun _ => hx _ _
  | remove => exact Answers.bind fun _ => hr _ _
  | removeAll => exact Answers.bind fun _ => hr _ _
  | verify => exact Answers.bind fun _ => Answers.bind fun _ => Answers.pure rfl
  | info => exact Answers.bind fun _ => Answers.bind fun _ => Answers.bind fun _ => Answers.pure rfl
  | listEntry => exact absurd rfl hi
  | encode =>
    exact Answers.bind fun _ => Answers.bind fun _ => Answers.bind fun _ => Answers.bind fun _ => Answers.bind fun _ => Answers.bind fun _ =>
      Answers.bind fun _ => Answers.bind fun _ => Answers.bind fun _ => Answers.bind fun _ => Answers.bind fun _ => Answers.pure rfl
  | decode =>
    refine Answers.bind fun _ => Answers.bind fun _ => Answers.bind fun _ => Answers.bind fun _ => Answers.bind fun _ => Answers.bind fun _ =>
      Answers.bind fun _ => Answers.bind fun _ => Answers.bind fun _ => Answers.bind fun r => ?_
    cases r with
    | done w b => exact Answers.pure rfl
    | corrupt w => exact fun _ => trivial
  | crc32 =>
    exact Answers.bind fun _ => Answers.bind fun _ => Answers.bind fun _ => Answers.bind fun _ => Answers.bind fun _ => Answers.bind fun _ =>
      Answers.pure rfl

/-- An entry that a report lists is well formed and fits at OUT_PTR. -/
def ListsOk (s : State) (rep : Report) : Prop :=
  ∀ en, rep.listing = some en → en.wf = true ∧ s.outPtr.toNat + en.name.length + 1 ≤ Config.argmemBytes

theorem fit_body (i : Instr) (s : State) (e : Engine) (h : e.FitFor OutStream.Sized) :
    Ends (Instr.body i s) e (fun rep e' => e'.FitFor OutStream.Sized ∧ ListsOk s rep) (fun _ => Engine.FitFor OutStream.Sized) := by
  by_cases hi : i = .listEntry
  · subst hi
    exact fit_bodyListEntry s e h
  · refine (ends_and (keeps_body i s e h) (body_lists_nothing hi s e)).mono (fun rep e' hq => ⟨hq.1, fun en hen => ?_⟩)
      fun _ _ hq => hq.1
    rw [hq.2] at hen
    exact absurd hen (by simp)

/-! ## Conclusion -/

theorem fit_breachEffects {ps : List Path} (hps : ∀ p ∈ ps, Path.wf p = true) (st ls : Bool) (c : ErrorCode) (s : State)
    (e : Engine) (h : e.FitFor G) :
    Ends (breachEffects ps st ls s.outPtr.toNat c) e (fun rep e' => e'.FitFor G ∧ ListsOk s rep) (fun _ => Engine.FitFor G) := by
  have hrep : ∀ k, ListsOk s (breachReport k ls s.outPtr.toNat c) := by
    intro k en hen
    unfold breachReport at hen
    split at hen
    · exact absurd hen (by simp)
    simp only [freeReport, Option.filter_eq_some_iff, Bool.and_eq_true, decide_eq_true_eq] at hen
    exact ⟨hen.2.1.2, hen.2.2⟩
  simp only [breachEffects, ends_bind]
  refine (fit_unspecify hps e h).mono (fun _ e1 h1 => ?_) fun _ _ hs => hs
  refine (fit_nextFree e1 h1).mono (fun k e2 h2 => ?_) fun _ _ hs => hs
  rw [ends_ite]
  refine ⟨fun _ => ?_, fun _ => ⟨h2, hrep k⟩⟩
  rw [ends_bind]
  exact (fit_setStatuses _ _ e2 h2).mono (fun _ _ h3 => ⟨h3, hrep k⟩) fun _ _ hs => hs

/-- The files open for writing have names that files can have. -/
theorem openForWriting_wf {st : Storage} (h : st.Ok) : ∀ p ∈ st.openForWriting, Path.wf p = true := by
  intro p hp
  simp only [Storage.openForWriting, List.mem_filterMap] at hp
  obtain ⟨x, hx, hxp⟩ := hp
  refine Storage.opens_iff.1 h.opens x hx p ?_
  split at hxp
  · rename_i q hq
    split at hxp
    · injection hxp with hxp
      rw [hq, hxp]
    · exact absurd hxp (by simp)
  · exact absurd hxp (by simp)

theorem fit_abandon (rep : Report) : Keeps (Engine.FitFor G) (abandon rep) := by
  intro e h
  rw [ends_abandon]
  exact ⟨fun _ => fit_scramble (openForWriting_wf h.storage) e h, fun _ => h⟩

/-- A command's conclusion keeps the engine's part of the invariant, where the files of a broken duty are paths. -/
theorem fit_concluding (i : Instr) (s : State) (e : Engine) (h : e.FitFor OutStream.Sized)
    (hb : ∀ ps, s.breach (naming i s) = some ps → ∀ p ∈ ps, Path.wf p = true) :
    Ends (concluding s (naming i s) (Instr.body i s)) e
      (fun rep e' => e'.FitFor OutStream.Sized ∧ ListsOk s rep) (fun _ => Engine.FitFor OutStream.Sized) := by
  rw [ends_concluding, ends_reporting]
  have hrest : ∀ (rep : Report) e1, e1.FitFor OutStream.Sized → ListsOk s rep →
      Ends (abandon rep) e1 (fun _ e => Ends closeAll e (fun _ e => Ends (unlessBreached s (naming i s) rep) e.landAll
        (fun rep e' => e'.FitFor OutStream.Sized ∧ ListsOk s rep) (fun _ => Engine.FitFor OutStream.Sized))
        (fun _ => Engine.FitFor OutStream.Sized)) (fun _ => Engine.FitFor OutStream.Sized) := by
    intro rep e1 h1 hl
    refine (fit_abandon rep e1 h1).mono (fun _ e2 h2 => ?_) fun _ _ hs => hs
    refine (fit_closeAll e2 h2).mono (fun _ e3 h3 => ?_) fun _ _ hs => hs
    rw [ends_unlessBreached]
    exact ⟨fun _ => ⟨h3.landAll, hl⟩, fun ps hps => fit_breachEffects (hb ps hps) _ _ _ s _ h3.landAll⟩
  refine (fit_body i s e h).mono (fun rep e1 h1 => hrest rep e1 h1.1 h1.2) fun st e1 h1 => ?_
  cases st with
  | error c r0 r1 => exact hrest _ e1 h1 fun en hen => absurd hen (by simp)
  | unanswered => exact h1

end Sys2Proof.Machine
end

