-- ==== Sys2Proof/Laws/PerInstr.lean ====
section
/-! SUPPORT. What holds of every command as syntax: one statement per family, one lemma per constructor. -/

namespace Sys2Proof.Laws.Encodes

/-- The command is well formed, its word is the one R102 gives, its bytes decode to it with the bytes after them left over,
and spec/opcode_table.json's numbering of its bits gives it. -/
def Statement (i : Instr) : Prop :=
  i.wf = true ∧ decodeWord i.word = .ok i ∧ (∀ rest, decode (encode i ++ rest) = .ok (i, rest)) ∧
    decodeTableWord 32 i.word.toNat = some i

theorem create : Statement .create := ⟨rfl, rfl, fun _ => rfl, rfl⟩
theorem append : Statement .append := ⟨rfl, rfl, fun _ => rfl, rfl⟩
theorem extract : Statement .extract := ⟨rfl, rfl, fun _ => rfl, rfl⟩
theorem extractAll : Statement .extractAll := ⟨rfl, rfl, fun _ => rfl, rfl⟩
theorem remove : Statement .remove := ⟨rfl, rfl, fun _ => rfl, rfl⟩
theorem removeAll : Statement .removeAll := ⟨rfl, rfl, fun _ => rfl, rfl⟩
theorem verify : Statement .verify := ⟨rfl, rfl, fun _ => rfl, rfl⟩
theorem info : Statement .info := ⟨rfl, rfl, fun _ => rfl, rfl⟩
theorem listEntry : Statement .listEntry := ⟨rfl, rfl, fun _ => rfl, rfl⟩
theorem encode : Statement .encode := ⟨rfl, rfl, fun _ => rfl, rfl⟩
theorem decode : Statement .decode := ⟨rfl, rfl, fun _ => rfl, rfl⟩
theorem crc32 : Statement .crc32 := ⟨rfl, rfl, fun _ => rfl, rfl⟩

end Sys2Proof.Laws.Encodes
end

