-- ==== Sys2Proof/Tests/Slice0.lean ====
section
/-! SUPPORT. Tests: ill-formed terms that WellFormed refuses, the words of R102 written out bit by bit, one step of each
command against spec/95_test_vectors.md and the rules' examples, and states that meet the statements' hypotheses. -/

namespace Sys2Proof.Tests

set_option Elab.async false

open Sys2Proof Sys2Proof.Machine

/-! ## WellFormed refuses -/

theorem test_wf_refuses_reserved_bit : (Cmd32.mk 0x01 false 1).wf = false := by decide
theorem test_wf_refuses_op_zero : (Cmd32.mk 0x00 false 0).wf = false := by decide
theorem test_wf_refuses_op_13 : (Cmd32.mk 0x13 false 0).wf = false := by decide
theorem test_wf_refuses_all_on_create : (Cmd32.mk 0x01 true 0).wf = false := by decide
theorem test_wf_accepts_all_on_remove : (Cmd32.mk 0x04 true 0).wf = true := by decide
theorem test_wf_refuses_empty_path : Path.wf [] = false := by decide
theorem test_wf_refuses_long_path : Path.wf (List.replicate 255 0x61) = false := by decide +kernel
theorem test_wf_accepts_longest_path : Path.wf (List.replicate 254 0x61) = true := by decide +kernel
theorem test_wf_refuses_zero_in_path : Path.wf [0x61, 0x00] = false := by decide
theorem test_wf_refuses_entry_without_name : Entry.wf ⟨[], 1, 2, 3⟩ = false := by decide

/-! ## The words of R102: RSV (23 bits), ALL (1 bit), OP (8 bits) -/

theorem test_decode_create : decodeWord 0b00000000000000000000000_0_00000001 = .ok .create := by rfl
theorem test_decode_append : decodeWord 0b00000000000000000000000_0_00000010 = .ok .append := by rfl
theorem test_decode_extract : decodeWord 0b00000000000000000000000_0_00000011 = .ok .extract := by rfl
theorem test_decode_extract_all : decodeWord 0b00000000000000000000000_1_00000011 = .ok .extractAll := by rfl
theorem test_decode_remove : decodeWord 0b00000000000000000000000_0_00000100 = .ok .remove := by rfl
theorem test_decode_remove_all : decodeWord 0b00000000000000000000000_1_00000100 = .ok .removeAll := by rfl
theorem test_decode_verify : decodeWord 0b00000000000000000000000_0_00000101 = .ok .verify := by rfl
theorem test_decode_info : decodeWord 0b00000000000000000000000_0_00000110 = .ok .info := by rfl
theorem test_decode_list_entry : decodeWord 0b00000000000000000000000_0_00000111 = .ok .listEntry := by rfl
theorem test_decode_encode : decodeWord 0b00000000000000000000000_0_00010000 = .ok .encode := by rfl
theorem test_decode_decode : decodeWord 0b00000000000000000000000_0_00010001 = .ok .decode := by rfl
theorem test_decode_crc32 : decodeWord 0b00000000000000000000000_0_00010010 = .ok .crc32 := by rfl
theorem test_decode_refuses_op_zero : decodeWord 0x00000000 = .error .unknownOp := by rfl
theorem test_decode_refuses_all_on_verify : decodeWord 0x00000105 = .error .allNotAllowed := by rfl
theorem test_decode_refuses_lowest_reserved_bit : decodeWord 0x00000201 = .error .reservedBits := by rfl
theorem test_decode_refuses_highest_reserved_bit : decodeWord 0x80000104 = .error .reservedBits := by rfl
theorem test_decode_refuses_three_bytes : decode [0x01, 0x00, 0x00] = .error .truncated := by rfl
theorem test_decode_bytes_little_endian : decode [0x03, 0x01, 0x00, 0x00, 0x55] = .ok (.extractAll, [0x55]) := by rfl

/-! ## Small states -/

/-- Bytes at an ARGMEM offset. -/
def withArg (s : State) (a : Nat) (bs : Bytes) : State :=
  { s with argmem := Memory.writeBytes (argDefault s.argEpoch) s.argmem a bs }

/-- Names, each with its 0x00. -/
def nameList (ns : List Path) : Bytes := ns.flatMap fun n => n ++ [0]

/-- A state in which a command was accepted: the archive path "p" at offset 0x100, a name list at 0x200, a namespace. -/
def demo (i : Instr) (ns : List Path) (fs : Files) : State :=
  let s := withArg (withArg (State.reset.accept i.word) 0x100 [0x70, 0]) 0x200 (nameList ns)
  { s with
    archPtr := 0x100, namesPtr := 0x200, argc := BitVec.ofNat 13 ns.length
    eng := { s.eng with storage := { s.eng.storage with fs := fs } } }

/-- The state after one step. -/
def after (s : State) : State :=
  match step s with
  | .next t    => t
  | .fault _   => s
  | .refused _ => s

/-- The state of a command whose storage answers nothing. -/
def unanswered : State :=
  let s := demo .create [] []
  { s with eng := { s.eng with draws := { s.eng.draws with answers := some 0 } } }

/-- ERROR.CODE, RESULT0 and RESULT1. -/
def report (s : State) : Nat × Nat × Nat := (s.errCode.toNat, s.result0.toNat, s.result1.toNat)

/-- The first `n` status bytes. -/
def statuses (s : State) (n : Nat) : List Byte := (List.range n).map s.eng.statByte

/-- Names used below: "p" the archive, "x", "y.txt", "z", "out". -/
def pathP : Path := [0x70]
def pathX : Path := [0x78]
def pathY : Path := [0x79, 0x2E, 0x74, 0x78, 0x74]
def pathZ : Path := [0x7A]
def pathOut : Path := [0x6F, 0x75, 0x74]

/-- "abracadabra" and its block (V-H1). -/
def abracadabra : Bytes := [0x61, 0x62, 0x72, 0x61, 0x63, 0x61, 0x64, 0x61, 0x62, 0x72, 0x61]
def abraBlock : Bytes := [0x86, 0x71, 0x2C, 0x99, 0x62, 0xE5, 0xEC, 0xA2, 0x76]

/-- The archives of spec/95_test_vectors.md: V-A1 empty, V-A2 with x = "A", V-A3 with x and y.txt, V-A4 with y.txt, V-A7 with a
block shorter than its entry says. -/
def archA1 : Bytes := Config.magic ++ [0x1C, 0xDF, 0x44, 0x21, 0, 0, 0, 0]
def archA2 : Bytes := Config.magic ++ [0x0B, 0xF8, 0xE1, 0xB7, 1, 0, 0, 0, 0x78, 0, 1, 0, 0, 0, 2, 0, 0, 0, 0, 0, 0, 0x65,
  0, 0, 0, 0, 0x83, 0x00]
def archA3 : Bytes := Config.magic ++ [0xA8, 0x63, 0xC6, 0xF2, 2, 0, 0, 0, 0x78, 0, 1, 0, 0, 0, 2, 0, 0, 0, 0, 0, 0, 0x65,
  0, 0, 0, 0, 0x79, 0x2E, 0x74, 0x78, 0x74, 0, 0x0B, 0, 0, 0, 9, 0, 0, 0, 1, 0, 0, 0x65, 0, 0, 0, 0, 0x83, 0x00] ++ abraBlock
def archA4 : Bytes := Config.magic ++ [0x3D, 0x89, 0x2B, 0xF8, 1, 0, 0, 0, 0x79, 0x2E, 0x74, 0x78, 0x74, 0, 0x0B, 0, 0, 0,
  9, 0, 0, 0, 1, 0, 0, 0x65, 0, 0, 0, 0] ++ abraBlock
def archA7 : Bytes := Config.magic ++ [0x28, 0xF5, 0xA2, 0x5C, 1, 0, 0, 0, 0x7A, 0, 8, 0, 0, 0, 2, 0, 0, 0, 0, 0, 0, 0, 0, 0,
  0, 0, 0x83, 0x00]

/-! ## One step of each command -/

/-- V-A1. -/
theorem test_create_writes_empty_archive :
    report (after (demo .create [] [(pathP, [1, 2, 3])])) = (0, 0x2144DF1C, 20) ∧
      (after (demo .create [] [(pathP, [1, 2, 3])])).eng.storage.fs = [(pathP, archA1)] := by decide +kernel

/-- R106: an empty path. -/
theorem test_create_refuses_empty_path :
    report (after { demo .create [] [] with archPtr := 0x101 }) = (6, 0, 0) := by decide +kernel

/-- V-A2: the archive is created, then x = "A" is added and the missing file reported. -/
theorem test_append_adds_and_reports :
    let s := demo .append [pathX, pathZ] [(pathX, [0x41])]
    let t := after { s with eng := { s.eng with draws := { s.eng.draws with nows := [0x65000000] } } }
    report t = (0, 1, 1) ∧ fsGet t.eng.storage.fs pathP = some archA2 ∧ statuses t 3 = [0x01, 0x02, 0x00] := by
  decide +kernel

/-- V-A3. -/
theorem test_append_keeps_old_entries :
    let s := demo .append [pathY] [(pathP, archA2), (pathY, abracadabra)]
    let t := after { s with eng := { s.eng with draws := { s.eng.draws with nows := [0x65000001] } } }
    report t = (0, 1, 2) ∧ fsGet t.eng.storage.fs pathP = some archA3 := by decide +kernel

/-- R205: x is found, z is not. -/
theorem test_extract_named :
    let t := after (demo .extract [pathZ, pathX] [(pathP, archA3)])
    report t = (0, 1, 0) ∧ fsGet t.eng.storage.fs pathX = some [0x41] ∧ fsGet t.eng.storage.fs pathY = none ∧
      statuses t 3 = [0x03, 0x01, 0x00] := by decide +kernel

/-- V-A7: the block of z holds 7 symbols of 8. -/
theorem test_extract_corrupt_block :
    let t := after (demo .extract [pathZ] [(pathP, archA7)])
    report t = (0, 0, 1) ∧ fsGet t.eng.storage.fs pathZ = some (List.replicate 7 0x41) ∧ statuses t 1 = [0x06] := by
  decide +kernel

/-- R205's example. -/
theorem test_extract_all :
    let t := after (demo .extractAll [] [(pathP, archA3)])
    report t = (0, 2, 0) ∧ fsGet t.eng.storage.fs pathX = some [0x41] ∧ fsGet t.eng.storage.fs pathY = some abracadabra ∧
      statuses t 3 = [0x01, 0x01, 0x00] := by decide +kernel

/-- V-A4, R207's example. -/
theorem test_remove_named :
    let t := after (demo .remove [pathX] [(pathP, archA3)])
    report t = (0, 1, 1) ∧ t.eng.storage.fs = [(pathP, archA4)] ∧ statuses t 1 = [0x01] := by decide +kernel

/-- R207: the result is the empty archive. -/
theorem test_remove_all :
    let t := after (demo .removeAll [] [(pathP, archA3)])
    report t = (0, 2, 0) ∧ t.eng.storage.fs = [(pathP, archA1)] ∧ statuses t 3 = [0x01, 0x01, 0x00] := by decide +kernel

/-- V-A5. -/
theorem test_verify_intact : report (after (demo .verify [] [(pathP, archA3)])) = (0, 1, 0xF2C663A8) := by decide +kernel

/-- V-A6: byte 16 changed from 01 to FE. -/
theorem test_verify_corrupt :
    report (after (demo .verify [] [(pathP, archA2.set 16 0xFE)])) = (0, 0, 0xBE2C7D5A) := by decide +kernel

/-- V-A8. -/
theorem test_info : report (after (demo .info [] [(pathP, archA3)])) = (0, 2, 0xF2C663A8) := by decide +kernel

/-- V-A6c: not an archive. -/
theorem test_info_not_an_archive :
    report (after (demo .info [] [(pathP, [0x68, 0x65, 0x6C, 0x6C, 0x6F])])) = (1, 0, 0) := by decide +kernel

/-- R211's example: entry 1 listed at 0x8000. -/
theorem test_list_entry :
    let t := after { demo .listEntry [] [(pathP, archA3)] with entryIdx := 1, outPtr := 0x8000 }
    report t = (0, 5, 2) ∧ (List.range 6).map (fun k => t.argByte (0x8000 + k)) = pathY ++ [0] ∧
      t.entOrig = 11 ∧ t.entComp = 9 ∧ t.entRatioLo = 18 ∧ t.entRatioHi = 0 ∧ t.entTimeLo = 0x65000001 ∧ t.entTimeHi = 0 := by
  decide +kernel

/-- R211: the name and its 0x00 end past ARGMEM. -/
theorem test_list_entry_does_not_fit :
    report (after { demo .listEntry [] [(pathP, archA3)] with entryIdx := 1, outPtr := 0xFFFB }) = (6, 0, 0) := by
  decide +kernel

/-- V-H24. -/
theorem test_encode_abracadabra :
    let t := after (demo .encode [pathX, pathOut] [(pathX, abracadabra)])
    report t = (0, 9, 11) ∧ fsGet t.eng.storage.fs pathOut = some abraBlock := by decide +kernel

/-- V-H25: an empty input. -/
theorem test_encode_empty :
    let t := after (demo .encode [pathX, pathOut] [(pathX, [])])
    report t = (0, 0, 0) ∧ fsGet t.eng.storage.fs pathOut = some [] := by decide +kernel

/-- V-H28. -/
theorem test_decode_abracadabra :
    let t := after { demo .decode [pathX, pathOut] [(pathX, abraBlock)] with decSize := 11 }
    report t = (0, 11, 9) ∧ fsGet t.eng.storage.fs pathOut = some abracadabra := by decide +kernel

/-- V-H29: seven payload bits for eight symbols. -/
theorem test_decode_runs_out_of_bits :
    let t := after { demo .decode [pathX, pathOut] [(pathX, [0x83, 0x00])] with decSize := 8 }
    report t = (8, 7, 0) ∧ fsGet t.eng.storage.fs pathOut = some (List.replicate 7 0x41) := by decide +kernel

/-- V-C10. -/
theorem test_crc32_check_value :
    report (after (demo .crc32 [pathX] [(pathX, [0x31, 0x32, 0x33, 0x34, 0x35, 0x36, 0x37, 0x38, 0x39])])) =
      (0, 0xCBF43926, 9) := by decide +kernel

/-- V-C12: the offset 0x1_0000_0000 lies past the end. -/
theorem test_crc32_past_the_end :
    report (after { demo .crc32 [pathX] [(pathX, archA1)] with crcOffHi := 1 }) = (0, 0, 0) := by decide +kernel

/-! ## Turns of the host and of the platform -/

/-- A demo state with turns to come. -/
def plan (s : State) (ts : List Turn) : State := { s with schedule := ts }

/-- R175, R331: ENCODE's input becomes shorter between its two passes, after the request that seeks to its start. -/
theorem test_encode_detects_a_shorter_input :
    let s := plan (demo .encode [pathX, pathOut] [(pathX, abracadabra)]) [.putFile 6 pathX [0x61], .engine]
    (after (after s)).errCode = 7 ∧ (after (after s)).seq = .idle ∧ (after s).eng.draws.edits.length = 1 := by decide +kernel

/-- R175, R331: it gets a byte that has no code. -/
theorem test_encode_detects_a_byte_without_code :
    let s := plan (demo .encode [pathX, pathOut] [(pathX, abracadabra)]) [.putFile 6 pathX (abracadabra.set 4 0x7A), .engine]
    (after (after s)).errCode = 7 ∧ (after (after s)).seq = .idle := by decide +kernel

/-- R49: the change of a file that the command does not name takes effect at once. -/
theorem test_other_file_changes_at_once :
    let s := plan (demo .create [] []) [.putFile 6 pathZ [1]]
    fsGet (after s).eng.storage.fs pathZ = some [1] ∧ (after s).breached = none := by decide +kernel

/-- R331, U13: ENCODE of a file onto itself that waits at a request keeps the note of the broken duty for a reset. -/
theorem test_conflict_is_noted_for_a_reset :
    let s := demo .encode [pathX, pathX] [(pathX, [0x41])]
    (after { s with eng := { s.eng with draws := { s.eng.draws with answers := some 3 } } }).breached =
      some [pathX, pathX] := by decide +kernel

/-- R112: WAITDONE reads STATUS, the engine runs, WAITDONE reads DONE = 1 and the program goes on. -/
theorem test_wait_done_waits :
    let s := plan (demo .create [] []) [.waitDone, .access (.write 0x010 .w32 1)]
    (after s).seq = .run 1 ∧ (after s).schedule = [.engine, .waitDone, .access (.write 0x010 .w32 1)] ∧
      (after (after (after (after s)))).doneIE = true := by decide +kernel

/-- R112, R113, U14: at a request that is never answered the program does not go on. -/
theorem test_wait_done_never_ends_a_wait :
    let s := plan (after unanswered) [.waitDone, .access (.write 0x008 .w32 1)]
    (after (after s)).schedule = s.schedule ∧ (after (after s)).ovr = false := by decide +kernel

/-- R113: only reads of STATUS stand between an ISSUE and its WAITDONE. -/
theorem test_programs :
    programTurns [.issue .create, .wr .argc 1] = none ∧ programTurns [.wr .cmd 0x203, .wr .cmd 1] = none ∧
      programTurns [.issue .create, .call .verify] = none ∧
      programTurns [.issue .create, .rd .status, .waitDone, .wr .argc 1] =
        some [wrTurn .cmd 1, rdTurn .status, .waitDone, wrTurn .argc 1] ∧
      programTurns [.call .verify, .wr .status 2] = some [wrTurn .cmd 5, .waitDone, wrTurn .status 2] := by decide

/-- R38, U4: the name's area is unknown while a LIST_ENTRY waits at a request that is never answered, and no larger than 255. -/
theorem test_list_area_of_a_waiting_command :
    let s := { demo .listEntry [] [(pathP, archA2)] with outPtr := 0x8000 }
    let t := after { s with eng := { s.eng with draws := { s.eng.draws with answers := some 12 } } }
    t.seq = .stuck 7 ∧ t.inListArea 0x8000 = true ∧ t.inListArea 0x80FE = true ∧ t.inListArea 0x80FF = false :=
  by decide +kernel

/-! ## Parts of the engine -/

/-- R140's selected values. -/
theorem test_crc_table :
    [crcTable 0, crcTable 1, crcTable 2, crcTable 3, crcTable 128, crcTable 255] =
      [0x00000000, 0x77073096, 0xEE0E612C, 0x990951BA, 0xEDB88320, 0x2D02EF8D] := by decide +kernel

/-- R158's and R159's examples: keys (5,0), (2,1), (1,2). -/
theorem test_heap_example :
    let g := { Huffman.reset with node := [.leaf 0 5, .leaf 1 2, .leaf 2 1] }
    let h := ((g.pushed 0).pushed 1).pushed 2
    h.live = [2, 0, 1] ∧ h.heapAt 0 = 2 ∧ h.popped.live = [1, 0] := by decide +kernel

/-- V-A5's archive parses, and its blocks are x's and y.txt's. -/
theorem test_parse_archive :
    parse archA3 true =
      .archive [⟨pathX, 1, 2, 0x65000000⟩, ⟨pathY, 11, 9, 0x65000001⟩] [[0x83, 0x00], abraBlock] := by decide +kernel

/-- R213's examples. -/
theorem test_ratio :
    [ratio 11 9, ratio 1 2, ratio 3 2, ratio 4 2, ratio 256 576, ratio 100 0, ratio 0 0] = [18, -100, 33, 50, -125, 100, 0] := by
  decide

/-- V-H8 and V-H3: the blocks of "aaabbc" and "aab". -/
theorem test_block_examples :
    blockOf [0x61, 0x61, 0x61, 0x62, 0x62, 0x63] = [0x86, 0x39, 0x56, 0x0C, 0x1F] ∧
      blockOf [0x61, 0x61, 0x62] = [0x8A, 0x0D, 0x1B] := by decide +kernel

/-- R66: 83 00 holds the bits 1 1 0 0 0 0 0 1 0 ... -/
theorem test_bit_order : bitsOf [0x83] = [true, true, false, false, false, false, false, true] ∧
    pack [true, true, false, false, false, false, false, true, true] = [0x83, 0x01] := by decide

/-! ## States that meet the statements' hypotheses -/

theorem reset_shaped : Engine.reset.shaped = true := by decide +kernel

/-- The engine of a demo state is ready for its command. -/
theorem demo_ready (i : Instr) (ns : List Path) (fs : Files) (h : (demo i ns fs).eng.storage.fits = true) :
    (demo i ns fs).eng.ready := ⟨rfl, reset_shaped, rfl, h, rfl⟩

/-- A demo state meets the premises of a command that runs undisturbed. -/
theorem demo_undisturbed (i : Instr) (ns : List Path) (fs : Files)
    (h : (demo i ns fs).breach (naming i (demo i ns fs)) = none ∧ (demo i ns fs).eng.storage.fits = true) :
    (demo i ns fs).Undisturbed i :=
  ⟨demo_ready i ns fs h.2,
    ⟨rfl, by simp [demo, withArg, State.reset, Engine.reset, Draws.reset, State.accept], rfl⟩, h.1⟩

/-- Statuses of an all-zero STATMEM. -/
theorem statuses_known_of_nil (e : Engine) (h : e.statmem = []) : e.statusesKnown := by
  intro i
  simp [Engine.statByte, h, Memory.read, statDefault]

/-- An idle state with the invariant, in which the host's change of a file is at once. -/
theorem witness_inv_idle : ({ State.reset with done := true } : State).Inv where
  argmem := rfl
  statmem := rfl
  fs := rfl
  shaped := reset_shaped
  opens := rfl
  fits := rfl
  code := by decide
  statuses := statuses_known_of_nil _ rfl
  rest := fun _ => rfl
  busy := fun h => absurd h (by decide)
  running := fun _ h => by cases h
  stuck := fun _ h => by cases h
  duties := fun _ h => by cases h
  edits := fun h => absurd rfl h
  editsFit := fun _ h => by cases h

/-- A running state with the invariant. -/
theorem witness_inv_busy : (demo .create [] []).Inv where
  argmem := by decide +kernel
  statmem := rfl
  fs := rfl
  shaped := reset_shaped
  opens := rfl
  fits := rfl
  code := by decide
  statuses := statuses_known_of_nil _ rfl
  rest := fun _ => rfl
  busy := fun _ => ⟨rfl, rfl, rfl, rfl⟩
  running := fun _ h => ⟨by injection h, rfl⟩
  stuck := fun _ h => by cases h
  duties := fun _ h => by cases h
  edits := fun h => absurd rfl h
  editsFit := fun _ h => by cases h

/-- SEQ in the next state a command answers. -/
def nextSeq (i : Instr) (s : State) : Option Seq :=
  match exec i s with
  | .next t    => some t.seq
  | .fault _   => none
  | .refused _ => none

/-- A demo state in which the request of a number fails. -/
def failing (n : Nat) (i : Instr) (ns : List Path) (fs : Files) : State :=
  let s := demo i ns fs
  { s with eng := { s.eng with draws := { s.eng.draws with failAt := [n] } } }

theorem failing_ready (n : Nat) (i : Instr) (ns : List Path) (fs : Files) (h : (failing n i ns fs).eng.storage.fits = true) :
    (failing n i ns fs).eng.ready := ⟨rfl, reset_shaped, rfl, h, rfl⟩

theorem witness_StepRunsTheCommand :
    (demo .create [] []).seq = .run Instr.create.word ∧ decode (bytesOfWord Instr.create.word) = .ok (.create, []) ∧
      (demo .create [] []).schedule = [] ∧ (plan (demo .create [] []) [.engine]).schedule = .engine :: [] ∧
      (plan State.reset [.access (.read 0 .w32)]).schedule = .access (.read 0 .w32) :: [] ∧
      (plan State.reset [.putFile 0 pathX [1]]).schedule = .putFile 0 pathX [1] :: [] ∧
      (plan State.reset [.deleteFile 0 pathX]).schedule = .deleteFile 0 pathX :: [] ∧
      (plan State.reset [.reset 0]).schedule = .reset 0 :: [] ∧ (plan State.reset [.waitDone]).schedule = .waitDone :: [] :=
  ⟨rfl, rfl, rfl, rfl, rfl, rfl, rfl, rfl, rfl⟩

/-- A word of each kind R103 refuses, and one that runs. -/
theorem witness_ReservedWordsAreNoCommand :
    (State.reset.accept 0x00000105).seq = .run 0x00000105 ∧ (State.reset.accept 0x00000105).schedule = [] ∧
      decodeWord 0x00000105 = .error .allNotAllowed ∧ decodeWord 0x00000000 = .error .unknownOp ∧
      decodeWord 0x00000201 = .error .reservedBits := ⟨rfl, rfl, rfl, rfl, rfl⟩

/-- A command's word and another. -/
theorem witness_EveryWordIsACommandOrBadCommand :
    (State.reset.accept 0x00000105).seq = .run 0x00000105 ∧ (State.reset.accept 0x00000105).schedule = [] ∧
      (∀ i : Instr, (0x00000105 : Word) ≠ i.word) ∧ (State.reset.accept 0x00000104).seq = .run Instr.removeAll.word :=
  ⟨rfl, rfl, by intro i; cases i <;> decide, rfl⟩

theorem witness_IdleOrStuckEngineTakesNoStep :
    State.reset.seq = .idle ∧ State.reset.schedule = [] ∧ (after unanswered).seq = .stuck 1 ∧
      (after unanswered).schedule = [] := by decide +kernel

theorem witness_EveryCommandCompletes :
    (demo .create [] []).eng.draws.answers = none ∧ (demo .create [] []).eng.atRest = true := ⟨rfl, rfl⟩

theorem witness_UnansweredRequestLeavesItBusy :
    nextSeq .create unanswered = some (.stuck 1) := by decide +kernel

theorem witness_AcceptanceIsOneStep : State.reset.busy = false := rfl

theorem witness_WriteWhileBusyOverruns : (demo .create [] []).busy = true ∧ State.reset.busy = false := ⟨rfl, rfl⟩

/-- A pending overrun about to be cleared by the host, and by a reset; a LIST_ENTRY that writes ENT_ORIG. -/
theorem witness_OverrunAndEntryRegisterWriters :
    let s : State := { State.reset with ovr := true, schedule := [.access (.write 0x00C .w32 8)] }
    let r : State := { State.reset with ovr := true, schedule := [.reset 0] }
    let l := demo .listEntry [] [(pathP, archA2)]
    s.ovr = true ∧ (after s).ovr = false ∧ r.ovr = true ∧ (after r).ovr = false ∧
      l.seq = .run Instr.listEntry.word ∧ (after l).entOrig ≠ l.entOrig := by decide +kernel

/-- The first and last offsets of both ranges. -/
theorem witness_ArgumentsAreLockedWhileBusy :
    (demo .create [] []).busy = true ∧
      ((0x020 ≤ (0x020 : BitVec 17).toNat ∧ (0x020 : BitVec 17).toNat < 0x040) ∧
        (0x020 ≤ (0x03F : BitVec 17).toNat ∧ (0x03F : BitVec 17).toNat < 0x040) ∧
        0x10000 ≤ (0x10000 : BitVec 17).toNat ∧ 0x10000 ≤ (0x1FFFF : BitVec 17).toNat) := by decide

theorem witness_ArgumentRegistersReadBack : State.reset.busy = false := rfl

/-- The first and last refused offsets of each range, and an offset accepted beside each. -/
theorem witness_RefusedAccessesHaveNoEffect :
    accepted 0x000 .w8 = false ∧ accepted 0xFFE .w32 = false ∧ accepted 0xFFC .w32 = true ∧
      accepted 0x1001 .w16 = false ∧ accepted 0x1FFD .w32 = false ∧ accepted 0x1FFF .w8 = true ∧
      accepted 0x10001 .w16 = false ∧ accepted 0x1FFFE .w32 = false ∧ accepted 0x1FFFE .w16 = true := by decide

/-- The first and last offsets of each reserved range and of STATMEM: no offset is reserved and read-only at once. -/
theorem witness_ReservedAndReadOnlyOffsets :
    regionOf 0x058 = .register 0x058 ∧ regionOf 0xFFC = .register 0xFFC ∧ regionOf 0x1000 = .statmem 0 ∧
      regionOf 0x1FFF = .statmem 0xFFF ∧ regionOf 0x2000 = .reserved ∧ regionOf 0xFFFF = .reserved ∧
      regionOf 0x10000 = .argmem 0 ∧ accepted 0x058 .w32 = true ∧ accepted 0xFFFF .w32 = true := by decide

/-- The last word of ARGMEM. -/
theorem witness_ArgmemIsLittleEndian :
    State.reset.busy = false ∧ 0xFFFC < 0x10000 ∧ 0xFFFC % Width.w32.bytes = 0 ∧
      Memory.wf (argDefault State.reset.argEpoch) Config.argmemBytes State.reset.argmem = true := by decide

theorem witness_ReadsHaveNoSideEffect : State.reset.busy = false := rfl

/-- A state at the moment a status comes to show. -/
def showing (s : State) : State :=
  { s with eng := { s.eng with draws := { s.eng.draws with free := Config.freeTime s.cmdNo 0 } } }

/-- A status that shows, an ARGMEM byte that no LIST_ENTRY writes, and the last words of STATMEM and ARGMEM. -/
theorem witness_ReadsWhileBusy :
    (demo .create [] []).Inv ∧ (demo .create [] []).busy = true ∧ State.reset.busy = false ∧
      engineTurn (showing State.reset) = .next (showing State.reset) ∧ (showing State.reset).shows 0 = true ∧
      (showing (demo .create [] [])).busy = true ∧ (showing (demo .create [] [])).shows 0 = true ∧
      (demo .create [] []).cmd ≠ Instr.listEntry.word ∧ 0xFFC < 0x1000 ∧ 0xFFC % Width.w32.bytes = 0 ∧
      0xFFFC < 0x10000 ∧ 0xFFFC % Width.w32.bytes = 0 :=
  ⟨witness_inv_busy, rfl, rfl, rfl, by simp [State.shows, showing], rfl, by simp [State.shows, showing], by decide, by decide,
    by decide, by decide, by decide⟩

/-- The first and the last register offset. -/
theorem witness_StatusAndErrorReads : 0 < 0x1000 ∧ 0 % 4 = 0 ∧ 0xFFC < 0x1000 ∧ 0xFFC % 4 = 0 ∧ 31 < 32 := by decide

/-- No command, a CREATE of "p" beside a file "z", one that waits at a request, and a word that is no command. -/
theorem witness_ResetState :
    let s := demo .create [] [(pathZ, [1])]
    State.reset.seq = .idle ∧ State.reset.eng.atRest = true ∧
      s.seq = .run Instr.create.word ∧ s.eng.ready ∧ s.breach (naming .create s) = none ∧ pathZ ∉ writes .create s ∧
      (after unanswered).seq = .stuck 1 ∧ pathZ ∉ (after unanswered).eng.storage.openForWriting ∧
      pathZ ∉ (after unanswered).breached.getD [] ∧
      (State.reset.accept 0x105).seq = .run 0x105 ∧ decodeWord 0x105 = .error .allNotAllowed ∧
      (State.reset.accept 0x105).eng.atRest = true :=
  ⟨rfl, rfl, rfl, demo_ready _ _ _ (by decide), rfl, by decide +kernel, by decide +kernel, by decide +kernel, by decide +kernel, rfl, rfl,
    rfl⟩

/-- REMOVE of x from an archive that is there. -/
theorem witness_ResetNeverSplitsAnArchive :
    let s := demo .remove [pathX] [(pathP, archA2)]
    s.seq = .run Instr.remove.word ∧ s.eng.ready ∧ s.eng.draws.answers = none ∧ s.breach (naming .remove s) = none ∧
      archiveOf .remove s = some pathP ∧ fsGet s.eng.storage.fs pathP = some archA2 ∧
      nextSeq .remove s = some .idle :=
  ⟨rfl, ⟨rfl, reset_shaped, rfl, by decide, rfl⟩, rfl, by decide +kernel, by decide +kernel, rfl, by decide +kernel⟩

theorem witness_EveryStepKeepsTheInvariant : (demo .create [] []).Inv ∧ (after (demo .create [] [])).seq = .idle :=
  ⟨witness_inv_busy, by decide +kernel⟩

theorem witness_CommandsLeaveTheWindow :
    nextSeq .create { demo .create [] [] with archPtr := 0x101 } = some .idle ∧
      (after { demo .create [] [] with archPtr := 0x101 }).errCode ≠ 0 := by decide +kernel

/-- A running command that names "p" and not "z", an idle engine, and a change that is due and one that is not. -/
theorem witness_HostFileTurns :
    let s := demo .create [] []
    let e (n : Nat) : Engine := { Engine.reset with draws := { Draws.reset with edits := [⟨n, pathX, some [1]⟩] } }
    s.Inv ∧ Path.wf pathP = true ∧ Path.wf pathZ = true ∧ [(1 : Byte)].length ≤ Config.fileMax ∧ pathP ∈ s.namedFiles ∧
      pathZ ∉ s.namedFiles ∧ s.eng.draws.edits = [] ∧ s.seq = .run 1 ∧ State.Inv { State.reset with done := true } ∧
      (∀ w, State.reset.seq ≠ .run w) ∧ State.reset.busy = false ∧ (e 0).draws.answers = none ∧
      (e 0).draws.edits = [⟨0, pathX, some [1]⟩] ∧ (e 1).draws.edits = [⟨1, pathX, some [1]⟩] ∧ (e 1).draws.reqNo = 0 :=
  ⟨witness_inv_busy, by decide, by decide, by decide, by decide +kernel, by decide +kernel, rfl, rfl, witness_inv_idle,
    (fun _ h => by cases h), rfl, rfl, rfl, rfl, rfl⟩

/-- CREATE of "p" beside a file "z"; ENCODE of "x", which it names and does not write. -/
theorem witness_CommandsTouchOnlyNamedFiles :
    let s := demo .create [] [(pathZ, [1])]
    let u := demo .encode [pathX, pathOut] [(pathX, [1])]
    s.breach (naming .create s) = none ∧ s.eng.ready ∧ pathZ ∉ (naming .create s).files ∧ nextSeq .create s = some .idle ∧
      u.breach (naming .encode u) = none ∧ u.eng.ready ∧ pathX ∈ (naming .encode u).files ∧ pathX ∉ writes .encode u ∧
      nextSeq .encode u = some .idle :=
  ⟨rfl, demo_ready _ _ _ (by decide), by decide +kernel, by decide +kernel, by decide +kernel, demo_ready _ _ _ (by decide),
    by decide +kernel, by decide +kernel, by decide +kernel⟩

/-- INFO on a corrupt archive (V-A6). -/
theorem witness_ErrorsLeaveTheArchive :
    let s := demo .info [] [(pathP, archA2.set 16 0xFE)]
    s.eng.ready ∧ s.breach (naming .info s) = none ∧ archiveOf .info s = some pathP ∧
      fsGet s.eng.storage.fs pathP = some (archA2.set 16 0xFE) ∧ (after s).seq = .idle ∧ (after s).errCode ≠ 0 :=
  ⟨⟨rfl, reset_shaped, rfl, by decide, rfl⟩, rfl, by decide +kernel, rfl, by decide +kernel, by decide +kernel⟩

theorem witness_ReadersLeaveTheNamespace :
    let s := demo .verify [] [(pathP, archA1)]
    s.eng.ready ∧ s.breach (naming .verify s) = none ∧
      ∀ p, archiveOf .verify s = some p → fsGet s.eng.storage.fs p ≠ none :=
  ⟨⟨rfl, reset_shaped, rfl, by decide, rfl⟩, rfl, fun p hp => by
    have h : archiveOf .verify (demo .verify [] [(pathP, archA1)]) = some pathP := by decide +kernel
    rw [h] at hp
    cases hp
    decide⟩

/-- An engine with one open temporary file holding 83. -/
def openEngine : Engine :=
  { Engine.reset with storage := ⟨[], [(0, [0x83])], [(1, ⟨.temp 0, true, 0⟩)], 2⟩ }

/-- An engine whose next request fails, with a bit to flush. -/
def failingEngine : Engine :=
  { openEngine with draws := { Draws.reset with failAt := [0] }, out := { OutStream.reset with bit := 1 } }

/-- A batch that completes with nothing added, for the codes of R286 and the statuses of R292. -/
theorem witness_ErrorCodesOfEachCommand :
    let s := demo .append [pathX, pathZ] []
    s.eng.ready ∧ s.breach (naming .append s) = none ∧ (after s).seq = .idle ∧ (after s).errCode = 0 :=
  ⟨⟨rfl, reset_shaped, rfl, by decide, rfl⟩, by decide +kernel, by decide +kernel, by decide +kernel⟩

/-- The same for failing requests: an engine whose next request fails, a body that stops, CREATE's writes and read (V-R1's
requests 1, 3 and 5), CRC32's first read. -/
theorem witness_ErrorCodesOfEachCommand_failing :
    let s (n : Nat) := failing n .create [] []
    let u := failing 2 .crc32 [pathX] [(pathX, [0x41])]
    failingEngine.draws.answers = none ∧ failingEngine.draws.failAt.contains failingEngine.draws.reqNo = true ∧
      0 < failingEngine.out.pending ∧
      (raise .badArgs : Eng Report) State.reset.eng = .error (.error .badArgs 0 0) State.reset.eng ∧
      State.reset.eng.draws.answers = none ∧ State.reset.breach ⟨[], false, false, false⟩ = none ∧
      (∀ n, (s n).eng.ready ∧ (s n).breach (naming .create (s n)) = none ∧ (s n).eng.draws.answers = none) ∧
      archPath (s 1) = some pathP ∧ (s 1).eng.draws.failAt.contains ((s 1).eng.draws.reqNo + 1) = true ∧
      (s 3).eng.draws.failAt.contains ((s 3).eng.draws.reqNo + 3) = true ∧
      (s 5).eng.draws.failAt.contains ((s 5).eng.draws.reqNo + 5) = true ∧
      (s 1).eng.draws.failAt.contains (s 1).eng.draws.reqNo = false ∧
      u.eng.ready ∧ u.breach (naming .crc32 u) = none ∧ u.eng.draws.answers = none ∧ oneFile u = some pathX ∧
      fsGet u.eng.storage.fs pathX ≠ none ∧ u.eng.draws.failAt.contains u.eng.draws.reqNo = false ∧
      u.eng.draws.failAt.contains (u.eng.draws.reqNo + 2) = true :=
  ⟨rfl, rfl, by decide, rfl, rfl, rfl, (fun n => ⟨failing_ready n _ _ _ rfl, rfl, rfl⟩), by decide +kernel, rfl, rfl, rfl, rfl,
    failing_ready _ _ _ _ (by decide), rfl, rfl, by decide +kernel, by decide, rfl, rfl⟩

/-- The same for emit_payload: a file shorter than the analysis saw, one with a byte that has no code, OUT on another file; and
a report of STORAGE_ERROR. -/
theorem witness_ErrorCodesOfEachCommand_changed :
    openEngine.draws.obliging ∧ lookup openEngine.storage.handles 1 = some ⟨.temp 0, true, 0⟩ ∧
      (∀ g, lookup openEngine.storage.handles openEngine.out.h = some g → g.ref ≠ .temp 0) ∧
      (openEngine.storage.content (.temp 0)).length < 2 ∧
      (∃ b ∈ (openEngine.storage.content (.temp 0)).take 1, openEngine.huff.codeLen.getD b.toNat 0 = 0) ∧
      (⟨.storageError, 0, 0, none⟩ : Report).code = .storageError :=
  ⟨⟨rfl, by simp [openEngine, Engine.reset, Draws.reset], rfl⟩, rfl, (fun g h => by cases h), by decide,
    ⟨0x83, by decide, by decide +kernel⟩, rfl⟩

/-- The same for an ALL form, with the archive it reads. -/
theorem witness_StatusesAfterCompletion :
    let s := demo .removeAll [] [(pathP, archA2)]
    s.eng.ready ∧ s.breach (naming .removeAll s) = none ∧ (after s).seq = .idle ∧ archPath s = some pathP ∧
      openedArchive s.eng.storage.fs pathP = .archive [⟨pathX, 1, 2, 0x65000000⟩] [[0x83, 0x00]] :=
  ⟨⟨rfl, reset_shaped, rfl, by decide, rfl⟩, by decide +kernel, by decide +kernel, by decide +kernel, by decide +kernel⟩

/-- The longest and the shortest valid length, and a path that ends with ARGMEM's last byte or has no 0x00 there. -/
theorem witness_ArchivePathOperand :
    let s (v : Byte) : State := { State.reset with argmem := [(0xFFFE, 0x61), (0xFFFF, v)], archPtr := 0xFFFE }
    archPath (s 0) = some [0x61] ∧ archPath (s 0x62) = none ∧ archPath { s 0 with archPtr := 0xFFFF } = none ∧
      lengthValid (List.replicate 254 0x61) = true ∧ lengthValid (List.replicate 255 0x61) = false := by decide +kernel

theorem witness_NameListOperand : names (demo .append [pathX, [], pathY] []) = some [pathX, [], pathY] := by decide +kernel

theorem witness_BadOperandsGiveBadArgs :
    let s : State := { demo .create [] [] with archPtr := 0x101 }
    s.eng.ready ∧ s.breached = none ∧ opensFirst .create s = none := ⟨⟨rfl, reset_shaped, rfl, by decide, rfl⟩, rfl, by decide +kernel⟩

/-- ARGC at its bounds, and names of length 0, 1, 254 and 255. -/
theorem witness_BadOperandsGiveBadArgs_bounds :
    let s (n : Nat) := { demo .append [] [] with argc := BitVec.ofNat 13 n }
    batchOperands (s 4097) = none ∧ (s 4096).argc.toNat = 4096 ∧
      twoFiles (demo .encode [pathX, pathOut] []) = some (pathX, pathOut) ∧ twoFiles (demo .encode [pathX] []) = none ∧
      twoFiles (demo .encode [pathX, []] []) = none ∧ lengthValid (List.replicate 254 0x61) = true ∧
      lengthValid (List.replicate 255 0x61) = false ∧ oneFile (demo .crc32 [pathX] []) = some pathX ∧
      oneFile (demo .crc32 [[]] []) = none ∧ oneFile (demo .crc32 [pathX, pathX] []) = none := by
  decide +kernel

/-- The engine of a computation's answer, if `P` holds of the answer and the engine. -/
def answersWith {α : Type} (x : Eng α) (e : Engine) (P : α → Engine → Bool) : Bool :=
  match x e with
  | .ok a e'   => P a e'
  | .error _ _ => false

theorem answersWith_ok {α : Type} {x : Eng α} {e : Engine} {P : α → Engine → Bool} (h : answersWith x e P = true) :
    ∃ a e', x e = .ok a e' ∧ P a e' = true := by
  unfold answersWith at h
  split at h
  · exact ⟨_, _, ‹_›, h⟩
  · exact absurd h (by simp)

/-- ENCODE's output open is request 2, DECODE's request 1. -/
theorem witness_FailedOpenGivesFileOpenFailed_output :
    let s := failing 2 .encode [pathX, pathOut] [(pathX, [0x41])]
    let u := failing 1 .decode [pathX, pathOut] [(pathX, [0x41])]
    s.eng.ready ∧ s.breach (naming .encode s) = none ∧ s.eng.draws.answers = none ∧ twoFiles s = some (pathX, pathOut) ∧
      fsGet s.eng.storage.fs pathX = some [0x41] ∧ s.eng.draws.failAt.contains s.eng.draws.reqNo = false ∧
      [(0x41 : Byte)].length ≤ Config.maxOrig ∧ s.eng.draws.failAt.contains (s.eng.draws.reqNo + 2) = true ∧
      u.eng.ready ∧ u.breach (naming .decode u) = none ∧ u.eng.draws.answers = none ∧ twoFiles u = some (pathX, pathOut) ∧
      u.eng.draws.failAt.contains u.eng.draws.reqNo = false ∧
      u.eng.draws.failAt.contains (u.eng.draws.reqNo + 1) = true :=
  ⟨failing_ready _ _ _ _ (by decide), by decide +kernel, rfl, by decide +kernel, rfl, rfl, by decide, rfl,
    failing_ready _ _ _ _ (by decide), by decide +kernel, rfl, by decide +kernel, rfl, rfl⟩

/-- Validation of the empty archive takes ten requests: APPEND's third STemp is request 12, REMOVE's is request 10. -/
theorem witness_FailedOpenGivesFileOpenFailed_scratch :
    let s := failing 12 .append [pathX] [(pathP, archA1)]
    let u := failing 10 .remove [pathX] [(pathP, archA1)]
    (s.eng.ready ∧ s.breach (naming .append s) = none ∧ s.eng.draws.answers = none ∧ archiveOf .append s = some pathP ∧
        ∃ v e, openValidate pathP .abort s.eng = .ok v e ∧ e.draws.failAt.contains (e.draws.reqNo + 2) = true) ∧
      u.eng.ready ∧ u.breach (naming .remove u) = none ∧ u.eng.draws.answers = none ∧ archiveOf .remove u = some pathP ∧
      ∃ v e, openValidate pathP .abort u.eng = .ok v e ∧ e.draws.failAt.contains e.draws.reqNo = true :=
  ⟨⟨failing_ready _ _ _ _ (by decide), by decide +kernel, rfl, by decide +kernel,
      answersWith_ok (P := fun _ e => e.draws.failAt.contains (e.draws.reqNo + 2)) (by decide +kernel)⟩,
    failing_ready _ _ _ _ (by decide), by decide +kernel, rfl, by decide +kernel,
    answersWith_ok (P := fun _ e => e.draws.failAt.contains e.draws.reqNo) (by decide +kernel)⟩

/-- An engine that has validated V-A2 and stands at its record; its third request from here fails. -/
def atRecord : Engine :=
  { Engine.reset with
    storage := ⟨[(pathP, archA2)], [], [(0, ⟨.named pathP, false, 0⟩)], 1⟩
    work    := { Work.reset with a := some 0, size := archA2.length, recPos := 20 }
    draws   := { Draws.reset with failAt := [2] } }

/-- An absent file of APPEND's batch, one whose open fails, and an entry whose output's open fails. -/
theorem witness_FailedOpenGivesFileOpenFailed_batch :
    Engine.reset.draws.answers = none ∧ Engine.reset.draws.edits = [] ∧ lengthValid pathX = true ∧
      fsGet Engine.reset.storage.fs pathX = none ∧
      failingEngine.draws.failAt.contains failingEngine.draws.reqNo = true ∧ failingEngine.draws.edits = [] ∧
      ∃ k e1, recAt atRecord.work.recPos atRecord = .ok k e1 ∧
        (Selection.all.picks e1.work.entry.name && e1.draws.answers == none && e1.draws.edits.isEmpty &&
          e1.draws.failAt.contains e1.draws.reqNo &&
          answersWith (Selection.all.mark 0 e1.work.entry.name .fileOpenFailed) e1 fun _ _ => true) = true :=
  ⟨rfl, rfl, by decide, rfl, rfl, rfl, answersWith_ok (P := fun _ e1 =>
    Selection.all.picks e1.work.entry.name && e1.draws.answers == none && e1.draws.edits.isEmpty &&
      e1.draws.failAt.contains e1.draws.reqNo &&
      answersWith (Selection.all.mark 0 e1.work.entry.name .fileOpenFailed) e1 fun _ _ => true) (by decide +kernel)⟩

/-- The first open of CREATE fails; ENCODE's input is absent. -/
theorem witness_FailedOpenGivesFileOpenFailed :
    let s := failing 0 .create [] []
    let u := demo .encode [pathX, pathOut] []
    s.eng.ready ∧ s.breach (naming .create s) = none ∧ s.eng.draws.answers = none ∧ opensFirst .create s = some pathP ∧
      s.eng.draws.failAt.contains s.eng.draws.reqNo = true ∧
      u.eng.ready ∧ u.breach (naming .encode u) = none ∧ u.eng.draws.answers = none ∧ opensFirst .encode u = some pathX ∧
      fsGet u.eng.storage.fs pathX = none :=
  ⟨⟨rfl, reset_shaped, rfl, by decide, rfl⟩, rfl, rfl, by decide +kernel, rfl, ⟨rfl, reset_shaped, rfl, by decide, rfl⟩, by decide +kernel, rfl,
    by decide +kernel, rfl⟩

/-- "hello" is no archive; V-A6's archive is corrupt. -/
theorem witness_InvalidArchivesAreRefused :
    (demo .info [] [(pathP, [0x68])]).Undisturbed .info ∧ archiveOf .info (demo .info [] [(pathP, [0x68])]) = some pathP ∧
      openedArchive [(pathP, [0x68])] pathP = .notAnArchive ∧
      openedArchive [(pathP, archA2.set 16 0xFE)] pathP = .corrupt ∧ openedArchive [(pathP, Config.magic)] pathP = .corrupt :=
  ⟨demo_undisturbed _ _ _ (by decide +kernel), by decide +kernel, by decide +kernel, by decide +kernel, by decide +kernel⟩

theorem witness_CreateWritesTheEmptyArchive :
    (demo .create [] []).Undisturbed .create ∧ archPath (demo .create [] []) = some pathP :=
  ⟨demo_undisturbed _ _ _ (by decide +kernel), by decide +kernel⟩

theorem witness_VerifyReports :
    (demo .verify [] []).Undisturbed .verify ∧ archPath (demo .verify [] []) = some pathP ∧
      parse (openedContent [] pathP) true = .archive [] [] ∧
      parse (openedContent [(pathP, Config.magic)] pathP) true = .corrupt :=
  ⟨demo_undisturbed _ _ _ (by decide +kernel), by decide +kernel, by decide +kernel, by decide +kernel⟩

theorem witness_InfoReports :
    (demo .info [] []).Undisturbed .info ∧ archPath (demo .info [] []) = some pathP ∧
      openedArchive [] pathP = .archive [] [] :=
  ⟨demo_undisturbed _ _ _ (by decide +kernel), by decide +kernel, by decide +kernel⟩

/-- The name "x" with its 0x00 just fits at 0xFFFE and not at 0xFFFF; an archive of one entry has no entry 1. -/
theorem witness_ListEntryListsTheEntry :
    let s := demo .listEntry [] [(pathP, archA2)]
    s.Undisturbed .listEntry ∧ archPath s = some pathP ∧
      openedArchive s.eng.storage.fs pathP = .archive [⟨pathX, 1, 2, 0x65000000⟩] [[0x83, 0x00]] ∧
      Memory.wf (argDefault s.argEpoch) Config.argmemBytes s.argmem = true ∧
      0xFFFE + pathX.length + 1 ≤ 65536 ∧ 65536 < 0xFFFF + pathX.length + 1 ∧ [1].length ≤ 1 :=
  ⟨demo_undisturbed _ _ _ (by decide +kernel), by decide +kernel, by decide +kernel, by decide +kernel, by decide, by decide, by decide⟩

theorem witness_ExtractWritesTheSelectedEntries :
    let s := demo .extract [pathX] [(pathP, archA2)]
    let u := demo .extractAll [] [(pathP, archA2)]
    s.Undisturbed .extract ∧ batchOperands s = some (pathP, [pathX]) ∧
      openedArchive [(pathP, archA2)] pathP = .archive [⟨pathX, 1, 2, 0x65000000⟩] [[0x83, 0x00]] ∧
      u.Undisturbed .extractAll ∧ archPath u = some pathP :=
  ⟨demo_undisturbed _ _ _ (by decide +kernel), by decide +kernel, by decide +kernel,
    demo_undisturbed _ _ _ (by decide +kernel), by decide +kernel⟩

theorem witness_RemoveLeavesTheOtherEntries :
    let s := demo .remove [pathX] [(pathP, archA2)]
    let u := demo .removeAll [] [(pathP, archA2)]
    s.Undisturbed .remove ∧ batchOperands s = some (pathP, [pathX]) ∧ u.Undisturbed .removeAll ∧ archPath u = some pathP :=
  ⟨demo_undisturbed _ _ _ (by decide +kernel), by decide +kernel, demo_undisturbed _ _ _ (by decide +kernel),
    by decide +kernel⟩

theorem witness_AppendAddsTheFiles :
    let s := demo .append [pathX, [], pathZ] [(pathP, archA2), (pathX, [0x41])]
    let xs := [((⟨pathX, 1, 2, 0x65000000⟩ : Entry), [(0x83 : Byte), 0x00])]
    let new := appended (openedFs s.eng.storage.fs pathP) 1 s.eng.draws.time 0 [pathX, [], pathZ]
    s.Undisturbed .append ∧ batchOperands s = some (pathP, [pathX, [], pathZ]) ∧
      openedArchive s.eng.storage.fs pathP = .archive (xs.map (·.1)) (xs.map (·.2)) ∧
      (ser ((xs ++ new.1).map (·.1)) ((xs ++ new.1).map (·.2))).length ≤ Config.fileMax :=
  ⟨demo_undisturbed _ _ _ (by decide +kernel), by decide +kernel, by decide +kernel, by decide +kernel⟩

/-- A file of "A", the longest file there may be, and one a byte longer. -/
theorem witness_EncodeWritesTheBlock :
    let s := demo .encode [pathX, pathOut] [(pathX, [0x41])]
    s.Undisturbed .encode ∧ twoFiles s = some (pathX, pathOut) ∧ fsGet s.eng.storage.fs pathX = some [0x41] ∧
      (List.replicate 0xFFFFFEBF (0 : Byte)).length ≤ 0xFFFFFEBF ∧ 0xFFFFFEBF < (List.replicate 0xFFFFFEC0 (0 : Byte)).length :=
  ⟨demo_undisturbed _ _ _ (by decide +kernel), by decide +kernel, rfl, Nat.le_of_eq List.length_replicate,
    by rw [List.length_replicate]; decide⟩

/-- 83 00 holds seven symbols "A" and no eighth. -/
theorem witness_DecodeWritesTheFile :
    let s := demo .decode [pathX, pathOut] [(pathX, [0x83, 0x00])]
    s.Undisturbed .decode ∧ twoFiles s = some (pathX, pathOut) ∧ fsGet s.eng.storage.fs pathX = some [0x83, 0x00] ∧
      (unblock [0x83, 0x00] 7).used = some 16 ∧ (unblock [0x83, 0x00] 8).used = none ∧ (unblock [] 0).used = some 0 :=
  ⟨demo_undisturbed _ _ _ (by decide +kernel), by decide +kernel, rfl, by decide +kernel, by decide +kernel,
    by decide +kernel⟩

theorem witness_Crc32Checksums :
    let s := demo .crc32 [pathX] [(pathX, [0x41])]
    s.Undisturbed .crc32 ∧ oneFile s = some pathX ∧ fsGet s.eng.storage.fs pathX = some [0x41] :=
  ⟨demo_undisturbed _ _ _ (by decide +kernel), by decide +kernel, rfl⟩

theorem witness_ParseInvertsSer :
    (∀ en ∈ [(⟨pathX, 1, 2, 5⟩ : Entry)], en.wf = true) ∧ [(⟨pathX, 1, 2, 5⟩ : Entry)].length < 2 ^ 32 ∧
      [[(0x83 : Byte), 0x00]].map (·.length) = [(⟨pathX, 1, 2, 5⟩ : Entry)].map (fun en => en.comp.toNat) := by decide

theorem witness_SerInvertsParse : parse archA2 true = .archive [⟨pathX, 1, 2, 0x65000000⟩] [[0x83, 0x00]] := by
  decide +kernel

theorem witness_DecodeUndoesEncode :
    let s : State := { demo .decode [pathX, pathOut] [(pathX, abraBlock)] with decSize := 11 }
    twoFiles s = some (pathX, pathOut) ∧ fsGet s.eng.storage.fs pathX = some (blockOf abracadabra) ∧
      s.decSize.toNat = abracadabra.length ∧ (demo .decode [pathX, pathOut] [(pathX, abraBlock)]).Undisturbed .decode :=
  ⟨by decide +kernel, by decide +kernel, rfl, demo_undisturbed _ _ _ (by decide +kernel)⟩

theorem witness_CodesArePrefixFree :
    huffTree [0x61, 0x62] = some (.node (.leaf 0x61) (.leaf 0x62)) ∧ [(0x61 : Byte), 0x62].length ≤ Config.maxOrig := by
  decide +kernel

theorem witness_RatioIsTheFloor : (1 : Nat) ≤ 1 ∧ 1 < 2 ^ 32 ∧ 2 ^ 32 - 1 < 2 ^ 32 ∧ ratio 1 (2 ^ 32 - 1) = -429496729400 := by
  decide

theorem witness_CrcFixturesAndDetection : (0x00 : Byte) ≠ 0x01 := by decide

theorem witness_InputStreamLaw :
    openEngine.draws.obliging ∧ lookup openEngine.storage.handles 1 = some ⟨.temp 0, true, 0⟩ :=
  ⟨⟨rfl, by simp [openEngine, Engine.reset, Draws.reset], rfl⟩, rfl⟩

theorem witness_OutputStreamLaw :
    openEngine.draws.obliging ∧ lookup openEngine.storage.handles 1 = some ⟨.temp 0, true, 0⟩ ∧
      openEngine.storage.hasTemp (.temp 0) ∧ 0 + (16 + 7) / 8 ≤ Config.fileMax :=
  ⟨⟨rfl, by simp [openEngine, Engine.reset, Draws.reset], rfl⟩, rfl, rfl, by decide⟩

/-- The empty heap, and the heap of one node. -/
theorem witness_HeapLaw :
    Huffman.reset.IsHeap ∧ Huffman.reset.live.Nodup ∧ Huffman.reset.hn < Config.heapCap ∧ 0 ∉ Huffman.reset.live ∧
      (Huffman.reset.pushed 0).IsHeap ∧ (Huffman.reset.pushed 0).live.Nodup ∧ 0 < (Huffman.reset.pushed 0).hn :=
  ⟨⟨by decide +kernel, by decide, fun i _ h => absurd h (by simp [Huffman.reset])⟩, by decide +kernel, by decide,
    by decide +kernel, ⟨by decide +kernel, by decide +kernel, fun i h0 h => by
      have : (Huffman.reset.pushed 0).hn = 1 := by decide +kernel
      omega⟩, by decide +kernel, by decide +kernel⟩

end Sys2Proof.Tests
end

section
/-! PROOFS. The computations of the engine between an open and a close: they read and write through the handles there are and
change internal registers, and neither open, close or keep a handle (R47, R81). -/

namespace Sys2Proof.Machine

variable {α : Type}

/-- A change of internal registers that leaves the handle registers, the storage and the draws. -/
structure Engine.Inner (f : Engine → Engine) : Prop where
  reg     : ∀ e r, (f e).work.reg r = e.work.reg r
  storage : ∀ e, (f e).storage = e.storage
  draws   : ∀ e, (f e).draws = e.draws

/-- A computation made of inner changes and of requests on handles already open. -/
inductive Quiet : {α : Type} → Eng α → Prop
  | pure {α : Type} (a : α) : Quiet (Pure.pure a : Eng α)
  | bind {α β : Type} {x : Eng α} {f : α → Eng β} (hx : Quiet x) (hf : ∀ a, Quiet (f a)) : Quiet (x >>= f)
  | look {α : Type} (f : Engine → α) : Quiet (look f)
  | update {f : Engine → Engine} (h : Engine.Inner f) : Quiet (update f)
  | raise {α : Type} (c : ErrorCode) : Quiet (raise c : Eng α)
  | sRead (h : Handle) (n : Nat) : Quiet (sRead h n)
  | sWrite (h : Handle) (b : Bytes) : Quiet (sWrite h b)
  | sSeek (h : Handle) (n : Nat) : Quiet (sSeek h n)
  | sSize (h : Handle) : Quiet (sSize h)
  | sCopy (src dst : Handle) (n : Nat) : Quiet (sCopy src dst n)
  | sNow : Quiet sNow

namespace Quiet

theorem ite {b : Prop} [Decidable b] {x y : Eng α} (hx : Quiet x) (hy : Quiet y) : Quiet (if b then x else y) := by
  split <;> assumption

theorem orRaise (c : ErrorCode) : (o : Option α) → Quiet (orRaise c o)
  | none => .raise c
  | some _ => .pure _

theorem check (b : Bool) (c : ErrorCode) : Quiet (check b c) := .ite (.pure _) (.raise c)

theorem reg (r : HandleReg) : Quiet (reg r) := .look _

/-- A change that leaves the handle registers, the storage and the draws as they stand. -/
theorem inner {f : Engine → Engine} (h : Engine.Inner f := by exact ⟨fun _ _ => rfl, fun _ => rfl, fun _ => rfl⟩) :
    Quiet (Machine.update f) := .update h

theorem updateHuff (f : Huffman → Huffman) : Quiet (updateHuff f) := inner

/-- A change of working registers other than the handles. -/
theorem updateWork {f : Work → Work} (h : ∀ w r, (f w).reg r = w.reg r := by intro _ r; cases r <;> rfl) :
    Quiet (updateWork f) :=
  .update ⟨fun e r => h e.work r, fun _ => rfl, fun _ => rfl⟩

theorem setStatus (i : Nat) (v : NameStatus) : Quiet (setStatus i v) := inner

theorem wr (h : Handle) (b : Bytes) : Quiet (wr h b) := (sWrite h b).bind fun _ => check _ _

theorem copy (src dst : Handle) (n : Nat) : Quiet (copy src dst n) := (sCopy src dst n).bind fun _ => check _ _

/-! ## Streams and CRC -/

theorem inInit (h : Handle) (n : Nat) : Quiet (inInit h n) := inner

theorem refill (n : Nat) : Quiet (refill n) :=
  .ite (.pure _) ((look _).bind fun _ => (sRead _ _).bind fun _ => orRaise _ _)

theorem fill : Quiet fill :=
  (look _).bind fun _ => (refill _).bind fun _ => (inner).bind fun _ => .pure _

theorem takeBit : Quiet takeBit :=
  (look _).bind fun _ => (inner).bind fun _ => .pure _

theorem readBit : Quiet readBit :=
  (look _).bind fun _ => .ite (fill.bind fun _ => .ite (.pure _) (takeBit.bind fun _ => .pure _)) (takeBit.bind fun _ => .pure _)

theorem readBits (n i : Nat) (v : Byte) : Quiet (readBits n i v) := by
  induction n generalizing i v with
  | zero => exact .pure _
  | succ n ih =>
    refine readBit.bind fun o => ?_
    cases o with
    | none => exact .pure _
    | some r => exact ih _ _

theorem readByte : Quiet readByte := readBits 8 0 0

theorem readBytes (n : Nat) : Quiet (readBytes n) := by
  induction n with
  | zero => exact .pure _
  | succ n ih =>
    refine readByte.bind fun o => ?_
    cases o with
    | none => exact .pure _
    | some b => exact ih.bind fun o => by cases o <;> exact .pure _

theorem rd32 : Quiet rd32 := (readBytes 4).bind fun _ => .pure _
theorem rd64 : Quiet rd64 := (readBytes 8).bind fun _ => .pure _

theorem outInit (h : Handle) : Quiet (outInit h) := inner

theorem flush : Quiet flush := by
  refine (look _).bind fun o => ?_
  have hend : Quiet (Machine.update fun e => { e with out := { e.out with
      total := e.out.total + o.pending, buf := zeroBuf, byte := 0, bit := 0 } }) :=
    inner
  exact .ite ((sWrite _ _).bind fun _ => (check _ _).bind fun _ => hend) hend

theorem writeBit (v : Bool) : Quiet (writeBit v) :=
  (inner).bind fun _ => (look _).bind fun _ => .ite flush (.pure _)

theorem writeBits (vs : Bits) : Quiet (writeBits vs) := by
  induction vs with
  | nil => exact .pure _
  | cons v vs ih => exact (writeBit v).bind fun _ => ih

theorem writeByte (b : Byte) : Quiet (writeByte b) := writeBits _

theorem crcInit : Quiet crcInit := inner

theorem crcByte (b : Byte) : Quiet (crcByte b) := inner

theorem crcLoop (fuel n : Nat) : Quiet (crcLoop fuel n) := by
  induction fuel generalizing n with
  | zero => exact .pure _
  | succ fuel ih =>
    refine readByte.bind fun o => ?_
    cases o with
    | none => exact .pure _
    | some b => exact (crcByte b).bind fun _ => ih _

theorem crcStream (h : Handle) : Quiet (crcStream h) :=
  (inInit _ _).bind fun _ => crcInit.bind fun _ => (look _).bind fun _ => (crcLoop _ _).bind fun _ =>
    (look _).bind fun _ => .pure _

theorem archiveCrc (h : Handle) : Quiet (archiveCrc h) := (sSeek _ _).bind fun _ => (crcStream h).bind fun _ => .pure _

/-! ## Heap and codec -/

theorem insert (x : Nat) : Quiet (insert x) := (look _).bind fun _ => (check _ _).bind fun _ => updateHuff _

theorem extractMin : Quiet extractMin :=
  (look _).bind fun _ => (check _ _).bind fun _ => (updateHuff _).bind fun _ => .pure _

theorem newNode (n : Node) : Quiet (newNode n) :=
  (look _).bind fun _ => (check _ _).bind fun _ => (updateHuff _).bind fun _ => .pure _

theorem analyzeLoop (fuel o : Nat) : Quiet (analyzeLoop fuel o) := by
  induction fuel generalizing o with
  | zero => exact .pure _
  | succ fuel ih =>
    refine readByte.bind fun r => ?_
    cases r with
    | none => exact .pure _
    | some b => exact (updateHuff _).bind fun _ => ih _

theorem analyze (f : Handle) (n : Nat) : Quiet (analyze f n) :=
  (updateHuff _).bind fun _ => (sSeek _ _).bind fun _ => (inInit _ _).bind fun _ => analyzeLoop _ _

theorem insertLeaves (n s : Nat) : Quiet (insertLeaves n s) := by
  induction n generalizing s with
  | zero => exact .pure _
  | succ n ih =>
    exact (look _).bind fun _ => .ite ((newNode _).bind fun _ => (insert _).bind fun _ => ih _) ((pure _).bind fun _ => ih _)

theorem mergeLoop (fuel : Nat) : Quiet (mergeLoop fuel) := by
  induction fuel with
  | zero => exact .pure _
  | succ fuel ih =>
    exact (look _).bind fun _ => .ite (extractMin.bind fun _ => extractMin.bind fun _ => (look _).bind fun _ =>
      (newNode _).bind fun _ => (insert _).bind fun _ => ih) (.pure _)

theorem buildTree : Quiet buildTree :=
  (updateHuff _).bind fun _ => (updateHuff _).bind fun _ => (insertLeaves _ _).bind fun _ => (look _).bind fun _ =>
    .ite (updateHuff _) ((mergeLoop _).bind fun _ => extractMin.bind fun _ => updateHuff _)

theorem visit (fuel x len : Nat) (bits : BitVec 64) : Quiet (visit fuel x len bits) := by
  induction fuel generalizing x len bits with
  | zero => exact .raise _
  | succ fuel ih =>
    refine (look _).bind fun n => ?_
    cases n with
    | leaf s f => exact updateHuff _
    | inner f l r => exact (ih _ _ _).bind fun _ => ih _ _ _

theorem buildCodes : Quiet buildCodes := by
  refine (updateHuff _).bind fun _ => (look _).bind fun g => ?_
  cases g.root with
  | none => exact .pure _
  | some x =>
    show Quiet (match g.nodeAt x with
      | .leaf s _    => Machine.updateHuff fun g => g.setCode s 1 0
      | .inner _ _ _ => Machine.visit (Config.maxCodeLen + 1) x 0 0)
    cases g.nodeAt x with
    | leaf s f => exact updateHuff _
    | inner f l r => exact visit _ _ _ _

theorem serNode (fuel x : Nat) : Quiet (serNode fuel x) := by
  induction fuel generalizing x with
  | zero => exact .raise _
  | succ fuel ih =>
    refine (look _).bind fun n => ?_
    cases n with
    | leaf s f => exact (writeBit _).bind fun _ => writeByte _
    | inner f l r => exact (writeBit _).bind fun _ => (ih _).bind fun _ => ih _

theorem serializeTree : Quiet serializeTree := by
  refine (look _).bind fun o => ?_
  cases o with
  | none => exact .pure _
  | some x => exact serNode _ _

theorem payloadLoop (n : Nat) : Quiet (payloadLoop n) := by
  induction n with
  | zero => exact .pure _
  | succ n ih =>
    exact readByte.bind fun _ => (orRaise _ _).bind fun _ => (look _).bind fun _ => (check _ _).bind fun _ =>
      (writeBits _).bind fun _ => ih

theorem emitPayload (f : Handle) (o : Nat) : Quiet (emitPayload f o) :=
  (sSeek _ _).bind fun _ => (inInit _ _).bind fun _ => payloadLoop _

theorem encodeFile (f g : Handle) (n : Nat) : Quiet (encodeFile f g n) :=
  (analyze _ _).bind fun _ => buildTree.bind fun _ => buildCodes.bind fun _ => (outInit _).bind fun _ =>
    serializeTree.bind fun _ => (emitPayload _ _).bind fun _ => flush.bind fun _ => (look _).bind fun _ => .pure _

theorem desNode (fuel : Nat) : Quiet (desNode fuel) := by
  induction fuel with
  | zero => exact .pure _
  | succ fuel ih =>
    refine readBit.bind fun o => ?_
    cases o with
    | none => exact .pure _
    | some b =>
      refine (look _).bind fun x => .ite (.pure _) ((updateHuff _).bind fun _ =>
        .ite (readByte.bind fun o => ?_) (ih.bind fun l => ?_))
      · cases o with
        | none => exact .pure _
        | some s => exact (updateHuff _).bind fun _ => .pure _
      · cases l with
        | none => exact .pure _
        | some l =>
          refine ih.bind fun r => ?_
          cases r with
          | none => exact .pure _
          | some r => exact (updateHuff _).bind fun _ => .pure _

theorem deserializeTree : Quiet deserializeTree := by
  refine (updateHuff _).bind fun _ => (desNode _).bind fun o => ?_
  cases o with
  | none => exact .pure _
  | some x => exact (updateHuff _).bind fun _ => .pure _

theorem descend (fuel x : Nat) : Quiet (descend fuel x) := by
  induction fuel generalizing x with
  | zero => exact .pure _
  | succ fuel ih =>
    refine (look _).bind fun n => ?_
    cases n with
    | leaf s f => exact .pure _
    | inner f l r =>
      refine readBit.bind fun o => ?_
      cases o with
      | none => exact .pure _
      | some b => exact ih _

theorem decodeSymbol : Quiet decodeSymbol := by
  refine (look _).bind fun g => ?_
  show Quiet (match g.nodeAt (g.root.getD 0) with
    | .leaf s _ => do
      match (← Machine.readBit) with
      | none   => Pure.pure none
      | some _ => Pure.pure (some s)
    | .inner _ _ _ => Machine.descend Config.nodeCap (g.root.getD 0))
  cases g.nodeAt (g.root.getD 0) with
  | leaf s f => exact readBit.bind fun o => by cases o <;> exact .pure _
  | inner f l r => exact descend _ _

theorem symbolLoop (n w : Nat) : Quiet (symbolLoop n w) := by
  induction n generalizing w with
  | zero => exact .pure _
  | succ n ih =>
    refine decodeSymbol.bind fun o => ?_
    cases o with
    | none => exact .pure _
    | some s => exact (writeByte s).bind fun _ => ih _

theorem decodeBlock (h : Handle) (c o : Nat) (g : Handle) : Quiet (decodeBlock h c o g) :=
  .ite (.pure _) ((inInit _ _).bind fun _ => deserializeTree.bind fun _ => .ite ((outInit _).bind fun _ =>
    (symbolLoop _ _).bind fun _ => flush.bind fun _ => .ite ((look _).bind fun _ => .pure _) (.pure _)) (.pure _))

/-! ## Records and statuses -/

theorem readName (fuel : Nat) : Quiet (readName fuel) := by
  induction fuel with
  | zero => exact .pure _
  | succ fuel ih =>
    refine readByte.bind fun o => ?_
    cases o with
    | none => exact .pure _
    | some b => exact .ite (.pure _) (.ite (.pure _) (ih.bind fun _ => .pure _))

theorem recRead : Quiet recRead := by
  refine (readName _).bind fun o => ?_
  cases o with
  | none => exact .pure _
  | some nm =>
    refine .ite (.pure _) (rd32.bind fun o => ?_)
    cases o with
    | none => exact .pure _
    | some o =>
      refine rd32.bind fun c => ?_
      cases c with
      | none => exact .pure _
      | some c =>
        refine rd64.bind fun t => ?_
        cases t with
        | none => exact .pure _
        | some t => exact (updateWork).bind fun _ => .pure _

theorem recAt (pos : Nat) : Quiet (recAt pos) :=
  (reg _).bind fun _ => (sSeek _ _).bind fun _ => (look _).bind fun _ => (inInit _ _).bind fun _ =>
    recRead.bind fun _ => orRaise _ _

theorem checkMagic (bs : Bytes) : Quiet (checkMagic bs) := by
  induction bs with
  | nil => exact .pure _
  | cons b bs ih => exact readByte.bind fun _ => (check _ _).bind fun _ => ih

theorem failMode (a b : Word) : (m : ValidateMode) → Quiet (failMode m a b)
  | .abort  => .raise _
  | .report => .pure _

theorem validateRecords (n sum : Nat) : Quiet (validateRecords n sum) := by
  induction n generalizing sum with
  | zero => exact .pure _
  | succ n ih =>
    refine recRead.bind fun o => ?_
    cases o with
    | none => exact .pure _
    | some k => exact (updateWork).bind fun _ => (look _).bind fun _ => ih _

theorem validateStructure (a : Handle) : Quiet (validateStructure a) := by
  refine (look _).bind fun _ => (sSeek _ _).bind fun _ => (inInit _ _).bind fun _ => rd32.bind fun _ =>
    (orRaise _ _).bind fun _ => (updateWork).bind fun _ => (validateRecords _ _).bind fun o => ?_
  cases o with
  | none => exact .pure _
  | some n => exact (look _).bind fun _ => .pure _

theorem markInvalid (ns : List Path) (i : Nat) : Quiet (markInvalid i ns) := by
  induction ns generalizing i with
  | nil => exact .pure _
  | cons n ns ih => exact .ite (ih _) ((setStatus _ _).bind fun _ => ih _)

theorem markMissing (ns : List Path) (i : Nat) : Quiet (markMissing i ns) := by
  induction ns generalizing i with
  | nil => exact .pure _
  | cons n ns ih =>
    exact (look _).bind fun _ => .ite ((setStatus _ _).bind fun _ => ih _) (ih _)

theorem markNames (p : Path) (r : NameStatus) (ns : List Path) (i : Nat) : Quiet (markNames p r i ns) := by
  induction ns generalizing i with
  | nil => exact .pure _
  | cons n ns ih =>
    exact (look _).bind fun _ => .ite ((setStatus _ _).bind fun _ => ih _) (ih _)

theorem mark (j : Nat) (p : Path) (r : NameStatus) : (sel : Selection) → Quiet (sel.mark j p r)
  | .names ns => markNames p r ns 0
  | .all      => .ite (setStatus _ _) (.pure _)

theorem skipRecords (n : Nat) : Quiet (skipRecords n) := by
  induction n with
  | zero => exact .pure _
  | succ n ih =>
    exact (look _).bind fun _ => (recAt _).bind fun _ => (updateWork).bind fun _ => ih

theorem failName (i : Nat) (v : NameStatus) : Quiet (failName i v) :=
  (setStatus _ _).bind fun _ => updateWork

theorem copyFrom (h : Handle) (pos n : Nat) : Quiet (copyFrom h pos n) :=
  (sSeek _ _).bind fun _ => (reg _).bind fun _ => copy _ _ _

theorem copyWhole (h : Handle) : Quiet (copyWhole h) :=
  (sSeek _ _).bind fun _ => (sSize _).bind fun _ => (reg _).bind fun _ => copy _ _ _

theorem removeRecords (sel : Selection) (n j a b : Nat) : Quiet (removeRecords sel n j a b) := by
  induction n generalizing j a b with
  | zero => exact .pure _
  | succ n ih =>
    exact (look _).bind fun _ => (recAt _).bind fun _ => (look _).bind fun _ => .ite
      ((mark _ _ _ sel).bind fun _ => (updateWork).bind fun _ => ih _ _ _)
      ((reg _).bind fun _ => (copyFrom _ _ _).bind fun _ => (updateWork).bind fun _ => ih _ _ _)

theorem removeBlocks (sel : Selection) (n : Nat) : Quiet (removeBlocks sel n) := by
  induction n with
  | zero => exact .pure _
  | succ n ih =>
    have hnext : ∀ pos k off c, Quiet (do
        Machine.updateWork fun w => { w with recPos := pos + k, dataOff := off + c }
        Machine.removeBlocks sel n) :=
      fun _ _ _ _ => (updateWork).bind fun _ => ih
    exact (look _).bind fun _ => (look _).bind fun _ => (recAt _).bind fun _ => (look _).bind fun _ =>
      .ite ((pure _).bind fun _ => hnext _ _ _ _) ((reg _).bind fun _ => (copyFrom _ _ _).bind fun _ => hnext _ _ _ _)

end Quiet

end Sys2Proof.Machine
end

section
/-! PROOFS. Who holds what is open (R81, R332): every open handle stands in a handle register, every temporary file has an open
handle, and a command closes them all before it completes. -/

namespace Sys2Proof.Machine

variable {α β : Type}

/-! ## The open handles and the temporary files -/

/-- The open handles, each with the file it refers to. -/
def Storage.opened (st : Storage) : List (Nat × FileRef) := st.handles.map fun x => (x.1, x.2.ref)

/-- The temporary files. -/
def Storage.staged (st : Storage) : List Nat := st.temps.map (·.1)

theorem removeAt_eq_filter {l : List (Nat × α)} (n : Nat) (h : (l.map (·.1)).Nodup) :
    removeAt l n = l.filter fun x => x.1 ≠ n := by
  induction l with
  | nil => rfl
  | cons y ys ih =>
    obtain ⟨k, u⟩ := y
    simp only [List.map_cons, List.nodup_cons] at h
    simp only [removeAt]
    split
    · subst n
      have hk : ∀ x ∈ ys, x.1 ≠ k := fun x hx hc => h.1 (hc ▸ List.mem_map_of_mem (f := (·.1)) hx)
      simpa using (List.filter_eq_self.2 fun x hx => by simpa using hk x hx).symm
    · rename_i hk
      simp [ih h.2, Ne.symm hk]

theorem eq_of_nodup_keys {l : List (Nat × α)} (h : (l.map (·.1)).Nodup) {x y : Nat × α} (hx : x ∈ l) (hy : y ∈ l)
    (hxy : x.1 = y.1) : x = y := by
  induction l with
  | nil => exact absurd hx List.not_mem_nil
  | cons z zs ih =>
    rw [List.map_cons, List.nodup_cons] at h
    rcases List.mem_cons.1 hx with hxz | hx <;> rcases List.mem_cons.1 hy with hyz | hy
    · rw [hxz, hyz]
    · exact absurd (List.mem_map_of_mem (f := (·.1)) hy) (by rw [← hxy, hxz]; exact h.1)
    · exact absurd (List.mem_map_of_mem (f := (·.1)) hx) (by rw [hxy, hyz]; exact h.1)
    · exact ih h.2 hx hy

theorem lookup_none_ne {l : List (Nat × α)} {n : Nat} (h : lookup l n = none) : ∀ x ∈ l, x.1 ≠ n := by
  induction l with
  | nil => simp
  | cons y ys ih =>
    simp only [lookup] at h
    split at h
    · exact absurd h (by simp)
    · rename_i hk
      intro x hx
      rcases List.mem_cons.1 hx with rfl | hx
      · exact Ne.symm hk
      · exact ih h x hx

theorem map_replaceAt {γ : Type} (g : Nat × α → γ) (v : α) (l : List (Nat × α)) (n : Nat)
    (h : ∀ u, lookup l n = some u → g (n, u) = g (n, v)) : (replaceAt v l n).map g = l.map g := by
  induction l with
  | nil => rfl
  | cons y ys ih =>
    obtain ⟨k, u⟩ := y
    simp only [replaceAt, lookup] at *
    split
    · subst n
      simp [← h u (by simp)]
    · rename_i hk
      simp [ih (by simpa [hk] using h)]

theorem lookup_opened {st : Storage} {h : Handle} {f : OpenFile} (hf : lookup st.handles h = some f) : (h, f.ref) ∈ st.opened :=
  List.mem_map_of_mem (f := fun x : Handle × OpenFile => (x.1, x.2.ref)) (lookup_mem hf)

theorem Storage.opened_setPos_of_ref {st : Storage} {h : Handle} {f : OpenFile} (n : Nat)
    (hf : ∀ u, lookup st.handles h = some u → u.ref = f.ref) : (st.setPos h f n).opened = st.opened :=
  map_replaceAt _ _ _ _ fun u hu => by rw [hf u hu]

theorem Storage.opened_setPos {st : Storage} {h : Handle} {f : OpenFile} (n : Nat) (hf : lookup st.handles h = some f) :
    (st.setPos h f n).opened = st.opened :=
  Storage.opened_setPos_of_ref n fun u hu => by rw [hf] at hu; injection hu with hu; rw [hu]

@[simp] theorem Storage.opened_setContent (st : Storage) (r : FileRef) (c : Bytes) : (st.setContent r c).opened = st.opened := by
  cases r <;> rfl

@[simp] theorem Storage.staged_setContent (st : Storage) (r : FileRef) (c : Bytes) : (st.setContent r c).staged = st.staged := by
  cases r with
  | named p => rfl
  | temp n => exact map_replaceAt _ _ _ _ fun _ _ => rfl

/-! ## The invariant -/

/-- Every handle register. -/
def HandleReg.all : List HandleReg := [.f, .g, .a, .d, .m, .t]

theorem HandleReg.mem_all (r : HandleReg) : r ∈ HandleReg.all := by cases r <;> decide

@[simp] theorem Work.reg_setReg (w : Work) (r q : HandleReg) (v : Option Handle) :
    (w.setReg r v).reg q = if q = r then v else w.reg q := by cases r <;> cases q <;> rfl

/-- What is open is held: no token stands twice, each was given, a handle stands in one of the registers `L`, the others are empty,
and a temporary file has a handle, given after the file. -/
structure Engine.Tidy (L : List HandleReg) (e : Engine) : Prop where
  tokens    : (e.storage.opened.map (·.1)).Nodup
  files     : e.storage.staged.Nodup
  given     : ∀ x ∈ e.storage.opened, x.1 < e.storage.nextId
  filesGiven : ∀ n ∈ e.storage.staged, n < e.storage.nextId
  held      : ∀ x ∈ e.storage.opened, ∃ r, e.work.reg r = some x.1
  handled   : ∀ n ∈ e.storage.staged, ∃ h, (h, .temp n) ∈ e.storage.opened
  later     : ∀ h n, (h, .temp n) ∈ e.storage.opened → n < h
  empty     : ∀ r, r ∉ L → e.work.reg r = none

section
variable {L L' : List HandleReg} {e : Engine}

theorem Engine.Tidy.mono (h : e.Tidy L) (hL : L ⊆ L') : e.Tidy L' :=
  { h with empty := fun r hr => h.empty r fun hc => hr (hL hc) }

theorem Engine.Tidy.all (h : e.Tidy L) : e.Tidy HandleReg.all := h.mono fun r _ => r.mem_all

theorem Engine.Tidy.congr {e' : Engine} (h : e.Tidy L) (ho : e'.storage.opened = e.storage.opened)
    (hs : e'.storage.staged = e.storage.staged) (hn : e'.storage.nextId = e.storage.nextId)
    (hr : ∀ r, e'.work.reg r = e.work.reg r) : e'.Tidy L := by
  constructor
  case tokens => rw [ho]; exact h.tokens
  case files => rw [hs]; exact h.files
  case given => rw [ho, hn]; exact h.given
  case filesGiven => rw [hs, hn]; exact h.filesGiven
  case held => simp only [ho, hr]; exact h.held
  case handled => rw [hs, ho]; exact h.handled
  case later => rw [ho]; exact h.later
  case empty => simp only [hr]; exact h.empty

theorem Engine.Tidy.asked (h : e.Tidy L) : e.asked.Tidy L := h.congr rfl rfl rfl fun _ => rfl

theorem Engine.Tidy.landAll (h : e.Tidy L) : e.landAll.Tidy L := h.congr rfl rfl rfl fun _ => rfl

/-- Nothing held is nothing open and nothing staged. -/
theorem Engine.Tidy.atRest (h : e.Tidy []) : e.atRest = true := by
  have hreg : ∀ r, e.work.reg r = none := fun r => h.empty r (by simp)
  have ho : e.storage.opened = [] := List.eq_nil_iff_forall_not_mem.2 fun x hx => by
    obtain ⟨r, hr⟩ := h.held x hx
    simp [hreg] at hr
  have hs : e.storage.staged = [] := List.eq_nil_iff_forall_not_mem.2 fun n hn => by
    obtain ⟨k, hk⟩ := h.handled n hn
    simp [ho] at hk
  have hw : e.work.holdsNone = true := by
    simp only [Work.holdsNone, Bool.and_eq_true, Option.isNone_iff_eq_none]
    exact ⟨⟨⟨⟨⟨hreg .a, hreg .d⟩, hreg .m⟩, hreg .t⟩, hreg .f⟩, hreg .g⟩
  simp [Engine.atRest, hw, List.map_eq_nil_iff.1 ho, List.map_eq_nil_iff.1 hs]

theorem Engine.tidy_of_atRest (h : e.atRest = true) : e.Tidy [] := by
  simp only [Engine.atRest, Work.holdsNone, Bool.and_eq_true, Option.isNone_iff_eq_none, List.isEmpty_iff] at h
  obtain ⟨⟨⟨⟨⟨⟨⟨ha, hd⟩, hm⟩, ht⟩, hf⟩, hg⟩, hh⟩, hs⟩ := h
  constructor
  case empty => intro r _; cases r <;> assumption
  all_goals simp [Storage.opened, Storage.staged, hh, hs]

/-- A handle `k` with a token not given before goes to a register that holds none; a temporary file made for it is older. -/
theorem Engine.Tidy.opens {r : HandleReg} {k : Nat} {ref : FileRef} {st : Storage} (h : e.Tidy L) (hr : r ∉ L)
    (ho : st.opened = e.storage.opened ++ [(k, ref)]) (hk : e.storage.nextId ≤ k) (hn : k < st.nextId)
    (hs : (st.staged = e.storage.staged ∧ ∀ n, ref ≠ .temp n) ∨
      ∃ n, st.staged = e.storage.staged ++ [n] ∧ ref = .temp n ∧ e.storage.nextId ≤ n ∧ n < k) :
    Engine.Tidy (r :: L) { e with storage := st, work := e.work.setReg r (some k) } := by
  have hmem : ∀ x, x ∈ st.opened ↔ x ∈ e.storage.opened ∨ x = (k, ref) := by simp [ho]
  constructor <;> simp only [Work.reg_setReg]
  case tokens =>
    rw [ho, List.map_append]
    refine List.nodup_append.2 ⟨h.tokens, by simp, fun a ha b hb hab => ?_⟩
    obtain ⟨x, hx, rfl⟩ := List.mem_map.1 ha
    have := h.given x hx
    simp at hb
    omega
  case files =>
    rcases hs with ⟨hs, -⟩ | ⟨n, hs, -, hn', -⟩ <;> rw [hs]
    · exact h.files
    · refine List.nodup_append.2 ⟨h.files, by simp, fun a ha b hb hab => ?_⟩
      have := h.filesGiven a ha
      simp at hb
      omega
  case given =>
    intro x hx
    rcases (hmem x).1 hx with hx | rfl
    · have := h.given x hx; omega
    · exact hn
  case filesGiven =>
    intro m hm
    rcases hs with ⟨hs, -⟩ | ⟨n, hs, -, -, hnk⟩ <;> rw [hs] at hm
    · have := h.filesGiven m hm; omega
    · rcases List.mem_append.1 hm with hm | hm
      · have := h.filesGiven m hm; omega
      · simp at hm; omega
  case held =>
    intro x hx
    rcases (hmem x).1 hx with hx | rfl
    · obtain ⟨q, hq⟩ := h.held x hx
      refine ⟨q, ?_⟩
      rw [if_neg, hq]
      rintro rfl
      rw [h.empty q hr] at hq
      exact absurd hq (by simp)
    · exact ⟨r, by simp⟩
  case handled =>
    intro m hm
    have hold : m ∈ e.storage.staged → ∃ j, (j, .temp m) ∈ st.opened := fun hm => by
      obtain ⟨j, hj⟩ := h.handled m hm
      exact ⟨j, (hmem _).2 (.inl hj)⟩
    rcases hs with ⟨hs, -⟩ | ⟨n, hs, rfl, -, -⟩ <;> rw [hs] at hm
    · exact hold hm
    · rcases List.mem_append.1 hm with hm | hm
      · exact hold hm
      · simp only [List.mem_singleton] at hm
        exact ⟨k, (hmem _).2 (.inr (by rw [hm]))⟩
  case later =>
    intro j m hj
    rcases (hmem _).1 hj with hj | hj
    · exact h.later j m hj
    · injection hj with hjk href
      rcases hs with ⟨-, hs⟩ | ⟨n, -, hs, -, hnk⟩
      · exact absurd href.symm (hs m)
      · rw [hs] at href
        injection href with href
        omega
  case empty =>
    intro q hq
    simp only [List.mem_cons, not_or] at hq
    rw [if_neg hq.1]
    exact h.empty q hq.2

/-- A handle is closed and its register cleared; a temporary file of it is discarded. -/
theorem Engine.Tidy.closes {r : HandleReg} {k : Nat} {st : Storage} (h : e.Tidy (r :: L)) (hk : e.work.reg r = some k)
    (ho : st.opened = e.storage.opened.filter fun x => x.1 ≠ k)
    (hs : st.staged = e.storage.staged.filter fun n => (k, .temp n) ∉ e.storage.opened)
    (hn : st.nextId = e.storage.nextId) :
    Engine.Tidy L { e with storage := st, work := e.work.setReg r none } := by
  have hmem : ∀ x, x ∈ st.opened ↔ x ∈ e.storage.opened ∧ x.1 ≠ k := by simp [ho]
  constructor <;> simp only [Work.reg_setReg]
  case tokens => rw [ho]; exact h.tokens.sublist (List.filter_sublist.map _)
  case files => rw [hs]; exact h.files.sublist List.filter_sublist
  case given => intro x hx; rw [hn]; exact h.given x ((hmem x).1 hx).1
  case filesGiven => intro m hm; rw [hn]; rw [hs] at hm; exact h.filesGiven m (List.mem_filter.1 hm).1
  case held =>
    intro x hx
    obtain ⟨hx, hxk⟩ := (hmem x).1 hx
    obtain ⟨q, hq⟩ := h.held x hx
    refine ⟨q, ?_⟩
    rw [if_neg, hq]
    rintro rfl
    rw [hk] at hq
    injection hq with hq
    exact hxk hq.symm
  case handled =>
    intro m hm
    rw [hs, List.mem_filter] at hm
    obtain ⟨j, hj⟩ := h.handled m hm.1
    refine ⟨j, (hmem _).2 ⟨hj, ?_⟩⟩
    rintro rfl
    simp [hj] at hm
  case later => intro j m hj; exact h.later j m ((hmem _).1 hj).1
  case empty =>
    intro q hq
    split
    · rfl
    · exact h.empty q (by simp_all)

/-- The handle a token stands for is one. -/
theorem Engine.Tidy.opened_unique (h : e.Tidy L) {k : Nat} {a b : FileRef} (ha : (k, a) ∈ e.storage.opened)
    (hb : (k, b) ∈ e.storage.opened) : a = b := by
  have hab := eq_of_nodup_keys h.tokens ha hb rfl
  injection hab

theorem Engine.Tidy.opened_removeAt (h : e.Tidy L) (k : Nat) {st : Storage} (hst : st.handles = removeAt e.storage.handles k) :
    st.opened = e.storage.opened.filter fun x => x.1 ≠ k := by
  have hn : (e.storage.handles.map (·.1)).Nodup := by simpa [Storage.opened, Function.comp_def] using h.tokens
  simp only [Storage.opened, hst, removeAt_eq_filter k hn, List.filter_map, Function.comp_def]

theorem Engine.Tidy.staged_removeAt (h : e.Tidy L) {k n : Nat} {st : Storage} (hk : (k, .temp n) ∈ e.storage.opened)
    (hst : st.temps = removeAt e.storage.temps n) :
    st.staged = e.storage.staged.filter fun n => (k, .temp n) ∉ e.storage.opened := by
  have hp : ∀ m, decide ((k, .temp m) ∉ e.storage.opened) = decide (m ≠ n) := fun m => by
    have hmn : (k, .temp m) ∈ e.storage.opened ↔ m = n := by
      constructor
      · intro hm
        have href := h.opened_unique hm hk
        injection href
      · rintro rfl
        exact hk
    rw [decide_eq_decide, hmn]
  simp only [Storage.staged, hst, removeAt_eq_filter n h.files, hp, List.filter_map, Function.comp_def]

/-- The storage after SClose. -/
theorem Engine.Tidy.close {r : HandleReg} {k : Nat} (h : e.Tidy (r :: L)) (hk : e.work.reg r = some k) :
    Engine.Tidy L { e with storage := e.storage.close k, work := e.work.setReg r none } := by
  have hkept : (∀ n, (k, .temp n) ∉ e.storage.opened) →
      e.storage.staged = e.storage.staged.filter fun n => (k, .temp n) ∉ e.storage.opened := fun hk =>
    (List.filter_eq_self.2 fun n _ => by simpa using hk n).symm
  unfold Storage.close
  split
  · rename_i n _ _ hl
    exact h.closes hk (h.opened_removeAt k rfl) (h.staged_removeAt (lookup_opened hl) rfl) rfl
  · rename_i p _ _ hl
    refine h.closes hk (h.opened_removeAt k rfl) (hkept fun n hn => ?_) rfl
    exact absurd (h.opened_unique hn (lookup_opened hl)) (by simp)
  · rename_i hl
    have hno : ∀ x ∈ e.storage.opened, x.1 ≠ k := fun x hx => by
      obtain ⟨y, hy, rfl⟩ := List.mem_map.1 hx
      exact lookup_none_ne hl y hy
    refine h.closes hk (List.filter_eq_self.2 fun x hx => by simpa using hno x hx).symm (hkept fun n hn => hno _ hn rfl) rfl

end

end Sys2Proof.Machine
end

section
/-! PROOFS. How a command's text moves handles between registers (R47, R81), wherever it ends: at a request that is never answered
the host's changes of files have all come (log 10). -/

namespace Sys2Proof.Machine

variable {α β : Type} {L L' L'' : List HandleReg}

/-- How the engine stands when a computation stops. -/
def Left (st : Stop) (e : Engine) : Prop := e.Tidy HandleReg.all ∧ (st = .unanswered → e.draws.edits = [])

/-- With only the registers `L` holding handles, the computation ends with only `L'` holding them, or stops. -/
def Moves (L L' : List HandleReg) (x : Eng α) : Prop := ∀ e, e.Tidy L → Ends x e (fun _ e' => e'.Tidy L') Left

/-- The computation answers a handle kept in `r`, or none. -/
def Opens (L : List HandleReg) (r : HandleReg) (x : Eng OpenAnswer) : Prop :=
  ∀ e, e.Tidy L →
    Ends x e (fun a e' => (∀ k, a = .handle k → e'.Tidy (r :: L)) ∧ ((∀ k, a ≠ .handle k) → e'.Tidy L)) Left

theorem left_error {e : Engine} (h : e.Tidy L) (c : ErrorCode) (a b : Word) : Left (.error c a b) e := ⟨h.all, by simp⟩

theorem left_unanswered {e : Engine} (h : e.Tidy L) : Left .unanswered e.landAll := ⟨h.landAll.all, fun _ => rfl⟩

/-! ## Quiet computations -/

theorem Engine.Tidy.withStorage {e : Engine} (h : e.Tidy L) {st : Storage} (ho : st.opened = e.storage.opened)
    (hs : st.staged = e.storage.staged) (hn : st.nextId = e.storage.nextId) : (e.asked.withStorage st).Tidy L :=
  h.congr ho hs hn fun _ => rfl

/-- A quiet computation moves no handle and keeps the handle registers. -/
theorem Quiet.ends {x : Eng α} (hx : Quiet x) {e : Engine} (h : e.Tidy L) :
    Ends x e (fun _ e' => e'.Tidy L ∧ e'.work.reg = e.work.reg) Left := by
  induction hx generalizing e with
  | pure a => exact ⟨h, rfl⟩
  | bind _ _ ihx ihf =>
    rw [ends_bind]
    refine (ihx h).mono (fun a e1 h1 => ?_) fun _ _ hs => hs
    refine (ihf a h1.1).mono (fun _ e2 h2 => ⟨h2.1, h2.2.trans h1.2⟩) fun _ _ hs => hs
  | look f => exact ⟨h, rfl⟩
  | update hf =>
    exact ⟨h.congr (by rw [hf.storage]) (by rw [hf.storage]) (by rw [hf.storage]) (hf.reg e), funext (hf.reg e)⟩
  | raise c => exact left_error h _ _ _
  | sRead k n =>
    rw [ends_sRead]
    exact ⟨fun _ => left_unanswered h, fun _ => ⟨fun _ => ⟨h.asked, rfl⟩, fun f hf => ⟨fun _ => ⟨h.asked, rfl⟩, fun _ =>
      ⟨h.withStorage (Storage.opened_setPos _ hf) rfl rfl, rfl⟩⟩⟩⟩
  | sWrite k b =>
    rw [ends_sWrite]
    refine ⟨fun _ => left_unanswered h, fun _ => ⟨fun _ => ⟨h.asked, rfl⟩, fun f hf => ⟨fun _ => ⟨h.asked, rfl⟩,
      fun _ _ => ⟨?_, rfl⟩, fun _ _ => ⟨h.withStorage ?_ ?_ ?_, rfl⟩⟩⟩⟩
    · exact h.congr (Storage.opened_setContent ..) (Storage.staged_setContent ..) (Storage.nextId_setContent ..) fun _ => rfl
    · exact (Storage.opened_setPos _ (by rw [Storage.handles_setContent]; exact hf)).trans (Storage.opened_setContent ..)
    · exact Storage.staged_setContent ..
    · exact Storage.nextId_setContent ..
  | sSeek k n =>
    rw [ends_sSeek]
    exact ⟨fun _ => left_unanswered h, fun _ => ⟨fun _ => ⟨h.asked, rfl⟩, fun f hf =>
      ⟨h.withStorage (Storage.opened_setPos _ hf) rfl rfl, rfl⟩⟩⟩
  | sSize k =>
    rw [ends_sSize]
    exact ⟨fun _ => left_unanswered h, fun _ => ⟨fun _ => ⟨h.asked, rfl⟩, fun _ _ => ⟨h.asked, rfl⟩⟩⟩
  | sCopy src dst n =>
    rw [ends_sCopy]
    refine ⟨fun _ => left_unanswered h, fun _ => ⟨fun _ => ⟨h.asked, rfl⟩, fun f g hf hg => ⟨fun _ => ⟨h.asked, rfl⟩,
      fun _ _ => ⟨h.withStorage ?_ ?_ ?_, rfl⟩⟩⟩⟩
    · refine (Storage.opened_setPos_of_ref _ fun u hu => ?_).trans
        ((Storage.opened_setContent ..).trans (Storage.opened_setPos _ hf))
      rw [Storage.handles_setContent, Storage.setPos, asked_handles, lookup_replaceAt] at hu
      split at hu
      · rename_i hsd
        obtain ⟨rfl, -⟩ := hsd
        rw [hf] at hg
        injection hg with hg
        injection hu with hu
        rw [← hu, hg]
      · rw [hg] at hu
        injection hu with hu
        rw [hu]
    · exact Storage.staged_setContent ..
    · exact Storage.nextId_setContent ..
  | sNow =>
    rw [ends_sNow]
    exact ⟨fun _ _ _ => ⟨h.congr rfl rfl rfl fun _ => rfl, rfl⟩, fun _ => ⟨h.congr rfl rfl rfl fun _ => rfl, rfl⟩⟩

theorem Quiet.moves {x : Eng α} (hx : Quiet x) : Moves L L x := fun _ h => (hx.ends h).mono (fun _ _ h => h.1) fun _ _ hs => hs

/-- A quiet computation first: the rest goes on from the same handle registers. -/
theorem Quiet.ends_bind {x : Eng α} {f : α → Eng β} {e : Engine} {Q : β → Engine → Prop} (hx : Quiet x) (h : e.Tidy L)
    (hf : ∀ a e', e'.Tidy L → e'.work.reg = e.work.reg → Ends (f a) e' Q Left) : Ends (x >>= f) e Q Left := by
  rw [Machine.ends_bind]
  exact (hx.ends h).mono (fun a e' h' => hf a e' h'.1 h'.2) fun _ _ hs => hs

namespace Moves

theorem weaken {x : Eng α} (hx : Moves L' L'' x) (hL : L ⊆ L') : Moves L L'' x := fun e h => hx e (h.mono hL)

theorem grow {x : Eng α} (hx : Moves L L' x) (hL : L' ⊆ L'') : Moves L L'' x :=
  fun e h => (hx e h).mono (fun _ _ h => h.mono hL) fun _ _ hs => hs

theorem bind {x : Eng α} {f : α → Eng β} (hx : Moves L L' x) (hf : ∀ a, Moves L' L'' (f a)) : Moves L L'' (x >>= f) := by
  intro e h
  rw [ends_bind]
  exact (hx e h).mono (fun a e' h' => hf a e' h') fun _ _ hs => hs

theorem pure (a : α) : Moves L L (Pure.pure a : Eng α) := fun _ h => h

theorem ite {b : Prop} [Decidable b] {x y : Eng α} (hx : Moves L L' x) (hy : Moves L L' y) :
    Moves L L' (if b then x else y) := by
  split <;> assumption

theorem raise (c : ErrorCode) : Moves L L' (Machine.raise c : Eng α) := fun _ h => left_error h _ _ _

theorem raiseWith (c : ErrorCode) (a b : Word) : Moves L L' (Machine.raiseWith c a b : Eng α) := fun _ h => left_error h _ _ _

theorem closeReg (r : HandleReg) : Moves (r :: L) L (closeReg r) := by
  intro e h
  rw [ends_closeReg]
  refine ⟨fun hr => { h with empty := fun q hq => ?_ }, fun k hk => ⟨fun _ => left_unanswered h, fun _ => h.asked.close hk⟩⟩
  by_cases hqr : q = r
  · rw [hqr, hr]
  · exact h.empty q (by simp [hqr, hq])

theorem closeAll : Moves L [] closeAll :=
  weaken (L' := HandleReg.all) ((closeReg .f).bind fun _ => (closeReg .g).bind fun _ => (closeReg .a).bind fun _ =>
    (closeReg .d).bind fun _ => (closeReg .m).bind fun _ => closeReg .t) fun r _ => r.mem_all

end Moves

theorem Quiet.andThen {x : Eng α} {f : α → Eng β} (hx : Quiet x) (hf : ∀ a, Moves L L' (f a)) : Moves L L' (x >>= f) :=
  hx.moves.bind hf

/-! ## Opening -/

namespace Opens

variable {r : HandleReg}

/-- An open whose handle is kept, or raises. -/
theorem must {x : Eng OpenAnswer} {f : Unit → Eng β} {c : ErrorCode} (hx : Opens L r x) (hf : Moves (r :: L) L' (f ())) :
    Moves L L' (x >>= fun a => a.must c >>= f) := by
  intro e h
  rw [ends_bind]
  refine (hx e h).mono (fun a e' h' => ?_) fun _ _ hs => hs
  rw [ends_bind, ends_must]
  exact ⟨fun k hk => hf e' (h'.1 k hk), fun hk => left_error (h'.2 hk) _ _ _⟩

/-- An open whose handle is kept, or raises, last. -/
theorem mustLast {x : Eng OpenAnswer} {c : ErrorCode} (hx : Opens L r x) : Moves L (r :: L) (x >>= fun a => a.must c) := by
  intro e h
  rw [ends_bind]
  refine (hx e h).mono (fun a e' h' => ?_) fun _ _ hs => hs
  rw [ends_must]
  exact ⟨h'.1, fun hk => left_error (h'.2 hk) _ _ _⟩

/-- An open, with a case for each answer. -/
theorem bind {x : Eng OpenAnswer} {f : OpenAnswer → Eng β} (hx : Opens L r x) (hh : ∀ k, Moves (r :: L) L' (f (.handle k)))
    (hn : Moves L L' (f .notFound)) (hf : Moves L L' (f .fail)) : Moves L L' (x >>= f) := by
  intro e h
  rw [ends_bind]
  refine (hx e h).mono (fun a e' h' => ?_) fun _ _ hs => hs
  cases a with
  | handle k => exact hh k e' (h'.1 k rfl)
  | notFound => exact hn e' (h'.2 (by simp))
  | fail => exact hf e' (h'.2 (by simp))

theorem openRead (hr : r ∉ L) (p : Path) : Opens L r (openRead r p) := by
  intro e h
  simp only [Machine.openRead, ends_bind, ends_sOpenRead, ends_keep]
  refine ⟨fun _ => left_unanswered h, fun _ => ⟨fun _ => ?_, fun _ _ => ?_, fun _ _ => ?_⟩⟩
  · exact ⟨by simp, fun _ => ⟨by simp, fun _ => h.asked⟩⟩
  · exact ⟨by simp, fun _ => ⟨by simp, fun _ => h.asked⟩⟩
  · refine ⟨fun k hk => ⟨fun _ _ => ?_, by simp⟩, by simp⟩
    injection hk with hk
    subst hk
    exact h.asked.opens hr (ref := .named p) (by simp [Storage.opened, Storage.openedRead, Storage.addHandle]) (Nat.le_refl _)
      (Nat.lt_succ_self _) (.inl ⟨rfl, by simp⟩)

theorem openCreate (hr : r ∉ L) (p : Path) : Opens L r (openCreate r p) := by
  intro e h
  simp only [Machine.openCreate, ends_bind, ends_sOpenCreate, ends_keep]
  refine ⟨fun _ => left_unanswered h, fun _ => ⟨fun _ => ?_, fun _ => ?_⟩⟩
  · exact ⟨by simp, fun _ => ⟨by simp, fun _ => h.asked⟩⟩
  · refine ⟨fun k hk => ⟨fun _ _ => ?_, by simp⟩, by simp⟩
    injection hk with hk
    subst hk
    exact h.asked.opens hr (ref := .named p) (by simp [Storage.opened, Storage.openedCreate, Storage.addHandle]) (Nat.le_refl _)
      (Nat.lt_succ_self _) (.inl ⟨rfl, by simp⟩)

theorem openTemp (hr : r ∉ L) : Opens L r (openTemp r) := by
  intro e h
  simp only [Machine.openTemp, ends_bind, ends_sTemp, ends_keep]
  refine ⟨fun _ => left_unanswered h, fun _ => ⟨fun _ => ?_, fun _ => ?_⟩⟩
  · exact ⟨by simp, fun _ => ⟨by simp, fun _ => h.asked⟩⟩
  · refine ⟨fun k hk => ⟨fun _ _ => ?_, by simp⟩, by simp⟩
    injection hk with hk
    subst hk
    exact h.asked.opens hr (ref := .temp e.storage.nextId)
      (by simp [Storage.opened, Storage.openedTemp, Storage.addHandle]) (Nat.le_succ _) (Nat.lt_succ_self _)
      (.inr ⟨e.storage.nextId, by simp [Storage.staged, Storage.openedTemp, Storage.addHandle], rfl, Nat.le_refl _,
        Nat.lt_succ_self _⟩)

end Opens

/-! ## Archives -/

namespace Moves

theorem createFile (p : Path) : Moves [] [] (createFile p) :=
  (Opens.openCreate (by simp) p).must <| (Quiet.reg _).andThen fun _ => (Quiet.wr _ _).andThen fun _ =>
    (Quiet.archiveCrc _).andThen fun _ => (Quiet.sSeek _ _).andThen fun _ => (Quiet.wr _ _).andThen fun _ =>
    (closeReg .a).bind fun _ => pure _

theorem openOrCreate (p : Path) : Moves [] [.a] (openOrCreate p) :=
  (Opens.openRead (by simp) p).bind (fun _ => pure _)
    ((createFile p).bind fun _ => (Opens.openRead (by simp) p).mustLast) (raise _)

theorem openValidate (p : Path) (m : ValidateMode) : Moves [] [.a] (openValidate p m) := by
  refine (openOrCreate p).bind fun _ => Quiet.moves ?_
  refine (Quiet.reg _).bind fun _ => (Quiet.sSize _).bind fun _ => (Quiet.updateWork).bind fun _ =>
    (Quiet.sSeek _ _).bind fun _ => (Quiet.inInit _ _).bind fun _ => (Quiet.checkMagic _).bind fun _ => .ite ?_
    ((Quiet.sSeek _ _).bind fun _ => (Quiet.inInit _ _).bind fun _ => Quiet.rd32.bind fun _ => (Quiet.orRaise _ _).bind fun _ =>
      (Quiet.archiveCrc _).bind fun _ => .ite ((Quiet.validateStructure _).bind fun _ => .ite (.pure _) (Quiet.failMode _ _ _))
      (Quiet.failMode _ _ _))
  cases m with
  | abort => exact .raise _
  | report => exact (Quiet.archiveCrc _).bind fun _ => Quiet.failMode _ _ _

/-- SReplace closes the staging archive's handle; the register T is cleared with it. -/
theorem commit (p : Path) (n : Nat) : Moves (.t :: L) L (commit p n) := by
  intro e h
  rw [Machine.commit, ends_bind, ends_reg]
  refine (Quiet.sSeek _ _).ends_bind h fun _ e1 h1 r1 => (Quiet.wr _ _).ends_bind h1 fun _ e2 h2 r2 =>
    (Quiet.archiveCrc _).ends_bind h2 fun c e3 h3 r3 => (Quiet.sSeek _ _).ends_bind h3 fun _ e4 h4 r4 =>
    (Quiet.wr _ _).ends_bind h4 fun _ e5 h5 r5 => ?_
  rw [ends_bind, ends_sReplace]
  have hreg : e5.work.reg .t = e.work.reg .t := by rw [r5, r4, r3, r2, r1]
  refine ⟨fun _ => left_unanswered h5, fun _ => ⟨fun _ => ?_, fun m w pos hk => ⟨fun _ => ?_, fun _ => ?_⟩⟩⟩
  · exact left_error h5.asked _ _ _
  · exact left_error h5.asked _ _ _
  · have ho := lookup_opened hk
    cases ht : e.work.reg .t with
    | none =>
      rw [ht] at ho
      exact absurd (h5.later _ _ ho) (Nat.not_lt_zero m)
    | some t =>
      rw [ht] at ho
      exact h5.asked.closes (hreg.trans ht) (h5.opened_removeAt t rfl) (h5.staged_removeAt ho rfl) rfl

theorem appendFile (i : Nat) (n : Path) (size : Nat) : Moves (.f :: L) L (appendFile i n size) :=
  Quiet.sNow.andThen fun _ => (Quiet.reg _).andThen fun _ => (Quiet.reg _).andThen fun _ =>
    (Quiet.encodeFile _ _ _).andThen fun _ => (closeReg .f).bind fun _ => (Quiet.reg _).andThen fun _ =>
    (Quiet.wr _ _).andThen fun _ => (Quiet.setStatus _ _).andThen fun _ => (Quiet.updateWork).moves

theorem appendName (hf : .f ∉ L) (i : Nat) (n : Path) : Moves L L (appendName i n) := by
  have hfail : ∀ {L v}, Moves L L (Machine.failName i v) := (Quiet.failName _ _).moves
  refine .ite ((Opens.openRead hf n).bind (fun _ => ?_) hfail hfail) hfail
  exact (Quiet.sSize _).andThen fun _ => (Quiet.look _).andThen fun _ => .ite ((closeReg .f).bind fun _ => hfail)
    (appendFile _ _ _)

theorem appendNames (hf : .f ∉ L) (ns : List Path) (i : Nat) : Moves L L (appendNames i ns) := by
  induction ns generalizing i with
  | nil => exact pure _
  | cons n ns ih => exact (appendName hf i n).bind fun _ => ih _

theorem appendCommit (p : Path) : Moves (.t :: L) L (appendCommit p) :=
  (Quiet.reg _).andThen fun _ => (Quiet.sSeek _ _).andThen fun _ => (Quiet.wr _ _).andThen fun _ =>
    (Quiet.look _).andThen fun _ => (Quiet.reg _).andThen fun _ => (Quiet.copyFrom _ _ _).andThen fun _ =>
    (Quiet.reg _).andThen fun _ => (Quiet.copyWhole _).andThen fun _ => (Quiet.copyFrom _ _ _).andThen fun _ =>
    (Quiet.reg _).andThen fun _ => (Quiet.copyWhole _).andThen fun _ => (commit _ _).bind fun _ => pure _

theorem extractEntry (hg : .g ∉ L) (en : Entry) (off : Nat) : Moves L L (extractEntry en off) := by
  refine (Opens.openCreate hg en.name).bind (fun g => ?_) (pure _) (pure _)
  refine (Quiet.reg _).andThen fun _ => (Quiet.sSeek _ _).andThen fun _ => (Quiet.decodeBlock _ _ _ _).andThen fun r => ?_
  cases r with
  | corrupt w => exact (closeReg .g).bind fun _ => pure _
  | done w b => exact (closeReg .g).bind fun _ => pure _

theorem extractLoop (hg : .g ∉ L) (sel : Selection) (n j : Nat) : Moves L L (extractLoop sel n j) := by
  induction n generalizing j with
  | zero => exact pure _
  | succ n ih =>
    have hcount : ∀ r : NameStatus, Quiet (Machine.updateWork fun w =>
        if r = .ok then { w with kOk := w.kOk + 1 } else { w with kFail := w.kFail + 1 }) :=
      fun r => .updateWork (by intro w q; split <;> cases q <;> rfl)
    refine (Quiet.look _).andThen fun _ => (Quiet.look _).andThen fun _ => (Quiet.recAt _).andThen fun _ =>
      (Quiet.look _).andThen fun _ => .ite ?_ ((Quiet.updateWork).andThen fun _ => ih _)
    exact (extractEntry hg _ _).bind fun r => (hcount r).andThen fun _ => (Quiet.mark _ _ _ sel).andThen fun _ =>
      (Quiet.updateWork).andThen fun _ => ih _

theorem withCounts {x : Eng α} (hx : Moves L L' x) : Moves L L' (withCounts x) := by
  intro e h
  have := hx e h
  unfold Ends Machine.withCounts at *
  cases hxe : x e with
  | ok a e' => rw [hxe] at this; exact this
  | error st e' =>
    rw [hxe] at this
    cases st with
    | unanswered => exact this
    | error c a b => cases c <;> exact ⟨this.1, by simp⟩

/-! ## Bodies -/

theorem orRaise_bind {c : ErrorCode} {o : Option α} {f : α → Eng β} (hf : ∀ a, Moves L L' (f a)) :
    Moves L L' (orRaise c o >>= f) := (Quiet.orRaise c o).moves.bind hf

theorem extractFrom (p : Path) (sel : Selection) : Moves [] [.a] (extractFrom p sel) :=
  (openValidate p _).bind fun _ => (Quiet.markInvalid _ _).andThen fun _ => (Quiet.updateWork).andThen fun _ =>
    (Quiet.look _).andThen fun _ => (withCounts (extractLoop (by decide) sel _ _)).bind fun _ =>
    (Quiet.markMissing _ _).andThen fun _ => (Quiet.look _).andThen fun _ => pure _

theorem removeFrom (p : Path) (sel : Selection) : Moves [] [.t, .a] (removeFrom p sel) := by
  refine (openValidate p _).bind fun _ => (Opens.openTemp (by decide)).must ?_
  refine (Quiet.markInvalid _ _).andThen fun _ => (Quiet.reg _).andThen fun _ => (Quiet.sSeek _ _).andThen fun _ =>
    (Quiet.wr _ _).andThen fun _ => (Quiet.look _).andThen fun _ => (Quiet.updateWork).andThen fun _ =>
    (Quiet.removeRecords _ _ _ _ _).andThen fun _ => (Quiet.updateWork).andThen fun _ =>
    (Quiet.removeBlocks _ _).andThen fun _ => (Quiet.markMissing _ _).andThen fun _ => .ite
    ((commit _ _).bind fun _ => ?_) (pure _)
  exact (pure _).weaken (by simp)

theorem bodyAppend (s : State) : Moves [] [.t, .m, .d, .a] (bodyAppend s) := by
  refine orRaise_bind fun _ => (openValidate _ _).bind fun _ => (Opens.openTemp (by decide)).must <|
    (Opens.openTemp (by decide)).must <| (Opens.openTemp (by decide)).must <| (Quiet.updateWork).andThen fun _ =>
    (appendNames (by decide) _ _).bind fun _ => (Quiet.look _).andThen fun _ => .ite
    ((appendCommit _).bind fun _ => ?_) ((Quiet.look _).andThen fun _ => pure _)
  exact (Moves.bind (Quiet.look _).moves fun _ => pure _).weaken (by simp)

theorem bodyEncode (s : State) : Moves [] [.g, .f] (bodyEncode s) :=
  orRaise_bind fun _ => (Opens.openRead (by decide) _).must <| (Quiet.reg _).andThen fun _ => (Quiet.sSize _).andThen fun _ =>
    (Quiet.check _ _).andThen fun _ => (Opens.openCreate (by decide) _).must <|
    (Quiet.reg _).andThen fun _ => (Quiet.reg _).andThen fun _ =>
    (Quiet.encodeFile _ _ _).andThen fun _ => pure _

theorem bodyDecode (s : State) : Moves [] [.g, .f] (bodyDecode s) := by
  refine orRaise_bind fun _ => (Opens.openRead (by decide) _).must <| (Opens.openCreate (by decide) _).must <|
    (Quiet.reg _).andThen fun _ => (Quiet.sSize _).andThen fun _ => (Quiet.sSeek _ _).andThen fun _ =>
    (Quiet.reg _).andThen fun _ => (Quiet.decodeBlock _ _ _ _).andThen fun r => ?_
  cases r with
  | done w b => exact pure _
  | corrupt w => exact raiseWith _ _ _

theorem bodyCrc32 (s : State) : Moves [] [.f] (bodyCrc32 s) :=
  orRaise_bind fun _ => (Opens.openRead (by decide) _).must <| (Quiet.reg _).andThen fun _ => (Quiet.sSeek _ _).andThen fun _ =>
    (Quiet.crcStream _).andThen fun _ => pure _

theorem bodyListEntry (s : State) : Moves [] [.a] (bodyListEntry s) :=
  orRaise_bind fun _ => (openValidate _ _).bind fun _ => (Quiet.look _).andThen fun _ => (Quiet.check _ _).andThen fun _ =>
    (Quiet.updateWork).andThen fun _ => (Quiet.skipRecords _).andThen fun _ => (Quiet.look _).andThen fun _ =>
    (Quiet.recAt _).andThen fun _ => (Quiet.look _).andThen fun _ => (Quiet.check _ _).andThen fun _ => pure _

/-- Every command starts with no handle held. -/
theorem body (i : Instr) (s : State) : Moves [] HandleReg.all (Instr.body i s) := by
  have hall : ∀ L : List HandleReg, L ⊆ HandleReg.all := fun _ r _ => r.mem_all
  cases i with
  | create => exact (orRaise_bind fun _ => (createFile _).bind fun _ => pure _).grow (hall _)
  | append => exact (bodyAppend s).grow (hall _)
  | extract => exact (orRaise_bind fun _ => extractFrom _ _).grow (hall _)
  | extractAll => exact (orRaise_bind fun _ => extractFrom _ _).grow (hall _)
  | remove => exact (orRaise_bind fun _ => removeFrom _ _).grow (hall _)
  | removeAll => exact (orRaise_bind fun _ => removeFrom _ _).grow (hall _)
  | verify => exact (orRaise_bind fun _ => (openValidate _ _).bind fun _ => pure _).grow (hall _)
  | info => exact (orRaise_bind fun _ => (openValidate _ _).bind fun _ => (Quiet.look _).andThen fun _ => pure _).grow (hall _)
  | listEntry => exact (bodyListEntry s).grow (hall _)
  | encode => exact (bodyEncode s).grow (hall _)
  | decode => exact (bodyDecode s).grow (hall _)
  | crc32 => exact (bodyCrc32 s).grow (hall _)

end Moves

end Sys2Proof.Machine
end

section
/-! PROOFS. How a command ends, which files it names, and which word it has: what the invariant needs of the engine's turn. -/

namespace Sys2Proof.Machine

variable {α : Type}

/-! ## The conclusion -/

/-- Nothing is held, open or staged, and no change of a file by the host is to come (R81, R332; log 10). -/
def Engine.Settled (e : Engine) : Prop := e.Tidy [] ∧ e.draws.edits = []

/-- The computation cannot stop, and keeps the engine settled. -/
def KeepsSettled (x : Eng α) : Prop := ∀ e, e.Settled → Ends x e (fun _ e' => e'.Settled) fun _ _ => False

theorem KeepsSettled.pure (a : α) : KeepsSettled (Pure.pure a : Eng α) := fun _ h => h

theorem KeepsSettled.bind {β : Type} {x : Eng α} {f : α → Eng β} (hx : KeepsSettled x) (hf : ∀ a, KeepsSettled (f a)) :
    KeepsSettled (x >>= f) := by
  intro e h
  rw [ends_bind]
  exact (hx e h).mono (fun a e' h' => hf a e' h') fun _ _ hs => hs

theorem moves_scramble {L : List HandleReg} (ps : List Path) : Moves L L (scramble ps) := by
  induction ps with
  | nil => exact .pure _
  | cons p ps ih =>
    intro e h
    simp only [scramble, ends_bind, ends_nextFree, ends_update]
    exact ih _ (h.congr rfl rfl rfl fun _ => rfl)

theorem moves_abandon {L : List HandleReg} (rep : Report) : Moves L L (abandon rep) := by
  intro e h
  rw [ends_abandon]
  exact ⟨fun _ => moves_scramble _ e h, fun _ => h⟩

theorem settled_unspecify (ps : List Path) : KeepsSettled (unspecify ps) := by
  induction ps with
  | nil => exact .pure _
  | cons p ps ih =>
    intro e h
    simp only [unspecify, ends_bind, ends_nextFree, ends_update]
    exact ih _ ⟨h.1.congr rfl rfl rfl fun _ => rfl, h.2⟩

theorem settled_setStatuses (vs : List NameStatus) (i : Nat) : KeepsSettled (setStatuses i vs) := by
  induction vs generalizing i with
  | nil => exact .pure _
  | cons v vs ih =>
    intro e h
    simp only [setStatuses, ends_bind, ends_ite, ends_setStatus]
    exact ⟨fun _ => ih _ _ ⟨h.1.congr rfl rfl rfl fun _ => rfl, h.2⟩, fun _ => ih _ _ h⟩

theorem settled_breachEffects (ps : List Path) (st ls : Bool) (o : Nat) (c : ErrorCode) :
    KeepsSettled (breachEffects ps st ls o c) := by
  refine (settled_unspecify ps).bind fun _ => KeepsSettled.bind (x := nextFree) ?_ fun k => ?_
  · exact fun e h => ⟨h.1.congr rfl rfl rfl fun _ => rfl, h.2⟩
  · intro e h
    rw [ends_ite]
    exact ⟨fun _ => (settled_setStatuses _ _).bind (fun _ => .pure _) e h, fun _ => h⟩

theorem settled_unlessBreached (s : State) (n : Naming) (rep : Report) : KeepsSettled (unlessBreached s n rep) := by
  intro e h
  rw [ends_unlessBreached]
  exact ⟨fun _ => h, fun ps _ => settled_breachEffects _ _ _ _ _ e h⟩

/-- A command that completes leaves nothing held, open or staged, and one that waits leaves no change of a file to come. -/
theorem concluding_settles (i : Instr) (s : State) {e : Engine} (h : e.atRest = true) :
    Ends (concluding s (naming i s) (Instr.body i s)) e (fun _ e' => e'.atRest = true ∧ e'.draws.edits = [])
      fun st e' => st = .unanswered ∧ e'.draws.edits = [] := by
  have hend : ∀ {L} (rep : Report) e1, Engine.Tidy L e1 → Ends (abandon rep) e1 (fun _ e2 => Ends closeAll e2 (fun _ e3 =>
      Ends (unlessBreached s (naming i s) rep) e3.landAll (fun _ e' => e'.Settled) Left) Left) Left := by
    intro L rep e1 h1
    refine (moves_abandon rep e1 h1).mono (fun _ e2 h2 => ?_) fun _ _ hs => hs
    refine (Moves.closeAll e2 h2).mono (fun _ e3 h3 => ?_) fun _ _ hs => hs
    exact (settled_unlessBreached s _ rep _ ⟨h3.landAll, rfl⟩).mono (fun _ _ h => h) fun _ _ hf => hf.elim
  have hall : Ends (concluding s (naming i s) (Instr.body i s)) e (fun _ e' => e'.Settled) Left := by
    rw [ends_concluding, ends_reporting]
    refine (Moves.body i s e (Engine.tidy_of_atRest h)).mono (fun rep e1 h1 => hend rep e1 h1) fun st e1 h1 => ?_
    cases st with
    | error c r0 r1 => exact hend _ e1 h1.1
    | unanswered => exact h1
  exact (ends_and hall (concluding_stops s _ _ e)).mono (fun _ _ hq => ⟨hq.1.1.atRest, hq.1.2⟩)
    fun st e' hr => ⟨hr.2, hr.1.2 hr.2⟩

/-! ## The files a command names are paths -/

theorem nameLength_no_zero {n q : Nat} {bs : Bytes} (h : nameLength n bs = some q) : 0 ∉ bs.take q := by
  induction n generalizing bs q with
  | zero => cases bs <;> simp [nameLength] at h
  | succ n ih =>
    cases bs with
    | nil => simp [nameLength] at h
    | cons b bs =>
      simp only [nameLength] at h
      split at h
      · injection h with h
        simp [← h]
      · rename_i hb
        obtain ⟨q', hq', rfl⟩ := Option.map_eq_some_iff.1 h
        rw [List.take_succ_cons, List.mem_cons, not_or]
        exact ⟨Ne.symm hb, ih hq'⟩

/-- An entry that the parser reads has a name of R63. -/
theorem parseRecord_wf {bs rest : Bytes} {en : Entry} (h : parseRecord bs = some (en, rest)) : Path.wf en.name = true := by
  unfold parseRecord at h
  split at h
  · exact absurd h (by simp)
  · rename_i q hq
    have hlt := (nameLength_le hq).2
    split at h
    · exact absurd h (by simp)
    · rename_i hq0
      split at h
      · exact absurd h (by simp)
      · injection h with h
        injection h with h _
        subst h
        refine path_wf_of_valid (nameLength_no_zero hq) ?_
        simp only [lengthValid, Config.nameMax, Bool.and_eq_true, decide_eq_true_eq, List.length_take]
        omega

theorem parseRecords_wf {n : Nat} {bs rest : Bytes} {es : List Entry} (h : parseRecords n bs = some (es, rest)) :
    ∀ en ∈ es, Path.wf en.name = true := by
  induction n generalizing bs es rest with
  | zero =>
    simp only [parseRecords, Option.some.injEq, Prod.mk.injEq] at h
    simp [← h.1]
  | succ n ih =>
    simp only [parseRecords] at h
    split at h
    · exact absurd h (by simp)
    · rename_i en rest' hrec
      obtain ⟨⟨es', r⟩, hes, heq⟩ := Option.map_eq_some_iff.1 h
      injection heq with h1 h2
      subst h1
      intro x hx
      rcases List.mem_cons.1 hx with rfl | hx
      · exact parseRecord_wf hrec
      · exact ih hes x hx

theorem parse_wf {c : Bytes} {b : Bool} {es : List Entry} {bs : List Bytes} (h : parse c b = .archive es bs) :
    ∀ en ∈ es, Path.wf en.name = true := by
  unfold parse at h
  split at h
  · exact absurd h (by simp)
  split at h
  · exact absurd h (by simp)
  split at h
  · exact absurd h (by simp)
  split at h
  · exact absurd h (by simp)
  · rename_i es' data hrec
    split at h
    · injection h with h1 h2
      subst h1
      exact parseRecords_wf hrec
    · exact absurd h (by simp)

theorem entriesAt_wf (s : State) (p : Path) : ∀ en ∈ s.entriesAt p, Path.wf en.name = true := by
  unfold State.entriesAt
  split
  · simp
  · split
    · exact parse_wf ‹_›
    · simp
    · simp

/-- The valid names of a name list are paths. -/
theorem batch_names_wf {s : State} {p : Path} {ns : List Path} (h : batchOperands s = some (p, ns)) :
    ∀ q ∈ ns.filter lengthValid, Path.wf q = true := fun q hq =>
  (names_spec (batchOperands_eq_some.1 h).2.1).2 q (List.mem_filter.1 hq).1 (List.mem_filter.1 hq).2

/-- The archive path and the valid names of a selection are paths. -/
def OperandsOk (ops : Option (Path × Selection)) : Prop :=
  ∀ p sel, ops = some (p, sel) → ∀ q ∈ p :: sel.list.filter lengthValid, Path.wf q = true

theorem named_operandsOk (s : State) : OperandsOk (namedOperands s) := by
  intro p sel h q hq
  obtain ⟨⟨p', ns⟩, ho, heq⟩ := Option.map_eq_some_iff.1 h
  injection heq with h1 h2
  subst h1 h2
  rcases List.mem_cons.1 hq with rfl | hq
  · exact (batch_wf ho).1
  · exact batch_names_wf ho q hq

theorem all_operandsOk (s : State) : OperandsOk (allOperands s) := by
  intro p sel h q hq
  obtain ⟨p', ho, heq⟩ := Option.map_eq_some_iff.1 h
  injection heq with h1 h2
  subst h1 h2
  rcases List.mem_cons.1 hq with rfl | hq
  · exact archPath_wf ho
  · exact absurd hq (by simp [Selection.list])

theorem archiveNaming_wf (b : Bool) (s : State) : ∀ p ∈ (archiveNaming b s).files, Path.wf p = true := by
  intro p hp
  exact archPath_wf (Option.mem_toList.1 hp)

theorem twoFilesNaming_wf (s : State) : ∀ p ∈ (twoFilesNaming s).files, Path.wf p = true := by
  unfold twoFilesNaming
  split
  · rename_i p0 p1 h
    simp [two_wf h]
  · simp

theorem appendNaming_wf (s : State) : ∀ p ∈ (appendNaming s).files, Path.wf p = true := by
  unfold appendNaming
  split
  · rename_i p ns h
    intro q hq
    rcases List.mem_cons.1 hq with rfl | hq
    · exact (batch_wf h).1
    · exact batch_names_wf h q hq
  · simp

theorem extractNaming_wf (s : State) {ops : Option (Path × Selection)} (ho : OperandsOk ops) :
    ∀ p ∈ (extractNaming s ops).files, Path.wf p = true := by
  unfold extractNaming
  split
  · rename_i p sel
    intro q hq
    simp only [List.mem_cons, List.mem_append] at hq
    rcases hq with hq | hq | hq
    · exact ho p sel rfl q (by simp [hq])
    · exact ho p sel rfl q (by simp [hq])
    · obtain ⟨en, hen, rfl⟩ := List.mem_map.1 (List.mem_filter.1 hq).1
      exact entriesAt_wf s p en hen
  · simp

theorem removeNaming_wf {ops : Option (Path × Selection)} (ho : OperandsOk ops) :
    ∀ p ∈ (removeNaming ops).files, Path.wf p = true := by
  unfold removeNaming
  split
  · exact ho _ _ rfl
  · simp

theorem naming_wf (i : Instr) (s : State) : ∀ p ∈ (naming i s).files, Path.wf p = true := by
  cases i with
  | create => exact archiveNaming_wf _ s
  | append => exact appendNaming_wf s
  | extract => exact extractNaming_wf s (named_operandsOk s)
  | extractAll => exact extractNaming_wf s (all_operandsOk s)
  | remove => exact removeNaming_wf (named_operandsOk s)
  | removeAll => exact removeNaming_wf (all_operandsOk s)
  | verify => exact archiveNaming_wf _ s
  | info => exact archiveNaming_wf _ s
  | listEntry => exact archiveNaming_wf _ s
  | encode => exact twoFilesNaming_wf s
  | decode => exact twoFilesNaming_wf s
  | crc32 =>
    intro p hp
    obtain ⟨-, hn, hv⟩ := oneFile_eq_some.1 (Option.mem_toList.1 hp)
    exact (names_spec hn).2 p (by simp) hv

theorem namedFiles_wf (s : State) : ∀ p ∈ s.namedFiles, Path.wf p = true := by
  unfold State.namedFiles
  split
  · split
    · exact naming_wf _ s
    · simp
  · simp

/-- The files of a broken duty are paths, where those noted are. -/
theorem breach_wf {i : Instr} {s : State} (h : ∀ ps, s.breached = some ps → ∀ p ∈ ps, Path.wf p = true) {ps : List Path}
    (hps : s.breach (naming i s) = some ps) : ∀ p ∈ ps, Path.wf p = true := by
  unfold State.breach at hps
  split at hps
  · rename_i qs hqs
    injection hps with hps
    subst hps
    intro p hp
    rcases List.mem_append.1 hp with hp | hp
    · exact h qs hqs p hp
    · exact naming_wf i s p hp
  · split at hps
    · injection hps with hps
      subst hps
      exact naming_wf i s
    · exact absurd hps (by simp)

/-! ## The word of a command -/

theorem wordOf_fieldsOf (w : Word) : wordOf (fieldsOf w) = w := by
  have hall : BitVec.ofBool (w.getLsbD 8) = w.extractLsb' 8 1 := by
    ext i hi
    simp [show i = 0 by omega]
  show w.extractLsb' 9 23 ++ (BitVec.ofBool (w.getLsbD 8) ++ w.extractLsb' 0 8) = w
  rw [hall, BitVec.extractLsb'_append_extractLsb'_eq_extractLsb',
    BitVec.extractLsb'_append_extractLsb'_eq_extractLsb']
  · exact BitVec.extractLsb'_eq_self
  all_goals rfl

/-- The opcode map of R102 read backwards. -/
theorem fields_of_opcodeOf {op : BitVec 8} {all : Bool} {i : Instr} (h : opcodeOf op all = .ok i) :
    i.fields = ⟨op, all, 0⟩ := by
  have hop : ∀ {c : BitVec 8} {x y : Except Reject Instr}, (if op = c then x else y) = .ok i →
      op = c ∧ x = .ok i ∨ y = .ok i := by
    intro c x y h
    split at h <;> simp_all
  have hall : ∀ {c : Instr}, (if all = true then .error .allNotAllowed else .ok c : Except Reject Instr) = .ok i →
      all = false ∧ i = c := by
    intro c h
    cases all <;> simp_all
  unfold opcodeOf at h
  iterate 2
    rcases hop h with ⟨rfl, h⟩ | h
    · cases all <;> injection h with h <;> subst h <;> rfl
  iterate 8
    rcases hop h with ⟨rfl, h⟩ | h
    · obtain ⟨rfl, rfl⟩ := hall h
      rfl
  exact absurd h (by simp)

/-- A word that decodes is the command's word (R101, R102). -/
theorem eq_word_of_decodeWord {w : Word} {i : Instr} (h : decodeWord w = .ok i) : w = i.word := by
  simp only [decodeWord] at h
  split at h
  · rename_i hr
    rw [Instr.word, fields_of_opcodeOf h, ← hr]
    exact (wordOf_fieldsOf w).symm
  · exact absurd h (by simp)

theorem wordOfBytes_bytesOfWord (w : Word) :
    wordOfBytes (w.extractLsb' 0 8) (w.extractLsb' 8 8) (w.extractLsb' 16 8) (w.extractLsb' 24 8) = w := by
  rw [wordOfBytes, BitVec.extractLsb'_append_extractLsb'_eq_extractLsb',
    BitVec.extractLsb'_append_extractLsb'_eq_extractLsb', BitVec.extractLsb'_append_extractLsb'_eq_extractLsb']
  · exact BitVec.extractLsb'_eq_self
  all_goals rfl

/-- A word's bytes decode as the word does. -/
theorem decode_bytesOfWord (w : Word) : decode (bytesOfWord w) = (decodeWord w).map fun i => (i, []) := by
  show (match decodeWord (wordOfBytes _ _ _ _) with | .ok i => _ | .error r => _) = _
  rw [wordOfBytes_bytesOfWord]
  cases decodeWord w <;> rfl

theorem decodeWord_word (i : Instr) : decodeWord i.word = .ok i := by cases i <;> rfl

end Sys2Proof.Machine
end

section
/-! PROOFS. The register window (R16 to R43, R50 to R56): one equation per access, then what the host reads and writes. -/

namespace Sys2Proof.Machine

variable {s : State}

/-! ## Accesses -/

theorem access_read {off : BitVec 17} {n : Width} (h : accepted off.toNat n = true) :
    s.access (.read off n) = { s.usedFree with bus := ⟨s.readData off.toNat n, false⟩ } := if_pos h

theorem access_write {off : BitVec 17} {n : Width} (h : accepted off.toNat n = true) (v : Word) :
    s.access (.write off n v) = { s.writeData off.toNat n v with bus := ⟨0, false⟩ } := if_pos h

theorem access_read_refused {off : BitVec 17} {n : Width} (h : accepted off.toNat n = false) :
    s.access (.read off n) = { s with bus := ⟨0, true⟩ } := if_neg (by simp [h])

theorem access_write_refused {off : BitVec 17} {n : Width} (h : accepted off.toNat n = false) (v : Word) :
    s.access (.write off n v) = { s with bus := ⟨0, true⟩ } := if_neg (by simp [h])

theorem regionOf_register {o : Nat} (h : o < 0x1000) : regionOf o = .register o := if_pos h

theorem regionOf_argmem {o : Nat} (h : 0x10000 ≤ o) : regionOf o = .argmem (o - 0x10000) := by
  unfold regionOf
  rw [if_neg (by omega), if_neg (by omega), if_neg (by omega)]

theorem accepted_register {o : Nat} (h : o < 0x1000) {n : Width} : accepted o n = (n == .w32 && o % 4 == 0) := by
  simp only [accepted, regionOf_register h]

/-- An aligned 32-bit read of a register answers its value (R52). -/
theorem read_register (s : State) {off : BitVec 17} (h : off.toNat < 0x1000) (ha : off.toNat % 4 = 0) :
    (s.access (.read off .w32)).bus = ⟨s.readReg off.toNat, false⟩ := by
  rw [access_read (by simp [accepted_register h, ha]), State.readData, regionOf_register h]

/-- An aligned 32-bit write of a register (R52). -/
theorem write_register (s : State) {off : BitVec 17} (h : off.toNat < 0x1000) (ha : off.toNat % 4 = 0) (v : Word) :
    s.access (.write off .w32 v) = { s.writeReg off.toNat v with bus := ⟨0, false⟩ } := by
  rw [access_write (by simp [accepted_register h, ha]), State.writeData, regionOf_register h]

theorem write_cmd (s : State) (v : Word) :
    s.access (.write 0x008 .w32 v) = { s.writeCmd v with bus := ⟨0, false⟩ } := write_register s (by decide) (by decide) v

theorem write_status (s : State) (v : Word) :
    s.access (.write 0x00C .w32 v) = { s.writeStatus v with bus := ⟨0, false⟩ } := write_register s (by decide) (by decide) v

theorem write_ie (s : State) (v : Word) :
    s.access (.write 0x010 .w32 v) = { s.writeIE v with bus := ⟨0, false⟩ } := write_register s (by decide) (by decide) v

theorem writeCmd_busy (h : s.busy = true) (v : Word) : s.writeCmd v = { s with ovr := true } := if_pos h

theorem writeCmd_idle (h : s.busy = false) (v : Word) : s.writeCmd v = s.accept v := if_neg (by simp [h])

theorem writeArgReg_busy (h : s.busy = true) (o : Nat) (v : Word) : s.writeArgReg o v = s := if_pos h

theorem writeArg_busy (h : s.busy = true) (i : Nat) (n : Width) (v : Word) : s.writeArg i n v = s := if_pos h

/-! ## Bits of STATUS, IE and ERROR -/

theorem status_bit (s : State) {k : Nat} (hk : k < 32) :
    s.status.getLsbD k =
      (if k = 0 then s.busy else if k = 1 then s.done else if k = 2 then s.err else if k = 3 then s.ovr else false) := by
  simp only [State.status, BitVec.getLsbD_append, BitVec.getLsbD_ofBool]
  match k with
  | 0 => simp
  | 1 => simp
  | 2 => simp
  | 3 => simp
  | k + 4 => simp

theorem err_eq_decide (s : State) : s.err = decide (s.errCode ≠ 0) := by
  rw [State.err, bne, decide_not]
  rfl

theorem ieWord_bit (s : State) {k : Nat} (hk : k < 32) :
    s.ieWord.getLsbD k = (if k = 0 then s.doneIE else if k = 1 then s.ovrIE else false) := by
  simp only [State.ieWord, BitVec.getLsbD_append, BitVec.getLsbD_ofBool]
  match k with
  | 0 => simp
  | 1 => simp
  | k + 2 => simp

theorem errorWord_bit (s : State) {k : Nat} (hk : k < 32) : s.errorWord.getLsbD k = (decide (k < 4) && s.errCode.getLsbD k) := by
  simp only [State.errorWord, BitVec.getLsbD_setWidth, hk, decide_true, Bool.true_and]
  by_cases h : k < 4
  · simp [h]
  · simp [h, BitVec.getLsbD_of_ge _ _ (Nat.not_lt.1 h)]

@[simp] theorem usedFree_schedule (s : State) : s.usedFree.schedule = s.schedule := by
  unfold State.usedFree
  split <;> rfl

/-- The poll of WAITDONE (R112; log 35): the bit it reads is DONE. -/
theorem poll_eq (s : State) :
    s.poll =
      if s.done = true then s.access (.read 0x00C .w32)
      else { s.access (.read 0x00C .w32) with schedule := .engine :: .waitDone :: s.schedule } := by
  have hdone : (s.access (.read 0x00C .w32)).bus.data.getLsbD 1 = s.done := by
    rw [read_register s (by decide) (by decide)]
    exact status_bit s (by decide)
  have hsched : (s.access (.read 0x00C .w32)).schedule = s.schedule := by
    rw [access_read (by decide), usedFree_schedule]
  simp only [State.poll, hdone, hsched]

/-! ## The obligations -/

/-- Settles O20: ID and VERSION are constants of readReg. -/
theorem identificationIsConstant : Obligations.IdentificationIsConstant := by
  intro s
  exact ⟨read_register s (by decide) (by decide), read_register s (by decide) (by decide)⟩

/-- Settles O17: the line is a function of the four bits; a W1C of DONE and OVR, or IE = 0, clears it. -/
theorem interruptLine : Obligations.InterruptLine := by
  refine ⟨fun s => by simp [State.irq], rfl, fun s => ⟨?_, ?_⟩⟩
  · rw [write_status]
    simp [State.irq, State.writeStatus]
  · rw [write_ie]
    simp [State.irq, State.writeIE]

/-- Settles O15: both writes as record updates, and the bits of IE read back. -/
theorem statusAndEnableWrites : Obligations.StatusAndEnableWrites := by
  intro s v
  refine ⟨?_, write_ie s v, ?_⟩
  · rw [write_status, State.writeStatus]
    cases v.getLsbD 1 <;> cases v.getLsbD 3 <;> simp
  · rw [read_register _ (by decide) (by decide)]
    refine ⟨rfl, fun k hk => (ieWord_bit _ hk).trans ?_⟩
    rw [write_ie]
    match k with
    | 0 => simp [State.writeIE]
    | 1 => simp [State.writeIE]
    | k + 2 =>
      rw [if_neg (Nat.succ_ne_zero _), if_neg (by omega), decide_eq_false (by omega), Bool.false_and]

/-- Settles O11: while BUSY = 1 writeCmd only sets OVR; the first of two writes makes BUSY 1. -/
theorem writeWhileBusyOverruns : Obligations.WriteWhileBusyOverruns := by
  refine ⟨fun s w hb => by rw [write_cmd, writeCmd_busy hb], fun s v w hb => ?_, rfl⟩
  rw [write_cmd s v, writeCmd_idle hb, write_cmd, writeCmd_busy rfl]
  exact ⟨rfl, rfl, rfl⟩

/-- Settles O10: a CMD write with BUSY = 0 is `accept`, whose fields R24 lists; another width is refused. -/
theorem acceptanceIsOneStep : Obligations.AcceptanceIsOneStep := by
  refine ⟨fun s w hb => ?_, rfl, fun s w n hn => access_write_refused ?_ w⟩
  · rw [write_cmd, writeCmd_idle hb]
    refine ⟨rfl, rfl, rfl, rfl, rfl, rfl, rfl, rfl, fun _ => rfl, rfl, rfl, rfl, rfl, rfl, rfl, rfl, rfl, rfl, rfl, rfl, rfl,
      ⟨rfl, rfl, rfl, rfl, rfl, rfl, rfl⟩, fun i rest hi hs => ?_⟩
    simp only [step, State.accept, hs, engineTurn, hi]
  · cases n with
    | w8 => rfl
    | w16 => rfl
    | w32 => exact absurd rfl hn

/-- Settles O16: bit by bit for STATUS, IE and ERROR, by read_register for the reads of the window. -/
theorem statusAndErrorReads : Obligations.StatusAndErrorReads := by
  refine ⟨fun s k hk => ⟨?_, errorWord_bit s hk⟩, rfl, rfl, fun s k hk => ieWord_bit s hk, fun s off ho ha => ?_, fun s => ?_⟩
  · exact (status_bit s hk).trans (by rw [err_eq_decide])
  · have hoff : (BitVec.ofNat 17 off).toNat = off := by rw [BitVec.toNat_ofNat]; omega
    rw [read_register s (by omega) (by omega), hoff]
  · have hregs : ∀ r : BitVec 17 × Word, r.1.toNat < 0x1000 ∧ r.1.toNat % 4 = 0 ∧ s.readReg r.1.toNat = r.2 →
        (s.access (.read r.1 .w32)).bus = ⟨r.2, false⟩ := fun r hr => by
      rw [read_register s hr.1 hr.2.1, hr.2.2]
    intro regs r hr
    refine hregs r ?_
    revert r
    simp [regs, State.readReg, Config.idValue, Config.versionValue]

/-- Settles O13: the locked offsets are argument registers or ARGMEM, whose writes are ignored while BUSY = 1. -/
theorem argumentsAreLockedWhileBusy : Obligations.ArgumentsAreLockedWhileBusy := by
  intro s v hb
  refine ⟨fun off n hoff => ?_, write_status s v, write_ie s v, by rw [write_cmd, writeCmd_busy hb]⟩
  have hdata : s.writeData off.toNat n v = s := by
    rcases hoff with ⟨hlo, hhi⟩ | hlo
    · rw [State.writeData, regionOf_register (by omega)]
      simp only [State.writeReg]
      rw [if_neg (by omega), if_neg (by omega), if_neg (by omega), writeArgReg_busy hb]
    · rw [State.writeData, regionOf_argmem hlo]
      exact writeArg_busy hb _ n v
  cases ha : accepted off.toNat n with
  | true => rw [access_write ha, hdata]; exact ⟨rfl, fun _ => rfl⟩
  | false => rw [access_write_refused ha]; exact ⟨rfl, fun h => absurd h (by simp)⟩

/-- Settles O14: register by register, the bits stored and every other register's value. -/
theorem argumentRegistersReadBack : Obligations.ArgumentRegistersReadBack := by
  intro s v hb off r hr q hq
  have hoff : ∀ r ∈ off, (BitVec.ofNat 17 r.1).toNat = r.1 ∧ r.1 < 0x1000 ∧ r.1 % 4 = 0 ∧ 0x020 ≤ r.1 := by decide
  obtain ⟨hnat, hlt, hal, hlo⟩ := hoff r hr
  have hwrite : s.access (.write (BitVec.ofNat 17 r.1) .w32 v) = { s.writeArgReg r.1 v with bus := ⟨0, false⟩ } := by
    rw [write_register s (by omega) (by omega), hnat, State.writeReg, if_neg (by omega), if_neg (by omega), if_neg (by omega)]
  have hbits : ∀ n, BitVec.ofNat 32 (v.toNat % 2 ^ n) = (v.extractLsb' 0 n).setWidth 32 := fun n => by
    rw [← BitVec.ofNat_toNat, BitVec.extractLsb'_toNat, Nat.shiftRight_zero]
  rw [hwrite, hbits]
  simp only [off, List.mem_cons, List.not_mem_nil, or_false] at hr hq
  rcases hr with rfl | rfl | rfl | rfl | rfl | rfl | rfl | rfl
  all_goals
    simp only [State.writeArgReg, hb, Bool.false_eq_true, Nat.reduceEqDiff, if_true, if_false]
    rcases hq with rfl | rfl | rfl | rfl | rfl | rfl | rfl | rfl
  all_goals simp [State.readReg]

/-- Settles O5: the step's definition, turn by turn; the poll reads bit 1 of STATUS, which is DONE. -/
theorem stepRunsTheCommand : Obligations.StepRunsTheCommand := by
  refine ⟨fun s w i rest hw hi hs => ?_, fun s w i rest ts hw hi hs => ?_, fun s i => ?_, fun s ts => ⟨?_, ?_, ?_, ?_, ?_⟩⟩
  · simp only [step, hs, engineTurn, hw, hi]
  · simp only [step, hs, turn, engineTurn, hw, hi]
  · have hword : BitVec.ofNat 32 (i.word.toNat % 2 ^ 32) = i.word := by
      rw [Nat.mod_eq_of_lt i.word.isLt, BitVec.ofNat_toNat, BitVec.setWidth_eq]
    show engineTurn (s.accept (BitVec.ofNat 32 (i.word.toNat % 2 ^ 32))) = _
    simp only [hword, engineTurn, State.accept, decode_bytesOfWord, decodeWord_word, Except.map]
  · intro a hs
    simp only [step, hs, turn]
  · intro k p c hs
    simp only [step, hs, turn]
  · intro k p hs
    simp only [step, hs, turn]
  · intro k hs
    simp only [step, hs, turn]
  · intro hs t
    simp only [step, hs, turn]
    rw [poll_eq]

end Sys2Proof.Machine
end

section
/-! PROOFS. The invariant (R44, R45, R49, R81, R286, R291, R325, R332), turn by turn. -/

namespace Sys2Proof.Machine

variable {s t : State}

/-! ## Parts of the invariant -/

theorem Engine.shaped_iff {e : Engine} : e.shaped = true ↔ e.inp.shaped = true ∧ e.out.shaped = true ∧ e.huff.shaped = true := by
  simp [Engine.shaped, and_assoc]

theorem busy_iff : s.busy = true ↔ s.seq ≠ .idle := by
  unfold State.busy
  cases s.seq <;> simp

theorem busy_of_run {w : Word} (h : s.seq = .run w) : s.busy = true := busy_iff.2 (by simp [h])

theorem errorBits_le (c : ErrorCode) : (errorBits c).toNat ≤ 10 := by cases c <;> decide

/-- The engine's part of the invariant. -/
theorem State.Inv.fit (h : s.Inv) : s.eng.FitFor OutStream.Sized :=
  have hsh := Engine.shaped_iff.1 h.shaped
  ⟨h.statmem, h.statuses, ⟨h.fs, h.opens, h.fits⟩, hsh.1, hsh.2.1, hsh.2.2, h.editsFit⟩

theorem Engine.FitFor.shaped {e : Engine} (h : e.FitFor OutStream.Sized) : e.shaped = true :=
  Engine.shaped_iff.2 ⟨h.inp, h.out, h.huff⟩

/-- Only a running command has changes of files to come. -/
theorem State.Inv.edits_nil (h : s.Inv) (hs : ∀ i : Instr, s.eng.draws.edits ≠ [] → s.seq ≠ .run i.word) :
    s.eng.draws.edits = [] := by
  refine Classical.byContradiction fun hc => ?_
  obtain ⟨-, i, hi⟩ := h.edits hc
  exact hs i hc hi

/-- The registers the invariant does not speak of, and the schedule, are free. -/
theorem State.Inv.congr (h : s.Inv) (hmem : t.argmem = s.argmem) (hep : t.argEpoch = s.argEpoch) (heng : t.eng = s.eng)
    (hcode : t.errCode = s.errCode) (h0 : t.result0 = s.result0) (h1 : t.result1 = s.result1) (hseq : t.seq = s.seq)
    (hcmd : t.cmd = s.cmd) (hbr : t.breached = s.breached) (hdone : s.done = false → t.done = false) : t.Inv := by
  have hbusy : t.busy = s.busy := by simp only [State.busy, hseq]
  constructor
  case argmem => rw [hmem, hep]; exact h.argmem
  case statmem => rw [heng]; exact h.statmem
  case fs => rw [heng]; exact h.fs
  case shaped => rw [heng]; exact h.shaped
  case opens => rw [heng]; exact h.opens
  case fits => rw [heng]; exact h.fits
  case code => rw [hcode]; exact h.code
  case statuses => rw [heng]; exact h.statuses
  case rest => rw [heng, hseq]; exact h.rest
  case busy =>
    rw [hbusy, hcode, h0, h1]
    exact fun hb => ⟨hdone (h.busy hb).1, (h.busy hb).2⟩
  case running => rw [hseq, hcmd, heng]; exact h.running
  case stuck => rw [hseq, hcmd]; exact h.stuck
  case duties => rw [hbr, hbusy]; exact h.duties
  case edits => rw [heng, hbr, hseq]; exact h.edits
  case editsFit => rw [heng]; exact h.editsFit

/-- The invariant speaks of the host's changes to come, but of no other draw. -/
theorem State.Inv.withDraws (h : s.Inv) (d : Draws) (hd : d.edits = s.eng.draws.edits) :
    State.Inv { s with eng := { s.eng with draws := d } } :=
  { h with edits := by rw [hd]; exact h.edits, editsFit := by rw [hd]; exact h.editsFit }

/-! ## The engine's turn -/

section
variable (s : State) (rep : Report)

@[simp] theorem complete_seq : (s.complete rep).seq = .idle := rfl
@[simp] theorem complete_errCode : (s.complete rep).errCode = errorBits rep.code := rfl
@[simp] theorem complete_breached : (s.complete rep).breached = none := rfl
@[simp] theorem complete_busy : (s.complete rep).busy = false := rfl

@[simp] theorem complete_eng : (s.complete rep).eng = s.eng := by
  unfold State.complete
  cases rep.listing <;> rfl

@[simp] theorem complete_argEpoch : (s.complete rep).argEpoch = s.argEpoch := by
  unfold State.complete
  cases rep.listing <;> rfl

theorem complete_argmem :
    (s.complete rep).argmem = match rep.listing with
      | some en => Memory.writeBytes (argDefault s.argEpoch) s.argmem s.outPtr.toNat (en.name ++ [0])
      | none    => s.argmem := by
  unfold State.complete
  cases rep.listing <;> rfl

end

/-- The completion step (R294). -/
theorem State.Inv.complete (h : s.Inv) {e : Engine} {rep : Report} (hfit : e.FitFor OutStream.Sized) (hrest : e.atRest = true)
    (hedits : e.draws.edits = []) (hl : ListsOk s rep) : (State.complete { s with eng := e } rep).Inv := by
  constructor <;> simp only [complete_eng, complete_seq, complete_breached, complete_busy, complete_errCode, complete_argEpoch]
  case argmem =>
    rw [complete_argmem]
    cases hen : rep.listing with
    | none => exact h.argmem
    | some en => exact Memory.wf_writeBytes _ h.argmem (by simpa [Nat.add_assoc] using (hl en hen).2)
  case statmem => exact hfit.statmem
  case fs => exact hfit.storage.fs
  case shaped => exact hfit.shaped
  case opens => exact hfit.storage.opens
  case fits => exact hfit.storage.fits
  case code => exact errorBits_le _
  case statuses => exact hfit.statuses
  case rest => exact fun _ => hrest
  case edits => exact fun hc => absurd hedits hc
  case editsFit => exact hfit.edits
  all_goals simp

/-- A command that waits at a request that is never answered (U14). -/
theorem State.Inv.waits (h : s.Inv) {e : Engine} (hfit : e.FitFor OutStream.Sized) (hedits : e.draws.edits = []) {i : Instr}
    (hb : s.busy = true) :
    State.Inv { s with eng := e, seq := .stuck s.cmd, breached := s.breach (naming i s) } := by
  have hbusy := h.busy hb
  constructor
  case argmem => exact h.argmem
  case statmem => exact hfit.statmem
  case fs => exact hfit.storage.fs
  case shaped => exact hfit.shaped
  case opens => exact hfit.storage.opens
  case fits => exact hfit.storage.fits
  case code => exact h.code
  case statuses => exact hfit.statuses
  case rest => exact fun hs => absurd rfl (hs s.cmd)
  case busy => exact fun _ => hbusy
  case running => exact fun w hw => absurd hw (by simp)
  case stuck => exact fun w hw => by injection hw
  case duties => exact fun ps hps => ⟨rfl, breach_wf (fun qs hqs => (h.duties qs hqs).2) hps⟩
  case edits => exact fun hc => absurd hedits hc
  case editsFit => exact hfit.edits

/-- A command keeps the invariant, and runs no more. -/
theorem inv_exec (h : s.Inv) {w : Word} (hw : s.seq = .run w) {i : Instr} (ht : exec i s = .next t) :
    t.Inv ∧ ∀ w, t.seq ≠ .run w := by
  have hfit := fit_concluding i s s.eng h.fit fun ps => breach_wf fun qs hqs => (h.duties qs hqs).2
  have hend := concluding_settles i s (e := s.eng) (h.rest (by simp [hw]))
  rcases exec_next ht with ⟨rep, e, he, rfl⟩ | ⟨e, he, rfl⟩
  · obtain ⟨hrest, hedits⟩ := hend.of_ok he
    obtain ⟨hf, hl⟩ := hfit.of_ok he
    exact ⟨h.complete hf hrest hedits hl, by simp⟩
  · exact ⟨h.waits (hfit.of_error he) (hend.of_error he).2 (busy_of_run hw), by simp⟩

/-- The engine's turn keeps the invariant, and no command runs after it. -/
theorem inv_engineTurn (h : s.Inv) (ht : engineTurn s = .next t) : t.Inv ∧ ∀ w, t.seq ≠ .run w := by
  unfold engineTurn at ht
  split at ht
  · injection ht with ht
    exact ht ▸ ⟨h, by simp_all⟩
  · injection ht with ht
    exact ht ▸ ⟨h, by simp_all⟩
  · rename_i w hw
    split at ht
    · exact inv_exec h hw ht
    · rename_i r hr
      injection ht with ht
      subst ht
      have hedits : s.eng.draws.edits = [] := h.edits_nil fun i _ hi => by
        rw [hw] at hi
        injection hi with hi
        rw [hi, decode_bytesOfWord, decodeWord_word] at hr
        exact absurd hr (by simp [Except.map])
      exact ⟨h.complete h.fit (h.rest (by simp [hw])) hedits fun _ hen => absurd hen (by simp), by simp [badCommand]⟩

theorem exec_ne_refused (i : Instr) (s : State) (r : Refusal) : exec i s ≠ .refused r := by
  rw [exec_eq, runCommand]
  split <;> simp

/-- The engine's turn always has a next state (R297). -/
theorem engineTurn_lookahead (s : State) : engineTurn s = .next (lookahead s) := by
  unfold lookahead
  split
  · assumption
  · rename_i r _
    cases r
  · rename_i r hr
    unfold engineTurn at hr
    split at hr
    · exact absurd hr (by simp)
    · exact absurd hr (by simp)
    · split at hr
      · exact absurd hr (exec_ne_refused _ _ _)
      · exact absurd hr (by simp)

/-! ## Host accesses -/

theorem State.Inv.accept (h : s.Inv) (hb : s.busy = false) (w : Word) : (s.accept w).Inv := by
  have hidle : s.seq = .idle := Classical.byContradiction fun hc => by
    rw [busy_iff.2 hc] at hb
    exact absurd hb (by decide)
  have hedits : s.eng.draws.edits = [] := h.edits_nil (by simp [hidle])
  constructor
  case argmem => exact h.argmem
  case statmem => rfl
  case fs => exact h.fs
  case shaped => exact h.shaped
  case opens => exact h.opens
  case fits => exact h.fits
  case code => exact Nat.zero_le _
  case statuses => exact fun _ => Nat.zero_le _
  case rest => exact fun _ => h.rest (by simp [hidle])
  case busy => exact fun _ => ⟨rfl, rfl, rfl, rfl⟩
  case running => exact fun v hv => ⟨by injection hv, rfl⟩
  case stuck => exact fun v hv => absurd hv (by simp [State.accept])
  case duties => exact fun ps hps => absurd hps (by simp [State.accept])
  case edits => exact fun hc => absurd hedits hc
  case editsFit => exact h.editsFit

theorem State.Inv.writeArgReg (h : s.Inv) (off : Nat) (v : Word) : (s.writeArgReg off v).Inv := by
  unfold State.writeArgReg
  repeat' split
  all_goals exact h.congr rfl rfl rfl rfl rfl rfl rfl rfl rfl id

theorem State.Inv.writeCmd (h : s.Inv) (v : Word) : (s.writeCmd v).Inv := by
  cases hb : s.busy with
  | true => rw [writeCmd_busy hb]; exact h.congr rfl rfl rfl rfl rfl rfl rfl rfl rfl id
  | false => rw [writeCmd_idle hb]; exact h.accept hb v

theorem State.Inv.writeReg (h : s.Inv) (off : Nat) (v : Word) : (s.writeReg off v).Inv := by
  unfold State.writeReg
  split
  · exact h.writeCmd v
  split
  · exact h.congr rfl rfl rfl rfl rfl rfl rfl rfl rfl fun hd => by simp [State.writeStatus, hd]
  split
  · exact h.congr rfl rfl rfl rfl rfl rfl rfl rfl rfl id
  · exact h.writeArgReg off v

theorem State.Inv.writeArg (h : s.Inv) {i : Nat} {n : Width} (hi : i + n.bytes ≤ Config.argmemBytes) (v : Word) :
    (s.writeArg i n v).Inv := by
  unfold State.writeArg
  split
  · exact h
  · refine { h with argmem := Memory.wf_writeBytes _ h.argmem ?_ }
    rw [List.length_take]
    omega

/-- An accepted access of ARGMEM lies within it (R52). -/
theorem accepted_argmem {off : BitVec 17} {n : Width} {i : Nat} (ha : accepted off.toNat n = true)
    (hr : regionOf off.toNat = .argmem i) : i + n.bytes ≤ Config.argmemBytes := by
  have hlt := off.isLt
  simp only [accepted, hr, beq_iff_eq] at ha
  unfold regionOf at hr
  split at hr
  · exact absurd hr (by simp)
  split at hr
  · exact absurd hr (by simp)
  split at hr
  · exact absurd hr (by simp)
  injection hr with hr
  cases n <;> simp only [Width.bytes, Config.argmemBytes] at * <;> omega

theorem State.Inv.writeData (h : s.Inv) {off : BitVec 17} {n : Width} (ha : accepted off.toNat n = true) (v : Word) :
    (s.writeData off.toNat n v).Inv := by
  unfold State.writeData
  split
  · exact h.writeReg _ v
  · exact h
  · exact h
  · exact h.writeArg (accepted_argmem ha ‹_›) v

theorem State.Inv.withBus (h : s.Inv) (b : BusResponse) : State.Inv { s with bus := b } :=
  h.congr rfl rfl rfl rfl rfl rfl rfl rfl rfl id

theorem State.Inv.withSchedule (h : s.Inv) (ts : List Turn) : State.Inv { s with schedule := ts } :=
  h.congr rfl rfl rfl rfl rfl rfl rfl rfl rfl id

theorem State.Inv.usedFree (h : s.Inv) : s.usedFree.Inv := by
  unfold State.usedFree
  split
  · exact h.withDraws _ rfl
  · exact h

theorem State.Inv.access (h : s.Inv) (a : HostAccess) : (s.access a).Inv := by
  cases a with
  | read off n =>
    cases ha : accepted off.toNat n with
    | true => rw [access_read ha]; exact h.usedFree.withBus _
    | false => rw [access_read_refused ha]; exact h.withBus _
  | write off n v =>
    cases ha : accepted off.toNat n with
    | true => rw [access_write ha]; exact (h.writeData ha v).withBus _
    | false => rw [access_write_refused ha]; exact h.withBus _

theorem State.Inv.poll (h : s.Inv) : s.poll.Inv := by
  rw [poll_eq]
  split
  · exact h.access _
  · exact (h.access _).withSchedule _

/-! ## File turns -/

theorem State.Inv.setFile (h : s.Inv) {p : Path} (hp : Path.wf p = true) {c : Option Bytes}
    (hc : (c.getD []).length ≤ Config.fileMax) : (s.setFile p c).Inv :=
  have hst := h.fit.storage.set hp hc
  { h with fs := hst.fs, opens := hst.opens, fits := hst.fits }

/-- The running command that names a file is one of the twelve. -/
theorem run_word_of_named (h : s.Inv) {w : Word} (hw : s.seq = .run w) {p : Path} (hp : p ∈ s.namedFiles) :
    ∃ i : Instr, s.seq = .run i.word := by
  unfold State.namedFiles at hp
  rw [if_pos (busy_of_run hw)] at hp
  split at hp
  · rename_i i hi
    exact ⟨i, by rw [hw, ← (h.running w hw).1, eq_word_of_decodeWord hi]⟩
  · exact absurd hp (by simp)

theorem busy_of_named {p : Path} (hp : p ∈ s.namedFiles) : s.busy = true := by
  cases hb : s.busy with
  | true => rfl
  | false => simp [State.namedFiles, hb] at hp

/-- The host's change of a file, made at once or queued (log 10). -/
def State.changed (s : State) (n : Nat) (p : Path) (c : Option Bytes) : State :=
  if s.editWaits p then s.queueEdit n p c else s.setFile p c

/-- What the model notes where the running command names the file (R331). -/
def State.noted (s : State) (p : Path) (c : Option Bytes) : List Path :=
  s.breached.getD [] ++ (s.namedFiles ++ (s.setFile p c).namedFiles)

section
variable {p : Path} {c : Option Bytes} (n : Nat)

theorem editFile_named (hp : Path.wf p = true) (hc : (c.getD []).length ≤ Config.fileMax) (hn : p ∈ s.namedFiles) :
    s.editFile n p c = { s.changed n p c with breached := some (s.noted p c) } := by
  simp [State.editFile, hp, hc, hn, State.changed, State.noted]

theorem editFile_unnamed (hp : Path.wf p = true) (hc : (c.getD []).length ≤ Config.fileMax) (hn : p ∉ s.namedFiles) :
    s.editFile n p c = s.changed n p c := by
  simp [State.editFile, hp, hc, hn, State.changed]

theorem editFile_ignored (h : ¬ (Path.wf p = true ∧ (c.getD []).length ≤ Config.fileMax)) : s.editFile n p c = s := by
  simp only [State.editFile, Bool.and_eq_true, decide_eq_true_eq]
  rw [if_neg h]

/-- A command runs, and names the file or has a change to come. -/
theorem editWaits_iff : s.editWaits p = true ↔ (∃ w, s.seq = .run w) ∧ (p ∈ s.namedFiles ∨ s.eng.draws.edits ≠ []) := by
  unfold State.editWaits
  cases s.seq <;> simp

theorem changed_waits (h : s.editWaits p = true) : s.changed n p c = s.queueEdit n p c := if_pos h

theorem changed_atOnce (h : s.editWaits p = false) : s.changed n p c = s.setFile p c := if_neg (by simp [h])

end

/-- Noting a broken duty. -/
theorem State.Inv.withBreached (h : s.Inv) (hb : s.busy = true) {ps : List Path} (hps : ∀ p ∈ ps, Path.wf p = true) :
    State.Inv { s with breached := some ps } :=
  { h with
    duties := fun qs hqs => by injection hqs with hqs; exact ⟨hb, hqs ▸ hps⟩
    edits := fun hc => ⟨by simp, (h.edits hc).2⟩ }

/-- Queueing a change where a broken duty is noted. -/
theorem State.Inv.queueEdit (h : s.Inv) {i : Instr} (hi : s.seq = .run i.word) (hbr : s.breached ≠ none) (n : Nat) {p : Path}
    (hp : Path.wf p = true) {c : Option Bytes} (hc : (c.getD []).length ≤ Config.fileMax) : (s.queueEdit n p c).Inv := by
  refine { h with edits := fun _ => ⟨hbr, i, hi⟩, editsFit := fun x hx => ?_ }
  rcases List.mem_append.1 hx with hx | hx
  · exact h.editsFit x hx
  · rw [List.mem_singleton.1 hx]
    simp [Edit.fits, hp, hc]

/-- A change of a file that the running command does not name. -/
theorem State.Inv.changed_unnamed (h : s.Inv) (n : Nat) {p : Path} (hp : Path.wf p = true) {c : Option Bytes}
    (hc : (c.getD []).length ≤ Config.fileMax) (hn : p ∉ s.namedFiles) : (s.changed n p c).Inv := by
  cases hw : s.editWaits p with
  | false => rw [changed_atOnce n hw]; exact h.setFile hp hc
  | true =>
    rw [changed_waits n hw]
    obtain ⟨-, hor⟩ := editWaits_iff.1 hw
    obtain ⟨hbr, i, hi⟩ := h.edits (hor.resolve_left hn)
    exact h.queueEdit hi hbr n hp hc

/-- A change of a file that the running command names, and the note of it. -/
theorem State.Inv.changed_named (h : s.Inv) (n : Nat) {p : Path} (hp : Path.wf p = true) {c : Option Bytes}
    (hc : (c.getD []).length ≤ Config.fileMax) (hn : p ∈ s.namedFiles) :
    State.Inv { s.changed n p c with breached := some (s.noted p c) } := by
  have hbusy := busy_of_named hn
  have hnoted : ∀ q ∈ s.noted p c, Path.wf q = true := by
    intro q hq
    simp only [State.noted, List.mem_append] at hq
    rcases hq with hq | hq | hq
    · cases hbr : s.breached with
      | none => simp [hbr] at hq
      | some ps => exact (h.duties ps hbr).2 q (by simpa [hbr] using hq)
    · exact namedFiles_wf s q hq
    · exact namedFiles_wf _ q hq
  cases hw : s.editWaits p with
  | false => rw [changed_atOnce n hw]; exact (h.setFile hp hc).withBreached hbusy hnoted
  | true =>
    rw [changed_waits n hw]
    obtain ⟨⟨w, hrun⟩, -⟩ := editWaits_iff.1 hw
    obtain ⟨i, hi⟩ := run_word_of_named h hrun hn
    exact (h.withBreached hbusy hnoted).queueEdit hi (by simp) n hp hc

theorem State.Inv.editFile (h : s.Inv) (n : Nat) (p : Path) (c : Option Bytes) : (s.editFile n p c).Inv := by
  by_cases hfit : Path.wf p = true ∧ (c.getD []).length ≤ Config.fileMax
  · obtain ⟨hp, hc⟩ := hfit
    by_cases hn : p ∈ s.namedFiles
    · rw [editFile_named n hp hc hn]; exact h.changed_named n hp hc hn
    · rw [editFile_unnamed n hp hc hn]; exact h.changed_unnamed n hp hc hn
  · rw [editFile_ignored n hfit]; exact h

/-! ## Reset -/

theorem State.Inv.cutAfter (h : s.Inv) (n : Nat) : (s.cutAfter n).Inv ∧ ∀ w, (s.cutAfter n).seq ≠ .run w := by
  unfold State.cutAfter
  split
  · exact ⟨h, by simp_all⟩
  · exact ⟨h, by simp_all⟩
  · rename_i w hw
    refine inv_engineTurn ?_ (engineTurn_lookahead _)
    exact h.withDraws { s.eng.draws with answers := _ } rfl

theorem unspecify_edits (ps : List Path) (e : Engine) :
    Ends (unspecify ps) e (fun _ e' => e'.draws.edits = e.draws.edits) fun _ _ => False := by
  induction ps generalizing e with
  | nil => rfl
  | cons p ps ih =>
    simp only [unspecify, ends_bind, ends_nextFree, ends_update]
    exact ih _

theorem scramble_edits (ps : List Path) (e : Engine) :
    Ends (scramble ps) e (fun _ e' => e'.draws.edits = e.draws.edits) fun _ _ => False := by
  induction ps generalizing e with
  | nil => rfl
  | cons p ps ih =>
    simp only [scramble, ends_bind, ends_nextFree, ends_update]
    exact ih _

/-- What a cut leaves of the engine's part of the invariant (R319; log 9, log 10). -/
theorem fit_afterCut {e : Engine} (h : e.FitFor OutStream.Sized) (hedits : e.draws.edits = []) {b : Option (List Path)}
    (hb : ∀ p ∈ b.getD [], Path.wf p = true) :
    (afterCut e b).FitFor OutStream.Sized ∧ (afterCut e b).draws.edits = [] := by
  have hcut : Ends (do scramble e.storage.openForWriting; unspecify (b.getD []) : Eng Unit) e
      (fun _ e' => e'.FitFor OutStream.Sized ∧ e'.draws.edits = []) fun _ _ => False := by
    rw [ends_bind]
    refine (ends_and (fit_scramble (openForWriting_wf h.storage) e h) (scramble_edits _ e)).mono (fun _ e1 h1 => ?_)
      fun _ _ hs => hs.2
    refine (ends_and (fit_unspecify hb e1 h1.1) (unspecify_edits _ e1)).mono (fun _ e2 h2 => ?_) fun _ _ hs => hs.2
    exact ⟨h2.1, h2.2.trans (h1.2.trans hedits)⟩
  obtain ⟨_, e', he, hq⟩ := hcut.answers
  unfold afterCut
  rw [he]
  exact hq

theorem Storage.Ok.forget {st : Storage} (h : st.Ok) : st.forget.Ok :=
  h.sub rfl (fun _ hx => absurd hx (by simp [Storage.forget])) fun _ hx => absurd hx (by simp [Storage.forget])

theorem State.Inv.resetTurn (h : s.Inv) (n : Nat) : (s.resetTurn n).Inv := by
  obtain ⟨hcut, hrun⟩ := h.cutAfter n
  have hb : ∀ p ∈ (if s.busy then (s.cutAfter n).breached else none).getD [], Path.wf p = true := by
    intro p hp
    split at hp
    · cases hbr : (s.cutAfter n).breached with
      | none => simp [hbr] at hp
      | some ps => exact (hcut.duties ps hbr).2 p (by simpa [hbr] using hp)
    · simp at hp
  obtain ⟨hfit, hedits⟩ := fit_afterCut hcut.fit (hcut.edits_nil fun _ _ => hrun _) hb
  have hst := hfit.storage.forget
  unfold State.resetTurn
  constructor
  case argmem => rfl
  case statmem => rfl
  case fs => exact hst.fs
  case shaped => exact hfit.shaped
  case opens => exact hst.opens
  case fits => exact hst.fits
  case code => exact Nat.zero_le _
  case statuses => exact fun _ => Nat.zero_le _
  case rest => exact fun _ => rfl
  case busy => exact fun hb => absurd hb (by simp [State.busy, State.reset])
  case running => exact fun w hw => absurd hw (by simp [State.reset])
  case stuck => exact fun w hw => absurd hw (by simp [State.reset])
  case duties => exact fun ps hps => absurd hps (by simp [State.reset])
  case edits => exact fun hc => absurd hedits hc
  case editsFit => exact hfit.edits

/-! ## The step -/

theorem inv_turn (h : s.Inv) {u : Turn} (ht : turn u s = .next t) : t.Inv := by
  cases u with
  | engine => exact (inv_engineTurn h ht).1
  | access a => injection ht with ht; exact ht ▸ h.access a
  | waitDone => injection ht with ht; exact ht ▸ h.poll
  | putFile n p c => injection ht with ht; exact ht ▸ h.editFile n p (some c)
  | deleteFile n p => injection ht with ht; exact ht ▸ h.editFile n p none
  | reset n => injection ht with ht; exact ht ▸ h.resetTurn n

/-- Settles O27: turn by turn; a command's turn by what its computations keep (Laws/Fit.lean) and by the handles it closes. -/
theorem everyStepKeepsTheInvariant : Obligations.EveryStepKeepsTheInvariant := by
  intro s s' h hs
  unfold step at hs
  split at hs
  · exact (inv_engineTurn h hs).1
  · exact inv_turn (h.withSchedule _) hs

end Sys2Proof.Machine
end

section
/-! PROOFS. What a command leaves of the window (R19, R42, R211), and what a file turn changes (R49, R331; log 10). -/

namespace Sys2Proof.Machine

variable {α : Type} {s t : State}

/-! ## The window after a command -/

/-- A report lists an entry only for LIST_ENTRY, and only if it succeeds (R42). -/
def ListsOnSuccess (i : Instr) (rep : Report) : Prop := rep.listing ≠ none → i = .listEntry ∧ rep.code = .none

theorem listsOnSuccess_of_none {i : Instr} {rep : Report} (h : rep.listing = none) : ListsOnSuccess i rep := fun hc => absurd h hc

theorem naming_lists (i : Instr) (s : State) : (naming i s).lists = true ↔ i = .listEntry := by
  have hx : ∀ ops, (extractNaming s ops).lists = false := fun ops => by unfold extractNaming; split <;> rfl
  have hr : ∀ ops, (removeNaming ops).lists = false := fun ops => by unfold removeNaming; split <;> rfl
  have ht : (twoFilesNaming s).lists = false := by unfold twoFilesNaming; split <;> rfl
  have ha : (appendNaming s).lists = false := by unfold appendNaming; split <;> rfl
  cases i <;> simp [naming, hx, hr, ht, ha, archiveNaming, oneFileNaming]

theorem body_listsOnSuccess (i : Instr) (s : State) : Answers (ListsOnSuccess i) (Instr.body i s) := by
  by_cases hi : i = .listEntry
  · subst hi
    exact Answers.bind fun _ => Answers.bind fun _ => Answers.bind fun _ => Answers.bind fun _ => Answers.bind fun _ =>
      Answers.bind fun _ => Answers.bind fun _ => Answers.bind fun _ => Answers.bind fun _ => Answers.bind fun _ =>
      Answers.pure fun _ => ⟨rfl, rfl⟩
  · exact fun e => (body_lists_nothing hi s e).mono (fun _ _ h => listsOnSuccess_of_none h) fun _ _ h => h

theorem breachReport_listsOnSuccess (i : Instr) (s : State) (k o : Nat) (c : ErrorCode) :
    ListsOnSuccess i (breachReport k (naming i s).lists o c) := by
  unfold breachReport
  split
  · exact listsOnSuccess_of_none rfl
  · intro hl
    obtain ⟨en, hen⟩ := Option.ne_none_iff_exists'.1 hl
    simp only [freeReport, Option.filter_eq_some_iff, Bool.and_eq_true, beq_iff_eq] at hen
    obtain ⟨-, ⟨⟨hlists, hcode⟩, -⟩, -⟩ := hen
    exact ⟨(naming_lists i s).1 hlists, hcode⟩

theorem unlessBreached_listsOnSuccess (i : Instr) (s : State) {rep : Report} (h : ListsOnSuccess i rep) :
    Answers (ListsOnSuccess i) (unlessBreached s (naming i s) rep) := by
  unfold unlessBreached
  split
  · refine Answers.bind fun _ => Answers.bind fun k => ?_
    intro e
    rw [ends_ite]
    exact ⟨fun _ => Answers.bind (fun _ => Answers.pure (breachReport_listsOnSuccess i s _ _ _)) e,
      fun _ => breachReport_listsOnSuccess i s _ _ _⟩
  · exact Answers.pure h

theorem concluding_listsOnSuccess (i : Instr) (s : State) :
    Answers (ListsOnSuccess i) (concluding s (naming i s) (Instr.body i s)) := by
  have hrest : ∀ rep, ListsOnSuccess i rep → Answers (ListsOnSuccess i) (do
      abandon rep
      closeAll
      update Engine.landAll
      unlessBreached s (naming i s) rep) :=
    fun rep h => Answers.bind fun _ => Answers.bind fun _ => Answers.bind fun _ => unlessBreached_listsOnSuccess i s h
  intro e
  rw [concluding, ends_bind, ends_reporting]
  refine (body_listsOnSuccess i s e).mono (fun rep e' h => hrest rep h e') fun st e' _ => ?_
  cases st with
  | error c r0 r1 => exact hrest _ (listsOnSuccess_of_none rfl) e'
  | unanswered => trivial

theorem complete_kept (s : State) (e : Engine) (rep : Report) : s.Kept (State.complete { s with eng := e } rep) := by
  unfold State.complete
  cases rep.listing <;> constructor <;> rfl

theorem complete_sameListing (s : State) (e : Engine) {rep : Report} (h : rep.listing = none) :
    s.SameListing (State.complete { s with eng := e } rep) := by
  unfold State.complete
  rw [h]
  constructor <;> rfl

/-- Settles O29: a command completes or waits; completion writes the listing only of a LIST_ENTRY that succeeds. -/
theorem commandsLeaveTheWindow : Obligations.CommandsLeaveTheWindow := by
  intro i s t ht
  rcases exec_next ht with ⟨rep, e, he, rfl⟩ | ⟨e, -, rfl⟩
  · have hl := (concluding_listsOnSuccess i s s.eng).of_ok he
    refine ⟨complete_kept s e rep, fun hi => complete_sameListing s e ?_, fun hc => complete_sameListing s e ?_⟩
    · exact Classical.byContradiction fun hn => hi (hl hn).1
    · exact Classical.byContradiction fun hn => hc (by rw [complete_errCode, (hl hn).2]; rfl)
  · exact ⟨by constructor <;> rfl, fun _ => by constructor <;> rfl, fun _ => by constructor <;> rfl⟩

/-! ## File turns -/

/-- What the files hold once all the host's changes have come. -/
theorem landAll_fs (e : Engine) :
    e.landAll.storage.fs = e.draws.edits.foldl (fun fs x => fsSet fs x.path x.content) e.storage.fs := rfl

section
variable {p : Path} {c : Option Bytes} (n : Nat)

/-- A change touches a file of the namespace or the list of changes to come, and nothing else of the engine's world. -/
theorem changed_eng_frame (s : State) (p : Path) (c : Option Bytes) :
    { (s.changed n p c).eng with storage := s.eng.storage, draws := s.eng.draws } = s.eng ∧
    { (s.changed n p c).eng.storage with fs := s.eng.storage.fs } = s.eng.storage ∧
    { (s.changed n p c).eng.draws with edits := s.eng.draws.edits } = s.eng.draws := by
  unfold State.changed
  split <;> exact ⟨rfl, rfl, rfl⟩

theorem changed_frame (s : State) (p : Path) (c : Option Bytes) : { s.changed n p c with eng := s.eng } = s := by
  unfold State.changed
  split <;> rfl

theorem changed_breached (s : State) (p : Path) (c : Option Bytes) : (s.changed n p c).breached = s.breached := by
  unfold State.changed
  split <;> rfl

theorem editFile_eng (hp : Path.wf p = true) (hc : (c.getD []).length ≤ Config.fileMax) :
    (s.editFile n p c).eng = (s.changed n p c).eng := by
  by_cases hn : p ∈ s.namedFiles
  · rw [editFile_named n hp hc hn]
  · rw [editFile_unnamed n hp hc hn]

/-- Outside the engine's world the turn makes the note alone. -/
theorem editFile_frame (hp : Path.wf p = true) (hc : (c.getD []).length ≤ Config.fileMax) :
    { s.editFile n p c with eng := s.eng, breached := s.breached } = s := by
  have hframe := congrArg (fun t : State => { t with breached := s.breached }) (changed_frame n s p c)
  by_cases hn : p ∈ s.namedFiles
  · rw [editFile_named n hp hc hn]; exact hframe
  · rw [editFile_unnamed n hp hc hn]; exact hframe

theorem changed_landAll (h : s.Inv) (q : Path) :
    fsGet (s.changed n p c).eng.landAll.storage.fs q = if q = p then c else fsGet s.eng.landAll.storage.fs q := by
  cases hw : s.editWaits p with
  | true =>
    have hwf := (h.fit.landAll).storage.fs
    rw [changed_waits n hw, landAll_fs]
    simp only [State.queueEdit, List.foldl_append, List.foldl_cons, List.foldl_nil]
    exact fsGet_fsSet hwf c
  | false =>
    have hedits : s.eng.draws.edits = [] := h.edits_nil fun i hne hi => by
      rw [editWaits_iff.2 ⟨⟨_, hi⟩, .inr hne⟩] at hw
      exact absurd hw (by decide)
    rw [changed_atOnce n hw, landAll_fs, landAll_fs]
    simp only [State.setFile, hedits, List.foldl_nil]
    exact fsGet_fsSet h.fs c

end

/-- A request lands the changes due by its number. -/
theorem request_lands {e : Engine} {x : Edit} (ha : e.draws.answers = none) (hx : e.draws.edits = [x]) :
    ∃ e', request e = .ok e.draws.reqNo e' ∧
      e'.storage.fs = (if x.due ≤ e.draws.reqNo then fsSet e.storage.fs x.path x.content else e.storage.fs) ∧
      e'.draws.edits = (if x.due ≤ e.draws.reqNo then [] else [x]) := by
  have hreq := (ends_request e (fun k e' => k = e.draws.reqNo ∧ e' = e.asked) fun _ _ => False).2
    ⟨fun h0 => absurd h0 (by simp [ha]), fun _ => ⟨rfl, rfl⟩⟩
  obtain ⟨k, e', he, rfl, rfl⟩ := hreq.answers
  have hland : landing e.draws.reqNo e.draws.edits e.storage.fs =
      if x.due ≤ e.draws.reqNo then (fsSet e.storage.fs x.path x.content, []) else (e.storage.fs, [x]) := by
    rw [hx, landing, landing]
  refine ⟨_, he, (congrArg Prod.fst hland).trans ?_, (congrArg Prod.snd hland).trans ?_⟩
  · split <;> rfl
  · split <;> rfl

/-- Settles O26: the turn is `changed`, at once or queued, with the note of a broken duty; a request lands the changes due. -/
theorem hostFileTurns : Obligations.HostFileTurns := by
  refine ⟨?_, fun e x => request_lands⟩
  intro s n p c h hp hc t
  have heng : t.eng = (s.changed n p c).eng := editFile_eng n hp hc
  obtain ⟨hworld, hst, hdraws⟩ := changed_eng_frame n s p c
  rw [heng]
  refine ⟨changed_landAll n h, fun hno => ?_, fun w hw hn => ?_, editFile_frame n hp hc, hworld, hst, hdraws, fun hn => ?_,
    fun hn => ?_, fun hb => ?_⟩
  · have hw : s.editWaits p = false := by
      rw [Bool.eq_false_iff, Ne, editWaits_iff]
      rintro ⟨⟨w, hw⟩, hor⟩
      rcases hno with hno | ⟨hn, he⟩
      · exact hno w hw
      · exact hor.elim hn fun hne => hne he
    rw [changed_atOnce n hw]
    exact ⟨rfl, fun q => fsGet_fsSet h.fs c⟩
  · rw [changed_waits n (editWaits_iff.2 ⟨⟨w, hw⟩, .inl hn⟩)]
    exact ⟨rfl, rfl⟩
  · exact (congrArg State.breached (editFile_unnamed n hp hc hn)).trans (changed_breached n s p c)
  · refine ⟨s.noted p c, congrArg State.breached (editFile_named n hp hc hn), fun q hq => ?_⟩
    rw [State.noted, ← List.append_assoc]
    exact List.mem_append_left _ (List.mem_append.2 hq)
  · simp [State.namedFiles, hb]

end Sys2Proof.Machine
end

section
/-! PROOFS. Accesses by region (R50 to R56): which are refused, what reserved and read-only offsets do, ARGMEM's bytes, and that a read
changes nothing the host can see. -/

namespace Sys2Proof.Machine

variable {s : State}

/-! ## Regions -/

theorem regionOf_statmem {o : Nat} (h : 0x1000 ≤ o) (h' : o < 0x2000) : regionOf o = .statmem (o - 0x1000) := by
  unfold regionOf
  rw [if_neg (by omega), if_pos h']

theorem regionOf_reserved {o : Nat} (h : 0x2000 ≤ o) (h' : o < 0x10000) : regionOf o = .reserved := by
  unfold regionOf
  rw [if_neg (by omega), if_neg (by omega), if_pos h']

theorem accepted_statmem {o : Nat} (h : 0x1000 ≤ o) (h' : o < 0x2000) (n : Width) :
    accepted o n = ((o - 0x1000) % n.bytes == 0) := by simp only [accepted, regionOf_statmem h h']

theorem accepted_reserved {o : Nat} (h : 0x2000 ≤ o) (h' : o < 0x10000) (n : Width) : accepted o n = true := by
  simp only [accepted, regionOf_reserved h h']

theorem accepted_argmem_eq {o : Nat} (h : 0x10000 ≤ o) (n : Width) : accepted o n = ((o - 0x10000) % n.bytes == 0) := by
  simp only [accepted, regionOf_argmem h]

/-- The regions begin at a multiple of every width (R50). -/
theorem sub_mod_bytes {o base : Nat} (h : base ≤ o) (hb : base % 4 = 0) (n : Width) : (o - base) % n.bytes = o % n.bytes := by
  cases n <;> simp only [Width.bytes] <;> omega

/-- Settles O18: region by region; a refused access is the bus error alone. -/
theorem refusedAccessesHaveNoEffect : Obligations.RefusedAccessesHaveNoEffect := by
  intro s off n v
  refine ⟨?_, fun h => ⟨access_read_refused h, access_write_refused h v⟩⟩
  generalize off.toNat = o
  rcases Nat.lt_or_ge o 0x1000 with h1 | h1
  · rw [accepted_register h1]
    simp only [Bool.and_eq_false_iff, beq_eq_false_iff_ne]
    refine ⟨fun h => .inl ⟨h1, h⟩, ?_⟩
    rintro (⟨-, h⟩ | ⟨h, -⟩ | ⟨h, -⟩)
    · exact h
    · omega
    · omega
  rcases Nat.lt_or_ge o 0x2000 with h2 | h2
  · rw [accepted_statmem h1 h2, sub_mod_bytes h1 (by decide), beq_eq_false_iff_ne]
    omega
  rcases Nat.lt_or_ge o 0x10000 with h3 | h3
  · rw [accepted_reserved h2 h3]
    simp only [Bool.true_eq_false, false_iff]
    omega
  · rw [accepted_argmem_eq h3, sub_mod_bytes h3 (by decide), beq_eq_false_iff_ne]
    omega

/-! ## Reserved and read-only offsets -/

theorem readReg_reserved {o : Nat} (h : 0x058 ≤ o) : s.readReg o = 0 := by
  unfold State.readReg
  iterate 22 rw [if_neg (by omega)]

/-- The registers that a host write reaches (R17, R19): CMD, STATUS, IE and the arguments. -/
theorem writeReg_readOnly {o : Nat} (h : o < 0x008 ∨ 0x014 ≤ o ∧ o < 0x020 ∨ 0x040 ≤ o) (v : Word) : s.writeReg o v = s := by
  unfold State.writeReg State.writeArgReg
  iterate 3 rw [if_neg (by omega)]
  split
  · rfl
  · iterate 8 rw [if_neg (by omega)]

/-- Settles O19: such an offset's data is 0, and its write reaches no register. -/
theorem reservedAndReadOnlyOffsets : Obligations.ReservedAndReadOnlyOffsets := by
  intro s off n v
  refine ⟨?_, ?_⟩
  · rintro (⟨hlo, hhi, hal, rfl⟩ | ⟨hlo, hhi⟩)
    · rw [read_register s hhi hal, readReg_reserved hlo, write_register s hhi hal, writeReg_readOnly (by omega)]
      exact ⟨rfl, rfl⟩
    · rw [access_read (accepted_reserved hlo hhi n), access_write (accepted_reserved hlo hhi n), State.readData, State.writeData,
        regionOf_reserved hlo hhi]
      exact ⟨rfl, rfl⟩
  · intro hoff
    have hdata : s.writeData off.toNat n v = s := by
      rcases hoff with hreg | ⟨hlo, hhi⟩
      · have hro : off.toNat < 0x1000 ∧ (off.toNat < 0x008 ∨ 0x014 ≤ off.toNat ∧ off.toNat < 0x020 ∨ 0x040 ≤ off.toNat) := by
          revert hreg
          generalize off.toNat = o
          revert o
          decide
        rw [State.writeData, regionOf_register hro.1]
        exact writeReg_readOnly hro.2 v
      · rw [State.writeData, regionOf_statmem hlo hhi]
    cases ha : accepted off.toNat n with
    | true => rw [access_write ha, hdata]
    | false => rw [access_write_refused ha]

/-! ## Reads -/

theorem usedFree_idle (h : s.busy = false) : s.usedFree = s := if_neg (by simp [h])

theorem usedFree_busy (h : s.busy = true) :
    s.usedFree =
      { s with eng := { s.eng with draws := { s.eng.draws with free := s.eng.draws.free + Config.argmemBytes } } } := if_pos h

theorem readStat_idle (h : s.busy = false) (i : Nat) : s.readStat i = s.eng.statByte i := if_neg (by simp [h])

theorem readArg_idle (h : s.busy = false) (i : Nat) : s.readArg i = s.argByte i := if_neg (by simp [State.inListArea, h])

/-- What a read answers while BUSY = 0 does not look at the last answer (R56). -/
theorem readData_withBus (h : s.busy = false) (b : BusResponse) (o : Nat) (n : Width) :
    ({ s with bus := b } : State).readData o n = s.readData o n := by
  have hstat : ({ s with bus := b } : State).readStat = s.readStat := funext fun i => by
    rw [readStat_idle h, readStat_idle (s := { s with bus := b }) h]
  have harg : ({ s with bus := b } : State).readArg = s.readArg := funext fun i => by
    rw [readArg_idle h, readArg_idle (s := { s with bus := b }) h]
    rfl
  unfold State.readData
  rw [hstat, harg]
  rfl

/-- A read while BUSY = 0 sets the bus response alone, to what it says of the state before. -/
theorem access_read_idle (h : s.busy = false) (off : BitVec 17) (n : Width) :
    s.access (.read off n) =
      { s with bus := if accepted off.toNat n then ⟨s.readData off.toNat n, false⟩ else ⟨0, true⟩ } := by
  cases ha : accepted off.toNat n with
  | true => rw [access_read ha, usedFree_idle h, if_pos rfl]
  | false => rw [access_read_refused ha, if_neg (by simp)]

/-- Settles O22: a read sets the bus response and moves the counter while BUSY = 1; while BUSY = 0 the data look at neither. -/
theorem readsHaveNoSideEffect : Obligations.ReadsHaveNoSideEffect := by
  intro s off n
  refine ⟨?_, fun hb => ⟨?_, ?_⟩⟩
  · cases ha : accepted off.toNat n with
    | false => exact ⟨s.eng.draws.free, by rw [access_read_refused ha]⟩
    | true =>
      rw [access_read ha]
      cases hb : s.busy with
      | false => exact ⟨s.eng.draws.free, by rw [usedFree_idle hb]⟩
      | true => exact ⟨s.eng.draws.free + Config.argmemBytes, by rw [usedFree_busy hb]⟩
  · rw [access_read_idle hb]
  · have hagain : ∀ b, ({ s with bus := b } : State).access (.read off n) = s.access (.read off n) := fun b => by
      rw [access_read_idle hb, access_read_idle (s := { s with bus := b }) hb, readData_withBus hb]
    exact (congrArg (State.access · (.read off n)) (access_read_idle hb off n)).trans (hagain _)

/-! ## ARGMEM -/

/-- The bytes of a value that an access of this width carries, least significant first (R55). -/
def Width.low (n : Width) (v : Word) : Bytes := (bytesOfWord v).take n.bytes

@[simp] theorem Width.low_length (n : Width) (v : Word) : (n.low v).length = n.bytes := by cases n <;> rfl

theorem Width.low_getD {n : Width} {k : Nat} (h : k < n.bytes) (v : Word) : (n.low v).getD k 0 = v.extractLsb' (8 * k) 8 := by
  have hk : k < 4 := Nat.lt_of_lt_of_le h (by cases n <;> decide)
  rw [Width.low, List.getD_eq_getElem?_getD, List.getElem?_take_of_lt h]
  match k with
  | 0 => rfl
  | 1 => rfl
  | 2 => rfl
  | 3 => rfl

theorem Width.leNat_low (n : Width) (v : Word) : leNat (n.low v) = v.toNat % 2 ^ (8 * n.bytes) := by
  have hv := v.isLt
  cases n <;>
    simp only [Width.low, Width.bytes, bytesOfWord, List.take, leNat, BitVec.extractLsb'_toNat, Nat.shiftRight_eq_div_pow] <;>
    omega

/-- A write to ARGMEM stores the value's bytes and no other. -/
theorem argByte_writeArg (hb : s.busy = false) (hm : Memory.wf (argDefault s.argEpoch) Config.argmemBytes s.argmem = true)
    {a : Nat} {n : Width} (ha : a + n.bytes ≤ Config.argmemBytes) (v : Word) (b : Nat) :
    (s.writeArg a n v).argByte b = if a ≤ b ∧ b < a + n.bytes then v.extractLsb' (8 * (b - a)) 8 else s.argByte b := by
  have hread := Memory.read_writeBytes (n.low v) hm (a := a) (by simpa using ha) b
  rw [State.writeArg, if_neg (by simp [hb])]
  refine hread.trans ?_
  rw [Width.low_length]
  split
  · exact Width.low_getD (by omega) v
  · rfl

/-- The value that a read finds where memory holds the bytes of one (R55). -/
theorem readLE_low {f : Nat → Byte} {a : Nat} {n : Width} {v : Word}
    (h : ∀ k, k < n.bytes → f (a + k) = v.extractLsb' (8 * k) 8) :
    readLE f a n = BitVec.ofNat 32 (v.toNat % 2 ^ (8 * n.bytes)) := by
  have hbytes : ((List.range n.bytes).map fun k => f (a + k)) = n.low v := by
    refine List.ext_getElem (by simp) fun k hk hk' => ?_
    rw [List.length_map, List.length_range] at hk
    rw [List.getElem_map, List.getElem_range, h k hk, ← Width.low_getD hk, List.getD_eq_getElem?_getD,
      List.getElem?_eq_getElem hk', Option.getD_some]
  rw [readLE, hbytes, Width.leNat_low]

/-- Settles O21: the write by read_writeBytes, the read of the bytes it stored. -/
theorem argmemIsLittleEndian : Obligations.ArgmemIsLittleEndian := by
  intro s a n v hb ha hal hm t
  have hoff : (BitVec.ofNat 17 (0x10000 + a)).toNat = 0x10000 + a := by rw [BitVec.toNat_ofNat, Nat.mod_eq_of_lt (by omega)]
  have hacc : accepted (BitVec.ofNat 17 (0x10000 + a)).toNat n = true := by
    rw [hoff, accepted_argmem_eq (by omega), Nat.add_sub_cancel_left, hal]
    rfl
  have hreg : regionOf (BitVec.ofNat 17 (0x10000 + a)).toNat = .argmem a := by
    rw [hoff, regionOf_argmem (by omega), Nat.add_sub_cancel_left]
  have ht : t = { s.writeArg a n v with bus := ⟨0, false⟩ } := by
    show s.access _ = _
    rw [access_write hacc, State.writeData, hreg]
  have hbyte : ∀ b, t.argByte b = if a ≤ b ∧ b < a + n.bytes then v.extractLsb' (8 * (b - a)) 8 else s.argByte b := fun b => by
    rw [ht]
    exact argByte_writeArg hb hm (accepted_argmem hacc hreg) v b
  have htb : t.busy = false := by
    rw [ht, State.writeArg, if_neg (by simp [hb])]
    exact hb
  refine ⟨hbyte, ?_⟩
  rw [access_read hacc, State.readData, hreg]
  refine congrArg (BusResponse.mk · false) (readLE_low fun k hk => ?_)
  rw [readArg_idle htb, hbyte, if_pos (by omega), Nat.add_sub_cancel_left]

end Sys2Proof.Machine
end

section
/-! PROOFS. The archive format (R58 to R68): little-endian words, records and blocks read back as they were written, and the parser
and the serializer undo each other. -/

namespace Sys2Proof.Machine

/-! ## Little-endian words -/

@[simp] theorem le32_length (v : Word) : (le32 v).length = 4 := rfl

@[simp] theorem le64_length (v : Dword) : (le64 v).length = 8 := rfl

@[simp] theorem take_le32_append (v : Word) (rest : Bytes) : (le32 v ++ rest).take 4 = le32 v := rfl

theorem leNat_append (as bs : Bytes) : leNat (as ++ bs) = leNat as + 256 ^ as.length * leNat bs := by
  induction as with
  | nil => simp [leNat]
  | cons a as ih =>
    simp only [List.cons_append, leNat, ih, List.length_cons, Nat.pow_succ]
    rw [Nat.mul_add, Nat.mul_comm (256 ^ as.length) 256, Nat.mul_assoc, Nat.add_assoc]

theorem leNat_lt (bs : Bytes) : leNat bs < 256 ^ bs.length := by
  induction bs with
  | nil => simp [leNat]
  | cons b bs ih =>
    have hb := b.isLt
    simp only [leNat, List.length_cons, Nat.pow_succ]
    omega

theorem leNat_le32 (v : Word) : leNat (le32 v) = v.toNat := by
  have hv := v.isLt
  simp only [le32, leNat, BitVec.extractLsb'_toNat, Nat.shiftRight_eq_div_pow]
  omega

theorem leNat_le64 (v : Dword) : leNat (le64 v) = v.toNat := by
  have hv := v.isLt
  simp only [le64, leNat_append, leNat_le32, le32_length, BitVec.extractLsb'_toNat, Nat.shiftRight_eq_div_pow]
  omega

@[simp] theorem rdLE32_le32 (v : Word) : rdLE32 (le32 v) = v := by
  rw [rdLE32, leNat_le32, BitVec.ofNat_toNat, BitVec.setWidth_eq]

@[simp] theorem rdLE64_le64 (v : Dword) : rdLE64 (le64 v) = v := by
  rw [rdLE64, leNat_le64, BitVec.ofNat_toNat, BitVec.setWidth_eq]

/-- Byte sequences of one length are equal where their numbers are. -/
theorem leNat_inj {as bs : Bytes} (hl : as.length = bs.length) (h : leNat as = leNat bs) : as = bs := by
  induction as generalizing bs with
  | nil => exact (List.eq_nil_of_length_eq_zero hl.symm).symm
  | cons a as ih =>
    cases bs with
    | nil => exact absurd hl (by simp)
    | cons b bs =>
      have ha := a.isLt
      have hb := b.isLt
      simp only [leNat, List.length_cons] at h hl
      rw [BitVec.eq_of_toNat_eq (x := a) (y := b) (by omega), ih (bs := bs) (by omega) (by omega)]

theorem le32_rdLE32 {bs : Bytes} (h : bs.length = 4) : le32 (rdLE32 bs) = bs := by
  have hlt := leNat_lt bs
  rw [h] at hlt
  refine leNat_inj h.symm ?_
  rw [leNat_le32, rdLE32, BitVec.toNat_ofNat, Nat.mod_eq_of_lt (by omega)]

theorem le64_rdLE64 {bs : Bytes} (h : bs.length = 8) : le64 (rdLE64 bs) = bs := by
  have hlt := leNat_lt bs
  rw [h] at hlt
  refine leNat_inj h.symm ?_
  rw [leNat_le64, rdLE64, BitVec.toNat_ofNat, Nat.mod_eq_of_lt (by omega)]

/-! ## Records -/

theorem entry_wf_iff {en : Entry} : en.wf = true ↔ 1 ≤ en.name.length ∧ en.name.length ≤ 254 ∧ 0 ∉ en.name := by
  simp only [Entry.wf, Path.wf, Bool.and_eq_true, decide_eq_true_eq, Bool.not_eq_true', List.contains_eq_mem,
    decide_eq_false_iff_not, and_assoc]
  exact Iff.rfl

@[simp] theorem recBytes_length (en : Entry) : (recBytes en).length = en.name.length + 17 := by
  simp [recBytes]

/-- A name is as long as the bytes before the first 0x00. -/
theorem nameLength_append {n : Nat} {nm : Path} (hz : 0 ∉ nm) (hn : nm.length < n) (rest : Bytes) :
    nameLength n (nm ++ 0 :: rest) = some nm.length := by
  induction nm generalizing n with
  | nil =>
    obtain ⟨n, rfl⟩ : ∃ m, n = m + 1 := ⟨n - 1, by simp at hn; omega⟩
    rfl
  | cons b nm ih =>
    obtain ⟨n, rfl⟩ : ∃ m, n = m + 1 := ⟨n - 1, by simp at hn; omega⟩
    rw [List.mem_cons, not_or] at hz
    rw [List.cons_append, nameLength, if_neg (Ne.symm hz.1), ih hz.2 (by simpa using hn)]
    rfl

/-- The bytes from a name on begin with the name and its 0x00. -/
theorem take_nameLength {n q : Nat} {bs : Bytes} (h : nameLength n bs = some q) : bs = bs.take q ++ 0 :: bs.drop (q + 1) := by
  induction n generalizing bs q with
  | zero => cases bs <;> simp [nameLength] at h
  | succ n ih =>
    cases bs with
    | nil => simp [nameLength] at h
    | cons b bs =>
      rw [nameLength] at h
      split at h
      · injection h with h
        simp [← h, ‹b = 0›]
      · obtain ⟨q', hq', rfl⟩ := Option.map_eq_some_iff.1 h
        rw [List.take_succ_cons, List.drop_succ_cons, List.cons_append, ← ih hq']

/-- What a record that parses says of the bytes (R68). -/
theorem parseRecord_eq_some {bs rest : Bytes} {en : Entry} :
    parseRecord bs = some (en, rest) ↔
      ∃ q, nameLength 255 bs = some q ∧ q ≠ 0 ∧ q + 17 ≤ bs.length ∧
        en = ⟨bs.take q, rdLE32 ((bs.drop (q + 1)).take 4), rdLE32 (((bs.drop (q + 1)).drop 4).take 4),
          rdLE64 (((bs.drop (q + 1)).drop 8).take 8)⟩ ∧
        rest = (bs.drop (q + 1)).drop 16 := by
  unfold parseRecord
  cases nameLength 255 bs with
  | none => simp
  | some q =>
    by_cases hq : q = 0
    · simp [hq]
    · by_cases hl : bs.length < q + 17
      · simp [hq, hl, Nat.not_le.2 hl]
      · simp [hq, hl, Nat.not_lt.1 hl, eq_comm]

/-- The fields of a record behind its name. -/
def recFields (en : Entry) : Bytes := le32 en.orig ++ (le32 en.comp ++ le64 en.time)

theorem recBytes_eq (en : Entry) : recBytes en = en.name ++ 0 :: recFields en := by simp [recBytes, recFields]

/-- A record reads back as it was written (R67, R68). -/
theorem parseRecord_recBytes {en : Entry} (h : en.wf = true) (rest : Bytes) :
    parseRecord (recBytes en ++ rest) = some (en, rest) := by
  obtain ⟨hlo, hhi, hz⟩ := entry_wf_iff.1 h
  have hbs : recBytes en ++ rest = en.name ++ 0 :: (recFields en ++ rest) := by simp [recBytes_eq]
  have hfields : (recBytes en ++ rest).drop (en.name.length + 1) = recFields en ++ rest := by
    rw [hbs, ← List.drop_drop, List.drop_left, List.drop_one, List.tail_cons]
  refine parseRecord_eq_some.2 ⟨en.name.length, ?_, by omega, by simp, ?_, ?_⟩
  · rw [hbs, nameLength_append hz (by omega)]
  · rw [hfields, hbs, List.take_left]
    show en = ⟨en.name, rdLE32 (le32 en.orig), rdLE32 (le32 en.comp), rdLE64 (le64 en.time)⟩
    rw [rdLE32_le32, rdLE32_le32, rdLE64_le64]
  · rw [hfields]
    rfl

/-- A record that parses is the bytes read (R67, R68). -/
theorem eq_recBytes_of_parseRecord {bs rest : Bytes} {en : Entry} (h : parseRecord bs = some (en, rest)) :
    bs = recBytes en ++ rest := by
  obtain ⟨q, hq, -, hl, rfl, rfl⟩ := parseRecord_eq_some.1 h
  have hf : 16 ≤ (bs.drop (q + 1)).length := by rw [List.length_drop]; omega
  generalize hfs : bs.drop (q + 1) = f at hf ⊢
  have hfields : f = f.take 4 ++ ((f.drop 4).take 4 ++ ((f.drop 8).take 8 ++ f.drop 16)) := by
    rw [← List.drop_drop (i := 8) (j := 8), List.take_append_drop, ← List.drop_drop (i := 4) (j := 4), List.take_append_drop,
      List.take_append_drop]
  rw [recBytes_eq, recFields, le32_rdLE32, le32_rdLE32, le64_rdLE64]
  · rw [List.append_assoc, List.cons_append, List.append_assoc, List.append_assoc, ← hfields, ← hfs]
    exact take_nameLength hq
  all_goals simp; omega

/-- Records read back as they were written (R67, R68). -/
theorem parseRecords_recBytes {es : List Entry} (h : ∀ en ∈ es, en.wf = true) (rest : Bytes) :
    parseRecords es.length (es.flatMap recBytes ++ rest) = some (es, rest) := by
  induction es with
  | nil => rfl
  | cons en es ih =>
    rw [List.forall_mem_cons] at h
    rw [List.flatMap_cons, List.append_assoc, List.length_cons, parseRecords, parseRecord_recBytes h.1]
    simp [ih h.2]

/-- Records that parse are the bytes read (R67, R68). -/
theorem eq_recBytes_of_parseRecords {n : Nat} {bs rest : Bytes} {es : List Entry} (h : parseRecords n bs = some (es, rest)) :
    es.length = n ∧ bs = es.flatMap recBytes ++ rest := by
  induction n generalizing bs es with
  | zero =>
    injection h with h
    injection h with hes hrest
    simp [← hes, hrest]
  | succ n ih =>
    rw [parseRecords] at h
    split at h
    · exact absurd h (by simp)
    · rename_i en rest' hrec
      obtain ⟨⟨es', r⟩, hes, heq⟩ := Option.map_eq_some_iff.1 h
      injection heq with h1 h2
      subst h1 h2
      obtain ⟨hlen, hbs⟩ := ih hes
      rw [eq_recBytes_of_parseRecord hrec, hbs]
      simp [hlen]

/-! ## Blocks -/

/-- The sum of the compressed sizes of entries (R64). -/
def compTotal (es : List Entry) : Nat := (es.map fun en => en.comp.toNat).sum

/-- Blocks of the entries' lengths are cut as they were joined (R64). -/
theorem cutBlocks_flatten {es : List Entry} {bs : List Bytes} (h : bs.map (·.length) = es.map fun en => en.comp.toNat) :
    cutBlocks es bs.flatten = bs := by
  induction es generalizing bs with
  | nil => exact (List.map_eq_nil_iff.1 h).symm
  | cons en es ih =>
    obtain ⟨b, bs, rfl, hb, hbs⟩ := List.map_eq_cons_iff.1 h
    rw [cutBlocks, List.flatten_cons, show en.comp.toNat = b.length from hb.symm, List.take_left, List.drop_left, ih hbs]

theorem flatten_length {es : List Entry} {bs : List Bytes} (h : bs.map (·.length) = es.map fun en => en.comp.toNat) :
    bs.flatten.length = compTotal es := by
  rw [List.length_flatten, h, compTotal]

/-- A data region as long as the entries say is cut into blocks of their lengths, which it joins (R64). -/
theorem cutBlocks_spec {es : List Entry} {data : Bytes} (h : compTotal es = data.length) :
    (cutBlocks es data).flatten = data ∧ (cutBlocks es data).map (·.length) = es.map fun en => en.comp.toNat := by
  induction es generalizing data with
  | nil => exact ⟨(List.eq_nil_of_length_eq_zero h.symm).symm, rfl⟩
  | cons en es ih =>
    rw [compTotal, List.map_cons, List.sum_cons] at h
    obtain ⟨hflat, hlen⟩ := ih (data := data.drop en.comp.toNat) (by rw [compTotal, List.length_drop]; omega)
    rw [cutBlocks, List.flatten_cons, hflat, List.map_cons, hlen, List.take_append_drop, List.length_take,
      Nat.min_eq_left (by omega)]
    exact ⟨rfl, rfl⟩

/-! ## Archives -/

/-- An archive that parses (R68): the magic, the checksum of what follows it, the records, and a data region of their sizes. -/
theorem parse_eq_archive {c : Bytes} {es : List Entry} {bs : List Bytes} :
    parse c true = .archive es bs ↔
      c.take 12 = Config.magic ∧ 20 ≤ c.length ∧ rdLE32 ((c.drop 12).take 4) = crc32Of (c.drop 16) ∧
        ∃ data, parseRecords (rdLE32 ((c.drop 16).take 4)).toNat (c.drop 20) = some (es, data) ∧
          compTotal es = data.length ∧ bs = cutBlocks es data := by
  constructor
  · intro h
    unfold parse at h
    split at h
    · exact absurd h (by simp)
    split at h
    · exact absurd h (by simp)
    split at h
    · exact absurd h (by simp)
    rename_i hm hl hc
    split at h
    · exact absurd h (by simp)
    · rename_i data hr
      split at h
      · rename_i hs
        injection h with hes hbs
        subst hes
        exact ⟨Classical.not_not.1 hm, Nat.not_lt.1 hl, by simpa using hc, data, hr, hs, hbs.symm⟩
      · exact absurd h (by simp)
  · rintro ⟨hm, hl, hc, data, hr, hs, rfl⟩
    rw [parse, if_neg (Classical.not_not.2 hm), if_neg (Nat.not_lt.2 hl), if_neg (by simp [hc]), hr]
    exact if_pos hs

theorem flatMap_recBytes_length (es : List Entry) : 20 + (es.flatMap recBytes).length = headerSize es := by
  rw [headerSize, List.length_flatMap]
  simp [Config.hdrFixed]

/-- The parts of an archive (R58, R67). -/
theorem ser_eq (es : List Entry) (bs : List Bytes) :
    ser es bs = Config.magic ++ (le32 (crc32Of (bodyBytes es bs)) ++ bodyBytes es bs) := by simp [ser]

theorem bodyBytes_eq (es : List Entry) (bs : List Bytes) :
    bodyBytes es bs = le32 (BitVec.ofNat 32 es.length) ++ (es.flatMap recBytes ++ bs.flatten) := by simp [bodyBytes]

theorem take_ser (es : List Entry) (bs : List Bytes) : (ser es bs).take 12 = Config.magic := by rw [ser_eq]; rfl

theorem drop_12_ser (es : List Entry) (bs : List Bytes) :
    (ser es bs).drop 12 = le32 (crc32Of (bodyBytes es bs)) ++ bodyBytes es bs := by rw [ser_eq]; rfl

theorem drop_16_ser (es : List Entry) (bs : List Bytes) : (ser es bs).drop 16 = bodyBytes es bs := by rw [ser_eq]; rfl

theorem drop_20_ser (es : List Entry) (bs : List Bytes) : (ser es bs).drop 20 = es.flatMap recBytes ++ bs.flatten := by
  rw [ser_eq, bodyBytes_eq]; rfl

theorem ser_length {es : List Entry} {bs : List Bytes} (h : bs.map (·.length) = es.map fun en => en.comp.toNat) :
    (ser es bs).length = headerSize es + compTotal es := by
  rw [← flatMap_recBytes_length, ← flatten_length h, ser_eq, bodyBytes_eq]
  simp only [List.length_append, le32_length, show Config.magic.length = 12 from rfl]
  omega

/-- Settles O50: each part of the archive reads back as it was written. -/
theorem parseInvertsSer : Obligations.ParseInvertsSer := by
  intro es bs hes hn hbs
  have hcount : (BitVec.ofNat 32 es.length).toNat = es.length := by rw [BitVec.toNat_ofNat, Nat.mod_eq_of_lt hn]
  refine parse_eq_archive.2
    ⟨take_ser es bs, ?_, ?_, bs.flatten, ?_, (flatten_length hbs).symm, (cutBlocks_flatten hbs).symm⟩
  · rw [ser_length hbs, ← flatMap_recBytes_length]
    omega
  · rw [drop_12_ser, drop_16_ser, take_le32_append, rdLE32_le32]
  · rw [drop_16_ser, drop_20_ser, bodyBytes_eq, take_le32_append, rdLE32_le32, hcount, parseRecords_recBytes hes]

/-- Settles O51: each part that parses is the bytes read, and their parts make up the archive. -/
theorem serInvertsParse : Obligations.SerInvertsParse := by
  intro c es bs h
  obtain ⟨hm, hl, hc, data, hr, hs, rfl⟩ := parse_eq_archive.1 h
  obtain ⟨hflat, hlens⟩ := cutBlocks_spec hs
  obtain ⟨hlen, hdata⟩ := eq_recBytes_of_parseRecords hr
  have hfour : ∀ n, n + 4 ≤ 20 → ((c.drop n).take 4).length = 4 := fun n hn => by
    rw [List.length_take, List.length_drop]; omega
  have hbody : bodyBytes es (cutBlocks es data) = c.drop 16 := by
    rw [bodyBytes_eq, hlen, hflat, ← hdata, BitVec.ofNat_toNat, BitVec.setWidth_eq, le32_rdLE32 (hfour 16 (by omega)),
      ← List.drop_drop (i := 4) (j := 16), List.take_append_drop]
  have hser : c = ser es (cutBlocks es data) := by
    rw [ser_eq, hbody, ← hc, le32_rdLE32 (hfour 12 (by omega)), ← List.drop_drop (i := 4) (j := 12), List.take_append_drop, ← hm,
      List.take_append_drop]
  exact ⟨hser, parse_wf h, hlens, hlen ▸ BitVec.isLt _, (ser_length hlens).symm.trans (congrArg List.length hser.symm)⟩

end Sys2Proof.Machine
end

section
/-! PROOFS. Where the storage answers every request and the host changes no file meanwhile (duties 1, 3 and 4 of R331), whatever
requests FAIL: which parts of the engine a computation leaves, and how a command then completes. -/

namespace Sys2Proof.Machine

variable {α β : Type}

/-- Every request is answered, and no change of a file by the host is to come; requests may FAIL. -/
def Draws.Prompt (d : Draws) : Prop := d.answers = none ∧ d.edits = []

section
variable {e : Engine}

theorem Draws.Prompt.answered (h : e.draws.Prompt) : e.draws.answers ≠ some 0 := by simp [h.1]

theorem Draws.Prompt.asked (h : e.draws.Prompt) : e.asked.draws.Prompt := by
  rw [asked_of_settled h.2]
  exact ⟨by simp [Draws.next, h.1], h.2⟩

theorem Draws.Prompt.asked_fs (h : e.draws.Prompt) : e.asked.storage.fs = e.storage.fs := by rw [asked_of_settled h.2]

theorem Draws.Prompt.asked_storage (h : e.draws.Prompt) : e.asked.storage = e.storage := by rw [asked_of_settled h.2]

end

/-- A computation without a value that cannot stop. -/
theorem Ends.answers_unit {x : Eng Unit} {e : Engine} {Q : Engine → Prop} (h : Ends x e (fun _ => Q) fun _ _ => False) :
    ∃ e', x e = .ok () e' ∧ Q e' := by
  obtain ⟨_, e', hx, hq⟩ := h.answers
  exact ⟨e', hx, hq⟩

/-! ## STATMEM -/

/-- STATMEM holds `m`, and the draws are prompt. -/
structure Engine.Marked (m : Memory) (e : Engine) : Prop where
  statmem : e.statmem = m
  draws   : e.draws.Prompt

section
variable {m : Memory} {e : Engine}

theorem Engine.Marked.congr {e' : Engine} (h : e.Marked m) (hs : e'.statmem = e.statmem) (hd : e'.draws = e.draws) : e'.Marked m :=
  ⟨hs.trans h.statmem, hd ▸ h.draws⟩

theorem Engine.Marked.asked (h : e.Marked m) : e.asked.Marked m := ⟨h.statmem, h.draws.asked⟩

theorem Engine.Marked.landAll (h : e.Marked m) : e.landAll.Marked m := by rwa [landAll_of_settled h.draws.2]

/-- A change of the engine that is none of STATMEM or of the draws. -/
theorem marked_update {f : Engine → Engine} (hs : ∀ e, (f e).statmem = e.statmem := by exact fun _ => rfl)
    (hd : ∀ e, (f e).draws = e.draws := by exact fun _ => rfl) : Keeps (Engine.Marked m) (update f) :=
  fun e h => h.congr (hs e) (hd e)

/-! ### Requests -/

theorem marked_sOpenRead (p : Path) : Keeps (Engine.Marked m) (sOpenRead p) := fun _ h =>
  (ends_sOpenRead p _).2
    ⟨fun _ => h.landAll, fun _ => ⟨fun _ => h.asked, fun _ _ => h.asked, fun _ _ => h.asked.congr rfl rfl⟩⟩

theorem marked_sOpenCreate (p : Path) : Keeps (Engine.Marked m) (sOpenCreate p) := fun _ h =>
  (ends_sOpenCreate p _).2 ⟨fun _ => h.landAll, fun _ => ⟨fun _ => h.asked, fun _ => h.asked.congr rfl rfl⟩⟩

theorem marked_sRead (k : Handle) (n : Nat) : Keeps (Engine.Marked m) (sRead k n) := fun _ h =>
  (ends_sRead k n _).2
    ⟨fun _ => h.landAll, fun _ => ⟨fun _ => h.asked, fun _ _ => ⟨fun _ => h.asked, fun _ => h.asked.congr rfl rfl⟩⟩⟩

theorem marked_sWrite (k : Handle) (bs : Bytes) : Keeps (Engine.Marked m) (sWrite k bs) := fun _ h =>
  (ends_sWrite k bs _).2
    ⟨fun _ => h.landAll, fun _ => ⟨fun _ => h.asked, fun _ _ =>
      ⟨fun _ => h.asked, fun _ _ => ⟨h.statmem, h.draws.asked⟩, fun _ _ => h.asked.congr rfl rfl⟩⟩⟩

theorem marked_sSeek (k : Handle) (pos : Nat) : Keeps (Engine.Marked m) (sSeek k pos) := fun _ h =>
  (ends_sSeek k pos _).2 ⟨fun _ => h.landAll, fun _ => ⟨fun _ => h.asked, fun _ _ => h.asked.congr rfl rfl⟩⟩

theorem marked_sSize (k : Handle) : Keeps (Engine.Marked m) (sSize k) := fun _ h =>
  (ends_sSize k _).2 ⟨fun _ => h.landAll, fun _ => ⟨fun _ => h.asked, fun _ _ => h.asked⟩⟩

theorem marked_closeReg (r : HandleReg) : Keeps (Engine.Marked m) (closeReg r) := fun _ h =>
  (ends_closeReg r _).2 ⟨fun _ => h, fun _ _ => ⟨fun _ => h.landAll, fun _ => h.asked.congr rfl rfl⟩⟩

theorem marked_keep (r : HandleReg) (a : OpenAnswer) : Keeps (Engine.Marked m) (keep r a) := fun _ h =>
  (ends_keep r a _).2 ⟨fun _ _ => h.congr rfl rfl, fun _ => h⟩

theorem marked_openRead (r : HandleReg) (p : Path) : Keeps (Engine.Marked m) (openRead r p) :=
  (marked_sOpenRead p).bind (marked_keep r)

theorem marked_openCreate (r : HandleReg) (p : Path) : Keeps (Engine.Marked m) (openCreate r p) :=
  (marked_sOpenCreate p).bind (marked_keep r)

theorem marked_wr (k : Handle) (bs : Bytes) : Keeps (Engine.Marked m) (wr k bs) :=
  (marked_sWrite k bs).bind fun _ => .check _ _

/-! ### Streams -/

theorem marked_inInit (k : Handle) (n : Nat) : Keeps (Engine.Marked m) (inInit k n) := marked_update

theorem marked_fill : Keeps (Engine.Marked m) fill := by
  have hrefill : ∀ n, Keeps (Engine.Marked m) (refill n) := fun n =>
    .ite (.pure _) ((Keeps.look _).bind fun _ => (marked_sRead _ _).bind fun _ => .orRaise _ _)
  exact (Keeps.look _).bind fun _ => (hrefill _).bind fun _ => Keeps.bind marked_update fun _ => .pure _

theorem marked_readBit : Keeps (Engine.Marked m) readBit := by
  have htake : Keeps (Engine.Marked m) takeBit := (Keeps.look _).bind fun _ => Keeps.bind marked_update fun _ => .pure _
  exact (Keeps.look _).bind fun _ => .ite (marked_fill.bind fun _ => .ite (.pure _) (htake.bind fun _ => .pure _))
    (htake.bind fun _ => .pure _)

theorem marked_readBits (n i : Nat) (v : Byte) : Keeps (Engine.Marked m) (readBits n i v) := by
  induction n generalizing i v with
  | zero => exact .pure _
  | succ n ih =>
    refine marked_readBit.bind fun o => ?_
    cases o with
    | none => exact .pure _
    | some r => exact ih _ _

theorem marked_readByte : Keeps (Engine.Marked m) readByte := marked_readBits 8 0 0

theorem marked_readBytes (n : Nat) : Keeps (Engine.Marked m) (readBytes n) := by
  induction n with
  | zero => exact .pure _
  | succ n ih =>
    refine marked_readByte.bind fun o => ?_
    cases o with
    | none => exact .pure _
    | some b => exact ih.bind fun o => by cases o <;> exact .pure _

theorem marked_rd32 : Keeps (Engine.Marked m) rd32 := (marked_readBytes 4).bind fun _ => .pure _

theorem marked_rd64 : Keeps (Engine.Marked m) rd64 := (marked_readBytes 8).bind fun _ => .pure _

theorem marked_crcLoop (fuel n : Nat) : Keeps (Engine.Marked m) (crcLoop fuel n) := by
  induction fuel generalizing n with
  | zero => exact .pure _
  | succ fuel ih =>
    refine marked_readByte.bind fun o => ?_
    cases o with
    | none => exact .pure _
    | some b => exact (marked_update : Keeps _ (crcByte b)).bind fun _ => ih _

theorem marked_archiveCrc (k : Handle) : Keeps (Engine.Marked m) (archiveCrc k) := by
  have hcrc : Keeps (Engine.Marked m) (crcStream k) :=
    (marked_inInit _ _).bind fun _ => (marked_update : Keeps _ crcInit).bind fun _ => (Keeps.look _).bind fun _ =>
      (marked_crcLoop _ _).bind fun _ => (Keeps.look _).bind fun _ => .pure _
  exact (marked_sSeek _ _).bind fun _ => hcrc.bind fun _ => .pure _

/-! ### Validation -/

theorem marked_readName (fuel : Nat) : Keeps (Engine.Marked m) (readName fuel) := by
  induction fuel with
  | zero => exact .pure _
  | succ fuel ih =>
    refine marked_readByte.bind fun o => ?_
    cases o with
    | none => exact .pure _
    | some b => exact .ite (.pure _) (.ite (.pure _) (ih.bind fun _ => .pure _))

theorem marked_recRead : Keeps (Engine.Marked m) recRead := by
  refine (marked_readName _).bind fun o => ?_
  cases o with
  | none => exact .pure _
  | some nm =>
    refine .ite (.pure _) (marked_rd32.bind fun o => ?_)
    cases o with
    | none => exact .pure _
    | some o =>
      refine marked_rd32.bind fun c => ?_
      cases c with
      | none => exact .pure _
      | some c =>
        refine marked_rd64.bind fun t => ?_
        cases t with
        | none => exact .pure _
        | some t => exact Keeps.bind marked_update fun _ => .pure _

theorem marked_checkMagic (bs : Bytes) : Keeps (Engine.Marked m) (checkMagic bs) := by
  induction bs with
  | nil => exact .pure _
  | cons b bs ih => exact marked_readByte.bind fun _ => (Keeps.check _ _).bind fun _ => ih

theorem marked_failMode (a b : Word) : (mode : ValidateMode) → Keeps (Engine.Marked m) (failMode mode a b)
  | .abort  => .raise _
  | .report => .pure _

theorem marked_validateRecords (n sum : Nat) : Keeps (Engine.Marked m) (validateRecords n sum) := by
  induction n generalizing sum with
  | zero => exact .pure _
  | succ n ih =>
    refine marked_recRead.bind fun o => ?_
    cases o with
    | none => exact .pure _
    | some k => exact Keeps.bind marked_update fun _ => (Keeps.look _).bind fun _ => ih _

theorem marked_validateStructure (a : Handle) : Keeps (Engine.Marked m) (validateStructure a) := by
  refine (Keeps.look _).bind fun _ => (marked_sSeek _ _).bind fun _ => (marked_inInit _ _).bind fun _ => marked_rd32.bind fun _ =>
    (Keeps.orRaise _ _).bind fun _ => Keeps.bind marked_update fun _ => (marked_validateRecords _ _).bind fun o => ?_
  cases o with
  | none => exact .pure _
  | some n => exact (Keeps.look _).bind fun _ => .pure _

theorem marked_createFile (p : Path) : Keeps (Engine.Marked m) (createFile p) :=
  (marked_openCreate _ p).bind fun _ => (Keeps.must _ _).bind fun _ => (Keeps.reg _).bind fun _ => (marked_wr _ _).bind fun _ =>
    (marked_archiveCrc _).bind fun _ => (marked_sSeek _ _).bind fun _ => (marked_wr _ _).bind fun _ =>
    (marked_closeReg _).bind fun _ => .pure _

theorem marked_openOrCreate (p : Path) : Keeps (Engine.Marked m) (openOrCreate p) := by
  refine (marked_openRead _ p).bind fun a => ?_
  cases a with
  | handle k => exact .pure _
  | notFound => exact (marked_createFile p).bind fun _ => (marked_openRead _ p).bind fun _ => .must _ _
  | fail => exact .raise _

/-- Validation writes no status (R195). -/
theorem marked_openValidate (p : Path) (mode : ValidateMode) : Keeps (Engine.Marked m) (openValidate p mode) := by
  refine (marked_openOrCreate p).bind fun _ => (Keeps.reg _).bind fun _ => (marked_sSize _).bind fun _ => Keeps.bind marked_update fun _ =>
    (marked_sSeek _ _).bind fun _ => (marked_inInit _ _).bind fun _ => (marked_checkMagic _).bind fun _ => .ite ?_
    ((marked_sSeek _ _).bind fun _ => (marked_inInit _ _).bind fun _ => marked_rd32.bind fun _ => (Keeps.orRaise _ _).bind fun _ =>
      (marked_archiveCrc _).bind fun _ =>
      .ite ((marked_validateStructure _).bind fun _ => .ite (.pure _) (marked_failMode _ _ _)) (marked_failMode _ _ _))
  cases mode with
  | abort => exact .raise _
  | report => exact (marked_archiveCrc _).bind fun _ => marked_failMode _ _ _

end

/-! ## Opens -/

section
variable {e : Engine} {Q : OpenAnswer → Engine → Prop} {R : Stop → Engine → Prop}

/-- `r <- SOpen(path, R)` of a file that is absent. -/
theorem ends_openRead_absent (hd : e.draws.Prompt) {p : Path} (hp : fsGet e.storage.fs p = none) (r : HandleReg) :
    Ends (openRead r p) e Q R ↔ Q .notFound e.asked := by
  simp [openRead, ends_sOpenRead, ends_keep, hd.answered, hd.asked_fs, hp]

/-- `r <- SOpen(path, R)` that FAILs. -/
theorem ends_openRead_fail (hd : e.draws.Prompt) {p : Path} (hp : fsGet e.storage.fs p ≠ none) (hf : e.draws.fails = true)
    (r : HandleReg) : Ends (openRead r p) e Q R ↔ Q .fail e.asked := by
  simp [openRead, ends_sOpenRead, ends_keep, hd.answered, hd.asked_fs, hp, hf]

/-- `r <- SOpen(path, R)` that opens the file. -/
theorem ends_openRead_handle (hd : e.draws.Prompt) {p : Path} (hp : fsGet e.storage.fs p ≠ none) (hf : e.draws.fails = false)
    (r : HandleReg) :
    Ends (openRead r p) e Q R ↔
      Q (.handle e.storage.nextId) { e.asked.withStorage (e.storage.openedRead p) with
        work := e.work.setReg r (some e.storage.nextId) } := by
  simp [openRead, ends_sOpenRead, ends_keep, hd.answered, hd.asked_storage, hp, hf]

/-- `r <- SOpen(path, CW)` that FAILs. -/
theorem ends_openCreate_fail (hd : e.draws.Prompt) (hf : e.draws.fails = true) (r : HandleReg) (p : Path) :
    Ends (openCreate r p) e Q R ↔ Q .fail e.asked := by
  simp [openCreate, ends_sOpenCreate, ends_keep, hd.answered, hf]

/-- `r <- STemp()` that FAILs. -/
theorem ends_openTemp_fail (hd : e.draws.Prompt) (hf : e.draws.fails = true) (r : HandleReg) :
    Ends (openTemp r) e Q R ↔ Q .fail e.asked := by
  simp [openTemp, ends_sTemp, ends_keep, hd.answered, hf]

/-- `r <- STemp()` that opens a temporary file. -/
theorem ends_openTemp_handle (hd : e.draws.Prompt) (hf : e.draws.fails = false) (r : HandleReg) :
    Ends (openTemp r) e Q R ↔
      Q (.handle (e.storage.nextId + 1)) { e.asked.withStorage e.storage.openedTemp with
        work := e.work.setReg r (some (e.storage.nextId + 1)) } := by
  simp [openTemp, ends_sTemp, ends_keep, hd.answered, hd.asked_storage, hf]

end

/-! ## Completion -/

/-- From an engine where `P` holds the computation answers, and `P` holds still. -/
def Stays (P : Engine → Prop) (x : Eng α) : Prop := ∀ e, P e → Ends x e (fun _ => P) fun _ _ => False

theorem Stays.bind {P : Engine → Prop} {x : Eng α} {f : α → Eng β} (hx : Stays P x) (hf : ∀ a, Stays P (f a)) :
    Stays P (x >>= f) := by
  intro e h
  rw [ends_bind]
  exact (hx e h).mono (fun a e' h' => hf a e' h') fun _ _ hs => hs

/-- The namespace is `fs`, STATMEM holds `m`, and the draws are prompt. -/
def Engine.Shows (fs : Files) (m : Memory) (e : Engine) : Prop := e.storage.fs = fs ∧ e.Marked m

theorem Engine.Shows.asked {fs : Files} {m : Memory} {e : Engine} (h : e.Shows fs m) : e.asked.Shows fs m :=
  ⟨h.2.draws.asked_fs.trans h.1, h.2.asked⟩

theorem close_fs (st : Storage) (k : Handle) : (st.close k).fs = st.fs := by
  unfold Storage.close
  split <;> rfl

theorem stays_closeReg {fs : Files} {m : Memory} (r : HandleReg) : Stays (Engine.Shows fs m) (closeReg r) := fun _ h =>
  (ends_closeReg r _).2 ⟨fun _ => h, fun _ _ => ⟨fun hc => h.2.draws.answered hc, fun _ =>
    ⟨(close_fs _ _).trans h.asked.1, h.asked.2.congr rfl rfl⟩⟩⟩

/-- The closes at a command's end leave the namespace and STATMEM (R81). -/
theorem stays_closeAll {fs : Files} {m : Memory} : Stays (Engine.Shows fs m) closeAll :=
  (stays_closeReg _).bind fun _ => (stays_closeReg _).bind fun _ => (stays_closeReg _).bind fun _ =>
    (stays_closeReg _).bind fun _ => (stays_closeReg _).bind fun _ => stays_closeReg _

/-- A command whose body ends with a report other than STORAGE_ERROR gives it, with the namespace and the statuses there are then
(R287, R294). -/
theorem gives_of_reporting {i : Instr} {s : State} {code : ErrorCode} {r0 r1 : Word} {fs : Files} {m : Memory}
    {statuses : List NameStatus} (hrest : s.eng.atRest = true) (hb : s.breach (naming i s) = none) (hc : code ≠ .storageError)
    (hm : ∀ k, Memory.read statDefault m k = statusByte (statuses.getD k .none))
    (h : Ends (reporting (Instr.body i s)) s.eng (fun rep e => rep = ⟨code, r0, r1, none⟩ ∧ e.Shows fs m) fun _ _ => False) :
    s.Gives i code r0 r1 fs statuses := by
  have hend : Ends (concluding s (naming i s) (Instr.body i s)) s.eng
      (fun rep e => rep = ⟨code, r0, r1, none⟩ ∧ e.Shows fs m) fun _ _ => False := by
    rw [ends_concluding]
    refine h.mono ?_ fun _ _ hs => hs
    rintro rep e ⟨rfl, he⟩
    rw [ends_abandon]
    refine ⟨fun hcode => absurd hcode hc, fun _ => (stays_closeAll e he).mono (fun _ e' he' => ?_) fun _ _ hs => hs⟩
    rw [landAll_of_settled he'.2.draws.2, ends_unlessBreached]
    exact ⟨fun _ => ⟨rfl, he'⟩, fun ps hps => absurd (hb.symm.trans hps) (by simp)⟩
  obtain ⟨rep, e, hok, rfl, hfs, hmark⟩ := hend.answers
  have hexec : exec i s = .next (State.complete { s with eng := e } ⟨code, r0, r1, none⟩) := by rw [exec_eq, runCommand, hok]
  refine ⟨_, hexec, ?_, complete_sameListing s e rfl, hfs, fun k => ?_⟩
  · exact ⟨rfl, rfl, rfl, rfl, rfl, ((concluding_settles i s hrest).of_ok hok).1, complete_kept s e _⟩
  · rw [← hm k, ← hmark.statmem]
    rfl

/-- A command whose body raises an error other than STORAGE_ERROR with no status written gives it (R287). -/
theorem gives_of_error {i : Instr} {s : State} {code : ErrorCode} {r0 r1 : Word} {fs : Files} (hrest : s.eng.atRest = true)
    (hb : s.breach (naming i s) = none) (hc : code ≠ .storageError)
    (h : Ends (Instr.body i s) s.eng (fun _ _ => False) fun st e => st = .error code r0 r1 ∧ e.Shows fs []) :
    s.Gives i code r0 r1 fs [] := by
  refine gives_of_reporting hrest hb hc (m := []) (fun _ => rfl) ((ends_reporting _ _).2 (h.mono (fun _ _ hf => hf.elim) ?_))
  rintro st e ⟨rfl, he⟩
  exact ⟨rfl, he⟩

end Sys2Proof.Machine
end

section
/-! PROOFS. Failing opens (R73, R74, R286, R288): the command's first open, the output's, a staging file's, and those of a batch. -/

namespace Sys2Proof.Machine

variable {s : State} {e : Engine}

theorem Engine.ready.shows (h : s.eng.ready) (ha : s.eng.draws.answers = none) : s.eng.Shows s.eng.storage.fs [] := by
  obtain ⟨-, -, hm, -, hed⟩ := h
  exact ⟨rfl, hm, ha, hed⟩

/-! ## The first open -/

/-- An open for reading that answers no handle: the file is absent, or the request FAILs. -/
theorem ends_openRead_must {α : Type} (hd : e.draws.Prompt) {p : Path} (h : fsGet e.storage.fs p = none ∨ e.draws.fails = true)
    (r : HandleReg) (c : ErrorCode) (f : Unit → Eng α) (Q : α → Engine → Prop) (R : Stop → Engine → Prop) :
    Ends (openRead r p >>= fun a => a.must c >>= f) e Q R ↔ R (.error c 0 0) e.asked := by
  rw [ends_bind]
  by_cases hp : fsGet e.storage.fs p = none
  · rw [ends_openRead_absent hd hp]
    exact Iff.rfl
  · rw [ends_openRead_fail hd hp (h.resolve_left hp)]
    exact Iff.rfl

/-- A failing open for writing. -/
theorem ends_openCreate_must {α : Type} (hd : e.draws.Prompt) (hf : e.draws.fails = true) (r : HandleReg) (p : Path)
    (c : ErrorCode) (f : Unit → Eng α) (Q : α → Engine → Prop) (R : Stop → Engine → Prop) :
    Ends (openCreate r p >>= fun a => a.must c >>= f) e Q R ↔ R (.error c 0 0) e.asked := by
  rw [ends_bind, ends_openCreate_fail hd hf]
  exact Iff.rfl

/-- A failing open of an archive that is there ends its validation. -/
theorem ends_openValidate_refused (hd : e.draws.Prompt) {p : Path} (hp : fsGet e.storage.fs p ≠ none) (hf : e.draws.fails = true)
    (mode : ValidateMode) (Q : Validation → Engine → Prop) (R : Stop → Engine → Prop) :
    Ends (openValidate p mode) e Q R ↔ R (.error .fileOpenFailed 0 0) e.asked := by
  rw [openValidate, ends_bind, openOrCreate, ends_bind, ends_openRead_fail hd hp hf]
  exact Iff.rfl

/-- An archive command but CREATE validates its archive first (R195). -/
theorem body_eq_validate {i : Instr} {p : Path} (hi : i ≠ .create) (h : archiveOf i s = some p) :
    ∃ mode f, Instr.body i s = openValidate p mode >>= f := by
  cases i with
  | create => exact absurd rfl hi
  | append =>
    obtain ⟨⟨p, ns⟩, ho, rfl⟩ := Option.map_eq_some_iff.1 h
    exact ⟨_, _, by rw [Instr.body, bodyAppend, ho]; rfl⟩
  | extract =>
    obtain ⟨⟨p, ns⟩, ho, rfl⟩ := Option.map_eq_some_iff.1 h
    exact ⟨_, _, by rw [Instr.body, bodyExtract, namedOperands, ho]; rfl⟩
  | extractAll => exact ⟨_, _, by rw [Instr.body, bodyExtractAll, allOperands, show archPath s = some p from h]; rfl⟩
  | remove =>
    obtain ⟨⟨p, ns⟩, ho, rfl⟩ := Option.map_eq_some_iff.1 h
    exact ⟨_, _, by rw [Instr.body, bodyRemove, namedOperands, ho]; rfl⟩
  | removeAll => exact ⟨_, _, by rw [Instr.body, bodyRemoveAll, allOperands, show archPath s = some p from h]; rfl⟩
  | verify => exact ⟨_, _, by rw [Instr.body, bodyVerify, show archPath s = some p from h]; rfl⟩
  | info => exact ⟨_, _, by rw [Instr.body, bodyInfo, show archPath s = some p from h]; rfl⟩
  | listEntry => exact ⟨_, _, by rw [Instr.body, bodyListEntry, show archPath s = some p from h]; rfl⟩
  | encode => exact absurd h (by simp [archiveOf])
  | decode => exact absurd h (by simp [archiveOf])
  | crc32 => exact absurd h (by simp [archiveOf])

/-- A file command opens its input first (R150, R185, R186). -/
theorem body_eq_openRead {i : Instr} {p : Path} (hi : i = .encode ∨ i = .decode ∨ i = .crc32) (h : opensFirst i s = some p) :
    ∃ f : Unit → Eng Report, Instr.body i s = openRead .f p >>= fun a => a.must .fileOpenFailed >>= f := by
  rcases hi with rfl | rfl | rfl
  · obtain ⟨⟨p0, p1⟩, ho, rfl⟩ := Option.map_eq_some_iff.1 h
    exact ⟨_, by rw [Instr.body, bodyEncode, ho]; rfl⟩
  · obtain ⟨⟨p0, p1⟩, ho, rfl⟩ := Option.map_eq_some_iff.1 h
    exact ⟨_, by rw [Instr.body, bodyDecode, ho]; rfl⟩
  · exact ⟨_, by rw [Instr.body, bodyCrc32, show oneFile s = some p from h]; rfl⟩

theorem opensFirst_eq_archiveOf {i : Instr} (hi : ¬(i = .encode ∨ i = .decode ∨ i = .crc32)) :
    opensFirst i s = archiveOf i s := by
  cases i <;> simp at hi <;> rfl

/-- The first open of a command, refused. -/
theorem body_of_first_open_refused {i : Instr} {p : Path} (hd : e.draws.Prompt) (hi : opensFirst i s = some p)
    (h : (e.draws.fails = true ∧ (i = .create ∨ fsGet e.storage.fs p ≠ none)) ∨
      ((i = .encode ∨ i = .decode ∨ i = .crc32) ∧ fsGet e.storage.fs p = none)) :
    Ends (Instr.body i s) e (fun _ _ => False) fun st e' => st = .error .fileOpenFailed 0 0 ∧ e' = e.asked := by
  by_cases hfile : i = .encode ∨ i = .decode ∨ i = .crc32
  · obtain ⟨f, hf⟩ := body_eq_openRead hfile hi
    rw [hf, ends_openRead_must hd (h.elim (fun h => .inr h.1) fun h => .inl h.2)]
    exact ⟨rfl, rfl⟩
  · obtain ⟨hfail, hthere⟩ := h.resolve_right fun h => hfile h.1
    rw [opensFirst_eq_archiveOf hfile] at hi
    by_cases hc : i = .create
    · subst hc
      show Ends (bodyCreate s) _ _ _
      rw [bodyCreate, show archPath s = some p from hi, ends_bind, ends_orRaise_some, ends_bind, createFile,
        ends_openCreate_must hd hfail]
      exact ⟨rfl, rfl⟩
    · obtain ⟨mode, f, hf⟩ := body_eq_validate hc hi
      rw [hf, ends_bind, ends_openValidate_refused hd (hthere.resolve_left hc) hfail]
      exact ⟨rfl, rfl⟩

/-! ## The output of ENCODE and DECODE -/

/-- The engine after ENCODE or DECODE opened its input (R185, R186). -/
def Engine.withInput (e : Engine) (p : Path) : Engine :=
  { e.asked.withStorage (e.storage.openedRead p) with work := e.work.setReg .f (some e.storage.nextId) }

theorem Engine.Shows.withInput {fs : Files} {m : Memory} (h : e.Shows fs m) (p : Path) : (e.withInput p).Shows fs m :=
  ⟨h.1, h.asked.2.congr rfl rfl⟩

theorem lookup_withInput (hr : e.atRest = true) (p : Path) :
    lookup (e.withInput p).storage.handles ((e.withInput p).work.reg .f |>.getD 0) = some ⟨.named p, false, 0⟩ := by
  have hh : e.storage.handles = [] := by
    simp only [Engine.atRest, Bool.and_eq_true, List.isEmpty_iff] at hr
    exact hr.1.2
  simp [Engine.withInput, Engine.withStorage, Storage.openedRead, Storage.addHandle, hh, lookup, Work.setReg, Work.reg]

/-- ENCODE whose output's open FAILs: the third request (R185). -/
theorem bodyEncode_of_output_refused {p0 p1 : Path} {c : Bytes} {fs : Files} {m : Memory} (h : e.Shows fs m)
    (hr : e.atRest = true) (ho : twoFiles s = some (p0, p1)) (hc : fsGet fs p0 = some c) (hl : c.length ≤ Config.maxOrig)
    (h0 : e.draws.failAt.contains e.draws.reqNo = false) (h2 : e.draws.failAt.contains (e.draws.reqNo + 2) = true) :
    Ends (bodyEncode s) e (fun _ _ => False) fun st e' => st = .error .fileOpenFailed 0 0 ∧ e'.Shows fs m := by
  have hin := h.withInput p0
  have hsize : ((e.withInput p0).asked.storage.content (.named p0)).length = c.length := by
    rw [Storage.content, hin.asked.1, hc, Option.getD_some]
  rw [bodyEncode, ho, ends_bind, ends_orRaise_some, ends_bind, ends_openRead_handle h.2.draws (by simp [h.1, hc]) h0, ends_bind]
  show Ends (reg .f >>= _) (e.withInput p0) _ _
  rw [ends_bind, ends_reg, ends_bind, ends_sSize]
  refine ⟨fun hcon => absurd hcon hin.2.draws.answered, fun _ => ⟨fun hcon => ?_, fun f hf => ?_⟩⟩
  · rw [lookup_withInput hr] at hcon
    exact absurd hcon (by simp)
  · rw [lookup_withInput hr] at hf
    injection hf with hf
    subst hf
    rw [ends_bind, ends_check, hsize]
    refine ⟨fun _ => ?_, fun hcon => absurd hl (by simpa using hcon)⟩
    rw [ends_openCreate_must hin.asked.2.draws h2]
    exact ⟨rfl, hin.asked.asked⟩

/-- DECODE whose output's open FAILs: the second request (R186). -/
theorem bodyDecode_of_output_refused {p0 p1 : Path} {c : Bytes} {fs : Files} {m : Memory} (h : e.Shows fs m)
    (ho : twoFiles s = some (p0, p1)) (hc : fsGet fs p0 = some c)
    (h0 : e.draws.failAt.contains e.draws.reqNo = false) (h1 : e.draws.failAt.contains (e.draws.reqNo + 1) = true) :
    Ends (bodyDecode s) e (fun _ _ => False) fun st e' => st = .error .fileOpenFailed 0 0 ∧ e'.Shows fs m := by
  have hin := h.withInput p0
  rw [bodyDecode, ho, ends_bind, ends_orRaise_some, ends_bind, ends_openRead_handle h.2.draws (by simp [h.1, hc]) h0, ends_bind]
  show Ends (openCreate .g p1 >>= _) (e.withInput p0) _ _
  rw [ends_openCreate_must hin.2.draws h1]
  exact ⟨rfl, hin.asked⟩

/-! ## Staging files -/

/-- An STemp that must answer a handle: the command ends where it FAILs, and goes on one request later where not (R74). -/
theorem ends_openTemp_must {α : Type} {fs : Files} {m : Memory} {f : Unit → Eng α} {Q : α → Engine → Prop}
    {R : Stop → Engine → Prop} (h : e.Shows fs m) (r : HandleReg)
    (hR : ∀ e', e'.Shows fs m → R (.error .scratchUnavailable 0 0) e')
    (hf : e.draws.fails = false → ∀ e' : Engine, e'.Shows fs m → e'.draws.failAt = e.draws.failAt →
      e'.draws.reqNo = e.draws.reqNo + 1 → Ends (f ()) e' Q R) :
    Ends (openTemp r >>= fun a => a.must .scratchUnavailable >>= f) e Q R := by
  rw [ends_bind]
  cases hfail : e.draws.fails with
  | true =>
    rw [ends_openTemp_fail h.2.draws hfail]
    exact hR _ h.asked
  | false =>
    rw [ends_openTemp_handle h.2.draws hfail]
    exact hf hfail _ ⟨h.1, h.asked.2.congr rfl rfl⟩ rfl rfl

theorem removeFrom_of_temp_refused {p : Path} {sel : Selection} {e' : Engine} {v : Validation} {fs : Files} {m : Memory}
    (hv : openValidate p .abort e = .ok v e') (h : e'.Shows fs m) (hf : e'.draws.fails = true) :
    Ends (removeFrom p sel) e (fun _ _ => False) fun st e' => st = .error .scratchUnavailable 0 0 ∧ e'.Shows fs m := by
  rw [removeFrom, ends_bind, ends_iff_of_ok hv]
  refine ends_openTemp_must h _ (fun _ h' => ⟨rfl, h'⟩) fun hc => ?_
  exact absurd (hf.symm.trans hc) (by simp)

/-- APPEND opens three (R203): one of its next three requests FAILs. -/
theorem bodyAppend_of_temp_refused {p : Path} {ns : List Path} {e' : Engine} {v : Validation} {fs : Files} {m : Memory}
    (ho : batchOperands s = some (p, ns)) (hv : openValidate p .abort e = .ok v e') (h : e'.Shows fs m) {k : Nat} (hk : k < 3)
    (hf : e'.draws.failAt.contains (e'.draws.reqNo + k) = true) :
    Ends (bodyAppend s) e (fun _ _ => False) fun st e' => st = .error .scratchUnavailable 0 0 ∧ e'.Shows fs m := by
  rw [bodyAppend, ho, ends_bind, ends_orRaise_some, ends_bind, ends_iff_of_ok hv]
  refine ends_openTemp_must h _ (fun _ h' => ⟨rfl, h'⟩) fun h0 e1 h1 f1 r1 => ?_
  refine ends_openTemp_must h1 _ (fun _ h' => ⟨rfl, h'⟩) fun h1' e2 h2 f2 r2 => ?_
  refine ends_openTemp_must h2 _ (fun _ h' => ⟨rfl, h'⟩) fun h2' e3 h3 f3 r3 => ?_
  simp only [Draws.fails, f2, r2, f1, r1] at h0 h1' h2'
  have hcase : k = 0 ∨ k = 1 ∨ k = 2 := by omega
  rcases hcase with rfl | rfl | rfl
  · exact absurd (hf.symm.trans h0) (by simp)
  · exact absurd (hf.symm.trans h1') (by simp)
  · exact absurd (hf.symm.trans h2') (by simp)

/-! ## Batches -/

/-- The computation changes STATMEM alone, by what STATMEM holds. -/
def WritesStatuses (x : Eng Unit) : Prop := ∃ g : Memory → Memory, ∀ e, x e = .ok () { e with statmem := g e.statmem }

theorem WritesStatuses.pure : WritesStatuses (pure ()) := ⟨id, fun _ => rfl⟩

theorem WritesStatuses.setStatus (i : Nat) (v : NameStatus) : WritesStatuses (setStatus i v) :=
  ⟨fun m => Memory.write statDefault m i (statusByte v), fun _ => rfl⟩

theorem WritesStatuses.andThen {x y : Eng Unit} (hx : WritesStatuses x) (hy : WritesStatuses y) :
    WritesStatuses (x >>= fun _ => y) := by
  obtain ⟨g, hg⟩ := hx
  obtain ⟨g', hg'⟩ := hy
  refine ⟨g' ∘ g, fun e => ?_⟩
  show EStateM.bind x (fun _ => y) e = _
  rw [EStateM.bind, hg]
  exact hg' _

theorem WritesStatuses.lookStatus {f : Byte → Eng Unit} (i : Nat) (h : ∀ v, WritesStatuses (f v)) :
    WritesStatuses (look (·.statByte i) >>= f) := by
  have hspec : ∀ v e, f v e = .ok () { e with statmem := (h v).choose e.statmem } := fun v => (h v).choose_spec
  exact ⟨fun m => (h (Memory.read statDefault m i)).choose m, fun e => hspec _ e⟩

theorem writesStatuses_markNames (entry : Path) (r : NameStatus) (ns : List Path) (i : Nat) :
    WritesStatuses (markNames entry r i ns) := by
  induction ns generalizing i with
  | nil => exact .pure
  | cons n ns ih =>
    refine .lookStatus i fun v => ?_
    split
    · exact (WritesStatuses.setStatus i r).andThen (ih _)
    · exact WritesStatuses.pure.andThen (ih _)

/-- A selected entry's statuses depend on STATMEM alone (R198). -/
theorem writesStatuses_mark (sel : Selection) (j : Nat) (entry : Path) (r : NameStatus) : WritesStatuses (sel.mark j entry r) := by
  cases sel with
  | names ns => exact writesStatuses_markNames entry r ns 0
  | all =>
    show WritesStatuses (if _ then _ else _)
    split
    · exact .setStatus j r
    · exact .pure

/-- A name of APPEND's batch whose file does not open (R203, R216). -/
theorem appendName_of_open_refused (hd : e.draws.Prompt) {n : Path} (hn : lengthValid n = true)
    (h : fsGet e.storage.fs n = none ∨ e.draws.fails = true) (k : Nat) :
    Ends (appendName k n) e (fun _ e' => e'.storage = e.storage ∧ e'.work = { e.work with kFail := e.work.kFail + 1 } ∧
      e'.statmem = Memory.write statDefault e.statmem k 0x02) fun _ _ => False := by
  rw [appendName, if_pos hn, ends_bind]
  by_cases hp : fsGet e.storage.fs n = none
  · rw [ends_openRead_absent hd hp]
    exact ⟨hd.asked_storage, rfl, rfl⟩
  · rw [ends_openRead_fail hd hp (h.resolve_left hp)]
    exact ⟨hd.asked_storage, rfl, rfl⟩

/-- An entry of EXTRACT whose output does not open (R206). -/
theorem extractEntry_of_open_refused (hd : e.draws.Prompt) (hf : e.draws.fails = true) (en : Entry) (off : Nat)
    (Q : NameStatus → Engine → Prop) (R : Stop → Engine → Prop) :
    Ends (extractEntry en off) e Q R ↔ Q .fileOpenFailed e.asked := by
  rw [extractEntry, ends_bind, ends_openCreate_fail hd hf]
  exact Iff.rfl

/-- EXTRACT's loop at an entry whose output does not open (R205, R216). -/
theorem extractLoop_of_open_refused {e1 e2 : Engine} {sel : Selection} {k j : Nat} (hrec : recAt e.work.recPos e = .ok k e1)
    (hsel : sel.picks e1.work.entry.name = true) (hd : e1.draws.Prompt) (hf : e1.draws.fails = true)
    (hmark : sel.mark j e1.work.entry.name .fileOpenFailed e1 = .ok () e2) :
    Ends (extractLoop sel 1 j) e (fun _ e3 => e3.storage = e1.storage ∧ e3.work.kOk = e1.work.kOk ∧
      e3.work.kFail = e1.work.kFail + 1 ∧ e3.statmem = e2.statmem) fun _ _ => False := by
  obtain ⟨g, hg⟩ := writesStatuses_mark sel j e1.work.entry.name .fileOpenFailed
  have hmem : g e1.statmem = e2.statmem := by
    rw [hg] at hmark
    injection hmark with _ he
    rw [← he]
  rw [extractLoop]
  simp only [ends_bind, ends_look]
  rw [ends_iff_of_ok hrec, if_pos hsel]
  simp only [ends_bind, extractEntry_of_open_refused hd hf]
  rw [updateWork, ends_update, ends_iff_of_ok (hg _)]
  exact ⟨hd.asked_storage, rfl, rfl, hmem⟩

/-- Settles O38: the refused open, wherever it comes in the command's text, by the lemma above for that place. -/
theorem failedOpenGivesFileOpenFailed : Obligations.FailedOpenGivesFileOpenFailed := by
  refine ⟨fun i s p hr hb ha hi h => ?_, fun i s p0 p1 c hr hb ha ho hc h0 h => ?_, fun i s p v e hr hb ha hi hv h => ?_,
    fun e k n ha hed hn h => (appendName_of_open_refused ⟨ha, hed⟩ hn h k).answers_unit,
    fun e e1 e2 sel k j hrec hsel ha hed hf hmark =>
      (extractLoop_of_open_refused hrec hsel ⟨ha, hed⟩ hf hmark).answers_unit⟩
  · have hs := Engine.ready.shows hr ha
    refine gives_of_error hr.1 hb (by decide) ((body_of_first_open_refused hs.2.draws hi h).mono (fun _ _ hf => hf) ?_)
    rintro st e ⟨rfl, rfl⟩
    exact ⟨rfl, hs.asked⟩
  · have hs := Engine.ready.shows hr ha
    refine gives_of_error hr.1 hb (by decide) ?_
    rcases h with ⟨rfl, hl, hf⟩ | ⟨rfl, hf⟩
    · exact bodyEncode_of_output_refused hs hr.1 ho hc hl h0 hf
    · exact bodyDecode_of_output_refused hs ho hc h0 hf
  · have he : e.Shows e.storage.fs [] := ⟨rfl, (marked_openValidate p .abort s.eng (Engine.ready.shows hr ha).2).of_ok hv⟩
    refine gives_of_error hr.1 hb (by decide) ?_
    rcases h with ⟨rfl, k, hk, hf⟩ | ⟨rfl | rfl, hf⟩
    · obtain ⟨⟨p, ns⟩, ho, rfl⟩ := Option.map_eq_some_iff.1 hi
      exact bodyAppend_of_temp_refused ho hv he hk hf
    · obtain ⟨⟨p, ns⟩, ho, rfl⟩ := Option.map_eq_some_iff.1 hi
      show Ends (bodyRemove s) _ _ _
      rw [bodyRemove, namedOperands, ho]
      exact removeFrom_of_temp_refused hv he hf
    · show Ends (bodyRemoveAll s) _ _ _
      rw [bodyRemoveAll, allOperands, show archPath s = some p from hi]
      exact removeFrom_of_temp_refused hv he hf

end Sys2Proof.Machine
end

section
/-! PROOFS. The command word and its bytes (R55, R100 to R104): fields, words, bytes and commands determine each other, and what a
running word that is no command comes to (R101). -/

namespace Sys2Proof.Machine

/-! ## Fields, words and bytes -/

theorem fieldsOf_wordOf (c : Cmd32) : fieldsOf (wordOf c) = c := by
  obtain ⟨op, all, rsv⟩ := c
  have hop : (wordOf ⟨op, all, rsv⟩).extractLsb' 0 8 = op := by
    rw [wordOf, BitVec.extractLsb'_append_eq_of_add_le (by decide), BitVec.extractLsb'_append_eq_right]
  have hall : (wordOf ⟨op, all, rsv⟩).getLsbD 8 = all := by
    rw [wordOf, BitVec.getLsbD_append, BitVec.getLsbD_append]
    simp
  have hrsv : (wordOf ⟨op, all, rsv⟩).extractLsb' 9 23 = rsv := BitVec.extractLsb'_append_eq_left
  rw [fieldsOf, hop, hall, hrsv]

/-- The bytes of the word that four bytes make. -/
theorem bytesOfWord_wordOfBytes (b0 b1 b2 b3 : Byte) : bytesOfWord (wordOfBytes b0 b1 b2 b3) = [b0, b1, b2, b3] := by
  have h0 : (wordOfBytes b0 b1 b2 b3).extractLsb' 0 8 = b0 := by
    rw [wordOfBytes, BitVec.extractLsb'_append_eq_of_add_le (by decide), BitVec.extractLsb'_append_eq_of_add_le (by decide),
      BitVec.extractLsb'_append_eq_right]
  have h1 : (wordOfBytes b0 b1 b2 b3).extractLsb' 8 8 = b1 := by
    rw [wordOfBytes, BitVec.extractLsb'_append_eq_of_add_le (by decide), BitVec.extractLsb'_append_eq_of_add_le (by decide),
      BitVec.extractLsb'_append_eq_left]
  have h2 : (wordOfBytes b0 b1 b2 b3).extractLsb' 16 8 = b2 := by
    rw [wordOfBytes, BitVec.extractLsb'_append_eq_of_add_le (by decide), BitVec.extractLsb'_append_eq_left]
  have h3 : (wordOfBytes b0 b1 b2 b3).extractLsb' 24 8 = b3 := BitVec.extractLsb'_append_eq_left
  rw [bytesOfWord, h0, h1, h2, h3]

/-! ## Words and commands -/

/-- A word decodes to a command exactly when it is that command's word (R101, R102). -/
theorem decodeWord_eq_ok {w : Word} {i : Instr} : decodeWord w = .ok i ↔ w = i.word :=
  ⟨eq_word_of_decodeWord, fun h => h ▸ decodeWord_word i⟩

/-- A word is refused exactly when it is no command's word. -/
theorem decodeWord_eq_error {w : Word} : (∃ r, decodeWord w = .error r) ↔ ∀ i : Instr, w ≠ i.word := by
  cases h : decodeWord w with
  | ok i => simpa using ⟨i, decodeWord_eq_ok.1 h⟩
  | error r =>
    refine ⟨fun _ i hi => ?_, fun _ => ⟨r, rfl⟩⟩
    rw [decodeWord_eq_ok.2 hi] at h
    exact absurd h (by simp)

/-- The bytes of a word decode as the word does, whatever follows them. -/
theorem decode_bytesOfWord_append (w : Word) (rest : Bytes) :
    decode (bytesOfWord w ++ rest) = (decodeWord w).map fun i => (i, rest) := by
  simp only [bytesOfWord, List.cons_append, List.nil_append, decode, wordOfBytes_bytesOfWord]
  cases decodeWord w <;> rfl

/-- A byte string that decodes begins with the four bytes of a word that does. -/
theorem eq_bytesOfWord_of_decode {bs rest : Bytes} {i : Instr} (h : decode bs = .ok (i, rest)) :
    ∃ w, decodeWord w = .ok i ∧ bs = bytesOfWord w ++ rest := by
  match bs with
  | b0 :: b1 :: b2 :: b3 :: tail =>
    have hbs : b0 :: b1 :: b2 :: b3 :: tail = bytesOfWord (wordOfBytes b0 b1 b2 b3) ++ tail := by
      rw [bytesOfWord_wordOfBytes]; rfl
    rw [hbs, decode_bytesOfWord_append] at h
    cases hw : decodeWord (wordOfBytes b0 b1 b2 b3) with
    | ok j =>
      rw [hw] at h
      injection h with h
      injection h with hi hr
      exact ⟨_, hi ▸ hw, hr ▸ hbs⟩
    | error r => simp [hw, Except.map] at h
  | [] | [_] | [_, _] | [_, _, _] => exact absurd h (by simp [decode])

theorem wf_instr (i : Instr) : i.wf = true := by cases i <;> rfl

/-- The opcode map has a command for every OP of R102, with ALL = 1 where that is allowed. -/
theorem opcodeOf_isOk :
    ∀ op ∈ Cmd32.ops, ∀ all, Cmd32.allAllowed ⟨op, all, 0⟩ = true → (opcodeOf op all).isOk = true := by decide

/-- The well-formed fields are those of the twelve commands (R102, R103). -/
theorem cmd32_wf_iff {c : Cmd32} : c.wf = true ↔ ∃ i : Instr, c = i.fields := by
  constructor
  · obtain ⟨op, all, rsv⟩ := c
    simp only [Cmd32.wf, Cmd32.rsvZero, Cmd32.opKnown, Bool.and_eq_true, beq_iff_eq, List.contains_eq_mem, decide_eq_true_eq]
    rintro ⟨⟨rfl, hop⟩, hall⟩
    have hok := opcodeOf_isOk op hop all hall
    cases h : opcodeOf op all with
    | ok i => exact ⟨i, (fields_of_opcodeOf h).symm⟩
    | error r => simp [h, Except.isOk, Except.toBool] at hok
  · rintro ⟨i, rfl⟩
    exact wf_instr i

/-- The three ways of R103 to be no command's fields. -/
theorem cmd32_not_wf_iff {c : Cmd32} :
    ¬ c.wf = true ↔ c.rsv ≠ 0 ∨ c.op ∉ Cmd32.ops ∨ (c.all = true ∧ c.op ≠ 0x03 ∧ c.op ≠ 0x04) := by
  simp only [Cmd32.wf, Cmd32.rsvZero, Cmd32.opKnown, Cmd32.allAllowed, Bool.and_eq_true, Bool.or_eq_true, Bool.not_eq_true',
    beq_iff_eq, List.contains_eq_mem, decide_eq_true_eq, Classical.not_and_iff_not_or_not, not_or, Bool.not_eq_false, ne_eq,
    or_assoc, and_assoc]

/-- A word is refused exactly when its fields are those of no command. -/
theorem decodeWord_eq_error_iff_not_wf {w : Word} : (∃ r, decodeWord w = .error r) ↔ ¬ (fieldsOf w).wf = true := by
  rw [decodeWord_eq_error, cmd32_wf_iff, not_exists]
  refine forall_congr' fun i => not_congr ⟨fun h => ?_, fun h => ?_⟩
  · rw [h, Instr.word, fieldsOf_wordOf]
  · rw [Instr.word, ← h, wordOf_fieldsOf]

/-! ## Running a word -/

section
variable {s : State} {w : Word}

theorem step_of_command (hw : s.seq = .run w) (hs : s.schedule = []) {i : Instr} (h : decodeWord w = .ok i) : step s = exec i s := by
  simp only [step, hs, engineTurn, hw, decode_bytesOfWord, h, Except.map]

theorem step_of_refused_word (hw : s.seq = .run w) (hs : s.schedule = []) {r : Reject} (h : decodeWord w = .error r) :
    step s = .next (badCommand s) := by
  simp only [step, hs, engineTurn, hw, decode_bytesOfWord, h, Except.map]

end

/-! ## The obligations -/

/-- Settles O1: the decoder evaluates on the twelve words, which are those of the commands. -/
theorem commandWordsDecode : Obligations.CommandWordsDecode :=
  ⟨decodeWord_word .create, decodeWord_word .append, decodeWord_word .extract, decodeWord_word .extractAll, decodeWord_word .remove,
    decodeWord_word .removeAll, decodeWord_word .verify, decodeWord_word .info, decodeWord_word .listEntry,
    decodeWord_word .encode, decodeWord_word .decode, decodeWord_word .crc32⟩

/-- Settles O2: splitting a word and joining its fields undo each other. -/
theorem fieldsAndWordAgree : Obligations.FieldsAndWordAgree :=
  ⟨fieldsOf_wordOf, wordOf_fieldsOf, fun _ => ⟨rfl, rfl, rfl⟩⟩

/-- Settles O3: a string that decodes begins with a word's bytes, and a word that decodes is the command's. -/
theorem decodeInvertsEncode : Obligations.DecodeInvertsEncode := by
  refine ⟨wf_instr, fun bs rest i => ⟨fun h => ?_, fun h => ?_⟩⟩
  · obtain ⟨w, hw, rfl⟩ := eq_bytesOfWord_of_decode h
    rw [encode, eq_word_of_decodeWord hw]
  · rw [h, encode, decode_bytesOfWord_append, decodeWord_word]
    rfl

/-- Settles O4: a word is refused exactly when its fields are not well formed, and then the step is BAD_COMMAND's completion. -/
theorem reservedWordsAreNoCommand : Obligations.ReservedWordsAreNoCommand := by
  refine ⟨fun w => ?_, fun s w r hw hs h => ⟨_, step_of_refused_word hw hs h, rfl, rfl, rfl⟩⟩
  rw [decodeWord_eq_error_iff_not_wf, cmd32_not_wf_iff]
  exact Iff.rfl

/-- Settles O6: a word decodes to the command whose word it is, or is refused; BAD_COMMAND's completion leaves the engine. -/
theorem everyWordIsACommandOrBadCommand : Obligations.EveryWordIsACommandOrBadCommand := by
  intro s w hw hs
  cases h : decodeWord w with
  | ok i => exact .inl ⟨i, eq_word_of_decodeWord h, step_of_command hw hs h⟩
  | error r =>
    exact .inr ⟨decodeWord_eq_error.1 ⟨r, h⟩, badCommand s, step_of_refused_word hw hs h, rfl, rfl, rfl, rfl, rfl, rfl,
      complete_kept s s.eng _, complete_sameListing s s.eng rfl⟩

end Sys2Proof.Machine
end

section
/-! PROOFS. The operands (R105 to R109): what the path and the name list in ARGMEM are, when an operand check fails, and that the
command then completes with BAD_ARGS before any request. -/

namespace Sys2Proof.Machine

variable {s : State} {i : Instr}

/-! ## The operands in ARGMEM -/

theorem lengthValid_iff {p : Path} : lengthValid p = true ↔ 1 ≤ p.length ∧ p.length ≤ 254 := by
  simp only [lengthValid, Bool.and_eq_true, decide_eq_true_eq]
  exact Iff.rfl

/-- Settles O35: the string at ARCH_PTR that ends within ARGMEM, if its length is valid. -/
theorem archivePathOperand : Obligations.ArchivePathOperand := by
  intro s p
  rw [archPath, Option.filter_eq_some_iff, takeString_eq_some, lengthValid_iff]
  have hend : p.length < Config.argmemBytes - s.archPtr.toNat ↔ s.archPtr.toNat + p.length < 65536 := by
    simp only [Config.argmemBytes]
    omega
  rw [hend]
  exact ⟨fun ⟨⟨he, hb, hz⟩, h1, h2⟩ => ⟨h1, h2, he, hb, hz⟩, fun ⟨h1, h2, he, hb, hz⟩ => ⟨⟨he, hb, hz⟩, h1, h2⟩⟩

/-- A list's first name is the string where it starts, and the others start at the byte after its 0x00. -/
theorem readNames_succ_eq_some {mem : Nat → Byte} {k q : Nat} {n : Path} {ns : List Path} :
    readNames mem (k + 1) q = some (n :: ns) ↔
      takeString mem (Config.argmemBytes - q) q = some n ∧ readNames mem k (q + n.length + 1) = some ns := by
  rw [readNames]
  cases takeString mem (Config.argmemBytes - q) q with
  | none => simp
  | some m =>
    simp only [Option.map_eq_some_iff, List.cons.injEq, Option.some.injEq]
    constructor
    · rintro ⟨ms, hms, rfl, rfl⟩
      exact ⟨rfl, hms⟩
    · rintro ⟨rfl, hms⟩
      exact ⟨ns, hms, rfl, rfl⟩

/-- Names read are names held: `k` of them. -/
theorem readNames_eq_some {k q : Nat} {ns : List Path} :
    readNames s.argByte k q = some ns ↔ ns.length = k ∧ s.holdsNames q ns := by
  induction ns generalizing k q with
  | nil =>
    cases k with
    | zero => simp [readNames, State.holdsNames]
    | succ k => exact ⟨fun h => absurd (readNames_spec h).1 (by simp), fun h => absurd h.1 (by simp)⟩
  | cons n ns ih =>
    cases k with
    | zero => simp [readNames]
    | succ k =>
      have hend : n.length < Config.argmemBytes - q ↔ q + n.length < Config.argmemBytes := by omega
      rw [readNames_succ_eq_some, takeString_eq_some, ih, hend, State.holdsNames, List.length_cons, Nat.add_right_cancel_iff]
      exact ⟨fun ⟨⟨he, hb, hz⟩, hl, hns⟩ => ⟨hl, he, hb, hz, hns⟩, fun ⟨hl, he, hb, hz, hns⟩ => ⟨⟨he, hb, hz⟩, hl, hns⟩⟩

/-- Settles O36: the list is read name by name. -/
theorem nameListOperand : Obligations.NameListOperand := fun _ _ => readNames_eq_some

/-! ## Failing checks -/

theorem batchOperands_eq_none : batchOperands s = none ↔ archPath s = none ∨ 4096 < s.argc.toNat ∨ names s = none := by
  rw [Option.eq_none_iff_forall_ne_some]
  constructor
  · intro h
    cases ha : archPath s with
    | none => exact .inl rfl
    | some p =>
      cases hn : names s with
      | none => exact .inr (.inr rfl)
      | some ns => exact .inr (.inl (Nat.lt_of_not_le fun hc => h (p, ns) (batchOperands_eq_some.2 ⟨ha, hn, hc⟩)))
  · rintro h ⟨p, ns⟩ ho
    obtain ⟨ha, hn, hc⟩ := batchOperands_eq_some.1 ho
    rcases h with h | h | h
    · exact absurd (h.symm.trans ha) nofun
    · exact absurd hc (Nat.not_le_of_lt h)
    · exact absurd (h.symm.trans hn) nofun

/-- ARGC is `k`, and the list's names are `ns`, each of a valid length (R107, R108). -/
structure State.ListsFiles (s : State) (k : Nat) (ns : List Path) : Prop where
  argc  : s.argc.toNat = k
  names : names s = some ns
  valid : ∀ n ∈ ns, lengthValid n = true

theorem State.listsFiles_iff {k : Nat} {ns : List Path} :
    s.ListsFiles k ns ↔ s.argc.toNat = k ∧ names s = some ns ∧ ∀ n ∈ ns, lengthValid n = true :=
  ⟨fun ⟨ha, hn, hv⟩ => ⟨ha, hn, hv⟩, fun ⟨ha, hn, hv⟩ => ⟨ha, hn, hv⟩⟩

/-- The checks on a list of `k` files fail where ARGC is another number, the list is not delimited or a name's length is invalid. -/
theorem not_exists_listsFiles {k : Nat} :
    (¬ ∃ ns, s.ListsFiles k ns) ↔ s.argc.toNat ≠ k ∨ names s = none ∨
      ∃ ns, names s = some ns ∧ ∃ n ∈ ns, ¬(1 ≤ n.length ∧ n.length ≤ 254) := by
  simp only [State.listsFiles_iff, lengthValid_iff]
  cases names s with
  | none => simp
  | some ns =>
    by_cases hk : s.argc.toNat = k <;> simp [hk]

theorem twoFiles_eq_some_iff_listsFiles {p0 p1 : Path} : twoFiles s = some (p0, p1) ↔ s.ListsFiles 2 [p0, p1] := by
  simp [twoFiles_eq_some, State.listsFiles_iff, ← BitVec.toNat_inj]

theorem oneFile_eq_some_iff_listsFiles {p : Path} : oneFile s = some p ↔ s.ListsFiles 1 [p] := by
  simp [oneFile_eq_some, State.listsFiles_iff, ← BitVec.toNat_inj]

theorem twoFiles_eq_none_iff_listsFiles : twoFiles s = none ↔ ¬ ∃ ns, s.ListsFiles 2 ns := by
  rw [Option.eq_none_iff_forall_ne_some]
  constructor
  · rintro h ⟨ns, hns⟩
    have hlen : ns.length = 2 := (names_spec hns.names).1.trans hns.argc
    match ns with
    | [p0, p1] => exact h (p0, p1) (twoFiles_eq_some_iff_listsFiles.2 hns)
  · rintro h ⟨p0, p1⟩ hp
    exact h ⟨_, twoFiles_eq_some_iff_listsFiles.1 hp⟩

theorem oneFile_eq_none_iff_listsFiles : oneFile s = none ↔ ¬ ∃ ns, s.ListsFiles 1 ns := by
  rw [Option.eq_none_iff_forall_ne_some]
  constructor
  · rintro h ⟨ns, hns⟩
    have hlen : ns.length = 1 := (names_spec hns.names).1.trans hns.argc
    match ns with
    | [p] => exact h p (oneFile_eq_some_iff_listsFiles.2 hns)
  · exact fun h p hp => h ⟨_, oneFile_eq_some_iff_listsFiles.1 hp⟩

/-! ## The command after a failing check -/

theorem orRaise_none_bind {α β : Type} (c : ErrorCode) (f : α → Eng β) : (orRaise c none >>= f) = raise c := rfl

/-- A command with a failing operand check raises BAD_ARGS before anything else (R109), and names no file (log 36). -/
theorem body_of_operands_refused (h : opensFirst i s = none) : Instr.body i s = raise .badArgs ∧ (naming i s).conflict = false := by
  have hbatch : ∀ {f : Path × List Path → Path}, (batchOperands s).map f = none → batchOperands s = none :=
    Option.map_eq_none_iff.1
  cases i with
  | create => exact ⟨by rw [Instr.body, bodyCreate, show archPath s = none from h, orRaise_none_bind], rfl⟩
  | append =>
    replace h := hbatch h
    exact ⟨by rw [Instr.body, bodyAppend, h, orRaise_none_bind], by rw [naming, appendNaming, h]⟩
  | extract =>
    replace h : namedOperands s = none := by rw [namedOperands, hbatch h]; rfl
    exact ⟨by rw [Instr.body, bodyExtract, h, orRaise_none_bind], by rw [naming, h]; rfl⟩
  | extractAll =>
    replace h : allOperands s = none := Option.map_eq_none_iff.2 h
    exact ⟨by rw [Instr.body, bodyExtractAll, h, orRaise_none_bind], by rw [naming, h]; rfl⟩
  | remove =>
    replace h : namedOperands s = none := by rw [namedOperands, hbatch h]; rfl
    exact ⟨by rw [Instr.body, bodyRemove, h, orRaise_none_bind], by rw [naming, h]; rfl⟩
  | removeAll =>
    replace h : allOperands s = none := Option.map_eq_none_iff.2 h
    exact ⟨by rw [Instr.body, bodyRemoveAll, h, orRaise_none_bind], by rw [naming, h]; rfl⟩
  | verify => exact ⟨by rw [Instr.body, bodyVerify, show archPath s = none from h, orRaise_none_bind], rfl⟩
  | info => exact ⟨by rw [Instr.body, bodyInfo, show archPath s = none from h, orRaise_none_bind], rfl⟩
  | listEntry => exact ⟨by rw [Instr.body, bodyListEntry, show archPath s = none from h, orRaise_none_bind], rfl⟩
  | encode =>
    replace h : twoFiles s = none := Option.map_eq_none_iff.1 h
    exact ⟨by rw [Instr.body, bodyEncode, h, orRaise_none_bind], by rw [naming, twoFilesNaming, h]⟩
  | decode =>
    replace h : twoFiles s = none := Option.map_eq_none_iff.1 h
    exact ⟨by rw [Instr.body, bodyDecode, h, orRaise_none_bind], by rw [naming, twoFilesNaming, h]⟩
  | crc32 => exact ⟨by rw [Instr.body, bodyCrc32, show oneFile s = none from h, orRaise_none_bind], rfl⟩

/-- With no handle held there is none to close (R81), so no request. -/
theorem ends_closeAll_of_holdsNone {e : Engine} (h : ∀ r, e.work.reg r = none) (Q : Unit → Engine → Prop)
    (R : Stop → Engine → Prop) :
    Ends closeAll e Q R ↔ Q () e := by
  have hreg : ∀ r (Q' : Unit → Engine → Prop), Ends (closeReg r) e Q' R ↔ Q' () e := fun r Q' => by
    rw [ends_closeReg, h r]
    simp
  simp only [ends_closeAll, hreg]

/-- A command that raises an error before any request, with no duty broken and nothing held, completes with the error and changes
nothing else. -/
theorem exec_of_raise {code : ErrorCode} (hbody : Instr.body i s = raise code) (hc : code ≠ .storageError)
    (hbreach : s.breach (naming i s) = none) (hrest : s.eng.atRest = true) (hed : s.eng.draws.edits = []) :
    exec i s = .next (s.complete ⟨code, 0, 0, none⟩) := by
  have hreg : ∀ r, s.eng.work.reg r = none := fun r => (Engine.tidy_of_atRest hrest).empty r (by simp)
  have hend : Ends (concluding s (naming i s) (Instr.body i s)) s.eng (fun rep e => rep = ⟨code, 0, 0, none⟩ ∧ e = s.eng)
      fun _ _ => False := by
    rw [ends_concluding, ends_reporting, hbody, ends_raise]
    refine (ends_abandon _).2 ⟨fun h => absurd h hc, fun _ => ?_⟩
    rw [ends_closeAll_of_holdsNone hreg, landAll_of_settled hed, ends_unlessBreached]
    exact ⟨fun _ => ⟨rfl, rfl⟩, fun ps hps => absurd (hbreach.symm.trans hps) (by simp)⟩
  obtain ⟨rep, e, hok, rfl, rfl⟩ := hend.answers
  rw [exec_eq, runCommand, hok]

theorem exec_of_operands_refused (hr : s.eng.ready) (hb : s.breached = none) (h : opensFirst i s = none) :
    exec i s = .next (s.complete ⟨.badArgs, 0, 0, none⟩) := by
  obtain ⟨hrest, -, -, -, hed⟩ := hr
  obtain ⟨hbody, hconf⟩ := body_of_operands_refused h
  exact exec_of_raise hbody (by decide) (by simp [State.breach, hb, hconf]) hrest hed

/-- Settles O37: the body raises BAD_ARGS before any request; the checks are those of the operands' equations. -/
theorem badOperandsGiveBadArgs : Obligations.BadOperandsGiveBadArgs := by
  refine ⟨fun i s hr hb h => ?_, fun s => ⟨batchOperands_eq_none, fun p ns h => ?_,
    twoFiles_eq_none_iff_listsFiles.trans not_exists_listsFiles, fun p0 p1 h => (twoFiles_eq_some_iff_listsFiles.1 h).names,
    oneFile_eq_none_iff_listsFiles.trans not_exists_listsFiles, fun p h => (oneFile_eq_some_iff_listsFiles.1 h).names⟩⟩
  · have hexec := exec_of_operands_refused hr hb h
    obtain ⟨hrest, -, hm, -⟩ := hr
    refine ⟨⟨_, hexec, ⟨rfl, rfl, rfl, rfl, rfl, hrest, complete_kept s s.eng _⟩, complete_sameListing s s.eng rfl, rfl,
      fun k => ?_⟩, fun t ht => ?_⟩
    · rw [complete_eng, Engine.statByte, hm]
      rfl
    · rw [hexec] at ht
      injection ht with ht
      rw [← ht, complete_eng]
  · obtain ⟨ha, hn, -⟩ := batchOperands_eq_some.1 h
    exact ⟨ha, hn⟩

end Sys2Proof.Machine
end

section
/-! PROOFS. The input and output laws of the bit streams (spec/40_bitstream.md R131, R132), from the laws of the single
operations in Laws/Input and Laws/Output. -/

namespace Sys2Proof.Machine

/-- `n` reads (R124, R132): the bits still to come in order, and EXHAUSTED past the last of them. -/
theorem ends_readMany {n : Nat} {e : Engine} {f : OpenFile} {b : Bits} (h : e.InAt f b) :
    Ends (readMany n) e (fun rs e' => rs = (List.range n).map (b[·]?) ∧ e.InKept e') fun _ _ => False := by
  induction n generalizing e f b with
  | zero => exact ⟨rfl, Engine.InKept.refl e⟩
  | succ n ih =>
    rw [readMany, ends_bind]
    refine (ends_readBit h).mono (fun r e1 hread => ?_) fun _ _ hf => hf
    obtain ⟨f1, hr, hk1, hin, -⟩ := hread
    rw [ends_bind]
    refine (ih hin).mono (fun rs e2 hrest => ?_) fun _ _ hf => hf
    obtain ⟨hrs, hk2⟩ := hrest
    refine ⟨?_, hk1.trans hk2⟩
    rw [hr, hrs, List.range_succ_eq_map, List.map_cons, List.map_map, List.head?_eq_getElem?]
    simp [Function.comp_def]

/-- in_init, then reads (R122, R132): the bits of the bytes from the handle's position on that the limit allows. -/
theorem ends_inInit_readMany {e : Engine} {h : Handle} {f : OpenFile} (limit n : Nat) (ho : e.draws.obliging)
    (hh : lookup e.storage.handles h = some f) :
    Ends (do inInit h limit; readMany n) e
      (fun rs e' => rs = (List.range n).map ((bitsOf (e.storage.dataAt f limit))[·]?) ∧
        e'.storage.fs = e.storage.fs ∧ e'.storage.temps = e.storage.temps)
      fun _ _ => False := by
  rw [ends_bind]
  refine (ends_inInit limit ho hh _).mono (fun _ e1 hinit => ?_) fun _ _ hf => hf
  obtain ⟨rfl, hin⟩ := hinit
  exact (ends_readMany hin).mono (fun _ _ ⟨hrs, hk⟩ => ⟨hrs, hk.fs, hk.temps⟩) fun _ _ hf => hf

/-- out_init, a bit string and a flush (R126, R131): the string's packing stands in the file from the handle's position on. -/
theorem ends_outInit_writeBits_flush {e : Engine} {h : Handle} {f : OpenFile} (bits : Bits) (ho : e.draws.obliging)
    (hh : lookup e.storage.handles h = some f) (hw : f.writable = true) (ht : e.storage.hasTemp f.ref)
    (hmax : f.pos + (bits.length + 7) / 8 ≤ Config.fileMax) :
    Ends (do outInit h; writeBits bits; flush) e
      (fun _ e' => e'.storage.content f.ref =
          (if bits = [] then e.storage.content f.ref else writeAt (e.storage.content f.ref) f.pos (pack bits)) ∧
        e'.out.total = (bits.length + 7) / 8)
      fun _ _ => False := by
  obtain ⟨r, w, pos⟩ := f
  obtain rfl : w = true := hw
  rw [ends_bind]
  refine (ends_outInit ho hh ht _).mono (fun _ e1 hinit => ?_) fun _ _ hf => hf
  rw [ends_bind]
  refine (ends_writeBits hinit.2 bits hmax).mono (fun _ e2 hwritten => ?_) fun _ _ hf => hf
  refine (ends_flush hwritten.2 hmax).mono (fun _ e3 hflushed => ?_) fun _ _ hf => hf
  obtain ⟨-, -, htotal, -, -, hcontent⟩ := hflushed
  exact ⟨hcontent, htotal⟩

/-- Settles O58: every read takes the first bit still to come, which at in_init are the file's bits the limit allows. -/
theorem inputStreamLaw : Obligations.InputStreamLaw := by
  intro e h f limit n ho hh
  obtain ⟨rs, e', hok, rfl, hfiles⟩ := (ends_inInit_readMany limit n ho hh).answers
  exact ⟨e', hok, hfiles⟩

/-- Settles O59: the bits written stand in the file and in OUT_BUF, and the flush puts the rest into the file. -/
theorem outputStreamLaw : Obligations.OutputStreamLaw := by
  refine ⟨fun e h f bits ho hh hw ht hmax => ?_, fun _ => rfl⟩
  obtain ⟨_, e', hok, hcontent, htotal⟩ := (ends_outInit_writeBits_flush bits ho hh hw ht hmax).answers
  exact ⟨e', hok, hcontent, pack_length bits, htotal⟩

end Sys2Proof.Machine
end

section
/-! PROOFS. The CRC-32 (spec/41_crc32.md): its fixtures and its detection of a changed byte (R143, R148), and the CRC32 command
(R145, R150). -/

namespace Sys2Proof.Machine

/-! ## CRC-32 of a byte sequence -/

/-- One byte of a sequence is determined by the others and the CRC-32 (R148). -/
theorem crc32Of_byte_inj {pre post : Bytes} {b c : Byte} (h : crc32Of (pre ++ b :: post) = crc32Of (pre ++ c :: post)) :
    b = c := by
  simp only [crc32Of, List.foldl_append, List.foldl_cons] at h
  exact crcNext_inj_right (foldl_crcNext_inj post ((BitVec.xor_left_inj _).1 h))

/-- Settles O57: the fixtures by evaluation; a byte step is injective in the byte and in the register, so a changed byte changes the
register and every later one. -/
theorem crcFixturesAndDetection : Obligations.CrcFixturesAndDetection :=
  ⟨by decide, by decide +kernel, by decide +kernel, fun _ _ _ _ hne h => hne (crc32Of_byte_inj h)⟩

/-! ## The CRC32 command -/

section
variable {s : State} {e : Engine} {p : Path} {c : Bytes} {fs : Files} {m : Memory}

theorem crcOffset_eq (s : State) : crcOffset s = s.crcOffHi.toNat * 2 ^ 32 + s.crcOffLo.toNat := by
  rw [crcOffset, BitVec.toNat_append, Nat.shiftLeft_eq, Nat.mul_comm, Nat.two_pow_add_eq_or_of_lt s.crcOffLo.isLt]

theorem Draws.obliging.prompt {d : Draws} (h : d.obliging) : d.Prompt := ⟨h.1, h.2.2⟩

/-- SSeek, then crc_stream (R77, R145): the CRC-32 of the file's bytes from the position on, and their number. -/
theorem ends_sSeek_crcStream {h : Handle} {f : OpenFile} (he : e.Shows fs m) (ho : e.draws.obliging)
    (hh : lookup e.storage.handles h = some f) (hl : (e.storage.content f.ref).length ≤ Config.fileMax) (pos : Nat) :
    Ends (do sSeek h pos; crcStream h) e
      (fun r e' => r = (crc32Of ((e.storage.content f.ref).drop pos), (e.storage.content f.ref).length - pos) ∧ e'.Shows fs m)
      fun _ _ => False := by
  rw [ends_bind, ends_sSeek]
  refine ⟨fun hans => ho.answered hans, fun _ => ⟨fun hnone => by simp [hh] at hnone, fun g hg => ?_⟩⟩
  obtain rfl : f = g := Option.some.inj (hh.symm.trans hg)
  have hseek : lookup (e.asked.storage.setPos h f pos).handles h = some { f with pos := pos } :=
    lookup_replaceAt_self _ _ _ (by rw [asked_handles, hh]; rfl)
  have hcontent : (e.asked.storage.setPos h f pos).content f.ref = e.storage.content f.ref := by
    rw [Storage.content_setPos, ho.askedStorage]
  refine (ends_crcStream (e := e.asked.withStorage (e.asked.storage.setPos h f pos)) ho.askedDraws hseek
    (by rwa [withStorage_storage, hcontent])).mono (fun r e' hend => ?_) fun _ _ hf => hf
  obtain ⟨hr, hstat, -, -, -, -, -, hdraws, hfs, -⟩ := hend
  rw [withStorage_storage, hcontent] at hr
  exact ⟨hr, hfs.trans he.asked.1, hstat.trans he.2.statmem, hdraws.prompt⟩

/-- CRC32's body on a file that exists (R150). -/
theorem ends_bodyCrc32 (he : e.Shows fs m) (hr : e.atRest = true) (ho : e.draws.obliging) (hp : oneFile s = some p)
    (hc : fsGet fs p = some c) (hl : c.length ≤ Config.fileMax) :
    Ends (bodyCrc32 s) e
      (fun rep e' => rep = success (crc32Of (c.drop (crcOffset s))) (BitVec.ofNat 32 (c.length - crcOffset s)) ∧ e'.Shows fs m)
      fun _ _ => False := by
  have hcontent : (e.withInput p).storage.content (.named p) = c := by
    rw [Storage.content, (he.withInput p).1, hc, Option.getD_some]
  rw [bodyCrc32, hp, ends_bind, ends_orRaise_some, ends_bind, ends_openRead_handle ho.prompt (by simp [he.1, hc]) ho.fails, ends_bind,
    ends_must]
  refine ⟨fun _ _ => ?_, fun hnone => absurd rfl (hnone _)⟩
  show Ends (reg .f >>= _) (e.withInput p) _ _
  have hstream := ends_sSeek_crcStream (he.withInput p) ho.askedDraws (lookup_withInput hr p) (by rwa [hcontent]) (crcOffset s)
  rw [hcontent, ends_bind] at hstream
  rw [ends_bind, ends_reg, ends_bind]
  refine hstream.mono (fun _ e1 hcrc => ?_) fun _ _ hf => hf
  rw [ends_bind]
  refine hcrc.mono (fun r e2 hend => ?_) fun _ _ hf => hf
  obtain ⟨rfl, hshows⟩ := hend
  exact ⟨rfl, hshows⟩

end

/-- Settles O49: the body opens the file, seeks to the offset and streams its bytes to the end, and the closes leave the namespace. -/
theorem crc32Checksums : Obligations.Crc32Checksums := by
  intro s p c hs hp hc
  obtain ⟨hready, ho, hduties⟩ := hs
  have hshows := hready.shows ho.1
  obtain ⟨hrest, -, -, hfits, -⟩ := hready
  have hlen : c.length ≤ Config.fileMax := (Storage.fits_iff.1 hfits).1 _ (fsGet_mem hc)
  rw [← crcOffset_eq]
  refine gives_of_reporting hrest hduties (by decide) (m := []) (fun _ => rfl) ((ends_reporting _ _).2 ?_)
  exact (ends_bodyCrc32 hshows hrest ho hp hc hlen).mono (fun _ _ hend => hend) fun _ _ hf => hf.elim

end Sys2Proof.Machine
end

section
/-! PROOFS. The priority queue of tree nodes (spec/42_minheap.md): the order of keys, the swap of two positions, and the heap with
one position out of order, which each round of the two sift loops moves by one level (R155, R156, R158 to R160). -/

namespace Sys2Proof.Machine

variable {g : Huffman}

/-! ## Keys (R156) -/

theorem Huffman.keyLt_iff {x y : Nat} :
    g.keyLt x y = true ↔ g.freqOf x < g.freqOf y ∨ g.freqOf x = g.freqOf y ∧ x < y := by
  simp only [keyLt, Bool.or_eq_true, Bool.and_eq_true, decide_eq_true_eq, beq_iff_eq]

theorem Huffman.keyLt_trans {x y z : Nat} (hxy : g.keyLt x y = true) (hyz : g.keyLt y z = true) : g.keyLt x z = true := by
  rw [keyLt_iff] at *
  omega

/-- `key(x) ≤ key(y)`: the order of keys is total. -/
def Huffman.KeyLe (g : Huffman) (x y : Nat) : Prop := ¬ g.keyLt y x = true

theorem Huffman.keyLe_iff {x y : Nat} : g.KeyLe x y ↔ g.freqOf x < g.freqOf y ∨ g.freqOf x = g.freqOf y ∧ x ≤ y := by
  rw [KeyLe, keyLt_iff]
  omega

theorem Huffman.KeyLe.refl (g : Huffman) (x : Nat) : g.KeyLe x x := keyLe_iff.2 (.inr ⟨rfl, Nat.le_refl x⟩)

theorem Huffman.KeyLe.of_keyLt {x y : Nat} (h : g.keyLt x y = true) : g.KeyLe x y := by
  rw [keyLt_iff] at h
  rw [keyLe_iff]
  omega

theorem Huffman.KeyLe.trans {x y z : Nat} (hxy : g.KeyLe x y) (hyz : g.KeyLe y z) : g.KeyLe x z := by
  rw [keyLe_iff] at *
  omega

theorem Huffman.KeyLe.keyLt {x y : Nat} (hle : g.KeyLe x y) (hne : x ≠ y) : g.keyLt x y = true := by
  rw [keyLe_iff] at hle
  rw [keyLt_iff]
  omega

/-! ## The live nodes -/

theorem Huffman.heapAt_eq_getElem {i : Nat} (hi : i < g.heap.length) : g.heapAt i = g.heap[i] :=
  (List.getElem_eq_getD 0).symm

theorem Huffman.exists_heapAt_of_mem_live {y : Nat} (hy : y ∈ g.live) : ∃ k < g.hn, g.heapAt k = y := by
  obtain ⟨k, hk, rfl⟩ := List.mem_take_iff_getElem.1 hy
  obtain ⟨hn, hlen⟩ := Nat.lt_min.1 hk
  exact ⟨k, hn, heapAt_eq_getElem hlen⟩

theorem Huffman.live_length (hcap : g.hn ≤ g.heap.length) : g.live.length = g.hn := List.length_take_of_le hcap

theorem Huffman.live_getElem {i : Nat} (hi : i < g.live.length) : g.live[i] = g.heapAt i := by
  have hlen : i < g.heap.length := Nat.lt_of_lt_of_le hi (List.length_take_le' _ _)
  rw [heapAt_eq_getElem hlen]
  exact List.getElem_take

theorem Huffman.heapAt_inj (hcap : g.hn ≤ g.heap.length) (hd : g.live.Nodup) {i j : Nat} (hi : i < g.hn) (hj : j < g.hn) :
    g.heapAt i = g.heapAt j ↔ i = j := by
  rw [← live_length hcap] at hi hj
  rw [← live_getElem hi, ← live_getElem hj, List.getElem_inj hd]

/-- The live nodes are those of all positions but the last, and the last. -/
theorem Huffman.live_eq_append {n : Nat} (hn : g.hn = n + 1) (hlen : n < g.heap.length) :
    g.live = g.heap.take n ++ [g.heapAt n] := by
  rw [live, hn, heapAt_eq_getElem hlen, List.take_append_getElem]

/-! ## The swap of two positions -/

@[simp] theorem Huffman.swap_hn (g : Huffman) (i j : Nat) : (g.swap i j).hn = g.hn := rfl
@[simp] theorem Huffman.swap_keyLt (g : Huffman) (i j : Nat) : (g.swap i j).keyLt = g.keyLt := rfl
@[simp] theorem Huffman.swap_heap_length (g : Huffman) (i j : Nat) : (g.swap i j).heap.length = g.heap.length := by simp [swap]

theorem Huffman.swap_heapAt_right {i j : Nat} (hj : j < g.heap.length) : (g.swap i j).heapAt j = g.heapAt i := by
  simp [swap, heapAt, hj]

theorem Huffman.swap_heapAt_left {i j : Nat} (hi : i < g.heap.length) (hne : j ≠ i) : (g.swap i j).heapAt i = g.heapAt j := by
  simp [swap, heapAt, List.getElem_set_ne hne, hi]

theorem Huffman.swap_heapAt_other {i j k : Nat} (hi : k ≠ i) (hj : k ≠ j) : (g.swap i j).heapAt k = g.heapAt k := by
  simp [swap, heapAt, List.getElem?_set_ne hi.symm, List.getElem?_set_ne hj.symm]

theorem Huffman.swap_live_perm (hcap : g.hn ≤ g.heap.length) {i j : Nat} (hi : i < g.hn) (hj : j < g.hn) :
    (g.swap i j).live.Perm g.live := by
  rw [← live_length hcap] at hi hj
  have hswap : (g.swap i j).live = (g.live.set i g.live[j]).set j g.live[i] := by
    rw [live_getElem, live_getElem]
    simp [live, swap, List.take_set]
  exact hswap ▸ List.set_set_perm hi hj

/-! ## The tree of positions (R155) -/

/-- Position `c` is a live child of position `p`. -/
def Huffman.Child (g : Huffman) (p c : Nat) : Prop := 0 < c ∧ c < g.hn ∧ (c - 1) / 2 = p

theorem Huffman.Child.lt {p c : Nat} (h : g.Child p c) : p < c := by
  obtain ⟨hpos, -, hp⟩ := h
  omega

theorem Huffman.Child.ne {p c : Nat} (h : g.Child p c) : p ≠ c := Nat.ne_of_lt h.lt

theorem Huffman.Child.live {p c : Nat} (h : g.Child p c) : c < g.hn := h.2.1

theorem Huffman.Child.parent_live {p c : Nat} (h : g.Child p c) : p < g.hn := Nat.lt_trans h.lt h.live

theorem Huffman.Child.parent_unique {p q c : Nat} (h : g.Child p c) (h' : g.Child q c) : p = q := h.2.2.symm.trans h'.2.2

@[simp] theorem Huffman.swap_child (g : Huffman) (i j : Nat) : (g.swap i j).Child = g.Child := rfl

/-- The root of a heap has the least key of the live positions. -/
theorem Huffman.IsHeap.root_keyLt (h : g.IsHeap) {k : Nat} (hpos : 0 < k) (hk : k < g.hn) :
    g.keyLt (g.heapAt 0) (g.heapAt k) = true := by
  induction k using Nat.strongRecOn with
  | ind k ih =>
    have hedge := h.order k hpos hk
    obtain hroot | hp := Nat.eq_zero_or_pos ((k - 1) / 2)
    · rwa [hroot] at hedge
    · exact Huffman.keyLt_trans (ih _ (by omega) hp (by omega)) hedge

/-- One comparison of `extract_min`'s round: `j` if it is live and has the smaller key, `i` otherwise (R159). -/
def Huffman.smaller (g : Huffman) (i j : Nat) : Nat := if j < g.hn ∧ g.keyLt (g.heapAt j) (g.heapAt i) = true then j else i

theorem Huffman.least_eq (g : Huffman) (i : Nat) : g.least i = g.smaller (g.smaller i (2 * i + 1)) (2 * i + 2) := rfl

theorem Huffman.smaller_mem (g : Huffman) (i j : Nat) : g.smaller i j = i ∨ g.smaller i j = j ∧ j < g.hn := by
  rw [smaller]
  split
  case isTrue h => exact .inr ⟨rfl, h.1⟩
  case isFalse => exact .inl rfl

theorem Huffman.keyLe_smaller_left (g : Huffman) (i j : Nat) : g.KeyLe (g.heapAt (g.smaller i j)) (g.heapAt i) := by
  rw [smaller]
  split
  case isTrue h => exact .of_keyLt h.2
  case isFalse => exact .refl _ _

theorem Huffman.keyLe_smaller_right {i j : Nat} (hj : j < g.hn) : g.KeyLe (g.heapAt (g.smaller i j)) (g.heapAt j) := by
  rw [smaller]
  split
  case isTrue => exact .refl _ _
  case isFalse h => exact fun hlt => h ⟨hj, hlt⟩

/-- The smallest of a position and its children is one of them (R159). -/
theorem Huffman.least_mem (g : Huffman) (i : Nat) : g.least i = i ∨ g.Child i (g.least i) := by
  have hl := g.smaller_mem i (2 * i + 1)
  have hr := g.smaller_mem (g.smaller i (2 * i + 1)) (2 * i + 2)
  rw [← least_eq] at hr
  rw [Child]
  omega

/-- Neither the position nor a child has a key below the smallest's (R159). -/
theorem Huffman.keyLe_least {i k : Nat} (hk : k = i ∨ g.Child i k) : g.KeyLe (g.heapAt (g.least i)) (g.heapAt k) := by
  have hfirst : g.KeyLe (g.heapAt (g.least i)) (g.heapAt (g.smaller i (2 * i + 1))) := keyLe_smaller_left _ _ _
  obtain rfl | ⟨hpos, hlive, hparent⟩ := hk
  · exact hfirst.trans (keyLe_smaller_left _ _ _)
  · obtain rfl | rfl : k = 2 * i + 1 ∨ k = 2 * i + 2 := by omega
    · exact hfirst.trans (keyLe_smaller_right hlive)
    · exact keyLe_smaller_right hlive

theorem Huffman.least_live {i : Nat} (hi : i < g.hn) : g.least i < g.hn := by
  obtain heq | hchild := g.least_mem i
  · rwa [heq]
  · exact hchild.live

/-! ## A heap with one position out of order -/

/-- The heap order holds on every edge that is not `broken`, and between the parent and the children of position `i`. -/
structure Huffman.HeapBut (g : Huffman) (broken : Nat → Nat → Prop) (i : Nat) : Prop where
  size     : g.heap.length = Config.heapCap
  capacity : g.hn ≤ Config.heapCap
  distinct : g.live.Nodup
  order    : ∀ p c, g.Child p c → ¬ broken p c → g.keyLt (g.heapAt p) (g.heapAt c) = true
  across   : ∀ p c, g.Child p i → g.Child i c → g.keyLt (g.heapAt p) (g.heapAt c) = true

/-- During `insert`: position `i` may be smaller than its parent. -/
abbrev Huffman.HeapButAbove (g : Huffman) (i : Nat) : Prop := g.HeapBut (fun _ c => c = i) i

/-- During `extract_min`: position `i` may be larger than its children. -/
abbrev Huffman.HeapButBelow (g : Huffman) (i : Nat) : Prop := g.HeapBut (fun p _ => p = i) i

namespace Huffman.HeapBut

variable {broken : Nat → Nat → Prop} {i p c : Nat}

theorem le_length (h : g.HeapBut broken i) : g.hn ≤ g.heap.length := h.size ▸ h.capacity

theorem lt_length (h : g.HeapBut broken i) {k : Nat} (hk : k < g.hn) : k < g.heap.length := Nat.lt_of_lt_of_le hk h.le_length

theorem keyLt_of_le (h : g.HeapBut broken i) {j k : Nat} (hj : j < g.hn) (hk : k < g.hn) (hne : j ≠ k)
    (hle : g.KeyLe (g.heapAt j) (g.heapAt k)) : g.keyLt (g.heapAt j) (g.heapAt k) = true :=
  hle.keyLt fun heq => hne ((heapAt_inj h.le_length h.distinct hj hk).1 heq)

theorem isHeap (h : g.HeapBut broken i)
    (hbroken : ∀ p c, g.Child p c → broken p c → g.keyLt (g.heapAt p) (g.heapAt c) = true) : g.IsHeap where
  size := h.size
  capacity := h.capacity
  order k hpos hk := by
    have hc : g.Child ((k - 1) / 2) k := ⟨hpos, hk, rfl⟩
    by_cases hb : broken ((k - 1) / 2) k
    · exact hbroken _ _ hc hb
    · exact h.order _ _ hc hb

theorem least_keyLt (h : g.HeapBut broken i) (hi : i < g.hn) {k : Nat} (hk : k = i ∨ g.Child i k) (hne : k ≠ g.least i) :
    g.keyLt (g.heapAt (g.least i)) (g.heapAt k) = true := by
  have hlive : k < g.hn := hk.elim (fun heq => heq ▸ hi) Child.live
  exact h.keyLt_of_le (least_live hi) hlive hne.symm (keyLe_least hk)

/-- The swap of `insert`'s round moves the disorder to the parent (R158). -/
theorem swap_up (h : g.HeapButAbove i) (hp : g.Child p i) (hlt : g.keyLt (g.heapAt i) (g.heapAt p) = true) :
    (g.swap i p).HeapButAbove p := by
  have hil : i < g.heap.length := h.lt_length hp.live
  have hpl : p < g.heap.length := h.lt_length hp.parent_live
  have hsib : ∀ c, g.Child p c → c ≠ i → g.keyLt (g.heapAt i) (g.heapAt c) = true := fun c hc hci =>
    keyLt_trans hlt (h.order p c hc hci)
  refine ⟨by simpa using h.size, h.capacity,
    (swap_live_perm h.le_length hp.live hp.parent_live).nodup_iff.2 h.distinct, fun q c hc hcp => ?_, fun q c hq hc => ?_⟩
  · rw [swap_child] at hc
    rw [swap_keyLt]
    by_cases hci : c = i
    · subst hci
      obtain rfl := hp.parent_unique hc
      rwa [swap_heapAt_right hpl, swap_heapAt_left hil hp.ne]
    · rw [swap_heapAt_other hci hcp]
      by_cases hqi : q = i
      · subst hqi
        rw [swap_heapAt_left hil hp.ne]
        exact h.across p c hp hc
      · by_cases hqp : q = p
        · subst hqp
          rw [swap_heapAt_right hpl]
          exact hsib c hc hci
        · rw [swap_heapAt_other hqi hqp]
          exact h.order q c hc hci
  · rw [swap_child] at hq hc
    have hqp : g.keyLt (g.heapAt q) (g.heapAt p) = true := h.order q p hq hp.ne
    rw [swap_keyLt, swap_heapAt_other (Nat.ne_of_lt (Nat.lt_trans hq.lt hp.lt)) hq.ne]
    by_cases hci : c = i
    · rwa [hci, swap_heapAt_left hil hp.ne]
    · rw [swap_heapAt_other hci hc.ne.symm]
      exact keyLt_trans hqp (h.order p c hc hci)

/-- The swap of `extract_min`'s round moves the disorder to the smallest child (R159). -/
theorem swap_down (h : g.HeapButBelow i) (hm : g.Child i c) (hlt : g.keyLt (g.heapAt c) (g.heapAt i) = true)
    (hsib : ∀ k, g.Child i k → k ≠ c → g.keyLt (g.heapAt c) (g.heapAt k) = true) : (g.swap i c).HeapButBelow c := by
  have hcl : c < g.heap.length := h.lt_length hm.live
  have hil : i < g.heap.length := h.lt_length hm.parent_live
  refine ⟨by simpa using h.size, h.capacity,
    (swap_live_perm h.le_length hm.parent_live hm.live).nodup_iff.2 h.distinct, fun q k hk hqc => ?_, fun q k hq hk => ?_⟩
  · rw [swap_child] at hk
    rw [swap_keyLt]
    by_cases hqi : q = i
    · subst hqi
      rw [swap_heapAt_left hil hm.ne.symm]
      by_cases hkc : k = c
      · rwa [hkc, swap_heapAt_right hcl]
      · rw [swap_heapAt_other hk.ne.symm hkc]
        exact hsib k hk hkc
    · have hkc : k ≠ c := fun heq => hqi (hk.parent_unique (heq ▸ hm))
      rw [swap_heapAt_other hqi hqc]
      by_cases hki : k = i
      · subst hki
        rw [swap_heapAt_left hil hm.ne.symm]
        exact h.across q c hk hm
      · rw [swap_heapAt_other hki hkc]
        exact h.order q k hk hqi
  · rw [swap_child] at hq hk
    obtain rfl := hm.parent_unique hq
    rw [swap_keyLt, swap_heapAt_left hil hm.ne.symm, swap_heapAt_other (Nat.ne_of_gt (Nat.lt_trans hm.lt hk.lt)) hk.ne.symm]
    exact h.order c k hk hm.ne.symm

/-! ## The two loops -/

/-- The loop of `insert` restores the heap and keeps the live nodes (R158). -/
theorem siftUp {fuel : Nat} (h : g.HeapButAbove i) (hi : i < g.hn) (hfuel : i ≤ fuel) :
    (Huffman.siftUp fuel i g).IsHeap ∧ (Huffman.siftUp fuel i g).live.Perm g.live := by
  induction fuel generalizing i g with
  | zero =>
    refine ⟨h.isHeap fun p c hc hb => ?_, .refl _⟩
    exact absurd hc.1 (by omega)
  | succ fuel ih =>
    rw [Huffman.siftUp]
    split
    case isTrue hround =>
      obtain ⟨hpos, hlt⟩ := hround
      have hp : g.Child ((i - 1) / 2) i := ⟨hpos, hi, rfl⟩
      obtain ⟨hheap, hperm⟩ := ih (h.swap_up hp hlt) hp.parent_live (by omega)
      exact ⟨hheap, hperm.trans (swap_live_perm h.le_length hi hp.parent_live)⟩
    case isFalse hstop =>
      refine ⟨h.isHeap fun p c hc hb => ?_, .refl _⟩
      subst hb
      have hle : g.KeyLe (g.heapAt p) (g.heapAt c) := by
        rw [← hc.2.2]
        exact fun hlt => hstop ⟨hc.1, hlt⟩
      exact h.keyLt_of_le hc.parent_live hi hc.ne hle

/-- The loop of `extract_min` restores the heap and keeps the live nodes (R159). -/
theorem siftDown {fuel : Nat} (h : g.HeapButBelow i) (hfuel : g.hn ≤ i + fuel) :
    (Huffman.siftDown fuel i g).IsHeap ∧ (Huffman.siftDown fuel i g).live.Perm g.live := by
  induction fuel generalizing i g with
  | zero =>
    refine ⟨h.isHeap fun p c hc hb => ?_, .refl _⟩
    exact absurd hc.lt (by have := hc.live; omega)
  | succ fuel ih =>
    rw [Huffman.siftDown]
    split
    case isTrue hstop =>
      refine ⟨h.isHeap fun p c hc hb => ?_, .refl _⟩
      subst hb
      have hlt := h.least_keyLt hc.parent_live (.inr hc) (hstop.symm ▸ hc.ne.symm)
      rwa [hstop] at hlt
    case isFalse hround =>
      have hm : g.Child i (g.least i) := (g.least_mem i).resolve_left hround
      have hi : i < g.hn := hm.parent_live
      have hnext : (g.swap i (g.least i)).HeapButBelow (g.least i) :=
        h.swap_down hm (h.least_keyLt hi (.inl rfl) hm.ne) fun k hk => h.least_keyLt hi (.inr hk)
      obtain ⟨hheap, hperm⟩ := ih hnext (by have := hm.lt; rw [swap_hn]; omega)
      exact ⟨hheap, hperm.trans (swap_live_perm h.le_length hi hm.live)⟩

end Huffman.HeapBut

/-! ## The two operations -/

/-- The state in which the loop of `insert` starts (R158). -/
def Huffman.appended (g : Huffman) (x : Nat) : Huffman := { g with heap := g.heap.set g.hn x, hn := g.hn + 1 }

/-- The state in which the loop of `extract_min` starts (R159). -/
def Huffman.rootReplaced (g : Huffman) : Huffman := { g with heap := g.heap.set 0 (g.heapAt (g.hn - 1)), hn := g.hn - 1 }

theorem Huffman.pushed_eq (g : Huffman) (x : Nat) : g.pushed x = Huffman.siftUp g.hn g.hn (g.appended x) := rfl
theorem Huffman.popped_eq (g : Huffman) : g.popped = Huffman.siftDown g.hn 0 g.rootReplaced := rfl

theorem Huffman.appended_heapAt {x k : Nat} (hk : k ≠ g.hn) : (g.appended x).heapAt k = g.heapAt k := by
  simp [appended, heapAt, List.getElem?_set_ne hk.symm]

theorem Huffman.rootReplaced_heapAt {k : Nat} (hk : k ≠ 0) : g.rootReplaced.heapAt k = g.heapAt k := by
  simp [rootReplaced, heapAt, List.getElem?_set_ne hk.symm]

theorem Huffman.appended_live {x : Nat} (hlt : g.hn < g.heap.length) : (g.appended x).live = g.live ++ [x] := by
  rw [live_eq_append (n := g.hn) rfl (by simpa [appended] using hlt)]
  simp [appended, live, heapAt, List.take_set_of_le, hlt]

/-- The replaced root is the node that leaves: the array is the one in which root and last node were swapped, without the last. -/
theorem Huffman.live_perm_rootReplaced (hcap : g.hn ≤ g.heap.length) (hpos : 0 < g.hn) :
    g.live.Perm (g.heapAt 0 :: g.rootReplaced.live) := by
  have hlast : g.hn - 1 < g.heap.length := by omega
  have hlive : (g.swap 0 (g.hn - 1)).live = g.rootReplaced.live ++ [g.heapAt 0] := by
    rw [live_eq_append (n := g.hn - 1) (by rw [swap_hn]; omega) (by simpa using hlast), swap_heapAt_right hlast]
    simp [swap, rootReplaced, live, List.take_set_of_le]
  have hswap : (g.swap 0 (g.hn - 1)).live.Perm g.live := swap_live_perm hcap hpos (by omega)
  exact hswap.symm.trans (hlive ▸ List.perm_append_singleton _ _)

/-- Appending a new node leaves the order in doubt between it and its parent only (R158). -/
theorem Huffman.IsHeap.appended (h : g.IsHeap) (hd : g.live.Nodup) {x : Nat} (hcap : g.hn < Config.heapCap) (hx : x ∉ g.live) :
    (g.appended x).HeapButAbove g.hn where
  size := by simpa [Huffman.appended] using h.size
  capacity := hcap
  distinct := by
    rw [appended_live (h.size ▸ hcap)]
    exact (List.perm_append_singleton _ _).nodup_iff.2 (List.nodup_cons.2 ⟨hx, hd⟩)
  order p c hc hne := by
    have hclt : c < g.hn := Nat.lt_of_le_of_ne (Nat.lt_succ_iff.1 hc.live) hne
    rw [appended_heapAt (Nat.ne_of_lt (Nat.lt_trans hc.lt hclt)), appended_heapAt hne, ← hc.2.2]
    exact h.order c hc.1 hclt
  across p c _ hc := absurd hc.lt (Nat.not_lt.2 (Nat.lt_succ_iff.1 hc.live))

/-- Replacing the root leaves the order in doubt between it and its children only (R159). -/
theorem Huffman.IsHeap.rootReplaced (h : g.IsHeap) (hd : g.live.Nodup) (hpos : 0 < g.hn) : g.rootReplaced.HeapButBelow 0 where
  size := by simpa [Huffman.rootReplaced] using h.size
  capacity := Nat.le_trans (Nat.sub_le _ _) h.capacity
  distinct := (List.nodup_cons.1 ((live_perm_rootReplaced (h.size ▸ h.capacity) hpos).nodup_iff.1 hd)).2
  order p c hc hne := by
    rw [rootReplaced_heapAt hne, rootReplaced_heapAt (Nat.ne_of_gt hc.1), ← hc.2.2]
    exact h.order c hc.1 (Nat.lt_of_lt_of_le hc.live (Nat.sub_le _ _))
  across p _ hp _ := absurd hp.lt (Nat.not_lt_zero _)

theorem Huffman.IsHeap.pushed (h : g.IsHeap) (hd : g.live.Nodup) {x : Nat} (hcap : g.hn < Config.heapCap) (hx : x ∉ g.live) :
    (g.pushed x).IsHeap ∧ (g.pushed x).live.Perm (x :: g.live) := by
  obtain ⟨hheap, hperm⟩ := (h.appended hd hcap hx).siftUp (Nat.lt_succ_self _) (Nat.le_refl _)
  rw [appended_live (h.size ▸ hcap)] at hperm
  exact ⟨hheap, hperm.trans (List.perm_append_singleton _ _)⟩

theorem Huffman.IsHeap.popped (h : g.IsHeap) (hd : g.live.Nodup) (hpos : 0 < g.hn) :
    g.popped.IsHeap ∧ g.live.Perm (g.heapAt 0 :: g.popped.live) := by
  obtain ⟨hheap, hperm⟩ := (h.rootReplaced hd hpos).siftDown (fuel := g.hn) (by rw [Nat.zero_add]; exact Nat.sub_le _ _)
  exact ⟨hheap, (live_perm_rootReplaced (h.size ▸ h.capacity) hpos).trans (hperm.symm.cons _)⟩

/-- In a heap of distinct nodes the root has the least key of the live nodes (R160). -/
theorem Huffman.IsHeap.root_least (h : g.IsHeap) {y : Nat} (hy : y ∈ g.live) (hne : y ≠ g.heapAt 0) :
    g.keyLt (g.heapAt 0) y = true := by
  obtain ⟨k, hk, rfl⟩ := exists_heapAt_of_mem_live hy
  exact h.root_keyLt (Nat.pos_of_ne_zero fun h0 => hne (h0 ▸ rfl)) hk

/-- Settles O60: each loop starts in a heap with one position out of order and moves it by a level until the order is whole; the nodes
that stay after `extract_min` are live nodes other than the root. -/
theorem heapLaw : Obligations.HeapLaw := by
  refine ⟨fun g x h hd hcap hx => h.pushed hd hcap hx, fun g h hd hpos => ?_⟩
  obtain ⟨hheap, hperm⟩ := h.popped hd hpos
  have hroot : g.heapAt 0 ∉ g.popped.live := (List.nodup_cons.1 (hperm.nodup_iff.1 hd)).1
  refine ⟨hheap, hperm, fun y hy => h.root_least (hperm.mem_iff.2 (.tail _ hy)) ?_⟩
  exact fun heq => hroot (heq ▸ hy)

end Sys2Proof.Machine
end

section
/-! PROOFS. Code trees (spec/43_huffman.md R165, R170 to R174, R180): symbols, paths and codes, the sizes of a tree, and its weight and
cost for given frequencies. -/

namespace Sys2Proof.Machine

variable {t : Tree} {b : Byte} {p rest : Bits}

/-- The symbols of a tree's leaves, from left to right. -/
def Tree.syms : Tree → List Byte
  | .leaf s   => [s]
  | .node l r => l.syms ++ r.syms

theorem Tree.map_fst_paths (t : Tree) : t.paths.map (·.1) = t.syms := by
  induction t with
  | leaf s => rfl
  | node l r ihl ihr => simp [Tree.paths, Tree.syms, ← ihl, ← ihr, Function.comp_def]

theorem Tree.mem_syms : b ∈ t.syms ↔ ∃ p, (b, p) ∈ t.paths := by simp [← t.map_fst_paths]

/-- A path of a node is an edge and a path of the subtree there. -/
theorem Tree.mem_paths_node {l r : Tree} :
    (b, p) ∈ (Tree.node l r).paths ↔ ∃ q, ((b, q) ∈ l.paths ∧ p = false :: q) ∨ ((b, q) ∈ r.paths ∧ p = true :: q) := by
  simp only [Tree.paths, List.mem_append, List.mem_map, Prod.mk.injEq, Prod.exists]
  constructor
  · rintro (⟨_, q, hq, rfl, rfl⟩ | ⟨_, q, hq, rfl, rfl⟩)
    · exact ⟨q, .inl ⟨hq, rfl⟩⟩
    · exact ⟨q, .inr ⟨hq, rfl⟩⟩
  · rintro ⟨q, ⟨hq, rfl⟩ | ⟨hq, rfl⟩⟩
    · exact .inl ⟨b, q, hq, rfl, rfl⟩
    · exact .inr ⟨b, q, hq, rfl, rfl⟩

/-! ## Sizes (R169, R174) -/

theorem Tree.length_syms (t : Tree) : t.syms.length = t.leaves := by
  induction t with
  | leaf s => rfl
  | node l r ihl ihr => rw [Tree.syms, List.length_append, ihl, ihr, Tree.leaves]

theorem Tree.size_add_one (t : Tree) : t.size + 1 = 2 * t.leaves := by
  induction t with
  | leaf s => rfl
  | node l r ihl ihr => simp only [Tree.size, Tree.leaves]; omega

theorem Tree.bits_length_add_one (t : Tree) : t.bits.length + 1 = 10 * t.leaves := by
  induction t with
  | leaf s => simp [Tree.bits, Tree.leaves]
  | node l r ihl ihr => simp only [Tree.bits, Tree.leaves, List.length_cons, List.length_append]; omega

theorem Tree.size_pos (t : Tree) : 0 < t.size := by cases t <;> exact Nat.succ_pos _

/-- A path is shorter than the tree is large. -/
theorem Tree.path_length_lt_size (h : (b, p) ∈ t.paths) : p.length < t.size := by
  induction t generalizing p with
  | leaf s =>
    obtain ⟨-, rfl⟩ : b = s ∧ p = [] := by simpa [Tree.paths] using h
    exact Nat.succ_pos _
  | node l r ihl ihr =>
    obtain ⟨q, ⟨hq, rfl⟩ | ⟨hq, rfl⟩⟩ := Tree.mem_paths_node.1 h
    · have := ihl hq
      simp only [Tree.size, List.length_cons]
      omega
    · have := ihr hq
      simp only [Tree.size, List.length_cons]
      omega

/-! ## Codes (R170, R172, R180) -/

/-- The descent along a path ends at its leaf. -/
theorem Tree.walk_path (h : (b, p) ∈ t.paths) (rest : Bits) : t.walk (p ++ rest) = some (b, rest) := by
  induction t generalizing p with
  | leaf s =>
    obtain ⟨rfl, rfl⟩ : b = s ∧ p = [] := by simpa [Tree.paths] using h
    rfl
  | node l r ihl ihr =>
    obtain ⟨q, ⟨hq, rfl⟩ | ⟨hq, rfl⟩⟩ := Tree.mem_paths_node.1 h
    · exact ihl hq
    · exact ihr hq

/-- Members of a list whose images are all different are equal where their images are. -/
theorem eq_of_nodup_map {α β : Type} {f : α → β} {xs : List α} (hd : (xs.map f).Nodup) {x y : α} (hx : x ∈ xs) (hy : y ∈ xs)
    (h : f x = f y) : x = y := by
  induction xs with
  | nil => exact absurd hx List.not_mem_nil
  | cons z zs ih =>
    rw [List.map_cons, List.nodup_cons] at hd
    obtain ⟨hz, hzs⟩ := hd
    rcases List.mem_cons.1 hx with rfl | hxs
    · rcases List.mem_cons.1 hy with rfl | hys
      · rfl
      · exact absurd (h ▸ List.mem_map_of_mem hys) hz
    · rcases List.mem_cons.1 hy with rfl | hys
      · exact absurd (h ▸ List.mem_map_of_mem hxs) hz
      · exact ih hzs hxs hys

/-- In a tree of two leaves or more a symbol's code is one of its paths. -/
theorem Tree.code_mem_paths {l r : Tree} (h : b ∈ (Tree.node l r).syms) : (b, (Tree.node l r).code b) ∈ (Tree.node l r).paths := by
  obtain ⟨p, hp⟩ := Tree.mem_syms.1 h
  obtain ⟨⟨c, q⟩, hq⟩ := Option.isSome_iff_exists.1
    (List.find?_isSome.2 ⟨(b, p), hp, beq_self_eq_true b⟩ : ((Tree.node l r).paths.find? fun x => x.1 == b).isSome = true)
  obtain rfl : c = b := by simpa using List.find?_some hq
  have hcode : (Tree.node l r).code c = q := by simp [Tree.code, hq]
  rw [hcode]
  exact List.mem_of_find?_eq_some hq

/-- With each symbol at one leaf, a path is its symbol's code. -/
theorem Tree.code_eq_path {l r : Tree} (hd : (Tree.node l r).syms.Nodup) (h : (b, p) ∈ (Tree.node l r).paths) :
    (Tree.node l r).code b = p := by
  rw [← Tree.map_fst_paths] at hd
  have hmem := Tree.code_mem_paths (Tree.mem_syms.2 ⟨p, h⟩)
  have heq := eq_of_nodup_map hd hmem h rfl
  injection heq

/-- Reading a symbol's code gives the symbol, whatever follows. -/
theorem Tree.symbol_code (h : b ∈ t.syms) (rest : Bits) : t.symbol (t.code b ++ rest) = some (b, rest) := by
  cases t with
  | leaf s =>
    obtain rfl : b = s := by simpa [Tree.syms] using h
    rfl
  | node l r => exact Tree.walk_path (Tree.code_mem_paths h) rest

/-- No symbol's code begins another's (R172). -/
theorem Tree.code_prefixFree {a : Byte} (ha : a ∈ t.syms) (hb : b ∈ t.syms) (h : t.code a <+: t.code b) : a = b := by
  obtain ⟨rest, hrest⟩ := h
  have hread := Tree.symbol_code hb []
  rw [List.append_nil, ← hrest, Tree.symbol_code ha] at hread
  injection hread with hread
  injection hread

theorem Tree.code_length_pos (h : b ∈ t.syms) : 0 < (t.code b).length := by
  cases t with
  | leaf s => exact Nat.succ_pos 0
  | node l r =>
    obtain ⟨q, ⟨-, hq⟩ | ⟨-, hq⟩⟩ := Tree.mem_paths_node.1 (Tree.code_mem_paths h) <;> simp [hq]

/-- The symbols of a coded sequence are read back, and the bits after it are left (R180, R181). -/
theorem readSymbols_codes {S : Bytes} (h : ∀ b ∈ S, b ∈ t.syms) (rest : Bits) :
    readSymbols t S.length (S.flatMap t.code ++ rest) = (S, rest, true) := by
  induction S with
  | nil => rfl
  | cons b S ih =>
    rw [List.flatMap_cons, List.append_assoc, List.length_cons, readSymbols, Tree.symbol_code (h b List.mem_cons_self)]
    simp only [ih fun c hc => h c (List.mem_cons_of_mem _ hc)]

/-! ## Reading a tree (R173, R179) -/

/-- A bit string that begins with a byte's bits. -/
theorem eq_byteBits_append {s : Byte} {bs : Bits} :
    bs = byteBits s ++ rest ↔ 8 ≤ bs.length ∧ s = BitVec.ofNat 8 (bitsValue (bs.take 8)) ∧ rest = bs.drop 8 := by
  constructor
  · rintro rfl
    have htake : (byteBits s ++ rest).take 8 = byteBits s := List.take_left' (byteBits_length s)
    have hdrop : (byteBits s ++ rest).drop 8 = rest := List.drop_left' (byteBits_length s)
    rw [htake, hdrop, bitsValue_byteBits]
    exact ⟨by simp, rfl, rfl⟩
  · rintro ⟨hlen, rfl, rfl⟩
    have htake : (bs.take 8).length = 8 := List.length_take_of_le hlen
    rw [byteBits_bitsValue _ (Nat.le_of_eq htake), htake, Nat.sub_self, List.replicate_zero, List.append_nil,
      List.take_append_drop]

/-- With more fuel than nodes left, the bits that `des` reads as a tree are that tree's serialization. -/
theorem readTree_eq_some {fuel nn n : Nat} {bs : Bits} (hf : Config.nodeCap < fuel + nn) (hnn : nn ≤ Config.nodeCap) :
    readTree fuel nn bs = some (t, n, rest) ↔ bs = t.bits ++ rest ∧ n = nn + t.size ∧ n ≤ Config.nodeCap := by
  induction fuel generalizing nn bs t n rest with
  | zero => omega
  | succ fuel ih =>
    cases bs with
    | nil => cases t <;> simp [readTree, Tree.bits]
    | cons b bs =>
      rw [readTree]
      by_cases hfull : nn = Config.nodeCap
      · have hpos := t.size_pos
        rw [if_pos hfull]
        refine ⟨fun h => absurd h (by simp), fun ⟨_, hn, hcap⟩ => ?_⟩
        omega
      rw [if_neg hfull]
      have hroom : nn + 1 ≤ Config.nodeCap := by omega
      cases b with
      | true =>
        cases t with
        | node l r => simp [Tree.bits]
        | leaf s =>
          simp only [if_true, Tree.bits, List.cons_append, List.cons.injEq, true_and, eq_byteBits_append, Tree.size]
          by_cases hlen : bs.length < 8
          · simp [hlen, Nat.not_le.2 hlen]
          · simp only [if_neg hlen, Option.some.injEq, Prod.mk.injEq, Tree.leaf.injEq]
            constructor
            · rintro ⟨rfl, rfl, rfl⟩
              exact ⟨⟨Nat.not_lt.1 hlen, rfl, rfl⟩, rfl, hroom⟩
            · rintro ⟨⟨-, rfl, rfl⟩, rfl, -⟩
              exact ⟨rfl, rfl, rfl⟩
      | false =>
        have hl : ∀ l n1 bs1, readTree fuel (nn + 1) bs = some (l, n1, bs1) ↔
            bs = l.bits ++ bs1 ∧ n1 = nn + 1 + l.size ∧ n1 ≤ Config.nodeCap := fun _ _ _ => ih (by omega) hroom
        have hr : ∀ n1 bs1, nn < n1 → n1 ≤ Config.nodeCap → ∀ r n2 bs2, readTree fuel n1 bs1 = some (r, n2, bs2) ↔
            bs1 = r.bits ++ bs2 ∧ n2 = n1 + r.size ∧ n2 ≤ Config.nodeCap := fun _ _ hlt hle _ _ _ => ih (by omega) hle
        simp only [Bool.false_eq_true, if_false]
        constructor
        · intro h
          split at h
          · exact absurd h (by simp)
          · rename_i l n1 bs1 hleft
            obtain ⟨rfl, rfl, hle⟩ := (hl _ _ _).1 hleft
            split at h
            · exact absurd h (by simp)
            · rename_i r n2 bs2 hright
              obtain ⟨rfl, rfl, hle2⟩ := (hr _ _ (by omega) hle _ _ _).1 hright
              injection h with h
              injection h with ht h
              injection h with hn hrest
              subst ht hn hrest
              exact ⟨by simp [Tree.bits], by simp only [Tree.size]; omega, hle2⟩
        · rintro ⟨hbits, rfl, hle⟩
          cases t with
          | leaf s => simp [Tree.bits] at hbits
          | node l r =>
            simp only [Tree.size] at hle
            obtain rfl : bs = l.bits ++ (r.bits ++ rest) := by simpa [Tree.bits] using hbits
            rw [(hl l _ _).2 ⟨rfl, rfl, by omega⟩]
            simp only
            rw [(hr _ _ (by omega) (by omega) r _ _).2 ⟨rfl, rfl, by omega⟩]
            simp only [Tree.size, Option.some.injEq, Prod.mk.injEq, true_and, and_true]
            omega

end Sys2Proof.Machine
end

section
/-! PROOFS. Sums over lists, and the Fibonacci numbers. -/

namespace Sys2Proof.Machine

variable {α : Type}

/-! ## Sums -/

theorem sum_map_add (f g : α → Nat) (xs : List α) : (xs.map fun x => f x + g x).sum = (xs.map f).sum + (xs.map g).sum := by
  induction xs with
  | nil => rfl
  | cons x xs ih =>
    simp only [List.map_cons, List.sum_cons, ih]
    omega

theorem sum_map_zero {f : α → Nat} {xs : List α} (h : ∀ x ∈ xs, f x = 0) : (xs.map f).sum = 0 := by
  induction xs with
  | nil => rfl
  | cons x xs ih => rw [List.map_cons, List.sum_cons, h x List.mem_cons_self, ih fun y hy => h y (List.mem_cons_of_mem _ hy)]

theorem sum_map_one (xs : List α) : (xs.map fun _ => 1).sum = xs.length := by
  induction xs with
  | nil => rfl
  | cons x xs ih =>
    rw [List.map_cons, List.sum_cons, ih, List.length_cons, Nat.add_comm]

theorem sum_map_flatMap {β : Type} (g : α → List β) (f : β → Nat) (xs : List α) :
    ((xs.flatMap g).map f).sum = (xs.map fun x => ((g x).map f).sum).sum := by
  induction xs with
  | nil => rfl
  | cons x xs ih => simp only [List.flatMap_cons, List.map_append, List.sum_append, List.map_cons, List.sum_cons, ih]

theorem sum_eq_of_perm {xs ys : List Nat} (h : xs.Perm ys) : xs.sum = ys.sum := by
  induction h with
  | nil => rfl
  | cons x _ ih => rw [List.sum_cons, List.sum_cons, ih]
  | swap x y xs =>
    simp only [List.sum_cons]
    omega
  | trans _ _ ih ih' => exact ih.trans ih'

/-- Of a list of different bytes one alone contributes. -/
theorem sum_map_single {ds : List Byte} (hd : ds.Nodup) {c : Byte} (hc : c ∈ ds) (g : Byte → Nat) :
    (ds.map fun b => if b = c then g b else 0).sum = g c := by
  induction ds with
  | nil => exact absurd hc List.not_mem_nil
  | cons d ds ih =>
    obtain ⟨hnot, hds⟩ := List.nodup_cons.1 hd
    rw [List.map_cons, List.sum_cons]
    by_cases hdc : d = c
    · subst hdc
      rw [if_pos rfl, sum_map_zero fun b hb => if_neg (ne_of_mem_of_not_mem hb hnot), Nat.add_zero]
    · rw [if_neg hdc, Nat.zero_add]
      exact ih hds ((List.mem_cons.1 hc).resolve_left (Ne.symm hdc))

/-- A sum over a sequence is one over its different bytes, each as often as it occurs. -/
theorem sum_map_eq_sum_count {ds : List Byte} (hd : ds.Nodup) {S : Bytes} (hS : ∀ b ∈ S, b ∈ ds) (g : Byte → Nat) :
    (S.map g).sum = (ds.map fun b => S.count b * g b).sum := by
  induction S with
  | nil => exact (sum_map_zero fun b _ => Nat.zero_mul (g b)).symm
  | cons c S ih =>
    have hstep : ∀ b, (c :: S).count b * g b = S.count b * g b + if b = c then g b else 0 := fun b => by
      rw [List.count_cons, Nat.add_mul]
      by_cases hbc : b = c
      · subst hbc
        rw [beq_self_eq_true, if_pos rfl, if_pos rfl, Nat.one_mul]
      · rw [beq_eq_false_iff_ne.2 (Ne.symm hbc), if_neg (by simp), if_neg hbc, Nat.zero_mul]
    rw [List.map_cons, List.sum_cons, ih fun b hb => hS b (List.mem_cons_of_mem _ hb), funext hstep, sum_map_add,
      sum_map_single hd (hS c List.mem_cons_self), Nat.add_comm]

theorem length_eq_sum_count {ds : List Byte} (hd : ds.Nodup) {S : Bytes} (hS : ∀ b ∈ S, b ∈ ds) :
    S.length = (ds.map fun b => S.count b).sum := by
  have hone := sum_map_eq_sum_count hd hS fun _ => 1
  simp only [Nat.mul_one] at hone
  rw [← hone, sum_map_one]

/-! ## Fibonacci numbers -/

/-- The Fibonacci numbers, from 0 and 1 on. -/
def fib : Nat → Nat
  | 0     => 0
  | 1     => 1
  | n + 2 => fib n + fib (n + 1)

theorem fib_add_two (n : Nat) : fib (n + 2) = fib n + fib (n + 1) := rfl

theorem fib_le_succ (n : Nat) : fib n ≤ fib (n + 1) := by
  cases n with
  | zero => exact Nat.zero_le _
  | succ n =>
    rw [fib_add_two]
    exact Nat.le_add_left _ _

theorem fib_mono {m n : Nat} (h : m ≤ n) : fib m ≤ fib n := by
  induction h with
  | refl => exact Nat.le_refl _
  | step _ ih => exact Nat.le_trans ih (fib_le_succ _)

theorem fib_48 : fib 48 = 4807526976 := by decide +kernel

end Sys2Proof.Machine
end

section
/-! PROOFS. Weight, cost and depth of a code tree (R169, R171): an internal node's frequency is the sum of its children's, a tree in
which no grandchild outweighs its uncle has Fibonacci depth, and the cost is what the payload takes. -/

namespace Sys2Proof.Machine

variable {t : Tree} {b : Byte} {p : Bits} {f : Byte → Nat}

/-- The frequency of a tree: the sum of its symbols' frequencies. -/
def Tree.weight (f : Byte → Nat) : Tree → Nat
  | .leaf s   => f s
  | .node l r => l.weight f + r.weight f

/-- The bits that the paths take, each as often as its symbol occurs: the sum of the internal nodes' frequencies. -/
def Tree.cost (f : Byte → Nat) : Tree → Nat
  | .leaf _   => 0
  | .node l r => l.cost f + r.cost f + (l.weight f + r.weight f)

theorem Tree.weight_eq_sum (f : Byte → Nat) (t : Tree) : t.weight f = (t.syms.map f).sum := by
  induction t with
  | leaf s => simp [Tree.weight, Tree.syms]
  | node l r ihl ihr => simp [Tree.weight, Tree.syms, ihl, ihr]

theorem Tree.cost_eq_sum (f : Byte → Nat) (t : Tree) : t.cost f = (t.paths.map fun x => f x.1 * x.2.length).sum := by
  induction t with
  | leaf s => simp [Tree.cost, Tree.paths]
  | node l r ihl ihr =>
    simp only [Tree.cost, ihl, ihr, Tree.weight_eq_sum, ← Tree.map_fst_paths, Tree.paths, List.map_append, List.map_map, List.sum_append,
      Function.comp_def, List.length_cons, Nat.mul_add_one, sum_map_add]
    omega

/-! ## Depth (R171) -/

/-- The frequency of the heavier child of the root, 0 for a leaf. -/
def Tree.childMax (f : Byte → Nat) : Tree → Nat
  | .leaf _   => 0
  | .node l r => max (l.weight f) (r.weight f)

/-- No grandchild outweighs its uncle. -/
def Tree.Balanced (f : Byte → Nat) : Tree → Prop
  | .leaf _   => True
  | .node l r => l.Balanced f ∧ r.Balanced f ∧ l.childMax f ≤ r.weight f ∧ r.childMax f ≤ l.weight f

theorem Tree.weight_pos (hf : ∀ b ∈ t.syms, 0 < f b) : 0 < t.weight f := by
  induction t with
  | leaf s => exact hf s (List.mem_singleton.2 rfl)
  | node l r ihl _ => exact Nat.add_pos_left (ihl fun b hb => hf b (List.mem_append_left _ hb)) _

/-- One edge up: the frequency below and the uncle's make two steps of the Fibonacci sequence one. -/
theorem fib_edge {n w w' c : Nat} (hw : fib (n + 2) ≤ w) (hc : fib (n + 1) ≤ max 1 c) (huncle : c ≤ w') (hpos : 0 < w') :
    fib (n + 1 + 2) ≤ w + w' ∧ fib (n + 1 + 1) ≤ w := by
  have hfib : fib (n + 1 + 2) = fib (n + 1) + fib (n + 2) := fib_add_two _
  exact ⟨by omega, hw⟩

/-- In a balanced tree a path of length d makes the tree's frequency Fib(d + 2) or more, and the heavier child's Fib(d + 1). -/
theorem Tree.Balanced.fib_le (h : t.Balanced f) (hf : ∀ b ∈ t.syms, 0 < f b) (hp : (b, p) ∈ t.paths) :
    fib (p.length + 2) ≤ t.weight f ∧ fib (p.length + 1) ≤ max 1 (t.childMax f) := by
  induction t generalizing p with
  | leaf s =>
    obtain ⟨rfl, rfl⟩ : b = s ∧ p = [] := by simpa [Tree.paths] using hp
    exact ⟨hf b (List.mem_singleton.2 rfl), Nat.le_max_left _ _⟩
  | node l r ihl ihr =>
    obtain ⟨hl, hr, huncle, huncle'⟩ := h
    have hfl : ∀ b ∈ l.syms, 0 < f b := fun b hb => hf b (List.mem_append_left _ hb)
    have hfr : ∀ b ∈ r.syms, 0 < f b := fun b hb => hf b (List.mem_append_right _ hb)
    rw [Tree.weight, Tree.childMax]
    obtain ⟨q, ⟨hq, rfl⟩ | ⟨hq, rfl⟩⟩ := Tree.mem_paths_node.1 hp <;> rw [List.length_cons]
    · obtain ⟨hw, hc⟩ := ihl hl hfl hq
      obtain ⟨hsum, hchild⟩ := fib_edge hw hc huncle (Tree.weight_pos hfr)
      exact ⟨hsum, by omega⟩
    · obtain ⟨hw, hc⟩ := ihr hr hfr hq
      obtain ⟨hsum, hchild⟩ := fib_edge hw hc huncle' (Tree.weight_pos hfl)
      exact ⟨by omega, by omega⟩

/-! ## The payload -/

/-- The codes of a sequence take the tree's cost for its counts, where the tree's symbols are the sequence's. -/
theorem length_flatMap_code {S : Bytes} {l r : Tree} (hd : (Tree.node l r).syms.Nodup) (hS : ∀ b, b ∈ (Tree.node l r).syms ↔ b ∈ S) :
    (S.flatMap (Tree.node l r).code).length = (Tree.node l r).cost fun b => S.count b := by
  have hpath : ∀ x ∈ (Tree.node l r).paths, S.count x.1 * ((Tree.node l r).code x.1).length = S.count x.1 * x.2.length :=
    fun x hx => by rw [Tree.code_eq_path hd hx]
  calc (S.flatMap (Tree.node l r).code).length
      = ((Tree.node l r).syms.map fun b => S.count b * ((Tree.node l r).code b).length).sum := by
        rw [List.length_flatMap, sum_map_eq_sum_count hd fun b hb => (hS b).2 hb]
    _ = ((Tree.node l r).paths.map fun x => S.count x.1 * x.2.length).sum := by
        rw [← Tree.map_fst_paths, List.map_map, ← List.map_congr_left hpath]
        rfl
    _ = (Tree.node l r).cost fun b => S.count b := (Tree.cost_eq_sum (fun b => S.count b) _).symm

end Sys2Proof.Machine
end

section
/-! PROOFS. The tree of a file (R156, R160, R168): the queue of trees waiting to be merged, what each merge keeps, and from that the
tree's symbols, its depth and its cost. -/

namespace Sys2Proof.Machine

variable {file : Bytes} {t : Tree} {k : Nat} {xs : List Item}

/-! ## The queue -/

theorem Item.lt_iff {a b : Item} : a.lt b = true ↔ a.freq < b.freq ∨ a.freq = b.freq ∧ a.seq < b.seq := by
  simp only [Item.lt, Bool.or_eq_true, Bool.and_eq_true, decide_eq_true_eq, beq_iff_eq]

theorem Item.lt_trans {a b c : Item} (h : a.lt b = true) (h' : b.lt c = true) : a.lt c = true := by
  rw [Item.lt_iff] at *
  omega

theorem Item.lt.freq_le {a b : Item} (h : a.lt b = true) : a.freq ≤ b.freq := by
  rw [Item.lt_iff] at h
  omega

theorem insertItem_perm (x : Item) (xs : List Item) : (insertItem x xs).Perm (x :: xs) := by
  induction xs with
  | nil => exact .refl _
  | cons y ys ih =>
    rw [insertItem]
    split
    · exact .refl _
    · exact (ih.cons y).trans (.swap x y ys)

/-- The keys rise, and the items are numbered below `k`. -/
structure Ordered (k : Nat) (xs : List Item) : Prop where
  rises : xs.Pairwise fun a b => a.lt b = true
  below : ∀ x ∈ xs, x.seq < k

theorem Ordered.nil (k : Nat) : Ordered k [] := ⟨.nil, by simp⟩

theorem Ordered.tail {a : Item} (h : Ordered k (a :: xs)) : Ordered k xs :=
  ⟨(List.pairwise_cons.1 h.rises).2, fun x hx => h.below x (List.mem_cons_of_mem _ hx)⟩

/-- A new item, numbered `k`, goes to its place. -/
theorem Ordered.insert (h : Ordered k xs) {x : Item} (hx : x.seq = k) : Ordered (k + 1) (insertItem x xs) := by
  refine ⟨?_, fun y hy => ?_⟩
  · induction xs with
    | nil => exact List.pairwise_singleton _ _
    | cons y ys ih =>
      obtain ⟨hy, hys⟩ := List.pairwise_cons.1 h.rises
      have hyk := h.below y List.mem_cons_self
      rw [insertItem]
      split
      · rename_i hlt
        refine List.pairwise_cons.2 ⟨fun z hz => ?_, h.rises⟩
        rcases List.mem_cons.1 hz with rfl | hz
        · exact hlt
        · exact Item.lt_trans hlt (hy z hz)
      · rename_i hlt
        refine List.pairwise_cons.2 ⟨fun z hz => ?_, ih h.tail⟩
        rcases List.mem_cons.1 ((insertItem_perm x ys).mem_iff.1 hz) with rfl | hz
        · rw [Item.lt_iff] at *
          omega
        · exact hy z hz
  · rcases List.mem_cons.1 ((insertItem_perm x xs).mem_iff.1 hy) with rfl | hy
    · omega
    · exact Nat.lt_succ_of_lt (h.below y hy)

/-- The first item of a queue has the least frequency. -/
theorem Ordered.head_freq_le {a x : Item} (h : Ordered k (a :: xs)) (hx : x ∈ a :: xs) : a.freq ≤ x.freq := by
  rcases List.mem_cons.1 hx with rfl | hx
  · exact Nat.le_refl _
  · exact Item.lt.freq_le ((List.pairwise_cons.1 h.rises).1 x hx)

/-! ## Leaves and merges (R168) -/

/-- The symbols that occur in a file among the `n` from `s` on. -/
def occurring (file : Bytes) (n s : Nat) : List Byte := ((List.range' s n).map (BitVec.ofNat 8)).filter (· ∈ file)

theorem nodup_occurring (file : Bytes) : (occurring file Config.alphabet 0).Nodup := by
  refine .filter _ (List.pairwise_map.2 (List.Pairwise.imp_of_mem (fun {a b} ha hb hne hab => hne ?_) List.nodup_range'))
  have hm := congrArg BitVec.toNat hab
  simp only [List.mem_range'_1, Config.alphabet] at ha hb
  rwa [BitVec.toNat_ofNat, BitVec.toNat_ofNat, Nat.mod_eq_of_lt (by omega), Nat.mod_eq_of_lt (by omega)] at hm

theorem mem_occurring {b : Byte} : b ∈ occurring file Config.alphabet 0 ↔ b ∈ file := by
  simp only [occurring, List.mem_filter, decide_eq_true_eq, and_iff_right_iff_imp]
  intro _
  exact List.mem_map.2 ⟨b.toNat, by simpa [Config.alphabet] using b.isLt, BitVec.ofNat_toNat ..⟩

theorem length_occurring_le (file : Bytes) : (occurring file Config.alphabet 0).length ≤ Config.alphabet :=
  Nat.le_trans (List.length_filter_le _ _) (by simp)

/-- The leaf items, in the order of their symbols: one for each that occurs, with its count. -/
theorem flatMap_syms_leafItems (file : Bytes) (n s k : Nat) :
    (leafItems file n s k).flatMap (·.tree.syms) = occurring file n s := by
  induction n generalizing s k with
  | zero => rfl
  | succ n ih =>
    simp only [leafItems, occurring, List.range'_succ, List.map_cons, List.filter_cons, List.count_pos_iff, decide_eq_true_eq]
    split
    · rw [List.flatMap_cons, ih]
      rfl
    · exact ih _ _

theorem mem_leafItems {n s k : Nat} {x : Item} (h : x ∈ leafItems file n s k) :
    ∃ b, x.tree = .leaf b ∧ x.freq = file.count b := by
  induction n generalizing s k with
  | zero => exact absurd h List.not_mem_nil
  | succ n ih =>
    simp only [leafItems] at h
    split at h
    · rcases List.mem_cons.1 h with rfl | h
      · exact ⟨_, rfl, rfl⟩
      · exact ih h
    · exact ih h

theorem leafItems_nil (n s k : Nat) : leafItems [] n s k = [] := by
  induction n generalizing s with
  | zero => rfl
  | succ n ih => exact ih (s + 1)

theorem length_leafItems_le (file : Bytes) (n s k : Nat) : (leafItems file n s k).length ≤ n := by
  induction n generalizing s k with
  | zero => exact Nat.le_refl _
  | succ n ih =>
    simp only [leafItems]
    split
    · exact Nat.succ_le_succ (ih _ _)
    · exact Nat.le_succ_of_le (ih _ _)

/-- A queue with the leaf items inserted, one after the other. -/
def withLeaves (file : Bytes) (n s k : Nat) (xs : List Item) : List Item :=
  (leafItems file n s k).foldl (fun ys x => insertItem x ys) xs

theorem withLeaves_perm (file : Bytes) (n s k : Nat) (xs : List Item) :
    (withLeaves file n s k xs).Perm (leafItems file n s k ++ xs) := by
  rw [withLeaves]
  induction leafItems file n s k generalizing xs with
  | nil => exact .refl _
  | cons x ys ih => exact (ih _).trans (((insertItem_perm x xs).append_left ys).trans List.perm_middle)

theorem Ordered.withLeaves (h : Ordered k xs) (file : Bytes) (n s : Nat) :
    Ordered (k + (leafItems file n s k).length) (withLeaves file n s k xs) := by
  induction n generalizing s k xs with
  | zero => exact h
  | succ n ih =>
    simp only [Machine.withLeaves, leafItems]
    split
    · rw [List.length_cons, Nat.add_comm _ 1, ← Nat.add_assoc]
      exact ih (h.insert rfl) (s + 1)
    · exact ih h (s + 1)

/-- The item that two items merge into, numbered `k`. -/
def Item.merged (k : Nat) (a b : Item) : Item := ⟨a.freq + b.freq, k, .node a.tree b.tree⟩

theorem mergeItems_cons_cons (fuel k : Nat) (a b : Item) (rest : List Item) :
    mergeItems (fuel + 1) k (a :: b :: rest) = mergeItems fuel (k + 1) (insertItem (a.merged k b) rest) := rfl

theorem mergeItems_of_length_le {fuel : Nat} (h : xs.length ≤ 1) : mergeItems fuel k xs = xs := by
  match fuel, xs, h with
  | 0, _, _ => rfl
  | _ + 1, [], _ => rfl
  | _ + 1, [_], _ => rfl

/-- The queue of a file between two merges: frequencies are those of the trees, whose symbols are the file's. -/
structure Queue (file : Bytes) (k : Nat) (xs : List Item) : Prop where
  ordered : Ordered k xs
  freq    : ∀ x ∈ xs, x.freq = x.tree.weight fun b => file.count b
  syms    : (xs.flatMap (·.tree.syms)).Perm (occurring file Config.alphabet 0)

theorem queue_withLeaves (file : Bytes) :
    Queue file (leafItems file Config.alphabet 0 0).length (withLeaves file Config.alphabet 0 0 []) where
  ordered := by simpa using (Ordered.nil 0).withLeaves file Config.alphabet 0
  freq x hx := by
    have hmem := (withLeaves_perm file Config.alphabet 0 0 []).mem_iff.1 hx
    rw [List.append_nil] at hmem
    obtain ⟨b, ht, hf⟩ := mem_leafItems hmem
    rw [ht, hf]
    rfl
  syms := by
    rw [← flatMap_syms_leafItems file Config.alphabet 0 0]
    simpa using (withLeaves_perm file Config.alphabet 0 0 []).flatMap_right fun x => x.tree.syms

theorem Queue.merge {a b : Item} {rest : List Item} (h : Queue file k (a :: b :: rest)) :
    Queue file (k + 1) (insertItem (a.merged k b) rest) where
  ordered := h.ordered.tail.tail.insert rfl
  freq x hx := by
    rcases List.mem_cons.1 ((insertItem_perm _ _).mem_iff.1 hx) with rfl | hx
    · simp [Item.merged, Tree.weight, h.freq a, h.freq b]
    · exact h.freq x (by simp [hx])
  syms := by
    refine (((insertItem_perm (a.merged k b) rest).flatMap_right fun x => x.tree.syms).trans ?_).trans h.syms
    simp [Item.merged, Tree.syms]

/-- The frequencies make up the file's length (R169). -/
theorem Queue.freq_sum (h : Queue file k xs) : (xs.map (·.freq)).sum = file.length := by
  have hfreq : xs.map (·.freq) = xs.map fun x => (x.tree.syms.map fun b => file.count b).sum :=
    List.map_congr_left fun x hx => by rw [h.freq x hx, Tree.weight_eq_sum]
  calc (xs.map (·.freq)).sum
      = ((xs.flatMap (·.tree.syms)).map fun b => file.count b).sum := by
        rw [hfreq, sum_map_flatMap]
    _ = ((occurring file Config.alphabet 0).map fun b => file.count b).sum := sum_eq_of_perm (h.syms.map _)
    _ = file.length := (length_eq_sum_count (nodup_occurring file) fun _ hb => mem_occurring.2 hb).symm

/-- What the leaves have and each merge keeps, the last item has. -/
theorem Queue.induct {P : List Item → Prop} {fuel : Nat} (h : Queue file k xs) (hP : P xs)
    (merge : ∀ k a b rest, Queue file k (a :: b :: rest) → P (a :: b :: rest) → P (insertItem (a.merged k b) rest)) :
    ∃ k', Queue file k' (mergeItems fuel k xs) ∧ P (mergeItems fuel k xs) := by
  induction fuel generalizing k xs with
  | zero => exact ⟨k, h, hP⟩
  | succ fuel ih =>
    match xs, h, hP with
    | [], h, hP => exact ⟨k, h, hP⟩
    | [_], h, hP => exact ⟨k, h, hP⟩
    | a :: b :: rest, h, hP => exact ih h.merge (merge k a b rest h hP)

theorem length_mergeItems {fuel : Nat} (hpos : 0 < xs.length) (hf : xs.length ≤ fuel + 1) : (mergeItems fuel k xs).length = 1 := by
  induction fuel generalizing k xs with
  | zero => exact Nat.le_antisymm hf hpos
  | succ fuel ih =>
    match xs, hpos, hf with
    | [_], _, _ => rfl
    | a :: b :: rest, _, hf =>
      have hlen := (insertItem_perm (a.merged k b) rest).length_eq
      rw [List.length_cons] at hlen
      simp only [List.length_cons] at hf
      rw [mergeItems_cons_cons]
      exact ih (by omega) (by omega)

/-- The merges of a file's leaves end with one item, the file's tree; with none for the empty file. -/
theorem huffTree_eq (file : Bytes) :
    huffTree file = (mergeItems (leafItems file Config.alphabet 0 0).length (leafItems file Config.alphabet 0 0).length
      (withLeaves file Config.alphabet 0 0 [])).head?.map (·.tree) := rfl

theorem length_withLeaves (file : Bytes) :
    (withLeaves file Config.alphabet 0 0 []).length = (leafItems file Config.alphabet 0 0).length := by
  simpa using (withLeaves_perm file Config.alphabet 0 0 []).length_eq

theorem exists_merged_of_huffTree (h : huffTree file = some t) :
    ∃ x, x.tree = t ∧ mergeItems (leafItems file Config.alphabet 0 0).length (leafItems file Config.alphabet 0 0).length
      (withLeaves file Config.alphabet 0 0 []) = [x] := by
  rw [huffTree_eq] at h
  obtain ⟨x, hx, rfl⟩ := Option.map_eq_some_iff.1 h
  refine ⟨x, rfl, ?_⟩
  have hpos : 0 < (withLeaves file Config.alphabet 0 0 []).length := by
    refine Nat.pos_of_ne_zero fun hz => ?_
    rw [mergeItems_of_length_le (by omega)] at hx
    exact Nat.ne_of_gt (List.length_pos_of_mem (List.mem_of_mem_head? hx)) hz
  obtain ⟨y, hy⟩ := List.length_eq_one_iff.1
    (length_mergeItems (k := (leafItems file Config.alphabet 0 0).length) hpos (Nat.le_succ_of_le (Nat.le_of_eq (length_withLeaves file))))
  rw [hy] at hx ⊢
  simpa using hx

/-- What a file's leaves have and each merge keeps, the file's tree has. -/
theorem huffTree_induct {P : List Item → Prop} (h : huffTree file = some t)
    (leaves : ∀ k xs, Queue file k xs → (∀ x ∈ xs, ∃ b, x.tree = .leaf b) → xs.length ≤ Config.alphabet → P xs)
    (merge : ∀ k a b rest, Queue file k (a :: b :: rest) → P (a :: b :: rest) → P (insertItem (a.merged k b) rest)) :
    ∃ k x, x.tree = t ∧ Queue file k [x] ∧ P [x] := by
  obtain ⟨x, ht, hx⟩ := exists_merged_of_huffTree h
  have hq := queue_withLeaves file
  have hleaf : ∀ y ∈ withLeaves file Config.alphabet 0 0 [], ∃ b, y.tree = .leaf b := fun y hy => by
    obtain ⟨b, hb, -⟩ := mem_leafItems (by simpa using (withLeaves_perm file Config.alphabet 0 0 []).mem_iff.1 hy)
    exact ⟨b, hb⟩
  have hlen : (withLeaves file Config.alphabet 0 0 []).length ≤ Config.alphabet :=
    length_withLeaves file ▸ length_leafItems_le _ _ _ _
  obtain ⟨k, hk⟩ := hq.induct (leaves _ _ hq hleaf hlen) merge
  rw [hx] at hk
  exact ⟨k, x, ht, hk⟩

/-- The symbols of a file's tree are those of the file, each once. -/
theorem huffTree_syms (h : huffTree file = some t) : t.syms.Perm (occurring file Config.alphabet 0) := by
  obtain ⟨_, x, rfl, hq, -⟩ := huffTree_induct (P := fun _ => True) h (fun _ _ _ _ _ => trivial) fun _ _ _ _ _ _ => trivial
  simpa using hq.syms

theorem huffTree_weight (h : huffTree file = some t) : (t.weight fun b => file.count b) = file.length := by
  obtain ⟨_, x, rfl, hq, -⟩ := huffTree_induct (P := fun _ => True) h (fun _ _ _ _ _ => trivial) fun _ _ _ _ _ _ => trivial
  rw [← hq.freq x (List.mem_singleton.2 rfl), ← hq.freq_sum, List.map_singleton, List.sum_singleton]

theorem huffTree_nodup (h : huffTree file = some t) : t.syms.Nodup := (huffTree_syms h).nodup_iff.2 (nodup_occurring file)

theorem mem_huffTree_syms (h : huffTree file = some t) {b : Byte} : b ∈ t.syms ↔ b ∈ file :=
  (huffTree_syms h).mem_iff.trans mem_occurring

theorem huffTree_leaves_le (h : huffTree file = some t) : t.leaves ≤ Config.alphabet := by
  rw [← Tree.length_syms, (huffTree_syms h).length_eq]
  exact length_occurring_le file

theorem huffTree_size_le (h : huffTree file = some t) : t.size ≤ Config.nodeCap := by
  have hsize := t.size_add_one
  have hleaves := huffTree_leaves_le h
  simp only [Config.alphabet, Config.nodeCap] at *
  omega

theorem huffTree_eq_none_iff : huffTree file = none ↔ file = [] := by
  constructor
  · intro h
    rw [huffTree_eq, Option.map_eq_none_iff, List.head?_eq_none_iff] at h
    have hq := (queue_withLeaves file).induct (P := fun _ => True)
      (fuel := (leafItems file Config.alphabet 0 0).length) trivial fun _ _ _ _ _ _ => trivial
    obtain ⟨_, hq, -⟩ := hq
    rw [h] at hq
    exact List.eq_nil_iff_forall_not_mem.2 fun b hb => by simpa [hq.syms.symm.eq_nil] using mem_occurring.2 hb
  · rintro rfl
    simp [huffTree_eq, withLeaves, leafItems_nil, mergeItems]

/-! ## Depth (R171) -/

/-- No tree's child outweighs another tree that waits. -/
def Level (f : Byte → Nat) (xs : List Item) : Prop :=
  ∀ x ∈ xs, x.tree.Balanced f ∧ ∀ y ∈ xs, x.tree.childMax f ≤ y.tree.weight f

theorem Level.merge {a b : Item} {rest : List Item} (hq : Queue file k (a :: b :: rest))
    (h : Level (fun c => file.count c) (a :: b :: rest)) : Level (fun c => file.count c) (insertItem (a.merged k b) rest) := by
  have ha : a ∈ a :: b :: rest := List.mem_cons_self
  have hb : b ∈ a :: b :: rest := List.mem_cons_of_mem _ List.mem_cons_self
  have hrest : ∀ y ∈ rest, y ∈ a :: b :: rest := fun y hy => List.mem_cons_of_mem _ (List.mem_cons_of_mem _ hy)
  have hnew : (a.merged k b).tree.childMax (fun c => file.count c) = max a.freq b.freq := by
    rw [hq.freq a ha, hq.freq b hb]
    rfl
  have hwt : ∀ y ∈ a :: b :: rest, y.tree.weight (fun c => file.count c) = y.freq := fun y hy => (hq.freq y hy).symm
  have hwnew : (a.merged k b).tree.weight (fun c => file.count c) = a.freq + b.freq := by
    rw [← hwt a ha, ← hwt b hb]
    rfl
  intro x hx
  rcases List.mem_cons.1 ((insertItem_perm _ _).mem_iff.1 hx) with rfl | hx
  · refine ⟨⟨(h a ha).1, (h b hb).1, (h a ha).2 b hb, (h b hb).2 a ha⟩, fun y hy => ?_⟩
    rw [hnew]
    rcases List.mem_cons.1 ((insertItem_perm _ _).mem_iff.1 hy) with rfl | hy
    · omega
    · have hab := hq.ordered.head_freq_le hb
      have hby := hq.ordered.tail.head_freq_le (List.mem_cons_of_mem _ hy)
      rw [hwt y (hrest y hy)]
      omega
  · refine ⟨(h x (hrest x hx)).1, fun y hy => ?_⟩
    rcases List.mem_cons.1 ((insertItem_perm _ _).mem_iff.1 hy) with rfl | hy
    · have hxa := (h x (hrest x hx)).2 a ha
      rw [hwt a ha] at hxa
      omega
    · exact (h x (hrest x hx)).2 y (hrest y hy)

/-- In a file's tree no grandchild outweighs its uncle. -/
theorem huffTree_balanced (h : huffTree file = some t) : t.Balanced fun b => file.count b := by
  obtain ⟨_, x, rfl, -, hx⟩ := huffTree_induct (P := Level fun b => file.count b) h
    (fun _ xs _ hleaf _ x hx => by
      obtain ⟨b, hb⟩ := hleaf x hx
      rw [hb]
      exact ⟨trivial, fun _ _ => Nat.zero_le _⟩)
    fun _ _ _ _ hq hP => hP.merge hq
  exact (hx x (List.mem_singleton.2 rfl)).1

/-- No path in the tree of a file no longer than MAX_ORIG is longer than 45 edges. -/
theorem huffTree_depth_le (h : huffTree file = some t) (hlen : file.length ≤ Config.maxOrig) {b : Byte} {p : Bits}
    (hp : (b, p) ∈ t.paths) : p.length ≤ 45 := by
  have hfib := ((huffTree_balanced h).fib_le (fun c hc => List.count_pos_iff.2 ((mem_huffTree_syms h).1 hc)) hp).1
  rw [huffTree_weight h] at hfib
  refine Nat.le_of_not_lt fun hdeep => ?_
  have hmono : fib 48 ≤ fib (p.length + 2) := fib_mono (by omega)
  have h48 := fib_48
  have hmax : Config.maxOrig = 0xFFFFFEBF := rfl
  omega

/-! ## Cost (R177) -/

/-- The total frequency of the first `j` items. -/
def freqSum (j : Nat) (xs : List Item) : Nat := ((xs.map (·.freq)).take j).sum

theorem freqSum_cons (j : Nat) (x : Item) (xs : List Item) : freqSum (j + 1) (x :: xs) = x.freq + freqSum j xs := by simp [freqSum]

/-- An item in place of the last of `j + 1` that are no lighter. -/
theorem add_freqSum_le {j : Nat} {x : Item} (hj : j < xs.length) (hx : ∀ y ∈ xs, x.freq ≤ y.freq) :
    x.freq + freqSum j xs ≤ freqSum (j + 1) xs := by
  have hlt : j < (xs.map (·.freq)).length := by simpa using hj
  have hxj := hx xs[j] (List.getElem_mem hj)
  rw [freqSum, freqSum, List.take_succ_eq_append_getElem hlt, List.sum_append, List.getElem_map, List.sum_singleton]
  omega

/-- An item inserted makes the first `j` no heavier. -/
theorem Ordered.freqSum_insert_le {j : Nat} (h : Ordered k xs) (x : Item) (hj : j ≤ xs.length) :
    freqSum j (insertItem x xs) ≤ freqSum j xs := by
  induction xs generalizing j with
  | nil => simp [freqSum, show j = 0 by simpa using hj]
  | cons y ys ih =>
    cases j with
    | zero => simp [freqSum]
    | succ j =>
      rw [insertItem]
      split
      · rename_i hlt
        rw [freqSum_cons]
        exact add_freqSum_le hj fun z hz => Nat.le_trans (Item.lt.freq_le hlt) (h.head_freq_le hz)
      · rw [freqSum_cons, freqSum_cons]
        exact Nat.add_le_add_left (ih h.tail (by simpa using hj)) _

/-- The trees made so far and what is still to be merged cost `B` or less, if the first `j` items come to lie at depth `k + 1` and
the others at depth `k`: two to the depth leave room for all of them (Kraft). -/
structure Affordable (B : Nat) (f : Byte → Nat) (k j : Nat) (xs : List Item) : Prop where
  first : j ≤ xs.length
  room  : 2 * xs.length ≤ 2 ^ (k + 1) + j
  cost  : (xs.map (·.tree.cost f)).sum + k * (xs.map (·.freq)).sum + freqSum j xs ≤ B

theorem freqSum_length (xs : List Item) : freqSum xs.length xs = (xs.map (·.freq)).sum := by simp [freqSum, List.take_of_length_le]

/-- With two items left, two of them can be taken to lie at the greater depth. -/
theorem Affordable.deepen {B j : Nat} {f : Byte → Nat} (h : Affordable B f k j xs) (hlen : 2 ≤ xs.length) :
    ∃ k j, 2 ≤ j ∧ Affordable B f k j xs := by
  by_cases hj : 2 ≤ j
  · exact ⟨k, j, hj, h⟩
  · cases k with
    | zero => have := h.room; omega
    | succ k =>
      have hroom := h.room
      have hcost := h.cost
      rw [Nat.add_mul, Nat.one_mul] at hcost
      refine ⟨k, xs.length, hlen, Nat.le_refl _, ?_, ?_⟩
      · rw [Nat.pow_succ] at hroom
        omega
      · rw [freqSum_length]
        omega

/-- The merge of the two first items pays for its node: it moves them up one level. -/
theorem Affordable.merge {B j : Nat} {f : Byte → Nat} {n : Nat} {a b : Item} {rest : List Item} (ho : Ordered n (a :: b :: rest))
    (ha : a.freq = a.tree.weight f) (hb : b.freq = b.tree.weight f) (h : Affordable B f k (j + 2) (a :: b :: rest)) :
    Affordable B f k j (insertItem (a.merged n b) rest) := by
  have hfirst := h.first
  have hroom := h.room
  have hcost := h.cost
  have hperm := insertItem_perm (a.merged n b) rest
  have hlen := hperm.length_eq
  have hcosts := sum_eq_of_perm (hperm.map (·.tree.cost f))
  have hfreqs := sum_eq_of_perm (hperm.map (·.freq))
  have htake := ho.tail.tail.freqSum_insert_le (a.merged n b) (j := j) (by simp only [List.length_cons] at hfirst; omega)
  simp only [List.length_cons, List.map_cons, List.sum_cons, freqSum_cons] at *
  refine ⟨by omega, by omega, ?_⟩
  have hnew : (a.merged n b).tree.cost f = a.tree.cost f + b.tree.cost f + (a.freq + b.freq) := by rw [ha, hb]; rfl
  have hsum : (a.merged n b).freq = a.freq + b.freq := rfl
  rw [hcosts, hfreqs, hnew, hsum, Nat.add_assoc a.freq b.freq]
  omega

/-- The codes of a file take 8 bits per byte or fewer: no more than the bytes themselves. -/
theorem huffTree_cost_le (h : huffTree file = some t) : (t.cost fun b => file.count b) ≤ 8 * file.length := by
  have hleaves : ∀ xs k, Queue file k xs → (∀ x ∈ xs, ∃ b, x.tree = .leaf b) → xs.length ≤ Config.alphabet →
      Affordable (8 * file.length) (fun b => file.count b) 7 xs.length xs := by
    intro xs k hq hleaf hlen
    have hzero : (xs.map (·.tree.cost fun b => file.count b)).sum = 0 := sum_map_zero fun x hx => by
      obtain ⟨b, hb⟩ := hleaf x hx
      rw [hb]
      rfl
    have hcap : Config.alphabet = 256 := rfl
    refine ⟨Nat.le_refl _, by omega, ?_⟩
    rw [hzero, freqSum_length, hq.freq_sum]
    omega
  obtain ⟨_, x, rfl, -, _, _, hx⟩ := huffTree_induct
    (P := fun xs => ∃ k j, Affordable (8 * file.length) (fun b => file.count b) k j xs) h
    (fun k xs hq hleaf hlen => ⟨_, _, hleaves xs k hq hleaf hlen⟩) fun n a b rest hq hP => by
      obtain ⟨k, j, hP⟩ := hP
      obtain ⟨k, j, hj, hP⟩ := hP.deepen (by simp)
      obtain ⟨i, rfl⟩ := Nat.exists_eq_add_of_le' hj
      exact ⟨k, i, hP.merge hq.ordered (hq.freq a (by simp)) (hq.freq b (by simp))⟩
  have hcost := hx.cost
  rw [List.map_singleton, List.sum_singleton] at hcost
  omega

end Sys2Proof.Machine
end

section
/-! PROOFS. The laws of blocks (R171, R172, R174, R177, R184). -/

namespace Sys2Proof.Machine

variable {S : Bytes} {t : Tree}

theorem blockOf_of_tree (h : huffTree S = some t) : blockOf S = pack (blockBits t S) := by rw [blockOf, h]

@[simp] theorem blockOf_nil : blockOf [] = [] := by rw [blockOf, huffTree_eq_none_iff.2 rfl]

/-- A tree has a byte's worth of bits and one more per leaf, and one per internal node (R174). -/
theorem huffTree_bits_length (h : huffTree S = some t) : t.bits.length ≤ 2559 := by
  have hbits := t.bits_length_add_one
  have hleaves := huffTree_leaves_le h
  have hcap : Config.alphabet = 256 := rfl
  omega

/-- The payload is no longer than the file (R177). -/
theorem payload_length_le (h : huffTree S = some t) : (S.flatMap t.code).length ≤ 8 * S.length := by
  cases t with
  | leaf s =>
    have hone : ∀ b ∈ S, ((Tree.leaf s).code b).length = 1 := fun _ _ => rfl
    rw [List.length_flatMap, List.map_congr_left hone, sum_map_one]
    omega
  | node l r =>
    rw [length_flatMap_code (huffTree_nodup h) fun b => mem_huffTree_syms h]
    exact huffTree_cost_le h

/-- A block decodes to its file, and uses the bits of the tree and of the codes (R184). -/
theorem unblock_blockOf (h : huffTree S = some t) : unblock (blockOf S) S.length = ⟨S, some (blockBits t S).length⟩ := by
  have hne : S.length ≠ 0 := fun hz => by
    rw [List.length_eq_zero_iff] at hz
    rw [huffTree_eq_none_iff.2 hz] at h
    exact absurd h (by simp)
  obtain ⟨pad, hpad⟩ := bitsOf_pack_prefix (blockBits t S)
  have hbits : bitsOf (blockOf S) = t.bits ++ (S.flatMap t.code ++ pad) := by
    rw [blockOf_of_tree h, ← hpad, blockBits, List.append_assoc]
  have htree : readTree (Config.nodeCap + 1) 0 (bitsOf (blockOf S)) = some (t, 0 + t.size, S.flatMap t.code ++ pad) :=
    (readTree_eq_some (Nat.lt_succ_self _) (Nat.zero_le _)).2 ⟨hbits, rfl, by simpa using huffTree_size_le h⟩
  rw [unblock, if_neg hne, htree]
  simp only [readSymbols_codes fun b hb => (mem_huffTree_syms h).2 hb, if_true, hbits, blockBits, List.length_append]
  congr 2
  omega

/-- Settles O52: the tree is read back from its serialization, then each symbol from its code; the empty file has no tree. -/
theorem blockRoundTrip : Obligations.BlockRoundTrip := by
  intro S
  cases h : huffTree S with
  | none =>
    obtain rfl := huffTree_eq_none_iff.1 h
    rfl
  | some t => exact unblock_blockOf h

/-- Settles O54: a code is a path, whose length the Fibonacci numbers bound; reading a code gives back its one symbol. -/
theorem codesArePrefixFree : Obligations.CodesArePrefixFree := by
  intro S t hlen h a ha
  have hmem : ∀ b ∈ S, b ∈ t.syms := fun b hb => (mem_huffTree_syms h).2 hb
  refine ⟨⟨Tree.code_length_pos (hmem a ha), ?_⟩, fun b hb hne hpre => hne (Tree.code_prefixFree (hmem a ha) (hmem b hb) hpre)⟩
  cases t with
  | leaf s =>
    show 1 ≤ 45
    decide
  | node l r => exact huffTree_depth_le h hlen (Tree.code_mem_paths (hmem a ha))

/-- Settles O55: at most 2559 bits of tree, and a payload no longer than the file. -/
theorem blockSizeBound : Obligations.BlockSizeBound := by
  intro S
  cases h : huffTree S with
  | none =>
    obtain rfl := huffTree_eq_none_iff.1 h
    simp
  | some t =>
    have htree := huffTree_bits_length h
    have hpayload := payload_length_le h
    rw [blockOf_of_tree h, pack_length, blockBits, List.length_append]
    omega

end Sys2Proof.Machine
end

section
/-! PROOFS. The codec between its two streams (R122 to R132, R166, R175, R181): what a run that reads the file of one handle and writes that
of another leaves alone, the bits still to be read and those written. -/

namespace Sys2Proof.Machine

variable {e e' : Engine} {r : FileRef} {n : BitVec 64} {b : Bits}

/-! ## Requests on an open handle -/

section
variable {h : Handle} {f : OpenFile}

/-- SSeek of an open handle (R77). -/
theorem ends_sSeek_open {Q : Unit → Engine → Prop} {R : Stop → Engine → Prop} (ho : e.draws.obliging)
    (hh : lookup e.storage.handles h = some f) (k : Nat) :
    Ends (sSeek h k) e Q R ↔ Q () { e with storage := e.storage.setPos h f k, draws := e.draws.next } := by
  simp [ends_sSeek, ho.answered, hh, ho.asked, Engine.withStorage]

/-- SSize of an open handle (R78). -/
theorem ends_sSize_open {Q : Nat → Engine → Prop} {R : Stop → Engine → Prop} (ho : e.draws.obliging)
    (hh : lookup e.storage.handles h = some f) :
    Ends (sSize h) e Q R ↔ Q (e.storage.content f.ref).length { e with draws := e.draws.next } := by
  simp [ends_sSize, ho.answered, hh, ho.asked]

end

/-- A temporary file stays where the temporary files do. -/
theorem Storage.hasTemp_of_temps {st st' : Storage} (h : st.hasTemp r) (ht : st'.temps = st.temps) : st'.hasTemp r := by
  cases r with
  | named p => trivial
  | temp m =>
    show (lookup st'.temps m).isSome = true
    rw [ht]
    exact h

/-! ## Reading -/

theorem Engine.InAt.congr {f : OpenFile} (h : e.InAt f b) (hi : e'.inp = e.inp) (hs : e'.storage = e.storage) (hd : e'.draws = e.draws) :
    e'.InAt f b := by
  constructor
  case obliging => rw [hd]; exact h.obliging
  case handle => rw [hi, hs]; exact h.handle
  case valid => rw [hi]; exact h.valid
  case cursor => rw [hi]; exact h.cursor
  case bits => rw [hi, hs]; exact h.bits

/-- IN reads the file `r` and has the bits `b` to come; with them IN_COUNT comes to `n`. -/
structure Engine.Reads (e : Engine) (r : FileRef) (n : BitVec 64) (b : Bits) : Prop where
  stream : ∃ k, e.InAt ⟨r, false, k⟩ b
  count  : e.inp.count + BitVec.ofNat 64 b.length = n

theorem Engine.Reads.congr (h : e.Reads r n b) (hi : e'.inp = e.inp) (hs : e'.storage = e.storage) (hd : e'.draws = e.draws) :
    e'.Reads r n b := by
  obtain ⟨⟨k, hk⟩, hc⟩ := h
  exact ⟨⟨k, hk.congr hi hs hd⟩, hi ▸ hc⟩

theorem Engine.Reads.obliging (h : e.Reads r n b) : e.draws.obliging := h.stream.elim fun _ hk => hk.obliging

theorem Engine.Reads.handle (h : e.Reads r n b) : ∃ k, lookup e.storage.handles e.inp.h = some ⟨r, false, k⟩ :=
  h.stream.imp fun _ hk => hk.handle

/-- in_init starts at the handle's position (R122). -/
theorem ends_inInit_reads {h : Handle} {k : Nat} (limit : Nat) (ho : e.draws.obliging)
    (hh : lookup e.storage.handles h = some ⟨r, false, k⟩) {Q : Unit → Engine → Prop} {R : Stop → Engine → Prop}
    (hQ : ∀ i, i.h = h → Engine.Reads { e with inp := i } r (BitVec.ofNat 64 (8 * (e.storage.dataAt ⟨r, false, k⟩ limit).length))
      (bitsOf (e.storage.dataAt ⟨r, false, k⟩ limit)) → Q () { e with inp := i }) : Ends (inInit h limit) e Q R := by
  refine (ends_inInit limit ho hh R).mono (fun _ e1 h1 => ?_) fun _ _ hs => hs
  obtain ⟨rfl, hin⟩ := h1
  exact hQ _ rfl ⟨⟨k, hin⟩, by simp⟩

theorem Engine.Reads.of_file {f' : OpenFile} (hin : e'.InAt f' b) {k : Nat} (hr : f'.ref = (⟨r, false, k⟩ : OpenFile).ref)
    (hw : f'.writable = (⟨r, false, k⟩ : OpenFile).writable) (hc : e'.inp.count + BitVec.ofNat 64 b.length = n) : e'.Reads r n b := by
  obtain ⟨_, _, pos⟩ := f'
  cases hr
  cases hw
  exact ⟨⟨pos, hin⟩, hc⟩

/-- read_bit takes the first bit to come (R124, R132). -/
theorem Engine.Reads.readBit (h : e.Reads r n b) :
    Ends readBit e (fun v e' => v = b.head? ∧ e.InKept e' ∧ e'.Reads r n b.tail) fun _ _ => False := by
  obtain ⟨⟨k, hk⟩, hc⟩ := h
  refine (ends_readBit hk).mono (fun v e1 h1 => ?_) fun _ _ hs => hs
  obtain ⟨f', hv, hkept, hin, hr, hw, hcount⟩ := h1
  refine ⟨hv, hkept, .of_file hin hr hw ?_⟩
  rw [hcount, ← hc, BitVec.add_assoc, ← BitVec.ofNat_add]
  cases b with
  | nil => rfl
  | cons x xs =>
    rw [if_neg (List.cons_ne_nil x xs), List.tail_cons, List.length_cons, Nat.add_comm 1]

/-- read_byte takes the next eight bits to come (R125, R132). -/
theorem Engine.Reads.readByte (h : e.Reads r n b) :
    Ends readByte e
      (fun v e' => v = (if b.length < 8 then none else some (BitVec.ofNat 8 (bitsValue (b.take 8)))) ∧ e.InKept e' ∧
        e'.Reads r n (b.drop 8))
      fun _ _ => False := by
  obtain ⟨⟨k, hk⟩, hc⟩ := h
  refine (ends_readByte hk).mono (fun v e1 h1 => ?_) fun _ _ hs => hs
  obtain ⟨f', hkept, hin, hr, hw, hcount, hv⟩ := h1
  refine ⟨hv, hkept, .of_file hin hr hw ?_⟩
  rw [hcount, ← hc, BitVec.add_assoc, ← BitVec.ofNat_add, List.length_drop]
  congr 2
  omega

/-- read_byte takes the first of whole bytes to come. -/
theorem Engine.Reads.readByte_bytes {bs : Bytes} (h : e.Reads r n (bitsOf bs)) :
    Ends Machine.readByte e (fun v e' => v = bs.head? ∧ e.InKept e' ∧ e'.Reads r n (bitsOf bs.tail)) fun _ _ => False := by
  refine h.readByte.mono (fun v e1 h1 => ?_) fun _ _ hs => hs
  obtain ⟨rfl, hkept, hin⟩ := h1
  cases bs with
  | nil => exact ⟨by simp, hkept, hin⟩
  | cons x xs =>
    have htake : (byteBits x ++ bitsOf xs).take 8 = byteBits x := List.take_left' (byteBits_length x)
    have hdrop : (byteBits x ++ bitsOf xs).drop 8 = bitsOf xs := List.drop_left' (byteBits_length x)
    rw [bitsOf_cons, hdrop] at hin
    refine ⟨?_, hkept, hin⟩
    rw [bitsOf_cons, htake, bitsValue_byteBits, List.length_append, byteBits_length, if_neg (by omega), List.head?_cons]

/-- Reading, and changing the Huffman state besides. -/
def Engine.ReadKept (e e' : Engine) : Prop := Engine.InKept { e with huff := e'.huff } e'

theorem Engine.InKept.readKept (h : e.InKept e') : e.ReadKept e' := by
  rw [Engine.ReadKept, h.huff]
  exact h

theorem Engine.ReadKept.refl (e : Engine) : e.ReadKept e := Engine.InKept.refl e

theorem Engine.readKept_huff (e : Engine) (g : Huffman) : e.ReadKept { e with huff := g } := Engine.InKept.refl _

theorem Engine.ReadKept.trans {e'' : Engine} (h : e.ReadKept e') (h' : e'.ReadKept e'') : e.ReadKept e'' where
  statmem := h'.statmem.trans h.statmem
  out := h'.out.trans h.out
  huff := rfl
  crcReg := h'.crcReg.trans h.crcReg
  work := h'.work.trans h.work
  inH := h'.inH.trans h.inH
  nows := h'.nows.trans h.nows
  free := h'.free.trans h.free
  obliging := fun ho => h'.obliging (h.obliging ho)
  fs := h'.fs.trans h.fs
  temps := h'.temps.trans h.temps
  nextId := h'.nextId.trans h.nextId
  handles := fun k hk => (h'.handles k (by rw [show Engine.inp { e' with huff := e''.huff } = e'.inp from rfl, h.inH]; exact hk)).trans
    (h.handles k hk)
  keys := h'.keys.trans h.keys

/-! ## A run from one file to another -/

/-- A run of the codec: it reads the file `inRef` through the handle `src` and writes to the file `outRef`, which held `base`, from the
position `start` on through the handle `dst`. -/
structure Pipe where
  src     : Handle
  dst     : Handle
  inRef   : FileRef
  outRef  : FileRef
  base    : Bytes
  start   : Nat
  handles : src ≠ dst
  files   : inRef ≠ outRef

variable {P : Pipe} {ob : Bits}

/-- The handles are open on their files, and the output stands at its start. -/
structure Pipe.Opened (P : Pipe) (e : Engine) : Prop where
  obliging : e.draws.obliging
  src      : ∃ k, lookup e.storage.handles P.src = some ⟨P.inRef, false, k⟩
  dst      : lookup e.storage.handles P.dst = some ⟨P.outRef, true, P.start⟩
  temp     : e.storage.hasTemp P.outRef
  base     : e.storage.content P.outRef = P.base

/-- The bits `b` are still to be read, and the bits `ob` were written. -/
structure Pipe.Runs (P : Pipe) (n : BitVec 64) (b ob : Bits) (e : Engine) : Prop where
  reads : e.Reads P.inRef n b
  inH   : e.inp.h = P.src
  out   : e.OutAt P.outRef P.base P.start ob
  outH  : e.out.h = P.dst

/-- What a run of the codec leaves alone: all but its two streams, the Huffman state, the positions of its handles and its output. -/
structure Pipe.Kept (P : Pipe) (e e' : Engine) : Prop where
  statmem  : e'.statmem = e.statmem
  crcReg   : e'.crcReg = e.crcReg
  work     : e'.work = e.work
  nows     : e'.draws.nows = e.draws.nows
  free     : e'.draws.free = e.draws.free
  obliging : e.draws.obliging → e'.draws.obliging
  nextId   : e'.storage.nextId = e.storage.nextId
  content  : ∀ r, r ≠ P.outRef → e'.storage.content r = e.storage.content r
  handles  : ∀ h, h ≠ P.src → h ≠ P.dst → lookup e'.storage.handles h = lookup e.storage.handles h
  keys     : e'.storage.handles.map (·.1) = e.storage.handles.map (·.1)
  temps    : e'.storage.temps.map (·.1) = e.storage.temps.map (·.1)
  fs       : ∀ p, (∀ q, P.outRef = .named q → p ≠ q) → fsGet e'.storage.fs p = fsGet e.storage.fs p
  sameFs   : (∀ q, P.outRef ≠ .named q) → e'.storage.fs = e.storage.fs

/-- The streams and the Huffman state are the run's own. -/
theorem Pipe.kept_streams (P : Pipe) (e : Engine) (i : InStream) (o : OutStream) (g : Huffman) :
    P.Kept e { e with inp := i, out := o, huff := g } :=
  ⟨rfl, rfl, rfl, rfl, rfl, id, rfl, fun _ _ => rfl, fun _ _ _ => rfl, rfl, rfl, fun _ _ => rfl, fun _ => rfl⟩

theorem Pipe.Opened.streams (h : P.Opened e) (i : InStream) (o : OutStream) (g : Huffman) :
    P.Opened { e with inp := i, out := o, huff := g } :=
  ⟨h.obliging, h.src, h.dst, h.temp, h.base⟩

theorem Pipe.Kept.refl (P : Pipe) (e : Engine) : P.Kept e e := P.kept_streams e e.inp e.out e.huff

theorem Pipe.Kept.trans {e'' : Engine} (h : P.Kept e e') (h' : P.Kept e' e'') : P.Kept e e'' where
  statmem := h'.statmem.trans h.statmem
  crcReg := h'.crcReg.trans h.crcReg
  work := h'.work.trans h.work
  nows := h'.nows.trans h.nows
  free := h'.free.trans h.free
  obliging := fun ho => h'.obliging (h.obliging ho)
  nextId := h'.nextId.trans h.nextId
  content := fun r hr => (h'.content r hr).trans (h.content r hr)
  handles := fun k hs hd => (h'.handles k hs hd).trans (h.handles k hs hd)
  keys := h'.keys.trans h.keys
  temps := h'.temps.trans h.temps
  fs := fun p hp => (h'.fs p hp).trans (h.fs p hp)
  sameFs := fun hq => (h'.sameFs hq).trans (h.sameFs hq)

theorem Engine.ReadKept.pipeKept (h : e.ReadKept e') (hi : e.inp.h = P.src) : P.Kept e e' where
  statmem := h.statmem
  crcReg := h.crcReg
  work := h.work
  nows := h.nows
  free := h.free
  obliging := h.obliging
  nextId := h.nextId
  content := fun r _ => Engine.InKept.content h r
  handles := fun k hs _ => h.handles k (by rw [show Engine.inp { e with huff := e'.huff } = e.inp from rfl, hi]; exact hs)
  keys := h.keys
  temps := by rw [h.temps]
  fs := fun p _ => by rw [h.fs]
  sameFs := fun _ => h.fs

theorem Engine.OutKept.pipeKept (h : e.OutKept e' P.outRef) (ho : e.out.h = P.dst) : P.Kept e e' where
  statmem := h.statmem
  crcReg := h.crcReg
  work := h.work
  nows := h.nows
  free := h.free
  obliging := h.obliging
  nextId := h.nextId
  content := h.content
  handles := fun k _ hd => h.handles k (ho ▸ hd)
  keys := h.keys
  temps := h.temps
  fs := h.fs
  sameFs := h.sameFs

/-- Reading leaves the bits written as they are. -/
theorem Pipe.Runs.read {n' : BitVec 64} {b' : Bits} (h : P.Runs n b ob e) (hk : e.InKept e') (hr : e'.Reads P.inRef n' b') :
    P.Runs n' b' ob e' where
  reads := hr
  inH := hk.inH.trans h.inH
  outH := hk.out ▸ h.outH
  out := by
    have hne : e.out.h ≠ e.inp.h := by rw [h.outH, h.inH]; exact P.handles.symm
    refine ⟨hr.obliging, Storage.hasTemp_of_temps h.out.temp hk.temps, ?_⟩
    · rw [hk.out, hk.handles _ hne, hk.content]
      exact h.out.split

/-- Writing leaves the bits to come as they are. -/
theorem Pipe.Runs.write {ob' : Bits} (h : P.Runs n b ob e) (hk : e.OutKept e' P.outRef) (ho : e'.OutAt P.outRef P.base P.start ob') :
    P.Runs n b ob' e' where
  reads := by
    obtain ⟨⟨k, hin⟩, hc⟩ := h.reads
    have hne : e.inp.h ≠ e.out.h := by rw [h.outH, h.inH]; exact P.handles
    refine ⟨⟨k, ho.obliging, ?_, hk.inp ▸ hin.valid, hk.inp ▸ hin.cursor, ?_⟩, hk.inp ▸ hc⟩
    · rw [hk.inp, hk.handles _ hne]
      exact hin.handle
    · rw [hk.inp, Storage.dataAt_of_content _ _ (hk.content _ P.files)]
      exact hin.bits
  inH := hk.inp ▸ h.inH
  out := ho
  outH := hk.outH.trans h.outH

/-- What a step of a run keeps besides its streams. -/
def Pipe.Step (P : Pipe) (e e' : Engine) : Prop := P.Kept e e' ∧ e'.huff = e.huff

theorem Pipe.Step.refl (P : Pipe) (e : Engine) : P.Step e e := ⟨.refl P e, rfl⟩

theorem Pipe.Step.trans {e'' : Engine} (h : P.Step e e') (h' : P.Step e' e'') : P.Step e e'' :=
  ⟨h.1.trans h'.1, h'.2.trans h.2⟩

theorem Pipe.Runs.readBit (h : P.Runs n b ob e) :
    Ends Machine.readBit e (fun v e' => v = b.head? ∧ P.Step e e' ∧ P.Runs n b.tail ob e') fun _ _ => False :=
  h.reads.readBit.mono (fun _ _ ⟨hv, hk, hr⟩ => ⟨hv, ⟨hk.readKept.pipeKept h.inH, hk.huff⟩, h.read hk hr⟩) fun _ _ hs => hs

theorem Pipe.Runs.readByte_bytes {bs : Bytes} (h : P.Runs n (bitsOf bs) ob e) :
    Ends readByte e (fun v e' => v = bs.head? ∧ P.Step e e' ∧ P.Runs n (bitsOf bs.tail) ob e') fun _ _ => False :=
  h.reads.readByte_bytes.mono (fun _ _ ⟨hv, hk, hr⟩ => ⟨hv, ⟨hk.readKept.pipeKept h.inH, hk.huff⟩, h.read hk hr⟩) fun _ _ hs => hs

/-- A bit string is written in order, where it fits into the file (R128). -/
theorem Pipe.Runs.writeBits (h : P.Runs n b ob e) (vs : Bits) (hmax : P.start + ((ob ++ vs).length + 7) / 8 ≤ Config.fileMax) :
    Ends (writeBits vs) e (fun _ e' => P.Step e e' ∧ P.Runs n b (ob ++ vs) e') fun _ _ => False :=
  (ends_writeBits h.out vs hmax).mono (fun _ _ ⟨hk, ho⟩ => ⟨⟨hk.pipeKept h.outH, hk.huff⟩, h.write hk ho⟩) fun _ _ hs => hs

theorem Pipe.Runs.writeBit (h : P.Runs n b ob e) (v : Bool) (hmax : P.start + ((ob ++ [v]).length + 7) / 8 ≤ Config.fileMax) :
    Ends (writeBit v) e (fun _ e' => P.Step e e' ∧ P.Runs n b (ob ++ [v]) e') fun _ _ => False :=
  (ends_writeBit h.out (by simpa using hmax) v).mono (fun _ _ ⟨hk, ho⟩ => ⟨⟨hk.pipeKept h.outH, hk.huff⟩, h.write hk ho⟩)
    fun _ _ hs => hs

/-- The run is over: the bytes `bs` stand in the output from its start on. -/
structure Pipe.Wrote (P : Pipe) (bs : Bytes) (e : Engine) : Prop where
  obliging : e.draws.obliging
  src      : ∃ k, lookup e.storage.handles P.src = some ⟨P.inRef, false, k⟩
  dst      : lookup e.storage.handles P.dst = some ⟨P.outRef, true, P.start + bs.length⟩
  temp     : e.storage.hasTemp P.outRef
  content  : e.storage.content P.outRef = if bs = [] then P.base else writeAt P.base P.start bs

/-- Nothing was written. -/
theorem Pipe.Opened.wrote (h : P.Opened e) : P.Wrote [] e :=
  ⟨h.obliging, h.src, h.dst, h.temp, h.base⟩

theorem pack_eq_nil {b : Bits} : pack b = [] ↔ b = [] := by
  rw [← List.length_eq_zero_iff, ← List.length_eq_zero_iff, pack_length]
  omega

/-- flush puts the packing of the bits written into the output (R127). -/
theorem Pipe.Runs.flush (h : P.Runs n b ob e) (hmax : P.start + (ob.length + 7) / 8 ≤ Config.fileMax) :
    Ends flush e (fun _ e' => P.Step e e' ∧ e'.inp = e.inp ∧ P.Wrote (pack ob) e' ∧ e'.out.total = (pack ob).length)
      fun _ _ => False := by
  refine (ends_flush h.out hmax).mono (fun _ e1 h1 => ?_) fun _ _ hs => hs
  obtain ⟨hk, -, htotal, htemp, hdst, hcontent⟩ := h1
  obtain ⟨k, hsrc⟩ := h.reads.handle
  rw [← pack_length] at htotal hdst
  refine ⟨⟨hk.pipeKept h.outH, hk.huff⟩, hk.inp, ⟨hk.obliging h.out.obliging, ⟨k, ?_⟩, ?_, htemp, ?_⟩, htotal⟩
  · rw [hk.handles _ (by rw [h.outH]; exact P.handles), ← h.inH]
    exact hsrc
  · rw [← h.outH, ← hk.outH]
    exact hdst
  · simp only [hcontent, pack_eq_nil]

/-- Reading leaves the handles open and the output at its start. -/
theorem Pipe.Opened.read (h : P.Opened e) (hk : e.ReadKept e') (hi : e.inp.h = P.src) (hr : e'.Reads P.inRef n b) : P.Opened e' where
  obliging := hr.obliging
  src := by
    obtain ⟨k, hsrc⟩ := hr.handle
    exact ⟨k, by rw [← hi, ← hk.inH]; exact hsrc⟩
  dst := by
    rw [hk.handles _ (by rw [show Engine.inp { e with huff := e'.huff } = e.inp from rfl, hi]; exact P.handles.symm)]
    exact h.dst
  temp := Storage.hasTemp_of_temps h.temp hk.temps
  base := (Engine.InKept.content hk _).trans h.base

/-- out_init and a stream of input begin a run (R126). -/
theorem Pipe.Opened.outInit (h : P.Opened e) (hr : e.Reads P.inRef n b) (hi : e.inp.h = P.src) :
    Ends (outInit P.dst) e (fun _ e' => P.Step e e' ∧ P.Runs n b [] e') fun _ _ => False := by
  refine (ends_outInit h.obliging h.dst h.temp _).mono (fun _ e1 h1 => ?_) fun _ _ hs => hs
  obtain ⟨rfl, ho⟩ := h1
  exact ⟨⟨P.kept_streams e e.inp _ e.huff, rfl⟩, hr.congr rfl rfl rfl, hi, h.base ▸ ho, rfl⟩

end Sys2Proof.Machine
end

section
/-! PROOFS. The one file that a command with a single open output can change (R76, R79): the rest of the namespace stays as it is, entry by
entry. -/

namespace Sys2Proof.Machine

variable {α : Type} {fs : Files} {p : Path}

/-- The namespace is `fs` but for the file at `p`, and what is open for writing is that file. -/
structure Storage.Confined (fs : Files) (p : Path) (st : Storage) : Prop where
  fs      : ∃ c, st.fs = fsPut fs p c
  handles : ∀ h f, lookup st.handles h = some f → f.writable = true → f.ref = .named p

theorem Storage.Confined.setPos {st : Storage} (h : st.Confined fs p) {k : Handle} {f : OpenFile}
    (hf : f.writable = true → f.ref = .named p) (n : Nat) : (st.setPos k f n).Confined fs p where
  fs := h.fs
  handles := fun j g hg hw => by
    rw [Storage.setPos, lookup_replaceAt] at hg
    split at hg
    · injection hg with hg
      subst hg
      exact hf hw
    · exact h.handles j g hg hw

theorem Storage.Confined.setContent {st : Storage} (h : st.Confined fs p) {f : OpenFile} (hf : f.ref = .named p) (c : Bytes) :
    (st.setContent f.ref c).Confined fs p where
  fs := by
    obtain ⟨d, hd⟩ := h.fs
    rw [hf]
    exact ⟨c, by rw [Storage.setContent, hd, fsPut_fsPut]⟩
  handles := by
    rw [Storage.handles_setContent]
    exact h.handles

theorem Storage.Confined.written {st : Storage} (h : st.Confined fs p) {k : Handle} {f : OpenFile}
    (hf : f.ref = .named p) (bs : Bytes) : (st.written k f bs).Confined fs p :=
  (h.setContent hf _).setPos (fun _ => hf) _

/-- A confined storage, and no change of a file by the host to come. -/
def Engine.Confined (fs : Files) (p : Path) (e : Engine) : Prop := e.storage.Confined fs p ∧ e.draws.edits = []

theorem Engine.Confined.asked {e : Engine} (h : e.Confined fs p) : e.asked.Confined fs p := by
  rw [asked_of_settled h.2]
  exact h

theorem Engine.Confined.landAll {e : Engine} (h : e.Confined fs p) : e.landAll.Confined fs p := by rwa [landAll_of_settled h.2]

/-- Between opens and closes a computation writes the one file alone. -/
theorem Quiet.confined {x : Eng α} (hx : Quiet x) : Keeps (Engine.Confined fs p) x := by
  induction hx with
  | pure a => exact Keeps.pure a
  | bind _ _ ihx ihf => exact ihx.bind ihf
  | look f => exact Keeps.look f
  | update hf => exact Keeps.update fun e h => ⟨by rw [hf.storage]; exact h.1, by rw [hf.draws]; exact h.2⟩
  | raise c => exact Keeps.raise c
  | sRead k n =>
    exact fun e h => (ends_sRead k n _).2 ⟨fun _ => h.landAll, fun _ => ⟨fun _ => h.asked, fun f hf => ⟨fun _ => h.asked, fun _ =>
      ⟨h.asked.1.setPos (h.1.handles k f hf) _, h.asked.2⟩⟩⟩⟩
  | sWrite k bs =>
    refine fun e h => (ends_sWrite k bs _).2 ⟨fun _ => h.landAll, fun _ => ⟨fun _ => h.asked, fun f hf => ⟨fun _ => h.asked,
      fun hw _ => ?_, fun hw _ => ?_⟩⟩⟩
    · exact ⟨h.asked.1.setContent (h.1.handles k f hf hw) _, h.asked.2⟩
    · exact ⟨h.asked.1.written (h.1.handles k f hf hw) _, h.asked.2⟩
  | sSeek k n =>
    exact fun e h => (ends_sSeek k n _).2 ⟨fun _ => h.landAll, fun _ => ⟨fun _ => h.asked, fun f hf =>
      ⟨h.asked.1.setPos (h.1.handles k f hf) _, h.asked.2⟩⟩⟩
  | sSize k => exact fun e h => (ends_sSize k _).2 ⟨fun _ => h.landAll, fun _ => ⟨fun _ => h.asked, fun _ _ => h.asked⟩⟩
  | sCopy src dst n =>
    refine fun e h => (ends_sCopy src dst n _).2 ⟨fun _ => h.landAll, fun _ => ⟨fun _ => h.asked, fun f g hf hg => ⟨fun _ => h.asked,
      fun _ hw => ⟨?_, h.asked.2⟩⟩⟩⟩
    have hg' := h.1.handles dst g hg hw
    exact ((h.asked.1.setPos (h.1.handles src f hf) _).setContent hg' _).setPos (fun _ => hg') _
  | sNow => exact fun e h => (ends_sNow _).2 ⟨fun _ _ _ => h, fun _ => h⟩

/-- The file at `p` in a confined storage. -/
theorem Storage.Confined.fs_eq {st : Storage} (h : st.Confined fs p) : st.fs = fsPut fs p (st.content (.named p)) := by
  obtain ⟨c, hc⟩ := h.fs
  rw [Storage.content, hc, fsGet_fsPut, if_pos rfl, Option.getD_some]

end Sys2Proof.Machine
end

section
/-! PROOFS. The decoder (R178 to R183): the arena holds the tree that the bits read as, the descent follows it, and the symbols go to the
output. -/

namespace Sys2Proof.Machine

variable {e e' : Engine} {r : FileRef} {n : BitVec 64} {b : Bits} {g g' : Huffman} {lo hi x : Nat} {t : Tree}

/-! ## The arena (R165) -/

/-- The nodes from `x` on, all numbered from `lo` to below `hi`, are the tree's. -/
def Huffman.Holds (g : Huffman) (lo hi : Nat) : Tree → Nat → Prop
  | .leaf s, x   => lo ≤ x ∧ x < hi ∧ ∃ f, g.nodeAt x = .leaf s f
  | .node l r, x => lo ≤ x ∧ x < hi ∧ ∃ f i j, g.nodeAt x = .inner f i j ∧ g.Holds lo hi l i ∧ g.Holds lo hi r j

/-- A tree stays where its nodes do. -/
theorem Huffman.Holds.congr {lo' hi' : Nat} (h : g.Holds lo hi t x) (hlo : lo' ≤ lo) (hhi : hi ≤ hi')
    (hg : ∀ y, lo ≤ y → y < hi → g'.nodeAt y = g.nodeAt y) : g'.Holds lo' hi' t x := by
  induction t generalizing x with
  | leaf s =>
    obtain ⟨hx, hxh, f, hf⟩ := h
    exact ⟨Nat.le_trans hlo hx, Nat.lt_of_lt_of_le hxh hhi, f, (hg x hx hxh).trans hf⟩
  | node l r ihl ihr =>
    obtain ⟨hx, hxh, f, i, j, hf, hl, hr⟩ := h
    exact ⟨Nat.le_trans hlo hx, Nat.lt_of_lt_of_le hxh hhi, f, i, j, (hg x hx hxh).trans hf, ihl hl, ihr hr⟩

theorem Huffman.Holds.of_node (h : g.Holds lo hi t x) (hg : g'.node = g.node) : g'.Holds lo hi t x :=
  h.congr (Nat.le_refl _) (Nat.le_refl _) fun y _ _ => by rw [Huffman.nodeAt, hg, Huffman.nodeAt]

/-- NODE[x] <- v. -/
def Huffman.setNode (g : Huffman) (x : Nat) (v : Node) : Huffman := { g with node := g.node.set x v }

theorem Huffman.nodeAt_setNode_self {v : Node} (h : x < g.node.length) : (g.setNode x v).nodeAt x = v := by
  simp [Huffman.setNode, Huffman.nodeAt, h]

theorem Huffman.nodeAt_setNode_other {y : Nat} {v : Node} (h : y ≠ x) : (g.setNode x v).nodeAt y = g.nodeAt y := by
  simp [Huffman.setNode, Huffman.nodeAt, List.getElem?_set_ne h.symm]

/-- From `g` on the nodes up to number `n` were allocated; those before stand. -/
structure Huffman.Grown (g g' : Huffman) (n : Nat) : Prop where
  length : g'.node.length = g.node.length
  nn     : g'.nn = n
  grows  : g.nn ≤ n
  cap    : n ≤ Config.nodeCap
  old    : ∀ y < g.nn, g'.nodeAt y = g.nodeAt y

theorem Huffman.Grown.trans {g'' : Huffman} {m m' : Nat} (h : g.Grown g' m) (h' : g'.Grown g'' m') : g.Grown g'' m' where
  length := h'.length.trans h.length
  nn := h'.nn
  grows := Nat.le_trans (h.nn ▸ h.grows) h'.grows
  cap := h'.cap
  old y hy := (h'.old y (Nat.lt_of_lt_of_le hy (h.nn ▸ h.grows))).trans (h.old y hy)

/-- The first of the new nodes gets its value. -/
theorem Huffman.Grown.setNode {m : Nat} (h : g.Grown g' m) (v : Node) : g.Grown (g'.setNode g.nn v) m where
  length := by simpa [Huffman.setNode] using h.length
  nn := h.nn
  grows := h.grows
  cap := h.cap
  old y hy := by rw [Huffman.nodeAt_setNode_other (Nat.ne_of_lt hy), h.old y hy]

/-- The value of a node is no matter for a tree behind it. -/
theorem Huffman.Holds.setNode {y m : Nat} (h : g.Holds lo m t x) (hy : y < lo) {k : Nat} (hk : k ≤ lo) {m' : Nat} (hm : m ≤ m') (v : Node) :
    (g.setNode y v).Holds k m' t x :=
  h.congr hk hm fun _ hz _ => Huffman.nodeAt_setNode_other (Nat.ne_of_gt (Nat.lt_of_lt_of_le hy hz))

/-! ## Reading the tree (R179) -/

/-- `des()` answers the node at which the tree stands that the bits read as, and has taken the tree's bits; EXHAUSTED and a full arena
are no tree. -/
theorem Engine.Reads.desNode {fuel : Nat} (h : e.Reads r n b) (hlen : e.huff.node.length = Config.nodeCap)
    (hnn : e.huff.nn ≤ Config.nodeCap) :
    Ends (desNode fuel) e
      (fun v e' => e.ReadKept e' ∧ v = (readTree fuel e.huff.nn b).map (fun _ => e.huff.nn) ∧ ∃ b', e'.Reads r n b' ∧
        ∀ t m rest, readTree fuel e.huff.nn b = some (t, m, rest) →
          b' = rest ∧ e.huff.Grown e'.huff m ∧ e'.huff.Holds e.huff.nn m t e.huff.nn)
      fun _ _ => False := by
  induction fuel generalizing e b with
  | zero => exact ⟨.refl e, rfl, b, h, fun _ _ _ ht => absurd ht (by simp [readTree])⟩
  | succ fuel ih =>
    rw [Machine.desNode, ends_bind]
    refine h.readBit.mono (fun v e1 h1 => ?_) fun _ _ hs => hs
    obtain ⟨rfl, hk1, hr1⟩ := h1
    have hg1 : e1.huff = e.huff := hk1.huff
    cases b with
    | nil => exact ⟨hk1.readKept, rfl, _, hr1, fun _ _ _ ht => absurd ht (by simp [readTree])⟩
    | cons c bs =>
      rw [List.tail_cons] at hr1
      simp only [List.head?_cons, ends_bind, ends_look, hg1]
      rw [readTree]
      by_cases hfull : e.huff.nn = Config.nodeCap
      · rw [if_pos hfull, if_pos hfull]
        exact ⟨hk1.readKept, rfl, _, hr1, fun _ _ _ ht => absurd ht (by simp)⟩
      rw [if_neg hfull, if_neg hfull]
      simp only [updateHuff, ends_bind, ends_update]
      obtain ⟨e2, he2⟩ : ∃ e2, e2 = { e1 with huff := { e1.huff with nn := e1.huff.nn + 1 } } := ⟨_, rfl⟩
      have hr2 : e2.Reads r n bs := he2 ▸ hr1.congr rfl rfl rfl
      have hk2 : e.ReadKept e2 := hk1.readKept.trans (he2 ▸ e1.readKept_huff _)
      have hnode : e2.huff.node = e.huff.node := by rw [he2, ← hg1]
      have hnn2 : e2.huff.nn = e.huff.nn + 1 := by rw [he2, ← hg1]
      have hat : ∀ y, e2.huff.nodeAt y = e.huff.nodeAt y := fun y => by rw [Huffman.nodeAt, hnode, Huffman.nodeAt]
      rw [← he2]
      have hgrown2 : e.huff.Grown e2.huff (e.huff.nn + 1) := ⟨by rw [hnode], hnn2, Nat.le_succ _, by omega, fun y _ => hat y⟩
      have hroom : e.huff.nn < e.huff.node.length := by omega
      cases c with
      | true =>
        simp only [if_true, ends_bind]
        refine hr2.readByte.mono (fun v e3 h3 => ?_) fun _ _ hs => hs
        obtain ⟨rfl, hk3, hr3⟩ := h3
        by_cases hshort : bs.length < 8
        · rw [if_pos hshort, if_pos hshort]
          exact ⟨hk2.trans hk3.readKept, rfl, _, hr3, fun _ _ _ ht => absurd ht (by simp)⟩
        · rw [if_neg hshort, if_neg hshort]
          simp only [ends_bind, ends_update, ends_pure]
          have hg3 : e3.huff.node = e.huff.node := by rw [hk3.huff, hnode]
          refine ⟨(hk2.trans hk3.readKept).trans (e3.readKept_huff _), rfl, _, hr3.congr rfl rfl rfl, ?_⟩
          rintro _ _ _ ⟨⟩
          have hgrown : e.huff.Grown e3.huff (e.huff.nn + 1) := hk3.huff ▸ hgrown2
          refine ⟨rfl, hgrown.setNode _, Nat.le_refl _, Nat.lt_succ_self _, 0, ?_⟩
          exact Huffman.nodeAt_setNode_self (by rw [hg3]; exact hroom)
      | false =>
        simp only [Bool.false_eq_true, if_false, ends_bind]
        have hlen2 : e2.huff.node.length = Config.nodeCap := by rw [hnode, hlen]
        refine (ih hr2 hlen2 (by omega)).mono (fun v e3 h3 => ?_) fun _ _ hs => hs
        obtain ⟨hk3, rfl, b3, hr3, hleft⟩ := h3
        rw [hnn2] at hleft ⊢
        cases hl : readTree fuel (e.huff.nn + 1) bs with
        | none => exact ⟨hk2.trans hk3, rfl, b3, hr3, fun _ _ _ ht => absurd ht (by simp)⟩
        | some q =>
          obtain ⟨l, m, bs1⟩ := q
          obtain ⟨rfl, hgrown3, hl3⟩ := hleft _ _ _ hl
          simp only [Option.map_some, ends_bind]
          refine (ih hr3 (hgrown3.length.trans hlen2) (hgrown3.nn ▸ hgrown3.cap)).mono (fun v e4 h4 => ?_) fun _ _ hs => hs
          obtain ⟨hk4, rfl, b4, hr4, hright⟩ := h4
          rw [hgrown3.nn] at hright ⊢
          cases hr : readTree fuel m b3 with
          | none => exact ⟨(hk2.trans hk3).trans hk4, rfl, b4, hr4, fun _ _ _ ht => absurd ht (by simp)⟩
          | some q =>
            obtain ⟨t, m', bs2⟩ := q
            obtain ⟨rfl, hgrown4, hr4'⟩ := hright _ _ _ hr
            simp only [Option.map_some, ends_bind, ends_update, ends_pure]
            refine ⟨((hk2.trans hk3).trans hk4).trans (e4.readKept_huff _), trivial, _, hr4.congr rfl rfl rfl, ?_⟩
            rintro _ _ _ ⟨⟩
            have hgrown : e.huff.Grown e4.huff m' := (hgrown2.trans hgrown3).trans hgrown4
            have hm : e.huff.nn + 1 ≤ m := hnn2 ▸ hgrown3.grows
            have hm' : m ≤ m' := hgrown3.nn ▸ hgrown4.grows
            have hl4 : e4.huff.Holds (e.huff.nn + 1) m l (e.huff.nn + 1) :=
              hl3.congr (Nat.le_refl _) (Nat.le_refl _) fun y _ hy => hgrown4.old y (hgrown3.nn.symm ▸ hy)
            refine ⟨rfl, hgrown.setNode _, Nat.le_refl _, Nat.lt_of_lt_of_le hm hm', 0, e.huff.nn + 1, m, ?_, ?_, ?_⟩
            · exact Huffman.nodeAt_setNode_self (hgrown.length.symm ▸ hroom)
            · exact hl4.setNode (Nat.lt_succ_self _) (Nat.le_succ _) hm' _
            · exact hr4'.setNode hm (Nat.le_of_lt hm) (Nat.le_refl _) _

/-- deserialize_tree makes the tree that the bits read as the one at ROOT (R179). -/
theorem Engine.Reads.deserializeTree (h : e.Reads r n b) (hlen : e.huff.node.length = Config.nodeCap) :
    Ends deserializeTree e
      (fun v e' => e.ReadKept e' ∧ v = (readTree (Config.nodeCap + 1) 0 b).isSome ∧ ∃ b', e'.Reads r n b' ∧
        ∀ t m rest, readTree (Config.nodeCap + 1) 0 b = some (t, m, rest) →
          b' = rest ∧ ∃ x, e'.huff.root = some x ∧ e'.huff.Holds 0 m t x)
      fun _ _ => False := by
  rw [Machine.deserializeTree, updateHuff, ends_bind, ends_update, ends_bind]
  have h1 : Engine.Reads { e with huff := { e.huff with nn := 0 } } r n b := h.congr rfl rfl rfl
  refine (h1.desNode hlen (Nat.zero_le _)).mono (fun v e2 h2 => ?_) fun _ _ hs => hs
  obtain ⟨hk, rfl, b', hr, htree⟩ := h2
  have hkept : e.ReadKept e2 := (e.readKept_huff _).trans hk
  cases ht : readTree (Config.nodeCap + 1) 0 b with
  | none => exact ⟨hkept, rfl, b', hr, fun _ _ _ hc => absurd hc (by simp)⟩
  | some q =>
    obtain ⟨t, m, rest⟩ := q
    obtain ⟨rfl, -, hholds⟩ := htree _ _ _ ht
    simp only [Option.map_some, updateHuff, ends_bind, ends_update, ends_pure]
    refine ⟨hkept.trans (e2.readKept_huff _), rfl, _, hr.congr rfl rfl rfl, ?_⟩
    rintro _ _ _ ⟨⟩
    exact ⟨rfl, 0, rfl, hholds.of_node rfl⟩

/-! ## Symbols (R180, R181) -/

variable {P : Pipe} {ob : Bits}

/-- The descent from a tree's node is the walk down the tree. -/
theorem Pipe.Runs.descend {fuel : Nat} (h : P.Runs n b ob e) (ht : e.huff.Holds lo hi t x) (hf : t.size ≤ fuel) :
    Ends (descend fuel x) e
      (fun v e' => P.Step e e' ∧ v = (t.walk b).map (·.1) ∧ ∃ b', P.Runs n b' ob e' ∧ ∀ q, t.walk b = some q → b' = q.2)
      fun _ _ => False := by
  induction t generalizing fuel x e b with
  | leaf s =>
    obtain ⟨fuel, rfl⟩ := Nat.exists_eq_add_of_le' hf
    obtain ⟨-, -, f, hx⟩ := ht
    show Ends (Machine.descend (fuel + 1) x) _ _ _
    rw [Machine.descend, ends_bind, ends_look, hx]
    exact ⟨.refl P e, rfl, b, h, by rintro _ ⟨⟩; rfl⟩
  | node l r ihl ihr =>
    obtain ⟨fuel, rfl⟩ := Nat.exists_eq_add_of_le' hf
    obtain ⟨-, -, f, i, j, hx, hl, hr⟩ := ht
    rw [Tree.size, ← Nat.add_assoc, Machine.descend, ends_bind, ends_look, hx]
    simp only [ends_bind]
    refine h.readBit.mono (fun v e1 h1 => ?_) fun _ _ hs => hs
    obtain ⟨rfl, hk1, hr1⟩ := h1
    cases b with
    | nil => exact ⟨hk1, rfl, _, hr1, fun _ hc => absurd hc (by simp [Tree.walk])⟩
    | cons c bs =>
      simp only [List.head?_cons, Tree.walk]
      cases c with
      | false =>
        refine (ihl hr1 (hl.of_node (by rw [hk1.2])) (by omega)).mono (fun v e2 h2 => ?_) fun _ _ hs => hs
        exact ⟨hk1.trans h2.1, h2.2⟩
      | true =>
        refine (ihr hr1 (hr.of_node (by rw [hk1.2])) (by omega)).mono (fun v e2 h2 => ?_) fun _ _ hs => hs
        exact ⟨hk1.trans h2.1, h2.2⟩

/-- decode_symbol reads a symbol of the tree at ROOT. -/
theorem Pipe.Runs.decodeSymbol (h : P.Runs n b ob e) (hroot : e.huff.root = some x) (ht : e.huff.Holds lo hi t x)
    (hsize : t.size ≤ Config.nodeCap) :
    Ends decodeSymbol e
      (fun v e' => P.Step e e' ∧ v = (t.symbol b).map (·.1) ∧ ∃ b', P.Runs n b' ob e' ∧ ∀ q, t.symbol b = some q → b' = q.2)
      fun _ _ => False := by
  rw [Machine.decodeSymbol, ends_bind, ends_look]
  simp only [hroot, Option.getD_some]
  cases t with
  | leaf s =>
    obtain ⟨-, -, f, hx⟩ := ht
    rw [hx]
    simp only [ends_bind]
    refine h.readBit.mono (fun v e1 h1 => ?_) fun _ _ hs => hs
    obtain ⟨rfl, hk1, hr1⟩ := h1
    cases b with
    | nil => exact ⟨hk1, rfl, _, hr1, fun _ hc => absurd hc (by simp [Tree.symbol])⟩
    | cons c bs => exact ⟨hk1, rfl, _, hr1, by rintro _ ⟨⟩; rfl⟩
  | node l r =>
    obtain ⟨-, -, f, i, j, hx, -⟩ := id ht
    rw [hx]
    exact h.descend ht hsize

/-- The symbol loop writes the symbols read, until they are all there or one is not (R181). -/
theorem Pipe.Runs.symbolLoop {o w : Nat} (h : P.Runs n b ob e) (hroot : e.huff.root = some x) (ht : e.huff.Holds lo hi t x)
    (hsize : t.size ≤ Config.nodeCap) (hmax : P.start + (ob.length + 8 * o + 7) / 8 ≤ Config.fileMax) :
    Ends (symbolLoop o w) e
      (fun v e' => P.Step e e' ∧ v = (w + (readSymbols t o b).1.length, (readSymbols t o b).2.2) ∧
        ∃ b', P.Runs n b' (ob ++ bitsOf (readSymbols t o b).1) e' ∧ ((readSymbols t o b).2.2 = true → b' = (readSymbols t o b).2.1))
      fun _ _ => False := by
  induction o generalizing w e b ob with
  | zero => exact ⟨.refl P e, rfl, b, by simpa [readSymbols] using h, fun _ => rfl⟩
  | succ o ih =>
    rw [Machine.symbolLoop, ends_bind]
    refine (h.decodeSymbol hroot ht hsize).mono (fun v e1 h1 => ?_) fun _ _ hs => hs
    obtain ⟨hk1, rfl, b1, hr1, hsym⟩ := h1
    rw [readSymbols]
    cases hq : t.symbol b with
    | none => exact ⟨hk1, rfl, b1, by simpa using hr1, fun hc => absurd hc (by simp)⟩
    | some q =>
      obtain ⟨s, rest⟩ := q
      obtain rfl := hsym _ hq
      simp only [Option.map_some, ends_bind]
      have hbyte : (ob ++ byteBits s).length = ob.length + 8 := by simp
      refine (hr1.writeBits (byteBits s) (by omega)).mono (fun _ e2 h2 => ?_) fun _ _ hs => hs
      obtain ⟨hk2, hr2⟩ := h2
      have hk := hk1.trans hk2
      refine (ih hr2 (hk.2 ▸ hroot) (ht.of_node (by rw [hk.2])) (by omega)).mono (fun v e3 h3 => ?_) fun _ _ hs => hs
      obtain ⟨hk3, rfl, b3, hr3, hrest⟩ := h3
      refine ⟨hk.trans hk3, ?_, b3, ?_, hrest⟩
      · rw [List.length_cons, Nat.add_assoc, Nat.add_comm 1]
      · rw [List.append_assoc, ← bitsOf_cons] at hr3
        exact hr3

end Sys2Proof.Machine
end

section
/-! PROOFS. decode (R181): the file of the input handle is decoded into the file of the output handle. -/

namespace Sys2Proof.Machine

/-- How `decode` ends. -/
def Unblocked.decodeEnd (u : Unblocked) : DecodeEnd :=
  match u.used with
  | some bits => .done u.bytes.length bits
  | none      => .corrupt u.bytes.length

theorem Unblocked.decodeEnd_of_used {u : Unblocked} {bits : Nat} (h : u.used = some bits) : u.decodeEnd = .done u.bytes.length bits := by
  rw [Unblocked.decodeEnd, h]

theorem Unblocked.decodeEnd_of_corrupt {u : Unblocked} (h : u.used = none) : u.decodeEnd = .corrupt u.bytes.length := by
  rw [Unblocked.decodeEnd, h]

theorem length_readSymbols_le (t : Tree) (o : Nat) (b : Bits) : (readSymbols t o b).1.length ≤ o := by
  induction o generalizing b with
  | zero => simp [readSymbols]
  | succ o ih =>
    rw [readSymbols]
    cases t.symbol b with
    | none => simp
    | some q => simpa using ih q.2

theorem Tree.bits_length_le (t : Tree) : t.bits.length ≤ 9 * t.size := by
  have hbits := t.bits_length_add_one
  have hsize := t.size_add_one
  have hpos := t.size_pos
  omega

/-- A walk takes no more bits than the tree has nodes. -/
theorem Tree.walk_length {t : Tree} {b : Bits} {q : Byte × Bits} (h : t.walk b = some q) :
    q.2.length ≤ b.length ∧ b.length ≤ q.2.length + t.size := by
  induction t generalizing b with
  | leaf s =>
    cases h
    exact ⟨Nat.le_refl _, Nat.le_add_right _ _⟩
  | node l r ihl ihr =>
    cases b with
    | nil => exact absurd h (by simp [Tree.walk])
    | cons c bs =>
      simp only [List.length_cons, Tree.size]
      cases c with
      | false =>
        have hl := ihl h
        omega
      | true =>
        have hr := ihr h
        omega

theorem Tree.symbol_length {t : Tree} {b : Bits} {q : Byte × Bits} (h : t.symbol b = some q) :
    q.2.length ≤ b.length ∧ b.length ≤ q.2.length + t.size := by
  cases t with
  | leaf s =>
    cases b with
    | nil => exact absurd h (by simp [Tree.symbol])
    | cons c bs =>
      cases h
      exact ⟨Nat.le_succ _, Nat.le_refl _⟩
  | node l r => exact Tree.walk_length h

theorem readSymbols_length (t : Tree) (o : Nat) (b : Bits) :
    (readSymbols t o b).2.1.length ≤ b.length ∧ b.length ≤ (readSymbols t o b).2.1.length + t.size * o := by
  induction o generalizing b with
  | zero => exact ⟨Nat.le_refl _, Nat.le_add_right _ _⟩
  | succ o ih =>
    rw [readSymbols]
    cases hq : t.symbol b with
    | none => exact ⟨Nat.le_refl _, Nat.le_add_right _ _⟩
    | some q =>
      have hsym := Tree.symbol_length hq
      have hrest := ih q.2
      simp only [Nat.mul_succ]
      omega

/-- IN_COUNT is what is read of `n` bits, which may be more than it can count. -/
theorem Engine.Reads.count_toNat {e : Engine} {r : FileRef} {n : Nat} {b : Bits} (h : e.Reads r (BitVec.ofNat 64 n) b)
    (hb : b.length ≤ n) (hn : n - b.length < 2 ^ 64) : e.inp.count.toNat = n - b.length := by
  have hc := congrArg BitVec.toNat h.count
  have hlt := e.inp.count.isLt
  simp only [BitVec.toNat_add, BitVec.toNat_ofNat] at hc
  omega

variable {P : Pipe} {e : Engine}

/-- `decode`: the symbols that the block decodes to are the output, and the run ends as the block does (R181). -/
theorem Pipe.Opened.decodeBlock {k c o : Nat} (h : P.Opened e) (hsrc : lookup e.storage.handles P.src = some ⟨P.inRef, false, k⟩)
    (hlen : e.huff.node.length = Config.nodeCap) (ho : o < 2 ^ 32)
    (hmax : P.start + o ≤ Config.fileMax) :
    Ends (decodeBlock P.src c o P.dst) e
      (fun v e' => v = (unblock (e.storage.dataAt ⟨P.inRef, false, k⟩ c) o).decodeEnd ∧ P.Kept e e' ∧
        P.Wrote (unblock (e.storage.dataAt ⟨P.inRef, false, k⟩ c) o).bytes e')
      fun _ _ => False := by
  generalize hdata : e.storage.dataAt ⟨P.inRef, false, k⟩ c = block
  rw [Machine.decodeBlock, unblock]
  by_cases hz : o = 0
  · rw [if_pos hz, if_pos hz]
    exact ⟨rfl, .refl P e, h.wrote⟩
  rw [if_neg hz, if_neg hz, ends_bind]
  refine ends_inInit_reads c h.obliging hsrc fun i hi hr => ?_
  rw [hdata] at hr
  obtain ⟨e1, he1⟩ : ∃ e1, e1 = { e with inp := i } := ⟨_, rfl⟩
  have hk1 : P.Kept e e1 := he1 ▸ P.kept_streams e i e.out e.huff
  have hopen1 : P.Opened e1 := he1 ▸ h.streams i e.out e.huff
  have hi1 : e1.inp.h = P.src := he1 ▸ hi
  rw [← he1] at hr ⊢
  rw [ends_bind]
  refine (hr.deserializeTree (by rw [he1]; exact hlen)).mono (fun v e2 h2 => ?_) fun _ _ hs => hs
  obtain ⟨hk2, rfl, b2, hr2, htree⟩ := h2
  have hi2 : e2.inp.h = P.src := hk2.inH.trans hi1
  have hkept2 : P.Kept e e2 := hk1.trans (hk2.pipeKept hi1)
  have hopen2 : P.Opened e2 := hopen1.read hk2 hi1 hr2
  cases ht : readTree (Config.nodeCap + 1) 0 (bitsOf block) with
  | none => exact ⟨rfl, hkept2, hopen2.wrote⟩
  | some q =>
    obtain ⟨t, m, rest⟩ := q
    obtain ⟨rfl, x, hroot, hholds⟩ := htree _ _ _ ht
    obtain ⟨hbits, rfl, hsize⟩ := (readTree_eq_some (by omega) (Nat.zero_le _)).1 ht
    simp only [Option.isSome_some, if_true, ends_bind]
    refine (hopen2.outInit hr2 hi2).mono (fun _ e3 h3 => ?_) fun _ _ hs => hs
    obtain ⟨hk3, hr3⟩ := h3
    refine (hr3.symbolLoop (o := o) (w := 0) (hk3.2 ▸ hroot) (hholds.of_node (by rw [hk3.2])) (by omega)
      (by simp only [List.length_nil]; omega)).mono (fun v e4 h4 => ?_) fun _ _ hs => hs
    obtain ⟨hk4, rfl, b4, hr4, hrest⟩ := h4
    have hcount := length_readSymbols_le t o b2
    refine (hr4.flush (by simp only [List.nil_append, bitsOf_length]; omega)).mono (fun _ e5 h5 => ?_) fun _ _ hs => hs
    obtain ⟨hk5, hinp, hw, -⟩ := h5
    rw [List.nil_append, pack_bitsOf] at hw
    have hkept5 : P.Kept e e5 := hkept2.trans ((hk3.trans hk4).trans hk5).1
    cases hwhole : (readSymbols t o b2).2.2 with
    | false => exact ⟨by simp [Unblocked.decodeEnd], hkept5, hw⟩
    | true =>
      obtain rfl := hrest hwhole
      have hlength : (bitsOf block).length = 8 * block.length := bitsOf_length block
      have hlen' : (bitsOf block).length = t.bits.length + b2.length := by rw [hbits, List.length_append]
      obtain ⟨hle, hge⟩ := readSymbols_length t o b2
      have hsymbols : t.size * o ≤ Config.nodeCap * o := Nat.mul_le_mul_right o (by omega)
      have htbits : t.bits.length ≤ 9 * t.size := t.bits_length_le
      have hnum := hr4.reads.count_toNat (by omega) (by unfold Config.nodeCap at hsymbols hsize; omega)
      refine ⟨?_, hkept5, hw⟩
      simp [Unblocked.decodeEnd, hinp, hnum]

end Sys2Proof.Machine
end

section
/-! PROOFS. The files of ENCODE and DECODE (R185, R186): the input is opened, then the output, and the codec runs from the one to the
other. -/

namespace Sys2Proof.Machine

variable {P : Pipe} {e e1 : Engine} {p p0 p1 : Path} {c : Bytes} {fs : Files}

/-! ## Requests on the input -/

/-- The codec may run from the file in register F, which holds `c`, to the one in register G, and no file but that at `p` can
change. -/
structure Pipe.Stands (P : Pipe) (c : Bytes) (fs : Files) (p : Path) (e : Engine) : Prop where
  opened   : P.Opened e
  input    : e.storage.content P.inRef = c
  confined : e.Confined fs p
  node     : e.huff.node.length = Config.nodeCap
  heap     : e.huff.heap.length = Config.heapCap
  statmem  : e.statmem = []
  regF     : (e.work.reg .f).getD 0 = P.src
  regG     : (e.work.reg .g).getD 0 = P.dst

/-- SSize of the input (R78). -/
theorem Pipe.Stands.sSize (h : P.Stands c fs p e) :
    Ends (sSize P.src) e (fun n e' => n = c.length ∧ P.Stands c fs p e') fun _ _ => False := by
  obtain ⟨hopen, hin, hconf, hnode, hheap, hstat, hf, hg⟩ := h
  have ho := hopen.obliging
  obtain ⟨k, hsrc⟩ := hopen.src
  rw [ends_sSize_open ho hsrc]
  exact ⟨congrArg List.length hin, ⟨ho.next, hopen.src, hopen.dst, hopen.temp, hopen.base⟩, hin, ⟨hconf.1, ho.next.2.2⟩, hnode, hheap,
    hstat, hf, hg⟩

/-- SSeek of the input (R77). -/
theorem Pipe.Stands.sSeek (h : P.Stands c fs p e) (n : Nat) :
    Ends (sSeek P.src n) e
      (fun _ e' => P.Stands c fs p e' ∧ lookup e'.storage.handles P.src = some ⟨P.inRef, false, n⟩) fun _ _ => False := by
  obtain ⟨hopen, hin, hconf, hnode, hheap, hstat, hf, hg⟩ := h
  have ho := hopen.obliging
  obtain ⟨k, hsrc⟩ := hopen.src
  rw [ends_sSeek_open ho hsrc]
  have hself : lookup (e.storage.setPos P.src ⟨P.inRef, false, k⟩ n).handles P.src = some ⟨P.inRef, false, n⟩ :=
    lookup_replaceAt_self _ _ _ (by rw [hsrc]; rfl)
  refine ⟨⟨⟨ho.next, ⟨n, hself⟩, ?_, Storage.hasTemp_setPos hopen.temp, ?_⟩, ?_, ⟨hconf.1.setPos (fun hw => absurd hw (by simp)) n,
    ho.next.2.2⟩, hnode, hheap, hstat, hf, hg⟩, hself⟩
  · exact (lookup_replaceAt_other _ _ P.handles.symm).trans hopen.dst
  · exact (Storage.content_setPos _ _ _ _ _).trans hopen.base
  · exact (Storage.content_setPos _ _ _ _ _).trans hin

/-! ## The two opens -/

/-- `r <- SOpen(path, CW)` that opens the file. -/
theorem ends_openCreate_handle {Q : OpenAnswer → Engine → Prop} {R : Stop → Engine → Prop} (ho : e.draws.obliging) (r : HandleReg) :
    Ends (openCreate r p) e Q R ↔
      Q (.handle e.storage.nextId) { e.asked.withStorage (e.storage.openedCreate p) with
        work := e.work.setReg r (some e.storage.nextId) } := by
  simp [openCreate, ends_sOpenCreate, ends_keep, ho.answered, ho.askedStorage, ho.fails]

/-- The engine after ENCODE or DECODE opened its output (R185, R186). -/
def Engine.withOutput (e : Engine) (p : Path) : Engine :=
  { e.asked.withStorage (e.storage.openedCreate p) with work := e.work.setReg .g (some e.storage.nextId) }

theorem ends_openInput {α : Type} {f : Unit → Eng α} {Q : α → Engine → Prop} {R : Stop → Engine → Prop} (ho : e.draws.obliging)
    (hp : fsGet e.storage.fs p ≠ none) (c : ErrorCode) :
    Ends (openRead .f p >>= fun a => a.must c >>= f) e Q R ↔ Ends (f ()) (e.withInput p) Q R := by
  rw [ends_bind, ends_openRead_handle ho.prompt hp ho.fails]
  exact Iff.rfl

theorem ends_openOutput {α : Type} {f : Unit → Eng α} {Q : α → Engine → Prop} {R : Stop → Engine → Prop} (ho : e.draws.obliging)
    (c : ErrorCode) :
    Ends (openCreate .g p >>= fun a => a.must c >>= f) e Q R ↔ Ends (f ()) (e.withOutput p) Q R := by
  rw [ends_bind, ends_openCreate_handle ho]
  exact Iff.rfl

/-- The run of a command between two named files: its handles are the next two. -/
def Pipe.ofFiles (n : Handle) (hne : p0 ≠ p1) : Pipe where
  src := n
  dst := n + 1
  inRef := .named p0
  outRef := .named p1
  base := []
  start := 0
  handles := (Nat.succ_ne_self n).symm
  files := fun h => hne (FileRef.named.inj h)

/-- Only the input is open; requests may have been answered since. -/
structure Engine.InputOpen (e0 : Engine) (p : Path) (e : Engine) : Prop where
  obliging : e.draws.obliging
  storage  : e.storage = e0.storage.openedRead p
  reg      : e.work.reg .f = some e0.storage.nextId
  huff     : e.huff = e0.huff
  statmem  : e.statmem = e0.statmem

theorem Engine.inputOpen_withInput (ho : e.draws.obliging) (p : Path) : e.InputOpen p (e.withInput p) where
  obliging := ho.askedDraws
  storage := rfl
  reg := rfl
  huff := by
    show e.asked.huff = _
    rw [ho.asked]
  statmem := by
    show e.asked.statmem = _
    rw [ho.asked]

theorem Engine.handles_of_atRest (h : e.atRest = true) : e.storage.handles = [] := by
  simp only [Engine.atRest, Bool.and_eq_true, List.isEmpty_iff] at h
  exact h.1.2

/-- Opening the output readies the run. -/
theorem Engine.InputOpen.stands (h : e.InputOpen p0 e1) (hr : e.ready) (hne : p0 ≠ p1) (hc : fsGet e.storage.fs p0 = some c) :
    (Pipe.ofFiles e.storage.nextId hne).Stands c e.storage.fs p1 (e1.withOutput p1) := by
  obtain ⟨hrest, hshape, hstat, -, -⟩ := hr
  obtain ⟨-, hnode, -, hheap, -⟩ := Huffman.shaped_iff.1 (Engine.shaped_iff.1 hshape).2.2
  obtain ⟨ho, hst, hreg, hh, hs⟩ := h
  have hhandles : (e1.withOutput p1).storage.handles =
      [(e.storage.nextId, ⟨.named p0, false, 0⟩), (e.storage.nextId + 1, ⟨.named p1, true, 0⟩)] := by
    show (e1.storage.openedCreate p1).handles = _
    simp [hst, Storage.openedCreate, Storage.openedRead, Storage.addHandle, Engine.handles_of_atRest hrest]
  have hfs : (e1.withOutput p1).storage.fs = fsPut e.storage.fs p1 [] := by
    show (e1.storage.openedCreate p1).fs = _
    rw [hst]
    rfl
  have hdraws : (e1.withOutput p1).draws = e1.asked.draws := rfl
  have hhuff : (e1.withOutput p1).huff = e.huff := by
    show e1.asked.huff = _
    rw [ho.asked]
    exact hh
  have hstatmem : (e1.withOutput p1).statmem = e.statmem := by
    show e1.asked.statmem = _
    rw [ho.asked]
    exact hs
  exact {
    opened := {
      obliging := hdraws ▸ ho.askedDraws
      src := ⟨0, by simp [hhandles, Pipe.ofFiles, lookup]⟩
      dst := by simp [hhandles, Pipe.ofFiles, lookup]
      temp := trivial
      base := by simp [Pipe.ofFiles, Storage.content, hfs, fsGet_fsPut] }
    input := by simp [Pipe.ofFiles, Storage.content, hfs, fsGet_fsPut, hne, hc]
    confined := by
      refine ⟨⟨⟨[], hfs⟩, fun k f hf hw => ?_⟩, hdraws ▸ ho.askedDraws.2.2⟩
      rw [hhandles, lookup, lookup, lookup] at hf
      split at hf
      · obtain rfl := Option.some.inj hf
        exact absurd hw (by simp)
      · split at hf
        · obtain rfl := Option.some.inj hf
          rfl
        · exact absurd hf (by simp)
    node := hhuff ▸ hnode
    heap := hhuff ▸ hheap
    statmem := hstatmem.trans hstat
    regF := congrArg (Option.getD · 0) hreg
    regG := by
      show e1.storage.nextId = _
      rw [hst]
      rfl }

/-- The namespace after a run. -/
theorem Pipe.Wrote.shows {n : Handle} {hne : p0 ≠ p1} {bs : Bytes} (h : (Pipe.ofFiles n hne).Wrote bs e) (hc : e.Confined fs p1)
    (hs : e.statmem = []) : e.Shows (fsPut fs p1 bs) [] := by
  have hcontent : e.storage.content (.named p1) = bs := by
    refine h.content.trans ?_
    simp [Pipe.ofFiles, writeAt]
  refine ⟨?_, hs, h.obliging.1, h.obliging.2.2⟩
  rw [hc.1.fs_eq, hcontent]

/-- ENCODE and DECODE of one file to itself break duty 5 of R331. -/
theorem files_ne_of_duties {s : State} (h : s.breach (twoFilesNaming s) = none) (hf : twoFiles s = some (p0, p1)) : p0 ≠ p1 := by
  rintro rfl
  simp [State.breach, twoFilesNaming, hf] at h
  cases hb : s.breached <;> simp [hb] at h

/-! ## DECODE -/

/-- How DECODE reports the end of its block (R186). -/
def Unblocked.report (u : Unblocked) : Report :=
  match u.used with
  | some bits => success (BitVec.ofNat 32 u.bytes.length) (BitVec.ofNat 32 ((bits + 7) / 8))
  | none      => ⟨.blockCorrupt, BitVec.ofNat 32 u.bytes.length, 0, none⟩

/-- DECODE's body where the file exists (R186). -/
theorem ends_bodyDecode {s : State} (hr : e.ready) (ho : e.draws.obliging) (hf : twoFiles s = some (p0, p1)) (hne : p0 ≠ p1)
    (hc : fsGet e.storage.fs p0 = some c) :
    Ends (reporting (bodyDecode s)) e
      (fun rep e' => rep = (unblock c s.decSize.toNat).report ∧
        e'.Shows (fsPut e.storage.fs p1 (unblock c s.decSize.toNat).bytes) [])
      fun _ _ => False := by
  have hin := Engine.inputOpen_withInput ho p0
  have hstands := hin.stands hr hne hc
  rw [ends_reporting, bodyDecode, hf, ends_bind, ends_orRaise_some, ends_openInput ho (by simp [hc]),
    ends_openOutput hin.obliging, ends_bind, ends_reg, hstands.regF, ends_bind]
  refine hstands.sSize.mono (fun n e2 h2 => ?_) fun _ _ hs => hs.elim
  obtain ⟨rfl, hstands⟩ := h2
  rw [ends_bind]
  refine (hstands.sSeek 0).mono (fun _ e3 h3 => ?_) fun _ _ hs => hs.elim
  obtain ⟨hstands, hsrc⟩ := h3
  rw [ends_bind, ends_reg, hstands.regG, ends_bind]
  have hdata : e3.storage.dataAt ⟨.named p0, false, 0⟩ c.length = c := by
    rw [Storage.dataAt, show e3.storage.content (.named p0) = c from hstands.input, List.drop_zero, List.take_length]
  have hdec := hstands.opened.decodeBlock (c := c.length) hsrc hstands.node s.decSize.isLt
    (by show 0 + _ ≤ 2 ^ 64 - 1; have := s.decSize.isLt; omega)
  refine (ends_and hdec ((Quiet.decodeBlock _ _ _ _).confined e3 hstands.confined)).mono (fun v e4 h4 => ?_) fun _ _ hs => hs.1.elim
  obtain ⟨⟨rfl, hkept, hwrote⟩, hconf⟩ := h4
  rw [show (Pipe.ofFiles e.storage.nextId hne).inRef = .named p0 from rfl, hdata] at hwrote ⊢
  have hshows := hwrote.shows hconf (hkept.statmem.trans hstands.statmem)
  rw [Unblocked.report]
  cases hu : (unblock c s.decSize.toNat).used with
  | some bits =>
    rw [Unblocked.decodeEnd_of_used hu]
    exact ⟨rfl, hshows⟩
  | none =>
    rw [Unblocked.decodeEnd_of_corrupt hu]
    exact ⟨rfl, hshows⟩

/-- Settles O48: the body opens the two files, and the decoder writes what the block decodes to. -/
theorem decodeWritesTheFile : Obligations.DecodeWritesTheFile := by
  intro s p0 p1 c hs hf hc
  obtain ⟨hready, ho, hduties⟩ := hs
  have hbody := ends_bodyDecode hready ho hf (files_ne_of_duties hduties hf) hc
  refine ⟨fun bits hu => ?_, fun hu => ?_⟩ <;> rw [Unblocked.report, hu] at hbody
  · exact gives_of_reporting hready.1 hduties (by decide) (m := []) (fun _ => rfl) hbody
  · exact gives_of_reporting hready.1 hduties (by decide) (m := []) (fun _ => rfl) hbody

/-- Decoding a file's block uses all its bytes. -/
theorem exists_unblock_blockOf (S : Bytes) :
    ∃ bits, unblock (blockOf S) S.length = ⟨S, some bits⟩ ∧ (blockOf S).length = (bits + 7) / 8 := by
  refine ⟨_, blockRoundTrip S, ?_⟩
  cases h : huffTree S with
  | none => simp [blockOf, h]
  | some t => rw [blockOf_of_tree h, pack_length]

/-- Settles O53: DECODE writes what the block decodes to, which is the file, and the block is as long as its bits. -/
theorem decodeUndoesEncode : Obligations.DecodeUndoesEncode := by
  intro s p0 p1 S hs hf hc hsize
  obtain ⟨bits, hunblock, hlen⟩ := exists_unblock_blockOf S
  have h := (decodeWritesTheFile s p0 p1 (blockOf S) hs hf hc).1 bits (by rw [hsize, hunblock])
  rwa [hsize, hunblock, ← hlen] at h

end Sys2Proof.Machine
end

section
/-! PROOFS. The tree builder (R155 to R168): the heap over the arena holds the items of the queue, so the tree at ROOT is the file's. -/

namespace Sys2Proof.Machine

variable {g : Huffman} {e : Engine} {file : Bytes} {xs : List Item} {t : Tree}

/-! ## What the heap's operations leave alone -/

theorem Huffman.siftUp_frame (fuel i : Nat) (g : Huffman) : ∃ h, Huffman.siftUp fuel i g = { g with heap := h } := by
  induction fuel generalizing i g with
  | zero => exact ⟨g.heap, rfl⟩
  | succ fuel ih =>
    rw [Huffman.siftUp]
    split
    · exact ih _ _
    · exact ⟨g.heap, rfl⟩

theorem Huffman.siftDown_frame (fuel i : Nat) (g : Huffman) : ∃ h, Huffman.siftDown fuel i g = { g with heap := h } := by
  induction fuel generalizing i g with
  | zero => exact ⟨g.heap, rfl⟩
  | succ fuel ih =>
    rw [Huffman.siftDown]
    split
    · exact ⟨g.heap, rfl⟩
    · exact ih _ _

theorem Huffman.pushed_frame (g : Huffman) (x : Nat) : ∃ h, g.pushed x = { g with heap := h, hn := g.hn + 1 } :=
  Huffman.siftUp_frame _ _ _

theorem Huffman.popped_frame (g : Huffman) : ∃ h, g.popped = { g with heap := h, hn := g.hn - 1 } := Huffman.siftDown_frame _ _ _

@[simp] theorem Huffman.pushed_node (g : Huffman) (x : Nat) : (g.pushed x).node = g.node := by
  obtain ⟨h, hh⟩ := g.pushed_frame x
  rw [hh]

@[simp] theorem Huffman.pushed_nn (g : Huffman) (x : Nat) : (g.pushed x).nn = g.nn := by
  obtain ⟨h, hh⟩ := g.pushed_frame x
  rw [hh]

@[simp] theorem Huffman.pushed_freqAt (g : Huffman) (x : Nat) : (g.pushed x).freqAt = g.freqAt := by
  obtain ⟨h, hh⟩ := g.pushed_frame x
  rw [hh]
  rfl

@[simp] theorem Huffman.popped_node (g : Huffman) : g.popped.node = g.node := by
  obtain ⟨h, hh⟩ := g.popped_frame
  rw [hh]

@[simp] theorem Huffman.popped_nn (g : Huffman) : g.popped.nn = g.nn := by
  obtain ⟨h, hh⟩ := g.popped_frame
  rw [hh]

/-! ## The queue in the heap -/

/-- The heap holds the nodes of the queue's items: each is numbered by its node, at which its tree stands with its frequency. -/
structure Huffman.Models (g : Huffman) (xs : List Item) : Prop where
  heap    : g.IsHeap
  live    : g.live.Perm (xs.map (·.seq))
  ordered : Ordered g.nn xs
  nodes   : ∀ x ∈ xs, g.freqOf x.seq = x.freq ∧ g.Holds 0 g.nn x.tree x.seq
  arena   : g.node.length = Config.nodeCap

theorem Huffman.Models.hn (h : g.Models xs) : g.hn = xs.length := by
  rw [← Huffman.live_length (h.heap.size ▸ h.heap.capacity), h.live.length_eq, List.length_map]

/-- The order of the items is that of their nodes' keys. -/
theorem Huffman.Models.keyLt_iff (h : g.Models xs) {a b : Item} (ha : a ∈ xs) (hb : b ∈ xs) :
    g.keyLt a.seq b.seq = true ↔ a.lt b = true := by
  rw [Huffman.keyLt_iff, Item.lt_iff, (h.nodes a ha).1, (h.nodes b hb).1]

theorem Huffman.Models.nodup (h : g.Models xs) : g.live.Nodup := by
  refine h.live.nodup_iff.2 (List.pairwise_map.2 (h.ordered.rises.imp_of_mem fun {a b} ha hb hlt heq => ?_))
  rw [← h.keyLt_iff ha hb, heq, Huffman.keyLt_iff] at hlt
  omega

theorem Huffman.Models.nil (hheap : g.heap.length = Config.heapCap) (hn : g.hn = 0) (hnode : g.node.length = Config.nodeCap) :
    g.Models [] where
  heap := ⟨hheap, by omega, fun i _ hi => by omega⟩
  live := by simp [Huffman.live, hn]
  ordered := .nil _
  nodes := by simp
  arena := hnode

theorem Huffman.nodeAt_alloc_self {v : Node} (h : g.nn < g.node.length) : (g.alloc v).nodeAt g.nn = v :=
  Huffman.nodeAt_setNode_self (g := g) h

theorem Huffman.nodeAt_alloc_old {v : Node} {y : Nat} (h : y < g.nn) : (g.alloc v).nodeAt y = g.nodeAt y :=
  Huffman.nodeAt_setNode_other (g := g) (Nat.ne_of_lt h)

theorem Huffman.Holds.alloc {x : Nat} (h : g.Holds 0 g.nn t x) (v : Node) : (g.alloc v).Holds 0 (g.nn + 1) t x :=
  h.congr (Nat.le_refl 0) (Nat.le_succ _) fun _ _ hy => Huffman.nodeAt_alloc_old hy

/-- The state after a new node is put into the heap (R158, R165). -/
def Huffman.added (g : Huffman) (v : Node) : Huffman := (g.alloc v).pushed g.nn

@[simp] theorem Huffman.added_nn (g : Huffman) (v : Node) : (g.added v).nn = g.nn + 1 := Huffman.pushed_nn _ _

@[simp] theorem Huffman.added_freqAt (g : Huffman) (v : Node) : (g.added v).freqAt = g.freqAt := Huffman.pushed_freqAt _ _

theorem Huffman.nodeAt_added (g : Huffman) (v : Node) (y : Nat) : (g.added v).nodeAt y = (g.alloc v).nodeAt y := by
  rw [Huffman.nodeAt, Huffman.added, Huffman.pushed_node, Huffman.nodeAt]

/-- A new node, put into the heap, is a new item (R158, R165). -/
theorem Huffman.Models.push (h : g.Models xs) {v : Node} {x : Item} (hnn : g.nn < Config.nodeCap) (hlen : xs.length < Config.heapCap)
    (hseq : x.seq = g.nn) (hfreq : x.freq = v.freq) (hx : (g.alloc v).Holds 0 (g.nn + 1) x.tree g.nn) :
    (g.added v).Models (insertItem x xs) := by
  have hroom : g.nn < g.node.length := by rw [h.arena]; exact hnn
  have hself : (g.alloc v).nodeAt g.nn = v := Huffman.nodeAt_alloc_self hroom
  have hold : ∀ y, y < g.nn → (g.alloc v).nodeAt y = g.nodeAt y := fun y => Huffman.nodeAt_alloc_old
  have hnew : g.nn ∉ g.live := fun hmem => by
    obtain ⟨y, hy, hseq⟩ := List.mem_map.1 (h.live.mem_iff.1 hmem)
    exact absurd (h.ordered.below y hy) (by omega)
  have halloc : (g.alloc v).IsHeap := by
    refine ⟨h.heap.size, h.heap.capacity, fun i hi hlt => ?_⟩
    have hlive : ∀ j < g.hn, g.heapAt j < g.nn := fun j hj => by
      have hmem : g.heapAt j ∈ g.live := by
        rw [← Huffman.live_getElem (by rw [Huffman.live_length (h.heap.size ▸ h.heap.capacity)]; exact hj)]
        exact List.getElem_mem _
      obtain ⟨y, hy, heq⟩ := List.mem_map.1 (h.live.mem_iff.1 hmem)
      exact heq ▸ h.ordered.below y hy
    have horder := h.heap.order i hi hlt
    rw [Huffman.keyLt_iff] at horder ⊢
    have hp := hlive ((i - 1) / 2) (by have : i < g.hn := hlt; omega)
    have hc := hlive i hlt
    simp only [Huffman.freqOf, Huffman.heapAt] at *
    rwa [show (g.alloc v).heap = g.heap from rfl, hold _ hp, hold _ hc]
  obtain ⟨hheap, hlive⟩ := halloc.pushed h.nodup (x := g.nn) (by show g.hn < _; rw [h.hn]; exact hlen) hnew
  refine ⟨hheap, ?_, ?_, fun y hy => ?_, ?_⟩
  · refine hlive.trans (((h.live.cons g.nn).trans ?_).trans ((insertItem_perm x xs).map _).symm)
    rw [← hseq, List.map_cons]
  · rw [Huffman.added_nn]
    exact h.ordered.insert hseq
  · rw [Huffman.freqOf, Huffman.nodeAt_added, Huffman.added_nn]
    rcases List.mem_cons.1 ((insertItem_perm x xs).mem_iff.1 hy) with rfl | hy
    · rw [hseq, hself]
      exact ⟨hfreq.symm, hx.of_node (Huffman.pushed_node _ _)⟩
    · obtain ⟨hf, ht⟩ := h.nodes y hy
      rw [hold _ (h.ordered.below y hy)]
      exact ⟨hf, (ht.alloc v).of_node (Huffman.pushed_node _ _)⟩
  · rw [Huffman.added, Huffman.pushed_node]
    simpa [Huffman.alloc] using h.arena

/-- The root of the heap is the first item's node, and extract_min takes it (R159, R160). -/
theorem Huffman.Models.pop {a : Item} (h : g.Models (a :: xs)) : g.heapAt 0 = a.seq ∧ g.popped.Models xs := by
  have hpos : 0 < g.hn := by rw [h.hn]; exact Nat.succ_pos _
  obtain ⟨hheap, hlive⟩ := h.heap.popped h.nodup hpos
  have hroot : g.heapAt 0 = a.seq := by
    obtain ⟨y, hy, hseq⟩ := List.mem_map.1 (h.live.mem_iff.1 (hlive.mem_iff.2 List.mem_cons_self))
    rcases List.mem_cons.1 hy with rfl | hy
    · exact hseq.symm
    · refine Decidable.byContradiction fun hne => ?_
      have ha : a.seq ∈ g.live := h.live.mem_iff.2 List.mem_cons_self
      have hlt := h.heap.root_least ha (Ne.symm hne)
      rw [← hseq, h.keyLt_iff (List.mem_cons_of_mem _ hy) List.mem_cons_self] at hlt
      have hgt := (List.pairwise_cons.1 h.ordered.rises).1 y hy
      rw [Item.lt_iff] at hlt hgt
      omega
  refine ⟨hroot, hheap, ?_, ?_, fun x hx => ?_, ?_⟩
  · rw [hroot] at hlive
    exact (hlive.symm.trans h.live).cons_inv
  · rw [Huffman.popped_nn]
    exact h.ordered.tail
  · obtain ⟨hf, ht⟩ := h.nodes x (List.mem_cons_of_mem _ hx)
    rw [Huffman.freqOf, Huffman.nodeAt, Huffman.popped_node, Huffman.popped_nn]
    exact ⟨hf, ht.of_node (Huffman.popped_node _)⟩
  · rw [Huffman.popped_node]
    exact h.arena

/-! ## Building -/

/-- new_leaf or new_internal, then insert. -/
theorem ends_insert_newNode {Q : Unit → Engine → Prop} {R : Stop → Engine → Prop} (h : e.huff.Models xs) (v : Node)
    (hnn : e.huff.nn < Config.nodeCap) (hlen : xs.length < Config.heapCap) :
    Ends (newNode v >>= insert) e Q R ↔ Q () { e with huff := e.huff.added v } := by
  have hhn : (e.huff.alloc v).hn = xs.length := h.hn
  simp [newNode, insert, updateHuff, Huffman.added, Nat.ne_of_lt hnn, hhn, Nat.ne_of_lt hlen]

theorem ends_extractMin {Q : Nat → Engine → Prop} {R : Stop → Engine → Prop} {a : Item} (h : e.huff.Models (a :: xs)) :
    Ends extractMin e Q R ↔ Q a.seq { e with huff := e.huff.popped } := by
  simp [extractMin, updateHuff, h.hn, h.pop.1]

/-- The leaves of the symbols that occur (R168). -/
theorem ends_insertLeaves {n s : Nat} (h : e.huff.Models xs)
    (hfreq : ∀ s < Config.alphabet, e.huff.freqAt s = file.count (BitVec.ofNat 8 s))
    (hnn : e.huff.nn ≤ s) (hlen : xs.length = e.huff.nn) (hs : s + n = Config.alphabet) :
    Ends (insertLeaves n s) e
      (fun _ e' => ∃ g, e' = { e with huff := g } ∧ g.Models (withLeaves file n s e.huff.nn xs) ∧
        g.nn = e.huff.nn + (leafItems file n s e.huff.nn).length)
      fun _ _ => False := by
  unfold Config.alphabet at hs
  induction n generalizing s e xs with
  | zero => exact ⟨e.huff, rfl, h, rfl⟩
  | succ n ih =>
    rw [insertLeaves, ends_bind, ends_look, hfreq s (by unfold Config.alphabet; omega), withLeaves, leafItems]
    by_cases hf : 0 < file.count (BitVec.ofNat 8 s)
    · simp only [if_pos hf]
      rw [← bind_assoc, ends_bind, ends_insert_newNode h _ (by unfold Config.nodeCap; omega) (by unfold Config.heapCap; omega)]
      have hroom : e.huff.nn < e.huff.node.length := by rw [h.arena]; unfold Config.nodeCap; omega
      have hpush := h.push (v := .leaf (BitVec.ofNat 8 s) (file.count (BitVec.ofNat 8 s)))
        (x := ⟨file.count (BitVec.ofNat 8 s), e.huff.nn, .leaf (BitVec.ofNat 8 s)⟩) (by unfold Config.nodeCap; omega)
        (by unfold Config.heapCap; omega) rfl rfl
        ⟨Nat.zero_le _, Nat.lt_succ_self _, _, Huffman.nodeAt_alloc_self hroom⟩
      have hcount : (insertItem ⟨file.count (BitVec.ofNat 8 s), e.huff.nn, .leaf (BitVec.ofNat 8 s)⟩ xs).length = e.huff.nn + 1 := by
        rw [(insertItem_perm _ _).length_eq, List.length_cons, hlen]
      refine (ih (e := { e with huff := e.huff.added (.leaf (BitVec.ofNat 8 s) (file.count (BitVec.ofNat 8 s))) }) hpush
        (by simpa using hfreq) (by simpa using hnn) (by simpa using hcount) (by omega)).mono (fun _ e2 h2 => ?_) fun _ _ hs => hs
      obtain ⟨g2, rfl, hmodels, hnn2⟩ := h2
      simp only [Huffman.added_nn] at hmodels hnn2
      refine ⟨g2, rfl, hmodels, ?_⟩
      rw [hnn2, List.length_cons]
      omega
    · rw [if_neg hf, if_neg hf]
      exact ih h hfreq (by omega) hlen (by omega)

/-- The merges (R168). -/
theorem ends_mergeLoop {fuel : Nat} (h : e.huff.Models xs) (hroom : e.huff.nn + xs.length ≤ Config.nodeCap + 1)
    (hlen : xs.length ≤ Config.heapCap) :
    Ends (mergeLoop fuel) e
      (fun _ e' => ∃ g, e' = { e with huff := g } ∧ g.Models (mergeItems fuel e.huff.nn xs)) fun _ _ => False := by
  induction fuel generalizing e xs with
  | zero => exact ⟨e.huff, rfl, by simpa [mergeItems] using h⟩
  | succ fuel ih =>
    rw [mergeLoop, ends_bind, ends_look, h.hn]
    match xs, h, hroom, hlen with
    | [], h, _, _ => exact ⟨e.huff, rfl, h⟩
    | [a], h, _, _ => exact ⟨e.huff, rfl, h⟩
    | a :: b :: rest, h, hroom, hlen =>
      simp only [List.length_cons] at hroom hlen
      rw [if_pos (by simp), ends_bind, ends_extractMin h, ends_bind, ends_extractMin h.pop.2, ends_bind, ends_look]
      have hpop := h.pop.2.pop.2
      obtain ⟨hfa, hta⟩ := h.nodes a (by simp)
      obtain ⟨hfb, htb⟩ := h.nodes b (by simp)
      have hnode : e.huff.popped.popped.node = e.huff.node := by rw [Huffman.popped_node, Huffman.popped_node]
      have hnn : e.huff.popped.popped.nn = e.huff.nn := by rw [Huffman.popped_nn, Huffman.popped_nn]
      generalize e.huff.popped.popped = g at hpop hnode hnn ⊢
      replace hta : g.Holds 0 g.nn a.tree a.seq := hnn.symm ▸ hta.of_node hnode
      replace htb : g.Holds 0 g.nn b.tree b.seq := hnn.symm ▸ htb.of_node hnode
      have hfreqOf : ∀ y, g.freqOf y = e.huff.freqOf y := fun y => by rw [Huffman.freqOf, Huffman.nodeAt, hnode]; rfl
      have hroom' : g.nn < Config.nodeCap := by omega
      have hpush := hpop.push (v := .inner (g.freqOf a.seq + g.freqOf b.seq) a.seq b.seq) (x := a.merged g.nn b) hroom' (by omega) rfl
        (by rw [hfreqOf, hfreqOf, hfa, hfb]; rfl)
        ⟨Nat.zero_le _, Nat.lt_succ_self _, _, _, _, Huffman.nodeAt_alloc_self (by rw [hpop.arena]; exact hroom'), hta.alloc _, htb.alloc _⟩
      have hcount : (insertItem (a.merged g.nn b) rest).length = rest.length + 1 := (insertItem_perm _ _).length_eq
      rw [mergeItems_cons_cons, ← hnn, ← bind_assoc, ends_bind, ends_insert_newNode hpop _ hroom' (by omega)]
      refine (ih (e := { e with huff := g.added (.inner (g.freqOf a.seq + g.freqOf b.seq) a.seq b.seq) }) hpush
        (by simp only [Huffman.added_nn]; omega) (by omega)).mono (fun _ e2 h2 => ?_) fun _ _ hs => hs
      obtain ⟨g2, rfl, hmodels⟩ := h2
      exact ⟨g2, rfl, by simpa using hmodels⟩

/-- build_tree makes the file's tree the one at ROOT (R168). -/
theorem ends_buildTree (hheap : e.huff.heap.length = Config.heapCap) (hnode : e.huff.node.length = Config.nodeCap)
    (hfreq : ∀ s < Config.alphabet, e.huff.freqAt s = file.count (BitVec.ofNat 8 s)) :
    Ends buildTree e
      (fun _ e' => ∃ g, e' = { e with huff := g } ∧ g.node.length = Config.nodeCap ∧ (huffTree file = none → g.root = none) ∧
        ∀ t, huffTree file = some t → ∃ x n, g.root = some x ∧ g.Holds 0 n t x)
      fun _ _ => False := by
  rw [buildTree, updateHuff, ends_bind, ends_update, heapInit, updateHuff, ends_bind, ends_update, ends_bind]
  have hnil : Huffman.Models { e.huff with nn := 0, hn := 0 } [] := .nil hheap rfl hnode
  refine (ends_insertLeaves (e := { e with huff := { e.huff with nn := 0, hn := 0 } }) hnil hfreq (Nat.le_refl 0) rfl rfl).mono
    (fun _ e1 h1 => ?_) fun _ _ hs => hs
  obtain ⟨g1, rfl, hmodels, hnn⟩ := h1
  have hlen := length_withLeaves file
  have hmax := length_leafItems_le file Config.alphabet 0 0
  simp only [Nat.zero_add] at hmodels hnn
  rw [ends_bind, ends_look, hmodels.hn]
  by_cases hz : (withLeaves file Config.alphabet 0 0 []).length = 0
  · have hnone : huffTree file = none := by
      rw [huffTree_eq, mergeItems_of_length_le (by omega), List.length_eq_zero_iff.1 hz]
      rfl
    rw [if_pos hz, updateHuff, ends_update]
    exact ⟨_, rfl, hmodels.arena, fun _ => rfl, fun t ht => absurd (hnone.symm.trans ht) (by simp)⟩
  · rw [if_neg hz, ends_bind]
    refine (ends_mergeLoop (e := { e with huff := g1 }) hmodels (by show g1.nn + _ ≤ 512; rw [hnn]; unfold Config.alphabet at *; omega)
      (by show _ ≤ 256; unfold Config.alphabet at *; omega)).mono (fun _ e2 h2 => ?_) fun _ _ hs => hs
    obtain ⟨g2, rfl, hmerged⟩ := h2
    rw [hnn, hlen] at hmerged
    obtain ⟨x, hx⟩ := List.length_eq_one_iff.1
      (length_mergeItems (k := (leafItems file Config.alphabet 0 0).length) (Nat.pos_of_ne_zero hz) (Nat.le_succ_of_le (Nat.le_of_eq hlen)))
    have htree : huffTree file = some x.tree := by rw [huffTree_eq, hx]; rfl
    rw [hx] at hmerged
    obtain ⟨-, hholds⟩ := hmerged.nodes x (List.mem_singleton.2 rfl)
    rw [ends_bind, ends_extractMin hmerged, updateHuff, ends_update]
    refine ⟨_, rfl, hmerged.pop.2.arena, fun hnone => absurd (htree.symm.trans hnone) (by simp), fun t ht => ⟨x.seq, g2.nn, rfl, ?_⟩⟩
    obtain rfl := Option.some.inj (htree.symm.trans ht)
    exact hholds.of_node (Huffman.popped_node _)

/-! ## Codes (R170) -/

/-- The code of `s` is `p`. -/
structure Huffman.HasCode (g : Huffman) (s : Byte) (p : Bits) : Prop where
  len  : g.codeLen.getD s.toNat 0 = p.length
  bits : ∀ i < 64, (g.codeBits.getD s.toNat 0).getLsbD i = p.getD i false

theorem Huffman.HasCode.code_eq {s : Byte} {p : Bits} (h : g.HasCode s p) (hp : p.length ≤ 64) : g.code s = p := by
  rw [Huffman.code, h.len]
  refine List.ext_getElem (by simp) fun i hi _ => ?_
  simp only [List.length_map, List.length_range] at hi
  have hbit := h.bits i (by omega)
  rw [List.getElem_map, List.getElem_range, hbit]
  exact (List.getElem_eq_getD false).symm

/-- The tables of codes have their sizes (R170). -/
def Huffman.Tabled (g : Huffman) : Prop := g.codeLen.length = Config.alphabet ∧ g.codeBits.length = Config.alphabet

theorem Huffman.Tabled.setCode (h : g.Tabled) (s : Byte) (n : Nat) (v : BitVec 64) : (g.setCode s n v).Tabled := by
  simpa [Huffman.Tabled, Huffman.setCode] using h

theorem Huffman.hasCode_setCode_self {s : Byte} {p : Bits} {v : BitVec 64} (h : g.Tabled)
    (hv : ∀ i < 64, v.getLsbD i = p.getD i false) : (g.setCode s p.length v).HasCode s p := by
  have hs : s.toNat < 256 := s.isLt
  obtain ⟨hl, hb⟩ := h
  unfold Config.alphabet at hl hb
  constructor
  · simp [Huffman.setCode, hl, hs]
  · simpa [Huffman.setCode, hb, hs] using hv

theorem Huffman.HasCode.setCode_other {s s' : Byte} {p : Bits} (h : g.HasCode s p) (hne : s ≠ s') (n : Nat) (v : BitVec 64) :
    (g.setCode s' n v).HasCode s p := by
  have hne' : s'.toNat ≠ s.toNat := fun heq => hne (BitVec.eq_of_toNat_eq heq.symm)
  obtain ⟨hl, hb⟩ := h
  constructor
  · simpa [Huffman.setCode, List.getElem?_set_ne hne'] using hl
  · simpa [Huffman.setCode, List.getElem?_set_ne hne'] using hb

theorem Tree.paths_ne_nil (t : Tree) : t.paths ≠ [] := by
  induction t with
  | leaf s => exact List.cons_ne_nil _ _
  | node l r ihl _ => simp [Tree.paths, ihl]

/-- What visit does below a node that the path `pre` leads to: the leaves' symbols get their codes, the others keep theirs. -/
structure Huffman.Coded (g g' : Huffman) (t : Tree) (pre : Bits) : Prop where
  node   : g'.node = g.node
  root   : g'.root = g.root
  tabled : g'.Tabled
  codes  : ∀ s p, (s, p) ∈ t.paths → g'.HasCode s (pre ++ p)
  others : ∀ s p, s ∉ t.syms → g.HasCode s p → g'.HasCode s p

theorem getD_append_singleton (pre : Bits) (v : Bool) (i : Nat) :
    (pre ++ [v]).getD i false = if i = pre.length then v else pre.getD i false := by
  rw [List.getD_eq_getElem?_getD, List.getD_eq_getElem?_getD]
  rcases Nat.lt_trichotomy i pre.length with hi | rfl | hi
  · rw [if_neg (Nat.ne_of_lt hi), List.getElem?_append_left hi]
  · simp only [List.getElem?_concat_length, Option.getD_some, if_true]
  · rw [if_neg (Nat.ne_of_gt hi), List.getElem?_eq_none (by rw [List.length_append, List.length_singleton]; exact hi),
      List.getElem?_eq_none (Nat.le_of_lt hi)]

theorem ends_visit {fuel lo hi x : Nat} {pre : Bits} {v : BitVec 64} (h : e.huff.Holds lo hi t x) (htab : e.huff.Tabled)
    (hd : t.syms.Nodup) (hfuel : ∀ s p, (s, p) ∈ t.paths → p.length < fuel) (hv : ∀ i < 64, v.getLsbD i = pre.getD i false)
    (hlen : pre.length + fuel ≤ 65) :
    Ends (visit fuel x pre.length v) e (fun _ e' => ∃ g, e' = { e with huff := g } ∧ e.huff.Coded g t pre) fun _ _ => False := by
  induction t generalizing fuel x pre v e with
  | leaf s =>
    obtain ⟨fuel, rfl⟩ := Nat.exists_eq_add_of_le' (hfuel s [] (List.mem_singleton.2 rfl))
    obtain ⟨-, -, f, hx⟩ := h
    show Ends (visit (fuel + 1) x pre.length v) _ _ _
    rw [visit, ends_bind, ends_look, hx]
    refine ⟨_, rfl, rfl, rfl, htab.setCode s _ v, fun s' p hp => ?_, fun s' p hs hc => hc.setCode_other (by simpa [Tree.syms] using hs) _ _⟩
    obtain ⟨rfl, rfl⟩ : s' = s ∧ p = [] := by simpa [Tree.paths] using hp
    rw [List.append_nil]
    exact Huffman.hasCode_setCode_self htab hv
  | node l r ihl ihr =>
    obtain ⟨-, -, f, i, j, hx, hl, hr⟩ := h
    obtain ⟨hdl, hdr, hdis⟩ := List.nodup_append.1 hd
    obtain ⟨fuel, rfl⟩ : ∃ k, fuel = k + 1 := by
      obtain ⟨⟨s, p⟩, hp⟩ := List.exists_mem_of_ne_nil _ (Tree.node l r).paths_ne_nil
      exact ⟨fuel - 1, by have := hfuel s p hp; omega⟩
    have hvl : ∀ i < 64, v.getLsbD i = (pre ++ [false]).getD i false := fun i hi => by
      rw [hv i hi, getD_append_singleton]
      split
      · rename_i heq
        simp [heq]
      · rfl
    have hvr : ∀ i < 64, (v ||| (1#64 <<< pre.length)).getLsbD i = (pre ++ [true]).getD i false := fun i hi => by
      have hbit : (1#64 <<< pre.length).getLsbD i = decide (i = pre.length) := by
        rw [Bool.eq_iff_iff]
        simp only [BitVec.getLsbD_shiftLeft, BitVec.getLsbD_one, Bool.and_eq_true, Bool.not_eq_true', decide_eq_true_eq,
          decide_eq_false_iff_not]
        omega
      rw [BitVec.getLsbD_or, hv i hi, getD_append_singleton, hbit]
      by_cases heq : i = pre.length <;> simp [heq]
    rw [visit, ends_bind, ends_look, hx]
    simp only [ends_bind]
    have hlenl : (pre ++ [false]).length = pre.length + 1 := List.length_append
    have hlenr : (pre ++ [true]).length = pre.length + 1 := List.length_append
    rw [← hlenl]
    refine (ihl hl htab hdl (fun s p hp => ?_) hvl (by omega)).mono (fun _ e1 h1 => ?_) fun _ _ hs => hs
    · exact Nat.lt_of_succ_lt_succ (hfuel s (false :: p) (Tree.mem_paths_node.2 ⟨p, .inl ⟨hp, rfl⟩⟩))
    obtain ⟨g1, rfl, hnode1, hroot1, htab1, hcodes1, hothers1⟩ := h1
    rw [hlenl, ← hlenr]
    refine (ihr (e := { e with huff := g1 }) (hr.of_node hnode1) htab1 hdr (fun s p hp => ?_) hvr (by omega)).mono (fun _ e2 h2 => ?_)
      fun _ _ hs => hs
    · exact Nat.lt_of_succ_lt_succ (hfuel s (true :: p) (Tree.mem_paths_node.2 ⟨p, .inr ⟨hp, rfl⟩⟩))
    obtain ⟨g2, rfl, hnode2, hroot2, htab2, hcodes2, hothers2⟩ := h2
    refine ⟨g2, rfl, hnode2.trans hnode1, hroot2.trans hroot1, htab2, fun s p hp => ?_, fun s p hs hc => ?_⟩
    · obtain ⟨q, ⟨hq, rfl⟩ | ⟨hq, rfl⟩⟩ := Tree.mem_paths_node.1 hp
      · have hcode := hcodes1 s q hq
        rw [List.append_assoc] at hcode
        exact hothers2 s _ (fun hs => hdis s (Tree.mem_syms.2 ⟨q, hq⟩) s hs rfl) hcode
      · have hcode := hcodes2 s q hq
        rw [List.append_assoc] at hcode
        exact hcode
    · rw [Tree.syms, List.mem_append, not_or] at hs
      exact hothers2 s p hs.2 (hothers1 s p hs.1 hc)

/-- The tables of codes, emptied (R170). -/
def Huffman.uncoded (g : Huffman) : Huffman :=
  { g with codeLen := List.replicate Config.alphabet 0, codeBits := List.replicate Config.alphabet 0 }

theorem Huffman.uncoded_tabled (g : Huffman) : g.uncoded.Tabled := ⟨List.length_replicate, List.length_replicate⟩

section
variable {Q : Unit → Engine → Prop} {R : Stop → Engine → Prop} {x : Nat}

theorem ends_buildCodes_none (hroot : e.huff.root = none) : Ends buildCodes e Q R ↔ Q () { e with huff := e.huff.uncoded } := by
  simp [buildCodes, updateHuff, hroot, Huffman.uncoded]

theorem ends_buildCodes_leaf {s : Byte} {f : Nat} (hroot : e.huff.root = some x) (hx : e.huff.nodeAt x = .leaf s f) :
    Ends buildCodes e Q R ↔ Q () { e with huff := e.huff.uncoded.setCode s 1 0 } := by
  rw [Huffman.nodeAt] at hx
  simp only [buildCodes, updateHuff, ends_bind, ends_update, ends_look, hroot, Huffman.nodeAt, hx, Huffman.uncoded]

theorem ends_buildCodes_inner {f i j : Nat} (hroot : e.huff.root = some x) (hx : e.huff.nodeAt x = .inner f i j) :
    Ends buildCodes e Q R ↔ Ends (visit (Config.maxCodeLen + 1) x 0 0) { e with huff := e.huff.uncoded } Q R := by
  rw [Huffman.nodeAt] at hx
  simp only [buildCodes, updateHuff, ends_bind, ends_update, ends_look, hroot, Huffman.nodeAt, hx, Huffman.uncoded]

end

/-- build_codes gives every symbol of the tree its code (R170). -/
theorem ends_buildCodes {lo hi x : Nat} (hroot : e.huff.root = some x) (h : e.huff.Holds lo hi t x) (hd : t.syms.Nodup)
    (hdepth : ∀ s p, (s, p) ∈ t.paths → p.length ≤ 64) :
    Ends buildCodes e
      (fun _ e' => ∃ g, e' = { e with huff := g } ∧ g.node = e.huff.node ∧ g.root = e.huff.root ∧
        ∀ s ∈ t.syms, g.HasCode s (t.code s))
      fun _ _ => False := by
  cases t with
  | leaf s =>
    obtain ⟨-, -, f, hx⟩ := h
    rw [ends_buildCodes_leaf hroot hx]
    refine ⟨_, rfl, rfl, rfl, fun s' hs => ?_⟩
    obtain rfl := List.mem_singleton.1 hs
    exact Huffman.hasCode_setCode_self (p := [false]) (Huffman.uncoded_tabled _) fun i _ => by cases i <;> simp
  | node l r =>
    obtain ⟨-, -, f, i, j, hx, -⟩ := id h
    rw [ends_buildCodes_inner hroot hx]
    refine (ends_visit (e := { e with huff := e.huff.uncoded }) (h.of_node rfl) (Huffman.uncoded_tabled _) hd
      (fun s p hp => Nat.lt_succ_of_le (hdepth s p hp)) (pre := []) (fun i _ => by simp) (Nat.le_refl _)).mono
      (fun _ e1 h1 => ?_) fun _ _ hs => hs
    obtain ⟨g, rfl, hcoded⟩ := h1
    exact ⟨g, rfl, hcoded.node, hcoded.root, fun s hs => hcoded.codes s _ (Tree.code_mem_paths hs)⟩

end Sys2Proof.Machine
end

section
/-! PROOFS. The encoder (R166, R173 to R176): the counts of the file, the bits of its tree and the codes of its bytes. -/

namespace Sys2Proof.Machine

variable {P : Pipe} {e e' : Engine} {r : FileRef} {n : BitVec 64} {b ob : Bits} {bs S : Bytes} {t : Tree}

/-! ## Counting (R166) -/

/-- FREQ counts the bytes `bs`. -/
def Huffman.Counts (g : Huffman) (bs : Bytes) : Prop :=
  g.freq.length = Config.alphabet ∧ ∀ s < Config.alphabet, g.freqAt s = bs.count (BitVec.ofNat 8 s)

theorem Huffman.counts_nil (g : Huffman) : Huffman.Counts { g with freq := List.replicate Config.alphabet 0 } [] := by
  refine ⟨List.length_replicate, fun s hs => ?_⟩
  rw [Huffman.freqAt, List.getD_eq_getElem?_getD, List.getElem?_replicate_of_lt hs, Option.getD_some, List.count_nil]

theorem Huffman.Counts.count {g : Huffman} (h : g.Counts bs) (c : Byte) : (g.count c).Counts (bs ++ [c]) := by
  obtain ⟨hlen, hcount⟩ := h
  refine ⟨by simpa [Huffman.count] using hlen, fun s hs => ?_⟩
  have hc : c.toNat < g.freq.length := by rw [hlen]; exact c.isLt
  rw [List.count_append, ← hcount s hs, List.count_singleton]
  by_cases heq : c.toNat = s
  · subst heq
    simp [Huffman.freqAt, Huffman.count, hc]
  · have hne : c ≠ BitVec.ofNat 8 s := fun h => heq (by
      unfold Config.alphabet at hs
      rw [h, BitVec.toNat_ofNat]
      omega)
    simp [Huffman.freqAt, Huffman.count, List.getElem?_set_ne heq, hne]

/-- What `analyze` changes of the Huffman state. -/
def Huffman.Recounted (g g' : Huffman) : Prop := g' = { g with freq := g'.freq }

/-- The loop of `analyze` counts all the bytes to come. -/
theorem Engine.Reads.analyzeLoop {fuel o : Nat} {pre : Bytes} (h : e.Reads r n (bitsOf bs)) (hc : e.huff.Counts pre)
    (hf : bs.length < fuel) :
    Ends (analyzeLoop fuel o) e
      (fun v e' => v = o + bs.length ∧ e.ReadKept e' ∧ e'.Reads r n [] ∧ e'.huff.Counts (pre ++ bs) ∧ e.huff.Recounted e'.huff)
      fun _ _ => False := by
  induction fuel generalizing e bs pre o with
  | zero => exact absurd hf (Nat.not_lt_zero _)
  | succ fuel ih =>
    rw [Machine.analyzeLoop, ends_bind]
    refine h.readByte_bytes.mono (fun v e1 h1 => ?_) fun _ _ hs => hs
    obtain ⟨rfl, hk1, hr1⟩ := h1
    cases bs with
    | nil => exact ⟨rfl, hk1.readKept, hr1, by rw [hk1.huff, List.append_nil]; exact hc, by rw [hk1.huff]; rfl⟩
    | cons c bs =>
      simp only [List.head?_cons, List.tail_cons, updateHuff, ends_bind, ends_update] at hr1 ⊢
      have hc1 : (e1.huff.count c).Counts (pre ++ [c]) := by rw [hk1.huff]; exact hc.count c
      refine (ih (e := { e1 with huff := e1.huff.count c }) (o := o + 1) (hr1.congr rfl rfl rfl) hc1 (Nat.lt_of_succ_lt_succ hf)).mono
        (fun v e2 h2 => ?_) fun _ _ hs => hs
      obtain ⟨rfl, hk2, hr2, hc2, hg2⟩ := h2
      rw [List.append_assoc] at hc2
      refine ⟨by rw [List.length_cons]; omega, (hk1.readKept.trans (e1.readKept_huff _)).trans hk2, hr2, hc2, ?_⟩
      rw [Huffman.Recounted] at hg2 ⊢
      rw [hg2, hk1.huff]
      rfl

/-! ## Rewinding -/

/-- The engine after SSeek(h, 0) and in_init of the handle: it stood at `k` in the file `r` (R77, R122). -/
def Engine.rewound (e : Engine) (h : Handle) (r : FileRef) (k : Nat) (i : InStream) : Engine :=
  { e with inp := i, storage := e.storage.setPos h ⟨r, false, k⟩ 0, draws := e.draws.next }

theorem ends_rewind {α : Type} {h : Handle} {k limit : Nat} {f : Eng α} {Q : α → Engine → Prop} (ho : e.draws.obliging)
    (hh : lookup e.storage.handles h = some ⟨r, false, k⟩)
    (hf : ∀ i : InStream, i.h = h →
      (e.rewound h r k i).Reads r (BitVec.ofNat 64 (8 * ((e.storage.content r).take limit).length))
        (bitsOf ((e.storage.content r).take limit)) → Ends f (e.rewound h r k i) Q fun _ _ => False) :
    Ends (do sSeek h 0; inInit h limit; f) e Q fun _ _ => False := by
  rw [ends_bind, ends_sSeek_open ho hh, ends_bind]
  refine ends_inInit_reads limit ho.next (r := r) (k := 0) (lookup_replaceAt_self _ _ _ (by rw [hh]; rfl)) fun i hi hr => ?_
  simp only [Storage.dataAt, Storage.content_setPos, List.drop_zero] at hr
  exact hf i hi hr

/-- Rewinding the file being read is reading. -/
theorem Engine.inKept_rewound {h : Handle} {k : Nat} {i : InStream} (he : e.inp.h = h) (hi : i.h = h) :
    e.InKept (e.rewound h r k i) where
  statmem := rfl
  out := rfl
  huff := rfl
  crcReg := rfl
  work := rfl
  inH := hi.trans he.symm
  nows := rfl
  free := rfl
  obliging := fun ho => ho.next
  fs := rfl
  temps := rfl
  nextId := rfl
  handles := fun _ hj => lookup_replaceAt_other _ _ (he ▸ hj)
  keys := replaceAt_keys _ _ _

/-- The input is read from its start on, before the output begins. -/
theorem Pipe.Opened.rewind {α : Type} {limit : Nat} {f : Eng α} {Q : α → Engine → Prop} (h : P.Opened e)
    (hf : ∀ e', P.Step e e' → P.Opened e' → e'.inp.h = P.src →
      e'.Reads P.inRef (BitVec.ofNat 64 (8 * ((e.storage.content P.inRef).take limit).length))
        (bitsOf ((e.storage.content P.inRef).take limit)) → Ends f e' Q fun _ _ => False) :
    Ends (do sSeek P.src 0; inInit P.src limit; f) e Q fun _ _ => False := by
  obtain ⟨k, hsrc⟩ := h.src
  have hinp : P.Kept e { e with inp := { e.inp with h := P.src } } := P.kept_streams e _ e.out e.huff
  have hopen : P.Opened { e with inp := { e.inp with h := P.src } } := h.streams _ e.out e.huff
  refine ends_rewind h.obliging hsrc fun i hi hr => ?_
  have hk : Engine.InKept { e with inp := { e.inp with h := P.src } } (e.rewound P.src P.inRef k i) :=
    Engine.inKept_rewound (e := { e with inp := { e.inp with h := P.src } }) rfl hi
  exact hf _ ⟨hinp.trans (hk.readKept.pipeKept rfl), rfl⟩ (hopen.read hk.readKept rfl hr) hi hr

/-- The input is read from its start on, while the output is written. -/
theorem Pipe.Runs.rewind {α : Type} {limit : Nat} {f : Eng α} {Q : α → Engine → Prop} (h : P.Runs n b ob e)
    (hf : ∀ e', P.Step e e' →
      P.Runs (BitVec.ofNat 64 (8 * ((e.storage.content P.inRef).take limit).length))
        (bitsOf ((e.storage.content P.inRef).take limit)) ob e' → Ends f e' Q fun _ _ => False) :
    Ends (do sSeek P.src 0; inInit P.src limit; f) e Q fun _ _ => False := by
  obtain ⟨k, hsrc⟩ := h.reads.handle
  rw [h.inH] at hsrc
  refine ends_rewind h.reads.obliging hsrc fun i hi hr => ?_
  have hk := Engine.inKept_rewound (r := P.inRef) (k := k) h.inH hi
  exact hf _ ⟨hk.readKept.pipeKept h.inH, rfl⟩ (h.read hk hr)

/-! ## Writing (R173, R175) -/

theorem Pipe.Runs.writeByte (h : P.Runs n b ob e) (c : Byte) (hmax : P.start + ((ob ++ byteBits c).length + 7) / 8 ≤ Config.fileMax) :
    Ends (writeByte c) e (fun _ e' => P.Step e e' ∧ P.Runs n b (ob ++ byteBits c) e') fun _ _ => False :=
  h.writeBits (byteBits c) hmax

/-- `ser` writes the bits of the tree that stands at the node (R173). -/
theorem Pipe.Runs.serNode {fuel lo hi x : Nat} (h : P.Runs n b ob e) (ht : e.huff.Holds lo hi t x) (hf : t.size ≤ fuel)
    (hmax : P.start + ((ob ++ t.bits).length + 7) / 8 ≤ Config.fileMax) :
    Ends (serNode fuel x) e (fun _ e' => P.Step e e' ∧ P.Runs n b (ob ++ t.bits) e') fun _ _ => False := by
  induction t generalizing fuel x e ob with
  | leaf s =>
    obtain ⟨fuel, rfl⟩ := Nat.exists_eq_add_of_le' hf
    obtain ⟨-, -, f, hx⟩ := ht
    have hbits : ob ++ (Tree.leaf s).bits = (ob ++ [true]) ++ byteBits s := by simp [Tree.bits]
    rw [hbits] at hmax ⊢
    show Ends (Machine.serNode (fuel + 1) x) _ _ _
    rw [Machine.serNode, ends_bind, ends_look, hx]
    simp only [ends_bind]
    refine (h.writeBit true (by simp only [List.length_append] at hmax ⊢; omega)).mono (fun _ e1 h1 => ?_) fun _ _ hs => hs
    exact (h1.2.writeByte s hmax).mono (fun _ e2 h2 => ⟨h1.1.trans h2.1, h2.2⟩) fun _ _ hs => hs
  | node l r ihl ihr =>
    obtain ⟨fuel, rfl⟩ := Nat.exists_eq_add_of_le' hf
    obtain ⟨-, -, f, i, j, hx, hl, hr⟩ := ht
    have hbits : ob ++ (Tree.node l r).bits = ((ob ++ [false]) ++ l.bits) ++ r.bits := by simp [Tree.bits]
    rw [hbits] at hmax ⊢
    have hlen : ((ob ++ [false]) ++ l.bits).length ≤ ((ob ++ [false] ++ l.bits) ++ r.bits).length := by simp
    rw [Tree.size, ← Nat.add_assoc, Machine.serNode, ends_bind, ends_look, hx]
    simp only [ends_bind]
    refine (h.writeBit false (by simp only [List.length_append] at hmax hlen ⊢; omega)).mono (fun _ e1 h1 => ?_) fun _ _ hs => hs
    obtain ⟨hk1, hr1⟩ := h1
    refine (ihl hr1 (hl.of_node (by rw [hk1.2])) (by omega) (by omega)).mono (fun _ e2 h2 => ?_) fun _ _ hs => hs
    obtain ⟨hk2, hr2⟩ := h2
    have hk := hk1.trans hk2
    refine (ihr hr2 (hr.of_node (by rw [hk.2])) (by omega) hmax).mono (fun _ e3 h3 => ?_) fun _ _ hs => hs
    exact ⟨hk.trans h3.1, h3.2⟩

/-- The loop of emit_payload writes the codes of the bytes to come (R175). -/
theorem Pipe.Runs.payloadLoop (h : P.Runs n (bitsOf bs) ob e) (hc : ∀ s ∈ bs, e.huff.HasCode s (t.code s))
    (hlen : ∀ s ∈ bs, 0 < (t.code s).length ∧ (t.code s).length ≤ 64)
    (hmax : P.start + ((ob ++ bs.flatMap t.code).length + 7) / 8 ≤ Config.fileMax) :
    Ends (payloadLoop bs.length) e (fun _ e' => P.Step e e' ∧ P.Runs n [] (ob ++ bs.flatMap t.code) e') fun _ _ => False := by
  induction bs generalizing e ob with
  | nil => exact ⟨.refl P e, by simpa using h⟩
  | cons c bs ih =>
    rw [List.length_cons, Machine.payloadLoop, ends_bind]
    refine h.readByte_bytes.mono (fun v e1 h1 => ?_) fun _ _ hs => hs
    obtain ⟨rfl, hk1, hr1⟩ := h1
    obtain ⟨hpos, hle⟩ := hlen c List.mem_cons_self
    have hcode : e1.huff.HasCode c (t.code c) := hk1.2 ▸ hc c List.mem_cons_self
    rw [List.head?_cons, ends_bind, ends_orRaise_some, ends_bind, ends_look, ends_bind, ends_check, hcode.len, hcode.code_eq hle]
    refine ⟨fun _ => ?_, fun hz => absurd hz (by simpa using Nat.ne_of_gt hpos)⟩
    rw [List.flatMap_cons, ← List.append_assoc] at hmax ⊢
    rw [ends_bind]
    refine (hr1.writeBits (t.code c) (by simp only [List.length_append] at hmax ⊢; omega)).mono (fun _ e2 h2 => ?_) fun _ _ hs => hs
    obtain ⟨hk2, hr2⟩ := h2
    have hk := hk1.trans hk2
    refine (ih hr2 (fun s hs => hk.2 ▸ hc s (List.mem_cons_of_mem _ hs)) (fun s hs => hlen s (List.mem_cons_of_mem _ hs)) hmax).mono
      (fun _ e3 h3 => ?_) fun _ _ hs => hs
    exact ⟨hk.trans h3.1, h3.2⟩

/-! ## encode (R176) -/

/-- analyze counts the input's bytes (R166). -/
theorem Pipe.Opened.analyze (h : P.Opened e) (hin : e.storage.content P.inRef = S) :
    Ends (analyze P.src S.length) e
      (fun v e' => v = S.length ∧ P.Kept e e' ∧ P.Opened e' ∧ e'.inp.h = P.src ∧ (∃ n, e'.Reads P.inRef n []) ∧ e'.huff.Counts S ∧
        e'.huff.node = e.huff.node ∧ e'.huff.heap = e.huff.heap)
      fun _ _ => False := by
  rw [Machine.analyze, updateHuff, ends_bind, ends_update]
  obtain ⟨e1, he1⟩ : ∃ e1, e1 = { e with huff := { e.huff with freq := List.replicate Config.alphabet 0 } } := ⟨_, rfl⟩
  have hk1 : P.Kept e e1 := he1 ▸ P.kept_streams e e.inp e.out _
  have hopen1 : P.Opened e1 := he1 ▸ h.streams e.inp e.out _
  have hcount1 : e1.huff.Counts [] := by rw [he1]; exact Huffman.counts_nil _
  have hin1 : e1.storage.content P.inRef = S := by rw [he1]; exact hin
  have hnode1 : e1.huff.node = e.huff.node ∧ e1.huff.heap = e.huff.heap := by rw [he1]; exact ⟨rfl, rfl⟩
  rw [← he1]
  refine hopen1.rewind fun e2 hk2 hopen2 hi2 hr2 => ?_
  rw [hin1, List.take_length] at hr2
  refine (hr2.analyzeLoop (o := 0) (hk2.2 ▸ hcount1) (Nat.lt_succ_self _)).mono (fun v e3 h3 => ?_) fun _ _ hs => hs
  obtain ⟨rfl, hk3, hr3, hcount3, hrec⟩ := h3
  rw [Huffman.Recounted, hk2.2] at hrec
  rw [hrec]
  exact ⟨Nat.zero_add _, (hk1.trans hk2.1).trans (hk3.pipeKept hi2), hopen2.read hk3 hi2 hr3, hk3.inH.trans hi2, ⟨_, hr3⟩, hrec ▸ hcount3,
    hnode1⟩

/-- The arena holds the file's tree at ROOT, and the tables the codes of the file's symbols. -/
structure Huffman.Encodes (g : Huffman) (S : Bytes) : Prop where
  none  : huffTree S = none → g.root = none
  tree  : ∀ t, huffTree S = some t → ∃ x n, g.root = some x ∧ g.Holds 0 n t x
  codes : ∀ t, huffTree S = some t → ∀ s ∈ S, g.HasCode s (t.code s)

/-- build_tree and build_codes, after the file was counted (R168, R170). -/
theorem ends_build {α : Type} {f : Eng α} {Q : α → Engine → Prop} (hlen : S.length ≤ Config.maxOrig) (hc : e.huff.Counts S)
    (hheap : e.huff.heap.length = Config.heapCap) (hnode : e.huff.node.length = Config.nodeCap)
    (hf : ∀ g : Huffman, g.Encodes S → Ends f { e with huff := g } Q fun _ _ => False) :
    Ends (do buildTree; buildCodes; f) e Q fun _ _ => False := by
  rw [ends_bind]
  refine (ends_buildTree hheap hnode hc.2).mono (fun _ e1 h1 => ?_) fun _ _ hs => hs
  obtain ⟨g1, rfl, -, hnone, hsome⟩ := h1
  rw [ends_bind]
  cases ht : huffTree S with
  | none =>
    rw [ends_buildCodes_none (e := { e with huff := g1 }) (hnone ht)]
    exact hf _ ⟨fun _ => hnone ht, fun t h => absurd (ht.symm.trans h) (by simp), fun t h => absurd (ht.symm.trans h) (by simp)⟩
  | some t =>
    obtain ⟨x, n, hroot, hholds⟩ := hsome t ht
    refine (ends_buildCodes (e := { e with huff := g1 }) hroot hholds (huffTree_nodup ht) fun s p hp =>
      Nat.le_trans (huffTree_depth_le ht hlen hp) (by decide)).mono (fun _ e2 h2 => ?_) fun _ _ hs => hs
    obtain ⟨g2, rfl, hnode2, hroot2, hcodes⟩ := h2
    refine hf g2 ⟨fun h => absurd (ht.symm.trans h) (by simp), fun t' h => ?_, fun t' h s hs => ?_⟩ <;>
      obtain rfl := Option.some.inj (ht.symm.trans h)
    · exact ⟨x, n, hroot2.trans hroot, hholds.of_node hnode2⟩
    · exact hcodes s ((mem_huffTree_syms ht).2 hs)

/-- The tree's bits and the codes of the bytes are written: the bits of the block (R173, R175). -/
theorem Pipe.Runs.emit (h : P.Runs n b [] e) (hin : e.storage.content P.inRef = S) (hlen : S.length ≤ Config.maxOrig)
    (hg : e.huff.Encodes S) (hmax : P.start + (blockOf S).length ≤ Config.fileMax) {α : Type} {f : Eng α} {Q : α → Engine → Prop}
    (hf : ∀ e' n' ob, P.Step e e' → P.Runs n' [] ob e' → pack ob = blockOf S → Ends f e' Q fun _ _ => False) :
    Ends (do serializeTree; emitPayload P.src S.length; f) e Q fun _ _ => False := by
  rw [ends_bind, serializeTree, ends_bind, ends_look]
  simp only [emitPayload, bind_assoc]
  cases ht : huffTree S with
  | none =>
    obtain rfl := huffTree_eq_none_iff.1 ht
    simp only [hg.none ht, ends_pure]
    refine h.rewind fun e1 hk1 hr1 => ?_
    rw [ends_bind]
    exact hf e1 _ _ hk1 (by simpa using hr1) (by rw [blockOf_nil]; rfl)
  | some t =>
    obtain ⟨x, m, hroot, hholds⟩ := hg.tree t ht
    rw [blockOf_of_tree ht, pack_length, blockBits] at hmax
    simp only [hroot]
    refine (h.serNode hholds (huffTree_size_le ht) (by simp only [List.length_append, List.nil_append] at hmax ⊢; omega)).mono
      (fun _ e1 h1 => ?_) fun _ _ hs => hs
    obtain ⟨hk1, hr1⟩ := h1
    refine hr1.rewind fun e2 hk2 hr2 => ?_
    rw [hk1.1.content _ P.files, hin, List.take_length] at hr2
    have hk := hk1.trans hk2
    rw [ends_bind]
    refine (hr2.payloadLoop (t := t) (fun s hs => hk.2 ▸ hg.codes t ht s hs) (fun s hs => ?_) (by simpa using hmax)).mono
      (fun _ e3 h3 => ?_) fun _ _ hs => hs
    · obtain ⟨⟨hpos, hle⟩, -⟩ := codesArePrefixFree S t hlen ht s hs
      omega
    · exact hf e3 _ _ (hk.trans h3.1) h3.2 (by rw [blockOf_of_tree ht, blockBits]; simp)

/-- `encode`: the file's block is the output (R176). -/
theorem Pipe.Opened.encodeFile (h : P.Opened e) (hin : e.storage.content P.inRef = S) (hlen : S.length ≤ Config.maxOrig)
    (hheap : e.huff.heap.length = Config.heapCap) (hnode : e.huff.node.length = Config.nodeCap)
    (hmax : P.start + (blockOf S).length ≤ Config.fileMax) :
    Ends (encodeFile P.src P.dst S.length) e
      (fun v e' => v = (S.length, (blockOf S).length) ∧ P.Kept e e' ∧ P.Wrote (blockOf S) e') fun _ _ => False := by
  rw [Machine.encodeFile, ends_bind]
  refine (h.analyze hin).mono (fun v e1 h1 => ?_) fun _ _ hs => hs
  obtain ⟨rfl, hk1, hopen1, hi1, ⟨n1, hr1⟩, hcount, hnode1, hheap1⟩ := h1
  refine ends_build hlen hcount (by rw [hheap1]; exact hheap) (by rw [hnode1]; exact hnode) fun g hg => ?_
  rw [ends_bind]
  refine ((hopen1.streams e1.inp e1.out g).outInit (hr1.congr rfl rfl rfl) hi1).mono (fun _ e2 h2 => ?_) fun _ _ hs => hs
  obtain ⟨hk2, hr2⟩ := h2
  have hkept2 : P.Kept e e2 := (hk1.trans (P.kept_streams e1 e1.inp e1.out g)).trans hk2.1
  refine hr2.emit ((hkept2.content _ P.files).trans hin) hlen (hk2.2 ▸ hg) hmax fun e3 n3 ob hk3 hr3 hpack => ?_
  have hbytes : (ob.length + 7) / 8 = (blockOf S).length := by rw [← hpack, pack_length]
  rw [ends_bind]
  refine (hr3.flush (by rw [hbytes]; exact hmax)).mono (fun _ e4 h4 => ?_) fun _ _ hs => hs
  obtain ⟨hk4, -, hw, htotal⟩ := h4
  rw [hpack] at hw htotal
  exact ⟨congrArg (Prod.mk S.length) htotal, (hkept2.trans hk3.1).trans hk4.1, hw⟩

end Sys2Proof.Machine
end

section
/-! PROOFS. ENCODE (R185). -/

namespace Sys2Proof.Machine

variable {e e1 : Engine} {p0 p1 : Path} {c : Bytes} {s : State}

/-- The size of the input, once it is open (R185). -/
theorem Engine.InputOpen.ends_size {α : Type} {x : Nat → Eng α} {Q : α → Engine → Prop} {R : Stop → Engine → Prop}
    (h : e.InputOpen p0 e1) (hr : e.ready) (hc : fsGet e.storage.fs p0 = some c)
    (hx : ∀ e2, e.InputOpen p0 e2 → Ends (x c.length) e2 Q R) : Ends (Machine.reg .f >>= fun k => sSize k >>= x) e1 Q R := by
  obtain ⟨ho, hst, hreg, hh, hs⟩ := h
  have hlook : lookup e1.storage.handles e.storage.nextId = some ⟨.named p0, false, 0⟩ := by
    simp [hst, Storage.openedRead, Storage.addHandle, Engine.handles_of_atRest hr.1, lookup]
  have hcontent : e1.storage.content (.named p0) = c := by
    rw [hst, Storage.content]
    show (fsGet e.storage.fs p0).getD [] = c
    rw [hc, Option.getD_some]
  rw [ends_bind, ends_reg, hreg, Option.getD_some, ends_bind, ends_sSize_open ho hlook, hcontent]
  exact hx _ ⟨ho.next, hst, hreg, hh, hs⟩

/-- ENCODE's body on a file no longer than MAX_ORIG (R185). -/
theorem ends_bodyEncode (hr : e.ready) (ho : e.draws.obliging) (hf : twoFiles s = some (p0, p1)) (hne : p0 ≠ p1)
    (hc : fsGet e.storage.fs p0 = some c) (hlen : c.length ≤ Config.maxOrig) :
    Ends (bodyEncode s) e
      (fun rep e' => rep = success (BitVec.ofNat 32 (blockOf c).length) (BitVec.ofNat 32 c.length) ∧
        e'.Shows (fsPut e.storage.fs p1 (blockOf c)) [])
      fun _ _ => False := by
  have hin := Engine.inputOpen_withInput ho p0
  rw [bodyEncode, hf, ends_bind, ends_orRaise_some, ends_openInput ho (by simp [hc])]
  refine hin.ends_size hr hc fun e2 hin2 => ?_
  have hstands := hin2.stands hr hne hc
  rw [ends_bind, ends_check]
  refine ⟨fun _ => ?_, fun hlong => absurd hlen (by simpa using hlong)⟩
  rw [ends_openOutput hin2.obliging, ends_bind, ends_reg, hstands.regF, ends_bind, ends_reg, hstands.regG, ends_bind]
  have hfits : 0 + (blockOf c).length ≤ Config.fileMax := by
    have hblock := blockSizeBound c
    unfold Config.maxOrig Config.fileMax at *
    omega
  have henc := hstands.opened.encodeFile hstands.input hlen hstands.heap hstands.node hfits
  refine (ends_and henc ((Quiet.encodeFile _ _ _).confined _ hstands.confined)).mono (fun v e3 h3 => ?_) fun _ _ hs => hs.1.elim
  obtain ⟨⟨rfl, hkept, hwrote⟩, hconf⟩ := h3
  exact ⟨rfl, hwrote.shows hconf (hkept.statmem.trans hstands.statmem)⟩

/-- ENCODE's body on a longer file opens no output (R185). -/
theorem bodyEncode_of_too_large (hr : e.ready) (ho : e.draws.obliging) (hf : twoFiles s = some (p0, p1))
    (hc : fsGet e.storage.fs p0 = some c) (hlen : Config.maxOrig < c.length) :
    Ends (bodyEncode s) e (fun _ _ => False) fun st e' => st = .error .tooLarge 0 0 ∧ e'.Shows e.storage.fs [] := by
  have hin := Engine.inputOpen_withInput ho p0
  rw [bodyEncode, hf, ends_bind, ends_orRaise_some, ends_openInput ho (by simp [hc])]
  refine hin.ends_size hr hc fun e2 hin2 => ?_
  rw [ends_bind, ends_check]
  refine ⟨fun hshort => absurd hlen (by simpa using hshort), fun _ => ⟨rfl, ?_⟩⟩
  obtain ⟨ho2, hst, -, -, hs⟩ := hin2
  obtain ⟨-, -, hstat, -, -⟩ := hr
  exact ⟨by rw [hst]; rfl, hs.trans hstat, ho2.1, ho2.2.2⟩

/-- Settles O47: the body opens the input and takes its size; the output is opened where the size allows it, and the encoder writes the
file's block. -/
theorem encodeWritesTheBlock : Obligations.EncodeWritesTheBlock := by
  intro s p0 p1 c hs hf hc
  obtain ⟨hready, ho, hduties⟩ := hs
  refine ⟨fun hlen => ?_, fun hlen => ?_⟩
  · refine gives_of_reporting hready.1 hduties (by decide) (m := []) (fun _ => rfl) ((ends_reporting _ _).2 ?_)
    exact (ends_bodyEncode hready ho hf (files_ne_of_duties hduties hf) hc hlen).mono (fun _ _ h => h) fun _ _ hs => hs.elim
  · exact gives_of_error hready.1 hduties (by decide) (bodyEncode_of_too_large hready ho hf hc hlen)

end Sys2Proof.Machine
end
